-- ==== Sys2Proof/Word.lean ====
section
/-!
DEFINITION. The words of the link sequencer (00_scope.md R7, R10): bytes, 16-bit addresses and lengths, 32-bit counts,
and the two halves `hi8` and `lo8` of a 16-bit word.
-/

namespace Sys2Proof

/-- One byte, the unit of every wire exchange (R7). -/
abbrev Byte := BitVec 8

/-- A u16: an address or a length of a wire frame, a checksum, an EEPROM word (R7). -/
abbrev U16 := BitVec 16

/-- A u32: a ROM bank count or a RAM size (R7). -/
abbrev U32 := BitVec 32

/-- `hi8(a) = a[15:8]` (R10). -/
def hi8 (a : U16) : Byte := a.extractLsb' 8 8

/-- `lo8(a) = a[7:0]` (R10). -/
def lo8 (a : U16) : Byte := a.extractLsb' 0 8

/-- `(hi << 8) | lo`, the u16 of two bytes in big-endian order (R84, R85). -/
def join16 (hi lo : Byte) : U16 := hi ++ lo

end Sys2Proof
end

