-- ==== Sys2Proof/Config.lean ====
section
/-!
DEFINITION. Configuration: the fixed parameters of 00_scope.md R8, the nine variants of R2 and R37, and the named
parameters of R9 as one record of plain data with the spec's defaults. The values marked "gk" in the spec are its
general-knowledge defaults (93 Part 2, G1 to G14); a model may replace them, so every rule reads them from the record.
-/

namespace Sys2Proof

/-- The nine controller variants, a closed enumeration (R2, R37). -/
inductive Variant where
  | base | mbc1 | mbc2 | mbc3 | mbc5 | mbc6 | mbc7 | camera | tama5
  deriving DecidableEq, Repr

/-- One control write `(address, value)`: the frame `W(a, v)` of 42_bank_select.md. -/
structure CtrlWrite where
  addr : U16
  value : Byte
  deriving DecidableEq, Repr

/-- One step of the EEPROM init sequence EE_INIT: a control write, or one shifted bit (R334). -/
inductive EeInitStep where
  | write (w : CtrlWrite)
  | shift (bit : Bool)
  deriving DecidableEq, Repr

/-- CHUNK_HASH, the content hash by which `read_ec` compares two reads (R173, D6): the identity by default, or one of
any number of other hashes, named by a number (log 11). -/
inductive ChunkHash where
  | identity
  | other (k : Nat)
  deriving DecidableEq, Repr

namespace Config

/-! ### Fixed parameters (R8) -/

/-- HS_PROBE: the handshake probe byte. -/
def hsProbe : Byte := 0x9A
/-- HS_MAGIC1: the answer that ends phase 1. -/
def hsMagic1 : Byte := 0xB4
/-- HS_MAGIC2: the answer that ends phase 2. -/
def hsMagic2 : Byte := 0x1D
/-- HS_LIMIT: probes per handshake phase. -/
def hsLimit : Nat := 100
/-- HDR_LEN: bytes of the header. -/
def hdrLen : Nat := 21
/-- HDR_TERM: the two terminator bytes after the header. -/
def hdrTerm0 : Byte := 0x00
/-- HDR_TERM: the second terminator byte. -/
def hdrTerm1 : Byte := 0xFF
/-- OP_READ: first byte of a READ frame. -/
def opRead : Byte := 0x59
/-- OP_WRITE: first byte of a WRITE frame. -/
def opWrite : Byte := 0x49
/-- EC_CHUNK: bytes of one `read_ec` chunk. -/
def ecChunk : Nat := 0x800
/-- ROM_BANK_SIZE: 16 KiB. -/
def romBankSize : Nat := 0x4000
/-- ROM_WIN0: the fixed ROM window. -/
def romWin0 : Nat := 0x0000
/-- ROM_WINX: the switched ROM window. -/
def romWinX : Nat := 0x4000
/-- RAM_WIN: the cartridge RAM window. -/
def ramWin : Nat := 0xA000
/-- RAM_DUMP_WINDOW: bytes of one RAM dump window. -/
def ramDumpWindow : Nat := 0x800
/-- RAM_BANK_SIZE: bytes of one RAM bank. -/
def ramBankSize : Nat := 0x2000
/-- TAMA5_UNLOCK_LIMIT: polls of the unlock. -/
def tama5UnlockLimit : Nat := 200
/-- MBC2_RAM_IMAGE: bytes of an MBC2 RAM image. -/
def mbc2RamImage : Nat := 256
/-- MBC7_RAM_IMAGE: bytes of an MBC7 RAM image. -/
def mbc7RamImage : Nat := 256
/-- TAMA5_RAM_IMAGE: bytes of a TAMA5 RAM image. -/
def tama5RamImage : Nat := 32
/-- CAMERA_SENSOR_BANK: the RAM bank of the camera's sensor registers. -/
def cameraSensorBank : Nat := 0x10
/-- RTC_BANK_BASE: the RAM bank of RTC register 0. -/
def rtcBankBase : Nat := 8

/-! ### Free values (no body: nothing can be proved of them) -/

/-- CAMERA_POLL_LIMIT is OPEN, a natural number of at least 1 (R9, R372): at reset it is this free value plus 1. -/
opaque freeCameraPolls : Nat

/-- EEPROM_WAIT_LIMIT is OPEN, a natural number of at least 1 (R9, R344): at reset it is this free value plus 1. -/
opaque freeEepromPolls : Nat

/-- A content hash other than the identity (R173, D6; log 11): uninterpreted. -/
opaque freeChunkHash : Nat → List Byte → List Byte

end Config

/-- The content hash of a byte list (R173). -/
def ChunkHash.apply : ChunkHash → List Byte → List Byte
  | .identity, bs => bs
  | .other k, bs => Config.freeChunkHash k bs

/-- The named parameters of R9, "fixed for the run; not changed by any operation" (R460). SETTLE_DELAY and PHASE2_DELAY
are not modelled (R470, R471). -/
structure Params where
  /-- FILL_BYTE (D2): sent while receiving. -/
  fillByte : Byte
  /-- CHUNK_HASH (D6). -/
  chunkHash : ChunkHash
  /-- WRITE_EC_LIMIT (D9): `none` is unbounded. -/
  writeEcLimit : Option Nat
  /-- CAMERA_POLL_LIMIT (D25): OPEN, at least 1. -/
  cameraPollLimit : Nat
  /-- EEPROM_WAIT_LIMIT (D21): OPEN, at least 1. -/
  eepromWaitLimit : Nat
  /-- CART_TYPE_MAP (D33): an absent code is `none`. -/
  cartTypeMap : List (Byte × Variant)
  /-- RAM_ENABLE_SEQ (D28): an absent variant has no writes. -/
  ramEnableSeq : List (Variant × List CtrlWrite)
  /-- MBC1_MODE_VALUE (D12). -/
  mbc1ModeValue : Byte
  /-- MBC6_ROM_SEL (D17). -/
  mbc6RomSel : U16
  /-- MBC6_ROM_BLOCK (D17). -/
  mbc6RomBlock : Nat
  /-- MBC6_RAM_SEL (D17). -/
  mbc6RamSel : U16
  /-- MBC6_RAM_BANK (D17). -/
  mbc6RamBank : Nat
  /-- EE_REG (D18). -/
  eeReg : U16
  /-- EE_CS (D18). -/
  eeCs : Byte
  /-- EE_CLK (D18). -/
  eeClk : Byte
  /-- EE_DI (D18). -/
  eeDi : Byte
  /-- EE_DO (D18). -/
  eeDo : Byte
  /-- EE_INIT (D19). -/
  eeInit : List EeInitStep
  /-- EE_OPC_READ (D19). -/
  eeOpcRead : BitVec 2
  /-- EE_OPC_WRITE (D19). -/
  eeOpcWrite : BitVec 2
  /-- EE_OPC_ERASE (D19). -/
  eeOpcErase : BitVec 2
  /-- EE_SUB_EWEN (D19). -/
  eeSubEwen : BitVec 2
  /-- EE_SUB_EWDS (D19). -/
  eeSubEwds : BitVec 2
  /-- EE_SUB_ERAL (D19). -/
  eeSubEral : BitVec 2
  /-- EE_SUB_WRAL (D19). -/
  eeSubWral : BitVec 2
  /-- EE_WAIT_PRELUDE (D21). -/
  eeWaitPrelude : List CtrlWrite
  /-- ACCEL_LATCH1 and its value (D24). -/
  accelLatch1 : CtrlWrite
  /-- ACCEL_LATCH2 and its value (D24). -/
  accelLatch2 : CtrlWrite
  /-- ACCEL_XL (D24). -/
  accelXl : U16
  /-- ACCEL_XH (D24). -/
  accelXh : U16
  /-- ACCEL_YL (D24). -/
  accelYl : U16
  /-- ACCEL_YH (D24). -/
  accelYh : U16
  /-- CAMERA_TRIGGER (D25). -/
  cameraTrigger : Byte
  /-- TAMA5_SEL (D26). -/
  tama5Sel : U16
  /-- TAMA5_DATA (D26). -/
  tama5Data : U16
  /-- TAMA5_REG_ROM_LO (D26). -/
  tama5RegRomLo : BitVec 4
  /-- TAMA5_REG_ROM_HI (D26). -/
  tama5RegRomHi : BitVec 4
  /-- TAMA5_REG_WR_LO (D26). -/
  tama5RegWrLo : BitVec 4
  /-- TAMA5_REG_WR_HI (D26). -/
  tama5RegWrHi : BitVec 4
  /-- TAMA5_REG_CMD (D26). -/
  tama5RegCmd : BitVec 4
  /-- TAMA5_REG_ADDR_LO (D26). -/
  tama5RegAddrLo : BitVec 4
  /-- TAMA5_REG_ACTIVE (D26). -/
  tama5RegActive : BitVec 4
  /-- TAMA5_REG_RD_LO (D26). -/
  tama5RegRdLo : BitVec 4
  /-- TAMA5_REG_RD_HI (D26). -/
  tama5RegRdHi : BitVec 4
  /-- TAMA5_CMD_WRITE (D26), bits 3..1 of the command register. -/
  tama5CmdWrite : BitVec 3
  /-- TAMA5_CMD_READ (D26), bits 3..1 of the command register. -/
  tama5CmdRead : BitVec 3
  deriving DecidableEq, Repr

namespace Config

/-- The default CART_TYPE_MAP (R201): 0x13 is the source's, the rest general knowledge (G1). -/
def cartTypeMap : List (Byte × Variant) :=
  [(0x00, .base), (0x08, .base), (0x09, .base), (0x01, .mbc1), (0x02, .mbc1), (0x03, .mbc1), (0x05, .mbc2), (0x06, .mbc2)] ++
  [(0x0F, .mbc3), (0x10, .mbc3), (0x11, .mbc3), (0x12, .mbc3), (0x13, .mbc3)] ++
  [(0x19, .mbc5), (0x1A, .mbc5), (0x1B, .mbc5), (0x1C, .mbc5), (0x1D, .mbc5), (0x1E, .mbc5)] ++
  [(0x20, .mbc6), (0x22, .mbc7), (0xFC, .camera), (0xFD, .tama5)]

/-- The default RAM_ENABLE_SEQ (R250), general knowledge (G2). -/
def ramEnableSeq : List (Variant × List CtrlWrite) :=
  [(.base, [⟨0x0000, 0x0A⟩]), (.mbc1, [⟨0x0000, 0x0A⟩]), (.mbc2, [⟨0x0000, 0x0A⟩]), (.mbc3, [⟨0x0000, 0x0A⟩]),
   (.mbc5, [⟨0x0000, 0x0A⟩]), (.mbc6, [⟨0x0000, 0x0A⟩]), (.mbc7, [⟨0x0000, 0x0A⟩, ⟨0x4000, 0x40⟩]),
   (.camera, [⟨0x0000, 0x0A⟩]), (.tama5, [])]

end Config

/-- The defaults of R9; the two OPEN limits are arguments. -/
def Params.default (cameraPolls eepromPolls : Nat) : Params where
  fillByte := 0x00
  chunkHash := .identity
  writeEcLimit := none
  cameraPollLimit := cameraPolls
  eepromWaitLimit := eepromPolls
  cartTypeMap := Config.cartTypeMap
  ramEnableSeq := Config.ramEnableSeq
  mbc1ModeValue := 0x01
  mbc6RomSel := 0x2000
  mbc6RomBlock := 0x2000
  mbc6RamSel := 0x0400
  mbc6RamBank := 0x1000
  eeReg := 0xA080
  eeCs := 0x80
  eeClk := 0x40
  eeDi := 0x02
  eeDo := 0x01
  eeInit := [.write ⟨0xA080, 0x00⟩, .write ⟨0xA080, 0x80⟩, .shift true]
  eeOpcRead := 0b10
  eeOpcWrite := 0b01
  eeOpcErase := 0b11
  eeSubEwen := 0b11
  eeSubEwds := 0b00
  eeSubEral := 0b10
  eeSubWral := 0b01
  eeWaitPrelude := [⟨0xA080, 0x00⟩, ⟨0xA080, 0x80⟩]
  accelLatch1 := ⟨0xA000, 0x55⟩
  accelLatch2 := ⟨0xA010, 0xAA⟩
  accelXl := 0xA020
  accelXh := 0xA030
  accelYl := 0xA040
  accelYh := 0xA050
  cameraTrigger := 0x01
  tama5Sel := 0xA001
  tama5Data := 0xA000
  tama5RegRomLo := 0x0
  tama5RegRomHi := 0x1
  tama5RegWrLo := 0x4
  tama5RegWrHi := 0x5
  tama5RegCmd := 0x6
  tama5RegAddrLo := 0x7
  tama5RegActive := 0xA
  tama5RegRdLo := 0xC
  tama5RegRdHi := 0xD
  tama5CmdWrite := 0
  tama5CmdRead := 1

/-- The ranges that the spec gives the parameters: the two OPEN limits are at least 1 (R343, R344, R372), and an MBC6 RAM
bank is a whole number of dump windows (R281; log 22). -/
def Params.wf (p : Params) : Bool :=
  decide (1 ≤ p.cameraPollLimit) && decide (1 ≤ p.eepromWaitLimit) &&
  decide (Config.ramDumpWindow ≤ p.mbc6RamBank) && decide (p.mbc6RamBank % Config.ramDumpWindow = 0)

end Sys2Proof
end

