-- ==== Sys2Proof/Syntax.lean ====
section
/-!
DEFINITION. Syntax: every row of spec/opcode_table.json is one constructor of `Instr` (R110, R125, R130). The WIRE and EE
rows carry the fields of their frames. The HOST rows carry the typed operands of R130: naturals, so that an operand outside
its range can be written and is refused by its operation (R432). Beside it the request forms in which a program names an
instruction: wire bytes (R110), an EEPROM bit string (R120), a selector with its operand record (R131).
-/

namespace Sys2Proof

/-- The instructions: three wire frames, seven EEPROM commands, 79 host operations. -/
inductive Instr where
  /-- HS_PROBE (R111). -/
  | hsProbe
  /-- READ (R112). -/
  | readFrame (addr : U16) (len : U16)
  /-- WRITE (R113). -/
  | writeFrame (addr : U16) (value : Byte)
  /-- EE_READ (R336). -/
  | eeRead (a : Byte)
  /-- EE_WRITE (R337). -/
  | eeWrite (a : Byte) (data : U16)
  /-- EE_ERASE (R338). -/
  | eeErase (a : Byte)
  /-- EE_EWEN (R339). -/
  | eeEwen
  /-- EE_EWDS (R340). -/
  | eeEwds
  /-- EE_ERAL (R341). -/
  | eeEral
  /-- EE_WRAL (R342). -/
  | eeWral (data : U16)
  /-- connect (R150). -/
  | connect
  /-- read (R160). -/
  | read (addr : Nat) (length : Nat)
  /-- write (R162). -/
  | write (addr : Nat) (value : Nat)
  /-- read_ec (R170). -/
  | readEc (addr : Nat) (size : Nat) (retryLimit : Option Nat)
  /-- write_ec (R180). -/
  | writeEc (addr : Nat) (value : Nat)
  /-- detect (R200). -/
  | detect
  /-- select_rom_bank.Base (R230). -/
  | selectRomBankBase (n : Nat)
  /-- select_rom_bank.MBC1 (R231). -/
  | selectRomBankMbc1 (n : Nat)
  /-- select_rom_bank.MBC2 (R232). -/
  | selectRomBankMbc2 (n : Nat)
  /-- select_rom_bank.MBC3 (R232). -/
  | selectRomBankMbc3 (n : Nat)
  /-- select_rom_bank.MBC5 (R233). -/
  | selectRomBankMbc5 (n : Nat)
  /-- select_rom_bank.MBC6 (R234). -/
  | selectRomBankMbc6 (n : Nat)
  /-- select_rom_bank.MBC7 (R232). -/
  | selectRomBankMbc7 (n : Nat)
  /-- select_rom_bank.Camera (R232). -/
  | selectRomBankCamera (n : Nat)
  /-- select_rom_bank.TAMA5 (R395). -/
  | selectRomBankTama5 (n : Nat)
  /-- select_ram_bank.Base (R240). -/
  | selectRamBankBase (n : Nat)
  /-- select_ram_bank.MBC1 (R241). -/
  | selectRamBankMbc1 (n : Nat)
  /-- select_ram_bank.MBC2 (R242). -/
  | selectRamBankMbc2 (n : Nat)
  /-- select_ram_bank.MBC3 (R240). -/
  | selectRamBankMbc3 (n : Nat)
  /-- select_ram_bank.MBC5 (R240). -/
  | selectRamBankMbc5 (n : Nat)
  /-- select_ram_bank.MBC6 (R243). -/
  | selectRamBankMbc6 (n : Nat)
  /-- select_ram_bank.MBC7 (R240). -/
  | selectRamBankMbc7 (n : Nat)
  /-- select_ram_bank.Camera (R240). -/
  | selectRamBankCamera (n : Nat)
  /-- select_ram_bank.TAMA5 (R242). -/
  | selectRamBankTama5 (n : Nat)
  /-- enable_ram.Base (R251). -/
  | enableRamBase
  /-- enable_ram.MBC1 (R251). -/
  | enableRamMbc1
  /-- enable_ram.MBC2 (R251). -/
  | enableRamMbc2
  /-- enable_ram.MBC3 (R251). -/
  | enableRamMbc3
  /-- enable_ram.MBC5 (R251). -/
  | enableRamMbc5
  /-- enable_ram.MBC6 (R251). -/
  | enableRamMbc6
  /-- enable_ram.MBC7 (R251). -/
  | enableRamMbc7
  /-- enable_ram.Camera (R251). -/
  | enableRamCamera
  /-- enable_ram.TAMA5 (R251). -/
  | enableRamTama5
  /-- dump_rom.Base (R270). -/
  | dumpRomBase (progress : Bool) (retryLimit : Option Nat)
  /-- dump_rom.MBC1 (R272). -/
  | dumpRomMbc1 (progress : Bool) (retryLimit : Option Nat)
  /-- dump_rom.MBC2 (R270). -/
  | dumpRomMbc2 (progress : Bool) (retryLimit : Option Nat)
  /-- dump_rom.MBC3 (R270). -/
  | dumpRomMbc3 (progress : Bool) (retryLimit : Option Nat)
  /-- dump_rom.MBC5 (R270). -/
  | dumpRomMbc5 (progress : Bool) (retryLimit : Option Nat)
  /-- dump_rom.MBC6 (R274). -/
  | dumpRomMbc6 (progress : Bool) (retryLimit : Option Nat)
  /-- dump_rom.MBC7 (R270). -/
  | dumpRomMbc7 (progress : Bool) (retryLimit : Option Nat)
  /-- dump_rom.Camera (R270). -/
  | dumpRomCamera (progress : Bool) (retryLimit : Option Nat)
  /-- dump_rom.TAMA5 (R270). -/
  | dumpRomTama5 (progress : Bool) (retryLimit : Option Nat)
  /-- dump_ram.Base (R280). -/
  | dumpRamBase (retryLimit : Option Nat)
  /-- dump_ram.MBC1 (R280). -/
  | dumpRamMbc1 (retryLimit : Option Nat)
  /-- dump_ram.MBC2 (R282). -/
  | dumpRamMbc2 (retryLimit : Option Nat)
  /-- dump_ram.MBC3 (R280). -/
  | dumpRamMbc3 (retryLimit : Option Nat)
  /-- dump_ram.MBC5 (R280). -/
  | dumpRamMbc5 (retryLimit : Option Nat)
  /-- dump_ram.MBC6 (R280). -/
  | dumpRamMbc6 (retryLimit : Option Nat)
  /-- dump_ram.MBC7 (R360). -/
  | dumpRamMbc7 (retryLimit : Option Nat)
  /-- dump_ram.Camera (R280). -/
  | dumpRamCamera (retryLimit : Option Nat)
  /-- dump_ram.TAMA5 (R400). -/
  | dumpRamTama5 (retryLimit : Option Nat)
  /-- restore_ram.Base (R290). -/
  | restoreRamBase (image : List Byte)
  /-- restore_ram.MBC1 (R290). -/
  | restoreRamMbc1 (image : List Byte)
  /-- restore_ram.MBC2 (R291). -/
  | restoreRamMbc2 (image : List Byte)
  /-- restore_ram.MBC3 (R290). -/
  | restoreRamMbc3 (image : List Byte)
  /-- restore_ram.MBC5 (R290). -/
  | restoreRamMbc5 (image : List Byte)
  /-- restore_ram.MBC6 (R290). -/
  | restoreRamMbc6 (image : List Byte)
  /-- restore_ram.MBC7 (R361). -/
  | restoreRamMbc7 (image : List Byte)
  /-- restore_ram.Camera (R290). -/
  | restoreRamCamera (image : List Byte)
  /-- restore_ram.TAMA5 (R401). -/
  | restoreRamTama5 (image : List Byte)
  /-- latch_rtc.MBC3 (R310). -/
  | latchRtc
  /-- read_rtc.MBC3 (R311). -/
  | readRtc (reg : Nat) (retryLimit : Option Nat)
  /-- eeprom_shift_in.MBC7 (R330). -/
  | eepromShiftIn (bit : Nat)
  /-- eeprom_shift_inout.MBC7 (R331). -/
  | eepromShiftInout (bit : Nat)
  /-- eeprom_read.MBC7 (R336). -/
  | eepromRead (eeAddr : Nat)
  /-- eeprom_write.MBC7 (R337). -/
  | eepromWrite (eeAddr : Nat) (word : Nat)
  /-- eeprom_erase.MBC7 (R338). -/
  | eepromErase (eeAddr : Nat)
  /-- eeprom_ewen.MBC7 (R339). -/
  | eepromEwen
  /-- eeprom_ewds.MBC7 (R340). -/
  | eepromEwds
  /-- eeprom_eral.MBC7 (R341). -/
  | eepromEral
  /-- eeprom_wral.MBC7 (R342). -/
  | eepromWral (word : Nat)
  /-- eeprom_wait.MBC7 (R343). -/
  | eepromWait
  /-- sample_accel.MBC7 (R350). -/
  | sampleAccel (retryLimit : Option Nat)
  /-- take_photo.Camera (R370). -/
  | takePhoto (retryLimit : Option Nat)
  /-- tama5_unlock.TAMA5 (R392). -/
  | tama5Unlock (retryLimit : Option Nat)
  /-- tama5_write_reg.TAMA5 (R393). -/
  | tama5WriteReg (r : Nat) (nib : Nat)
  /-- tama5_read_reg.TAMA5 (R394). -/
  | tama5ReadReg (r : Nat) (retryLimit : Option Nat)
  /-- tama5_ram_read.TAMA5 (R396). -/
  | tama5RamRead (ta : Nat) (retryLimit : Option Nat)
  /-- tama5_ram_write.TAMA5 (R397). -/
  | tama5RamWrite (ta : Nat) (value : Nat)
  deriving DecidableEq, Repr

/-- The typed operand record of R130, which travels beside the selector (R131). An operand that an operation does not
have stays at the record's default: zero, absent, empty, false. -/
structure Operands where
  addr : Nat := 0
  length : Nat := 0
  size : Nat := 0
  value : Nat := 0
  n : Nat := 0
  reg : Nat := 0
  bit : Nat := 0
  eeAddr : Nat := 0
  word : Nat := 0
  r : Nat := 0
  nib : Nat := 0
  ta : Nat := 0
  retryLimit : Option Nat := none
  image : List Byte := []
  progress : Bool := false
  deriving DecidableEq, Repr

/-- A request as a program holds it (R53, R131), in the three encoded formats of 30_encoding.md. -/
inductive Request where
  /-- Format WIRE: the bytes of a frame in the order they are sent (R110). -/
  | wire (bytes : List Byte)
  /-- Format EE: the ten command bits `o1 o0 f7 .. f0` and the sixteen data bits that follow them (R120). -/
  | ee (frame : BitVec 10) (data : U16)
  /-- Format HOST: the 16-bit selector and its operand record (R131). -/
  | host (selector : U16) (operands : Operands)
  deriving DecidableEq, Repr

/-- How an event names the operation it belongs to: a host operation by its selector (R435, R442), a frame that is run by
itself by its first byte or its command bits (log 12). -/
inductive OpId where
  | selector (w : U16)
  | wire (opcode : Byte)
  | ee (frame : BitVec 10)
  deriving DecidableEq, Repr

/-- The operation names of R130, as error records name them (R420). -/
inductive OpName where
  | connect | read | write | readEc | writeEc | detect | selectRomBank | selectRamBank | enableRam | dumpRom
  | dumpRam | restoreRam | latchRtc | readRtc | eepromShiftIn | eepromShiftInout | eepromRead | eepromWrite | eepromErase | eepromEwen
  | eepromEwds | eepromEral | eepromWral | eepromWait | sampleAccel | takePhoto | tama5Unlock | tama5WriteReg | tama5ReadReg | tama5RamRead | tama5RamWrite
  deriving DecidableEq, Repr

end Sys2Proof
end

