-- ==== Sys2Proof/WellFormed.lean ====
section
/-!
DEFINITION. Well-formedness: every operand lies in the range R130 and R432 give it, and an EEPROM frame names one of the
128 cells (R126). A host operation with an operand outside its range is still an instruction: it is refused when it runs
(OperandRange), so `exec` does not assume this check.
-/

namespace Sys2Proof

/-- The largest bank number a variant's ROM select takes: 0x1FF on MBC5, 0xFF on the others (R432). -/
def maxRomBank : Variant → Nat
  | .mbc5 => 0x1FF
  | _ => 0xFF

/-- Every operand of the instruction lies in its range (R130, R432, R126). -/
def Instr.wf : Instr → Bool
  | .hsProbe => true
  | .readFrame _ _ => true
  | .writeFrame _ _ => true
  | .eeRead a => decide (a < 128)
  | .eeWrite a _ => decide (a < 128)
  | .eeErase a => decide (a < 128)
  | .eeEwen => true
  | .eeEwds => true
  | .eeEral => true
  | .eeWral _ => true
  | .connect => true
  | .read addr length => decide (addr ≤ 0xFFFF) && decide (length ≤ 0xFFFF)
  | .write addr value => decide (addr ≤ 0xFFFF) && decide (value ≤ 0xFF)
  | .readEc addr size _ => decide (addr ≤ 0xFFFF) && decide (size ≤ 0x10000)
  | .writeEc addr value => decide (addr ≤ 0xFFFF) && decide (value ≤ 0xFF)
  | .detect => true
  | .selectRomBankBase n => decide (n ≤ maxRomBank .base)
  | .selectRomBankMbc1 n => decide (n ≤ maxRomBank .mbc1)
  | .selectRomBankMbc2 n => decide (n ≤ maxRomBank .mbc2)
  | .selectRomBankMbc3 n => decide (n ≤ maxRomBank .mbc3)
  | .selectRomBankMbc5 n => decide (n ≤ maxRomBank .mbc5)
  | .selectRomBankMbc6 n => decide (n ≤ maxRomBank .mbc6)
  | .selectRomBankMbc7 n => decide (n ≤ maxRomBank .mbc7)
  | .selectRomBankCamera n => decide (n ≤ maxRomBank .camera)
  | .selectRomBankTama5 n => decide (n ≤ maxRomBank .tama5)
  | .selectRamBankBase n => decide (n ≤ 0xFF)
  | .selectRamBankMbc1 n => decide (n ≤ 0xFF)
  | .selectRamBankMbc2 n => decide (n ≤ 0xFF)
  | .selectRamBankMbc3 n => decide (n ≤ 0xFF)
  | .selectRamBankMbc5 n => decide (n ≤ 0xFF)
  | .selectRamBankMbc6 n => decide (n ≤ 0xFF)
  | .selectRamBankMbc7 n => decide (n ≤ 0xFF)
  | .selectRamBankCamera n => decide (n ≤ 0xFF)
  | .selectRamBankTama5 n => decide (n ≤ 0xFF)
  | .enableRamBase => true
  | .enableRamMbc1 => true
  | .enableRamMbc2 => true
  | .enableRamMbc3 => true
  | .enableRamMbc5 => true
  | .enableRamMbc6 => true
  | .enableRamMbc7 => true
  | .enableRamCamera => true
  | .enableRamTama5 => true
  | .dumpRomBase _ _ => true
  | .dumpRomMbc1 _ _ => true
  | .dumpRomMbc2 _ _ => true
  | .dumpRomMbc3 _ _ => true
  | .dumpRomMbc5 _ _ => true
  | .dumpRomMbc6 _ _ => true
  | .dumpRomMbc7 _ _ => true
  | .dumpRomCamera _ _ => true
  | .dumpRomTama5 _ _ => true
  | .dumpRamBase _ => true
  | .dumpRamMbc1 _ => true
  | .dumpRamMbc2 _ => true
  | .dumpRamMbc3 _ => true
  | .dumpRamMbc5 _ => true
  | .dumpRamMbc6 _ => true
  | .dumpRamMbc7 _ => true
  | .dumpRamCamera _ => true
  | .dumpRamTama5 _ => true
  | .restoreRamBase _ => true
  | .restoreRamMbc1 _ => true
  | .restoreRamMbc2 _ => true
  | .restoreRamMbc3 _ => true
  | .restoreRamMbc5 _ => true
  | .restoreRamMbc6 _ => true
  | .restoreRamMbc7 _ => true
  | .restoreRamCamera _ => true
  | .restoreRamTama5 _ => true
  | .latchRtc => true
  | .readRtc reg _ => decide (reg ≤ 3)
  | .eepromShiftIn bit => decide (bit ≤ 1)
  | .eepromShiftInout bit => decide (bit ≤ 1)
  | .eepromRead eeAddr => decide (eeAddr ≤ 127)
  | .eepromWrite eeAddr word => decide (eeAddr ≤ 127) && decide (word ≤ 0xFFFF)
  | .eepromErase eeAddr => decide (eeAddr ≤ 127)
  | .eepromEwen => true
  | .eepromEwds => true
  | .eepromEral => true
  | .eepromWral word => decide (word ≤ 0xFFFF)
  | .eepromWait => true
  | .sampleAccel _ => true
  | .takePhoto _ => true
  | .tama5Unlock _ => true
  | .tama5WriteReg r nib => decide (r ≤ 15) && decide (nib ≤ 15)
  | .tama5ReadReg r _ => decide (r ≤ 15)
  | .tama5RamRead ta _ => decide (ta ≤ 31)
  | .tama5RamWrite ta value => decide (ta ≤ 31) && decide (value ≤ 0xFF)

end Sys2Proof
end

