-- ==== Sys2Proof/Decode.lean ====
section
/-!
DEFINITION. Decoding and encoding (30_encoding.md). A request decodes to an instruction or is rejected by name:
wire bytes by their first byte (R110, R117), an EEPROM frame by its class bits and field (R125), a host request by its
selector's row of the table (R131, R132). After it the encoder, written from the same tables, and the host's two
numberings of a table word.
-/

namespace Sys2Proof

/-- Why a request is no instruction. -/
inductive Reject where
  /-- The selector is not a HOST row of the table (R132). -/
  | badSelector
  /-- The first byte is none of the three opcodes: "not a frame" (R116). -/
  | notAFrame
  /-- The byte list ends before the frame does (R117). -/
  | truncatedFrame
  /-- An EEPROM frame with a7 = 1, or a class-00 field that is no row of the table (R125, R126). -/
  | reservedEeFrame
  deriving DecidableEq, Repr

/-! ### Wire frames (R110 to R117) -/

/-- The frame that a byte list begins with: its length follows from its first byte (R117), its operands are assembled
big-endian (R115). -/
def decodeWire : List Byte → Except Reject Instr
  | [] => .error .truncatedFrame
  | b :: rest =>
    if b = Config.hsProbe then .ok .hsProbe
    else if b = Config.opRead then
      match rest with
      | ah :: al :: lh :: ll :: _ => .ok (.readFrame (join16 ah al) (join16 lh ll))
      | _ => .error .truncatedFrame
    else if b = Config.opWrite then
      match rest with
      | ah :: al :: v :: _ => .ok (.writeFrame (join16 ah al) v)
      | _ => .error .truncatedFrame
    else .error .notAFrame

/-- The bytes of a READ frame, without its data phase (R112). -/
def readFrameBytes (addr len : U16) : List Byte := [Config.opRead, hi8 addr, lo8 addr, hi8 len, lo8 len]

/-- The bytes of a WRITE frame (R113). -/
def writeFrameBytes (addr : U16) (value : Byte) : List Byte := [Config.opWrite, hi8 addr, lo8 addr, value]

/-! ### EEPROM command frames (R120, R125) -/

/-- The ten command bits: class bits `o1 o0`, then the 8-bit field (R120). -/
def eeFrame (cls : BitVec 2) (field : Byte) : BitVec 10 := cls ++ field

/-- The command of an EEPROM frame; the data bits belong to WRITE and WRAL only (R125). -/
def decodeEe (frame : BitVec 10) (data : U16) : Except Reject Instr :=
  let cls := frame.extractLsb' 8 2
  let field := frame.extractLsb' 0 8
  if cls = 0b00 then
    if field = 0b11000000 then .ok .eeEwen
    else if field = 0b00000000 then .ok .eeEwds
    else if field = 0b10000000 then .ok .eeEral
    else if field = 0b01000000 then .ok (.eeWral data)
    else .error .reservedEeFrame
  else if field < 128 then
    if cls = 0b10 then .ok (.eeRead field)
    else if cls = 0b01 then .ok (.eeWrite field data)
    else .ok (.eeErase field)
  else .error .reservedEeFrame

/-! ### Host selectors (R131, R132): one row of the table each -/

/-- A row of the selector table: the selector, and the instruction it names for an operand record. -/
abbrev HostRow := Nat × (Operands → Instr)

/-- The session operations: variant byte 0xFF (R131, R132). -/
def sessionRows : List HostRow :=
  [(0x01FF, fun _ => .connect),
   (0x02FF, fun o => .read o.addr o.length),
   (0x03FF, fun o => .write o.addr o.value),
   (0x04FF, fun o => .readEc o.addr o.size o.retryLimit),
   (0x05FF, fun o => .writeEc o.addr o.value),
   (0x10FF, fun _ => .detect)]

/-- Bank selection and RAM enable, one row per variant (R131). -/
def bankRows : List HostRow :=
  [(0x2000, fun o => .selectRomBankBase o.n),
   (0x2001, fun o => .selectRomBankMbc1 o.n),
   (0x2002, fun o => .selectRomBankMbc2 o.n),
   (0x2003, fun o => .selectRomBankMbc3 o.n),
   (0x2004, fun o => .selectRomBankMbc5 o.n),
   (0x2005, fun o => .selectRomBankMbc6 o.n),
   (0x2006, fun o => .selectRomBankMbc7 o.n),
   (0x2007, fun o => .selectRomBankCamera o.n),
   (0x2008, fun o => .selectRomBankTama5 o.n)] ++
  [(0x2100, fun o => .selectRamBankBase o.n),
   (0x2101, fun o => .selectRamBankMbc1 o.n),
   (0x2102, fun o => .selectRamBankMbc2 o.n),
   (0x2103, fun o => .selectRamBankMbc3 o.n),
   (0x2104, fun o => .selectRamBankMbc5 o.n),
   (0x2105, fun o => .selectRamBankMbc6 o.n),
   (0x2106, fun o => .selectRamBankMbc7 o.n),
   (0x2107, fun o => .selectRamBankCamera o.n),
   (0x2108, fun o => .selectRamBankTama5 o.n)] ++
  [(0x2200, fun _ => .enableRamBase),
   (0x2201, fun _ => .enableRamMbc1),
   (0x2202, fun _ => .enableRamMbc2),
   (0x2203, fun _ => .enableRamMbc3),
   (0x2204, fun _ => .enableRamMbc5),
   (0x2205, fun _ => .enableRamMbc6),
   (0x2206, fun _ => .enableRamMbc7),
   (0x2207, fun _ => .enableRamCamera),
   (0x2208, fun _ => .enableRamTama5)]

/-- Dumps and restores, one row per variant (R131). -/
def imageRows : List HostRow :=
  [(0x3000, fun o => .dumpRomBase o.progress o.retryLimit),
   (0x3001, fun o => .dumpRomMbc1 o.progress o.retryLimit),
   (0x3002, fun o => .dumpRomMbc2 o.progress o.retryLimit),
   (0x3003, fun o => .dumpRomMbc3 o.progress o.retryLimit),
   (0x3004, fun o => .dumpRomMbc5 o.progress o.retryLimit),
   (0x3005, fun o => .dumpRomMbc6 o.progress o.retryLimit),
   (0x3006, fun o => .dumpRomMbc7 o.progress o.retryLimit),
   (0x3007, fun o => .dumpRomCamera o.progress o.retryLimit),
   (0x3008, fun o => .dumpRomTama5 o.progress o.retryLimit)] ++
  [(0x3100, fun o => .dumpRamBase o.retryLimit),
   (0x3101, fun o => .dumpRamMbc1 o.retryLimit),
   (0x3102, fun o => .dumpRamMbc2 o.retryLimit),
   (0x3103, fun o => .dumpRamMbc3 o.retryLimit),
   (0x3104, fun o => .dumpRamMbc5 o.retryLimit),
   (0x3105, fun o => .dumpRamMbc6 o.retryLimit),
   (0x3106, fun o => .dumpRamMbc7 o.retryLimit),
   (0x3107, fun o => .dumpRamCamera o.retryLimit),
   (0x3108, fun o => .dumpRamTama5 o.retryLimit)] ++
  [(0x3200, fun o => .restoreRamBase o.image),
   (0x3201, fun o => .restoreRamMbc1 o.image),
   (0x3202, fun o => .restoreRamMbc2 o.image),
   (0x3203, fun o => .restoreRamMbc3 o.image),
   (0x3204, fun o => .restoreRamMbc5 o.image),
   (0x3205, fun o => .restoreRamMbc6 o.image),
   (0x3206, fun o => .restoreRamMbc7 o.image),
   (0x3207, fun o => .restoreRamCamera o.image),
   (0x3208, fun o => .restoreRamTama5 o.image)]

/-- The operations of one variant only (R132). -/
def variantRows : List HostRow :=
  [(0x4003, fun _ => .latchRtc),
   (0x4103, fun o => .readRtc o.reg o.retryLimit),
   (0x5006, fun o => .eepromShiftIn o.bit),
   (0x5106, fun o => .eepromShiftInout o.bit),
   (0x5206, fun o => .eepromRead o.eeAddr),
   (0x5306, fun o => .eepromWrite o.eeAddr o.word),
   (0x5406, fun o => .eepromErase o.eeAddr),
   (0x5506, fun _ => .eepromEwen),
   (0x5606, fun _ => .eepromEwds)] ++
  [(0x5706, fun _ => .eepromEral),
   (0x5806, fun o => .eepromWral o.word),
   (0x5906, fun _ => .eepromWait),
   (0x5A06, fun o => .sampleAccel o.retryLimit),
   (0x6007, fun o => .takePhoto o.retryLimit),
   (0x7008, fun o => .tama5Unlock o.retryLimit),
   (0x7108, fun o => .tama5WriteReg o.r o.nib),
   (0x7208, fun o => .tama5ReadReg o.r o.retryLimit),
   (0x7308, fun o => .tama5RamRead o.ta o.retryLimit)] ++
  [(0x7408, fun o => .tama5RamWrite o.ta o.value)]

/-- The HOST rows of opcode_table.json. -/
def hostRows : List HostRow := sessionRows ++ bankRows ++ imageRows ++ variantRows

/-- A selector is valid exactly when it is a HOST row of the table (R132). -/
def decodeHost (selector : U16) (ops : Operands) : Except Reject Instr :=
  match hostRows.find? (fun row => row.1 == selector.toNat) with
  | some row => .ok (row.2 ops)
  | none => .error .badSelector

/-- The instruction of a request, or the name of its rejection. -/
def decode : Request → Except Reject Instr
  | .wire bytes => decodeWire bytes
  | .ee frame data => decodeEe frame data
  | .host selector ops => decodeHost selector ops

/-! ### The encoder -/

/-- The request of an instruction, from the same tables. -/
def encode : Instr → Request
  | .hsProbe => .wire [Config.hsProbe]
  | .readFrame addr len => .wire (readFrameBytes addr len)
  | .writeFrame addr value => .wire (writeFrameBytes addr value)
  | .eeRead a => .ee (eeFrame 0b10 a) 0
  | .eeWrite a data => .ee (eeFrame 0b01 a) data
  | .eeErase a => .ee (eeFrame 0b11 a) 0
  | .eeEwen => .ee (eeFrame 0b00 0b11000000) 0
  | .eeEwds => .ee (eeFrame 0b00 0b00000000) 0
  | .eeEral => .ee (eeFrame 0b00 0b10000000) 0
  | .eeWral data => .ee (eeFrame 0b00 0b01000000) data
  | .connect => .host 0x01FF {}
  | .read addr length => .host 0x02FF { addr := addr, length := length }
  | .write addr value => .host 0x03FF { addr := addr, value := value }
  | .readEc addr size retryLimit => .host 0x04FF { addr := addr, size := size, retryLimit := retryLimit }
  | .writeEc addr value => .host 0x05FF { addr := addr, value := value }
  | .detect => .host 0x10FF {}
  | .selectRomBankBase n => .host 0x2000 { n := n }
  | .selectRomBankMbc1 n => .host 0x2001 { n := n }
  | .selectRomBankMbc2 n => .host 0x2002 { n := n }
  | .selectRomBankMbc3 n => .host 0x2003 { n := n }
  | .selectRomBankMbc5 n => .host 0x2004 { n := n }
  | .selectRomBankMbc6 n => .host 0x2005 { n := n }
  | .selectRomBankMbc7 n => .host 0x2006 { n := n }
  | .selectRomBankCamera n => .host 0x2007 { n := n }
  | .selectRomBankTama5 n => .host 0x2008 { n := n }
  | .selectRamBankBase n => .host 0x2100 { n := n }
  | .selectRamBankMbc1 n => .host 0x2101 { n := n }
  | .selectRamBankMbc2 n => .host 0x2102 { n := n }
  | .selectRamBankMbc3 n => .host 0x2103 { n := n }
  | .selectRamBankMbc5 n => .host 0x2104 { n := n }
  | .selectRamBankMbc6 n => .host 0x2105 { n := n }
  | .selectRamBankMbc7 n => .host 0x2106 { n := n }
  | .selectRamBankCamera n => .host 0x2107 { n := n }
  | .selectRamBankTama5 n => .host 0x2108 { n := n }
  | .enableRamBase => .host 0x2200 {}
  | .enableRamMbc1 => .host 0x2201 {}
  | .enableRamMbc2 => .host 0x2202 {}
  | .enableRamMbc3 => .host 0x2203 {}
  | .enableRamMbc5 => .host 0x2204 {}
  | .enableRamMbc6 => .host 0x2205 {}
  | .enableRamMbc7 => .host 0x2206 {}
  | .enableRamCamera => .host 0x2207 {}
  | .enableRamTama5 => .host 0x2208 {}
  | .dumpRomBase progress retryLimit => .host 0x3000 { progress := progress, retryLimit := retryLimit }
  | .dumpRomMbc1 progress retryLimit => .host 0x3001 { progress := progress, retryLimit := retryLimit }
  | .dumpRomMbc2 progress retryLimit => .host 0x3002 { progress := progress, retryLimit := retryLimit }
  | .dumpRomMbc3 progress retryLimit => .host 0x3003 { progress := progress, retryLimit := retryLimit }
  | .dumpRomMbc5 progress retryLimit => .host 0x3004 { progress := progress, retryLimit := retryLimit }
  | .dumpRomMbc6 progress retryLimit => .host 0x3005 { progress := progress, retryLimit := retryLimit }
  | .dumpRomMbc7 progress retryLimit => .host 0x3006 { progress := progress, retryLimit := retryLimit }
  | .dumpRomCamera progress retryLimit => .host 0x3007 { progress := progress, retryLimit := retryLimit }
  | .dumpRomTama5 progress retryLimit => .host 0x3008 { progress := progress, retryLimit := retryLimit }
  | .dumpRamBase retryLimit => .host 0x3100 { retryLimit := retryLimit }
  | .dumpRamMbc1 retryLimit => .host 0x3101 { retryLimit := retryLimit }
  | .dumpRamMbc2 retryLimit => .host 0x3102 { retryLimit := retryLimit }
  | .dumpRamMbc3 retryLimit => .host 0x3103 { retryLimit := retryLimit }
  | .dumpRamMbc5 retryLimit => .host 0x3104 { retryLimit := retryLimit }
  | .dumpRamMbc6 retryLimit => .host 0x3105 { retryLimit := retryLimit }
  | .dumpRamMbc7 retryLimit => .host 0x3106 { retryLimit := retryLimit }
  | .dumpRamCamera retryLimit => .host 0x3107 { retryLimit := retryLimit }
  | .dumpRamTama5 retryLimit => .host 0x3108 { retryLimit := retryLimit }
  | .restoreRamBase image => .host 0x3200 { image := image }
  | .restoreRamMbc1 image => .host 0x3201 { image := image }
  | .restoreRamMbc2 image => .host 0x3202 { image := image }
  | .restoreRamMbc3 image => .host 0x3203 { image := image }
  | .restoreRamMbc5 image => .host 0x3204 { image := image }
  | .restoreRamMbc6 image => .host 0x3205 { image := image }
  | .restoreRamMbc7 image => .host 0x3206 { image := image }
  | .restoreRamCamera image => .host 0x3207 { image := image }
  | .restoreRamTama5 image => .host 0x3208 { image := image }
  | .latchRtc => .host 0x4003 {}
  | .readRtc reg retryLimit => .host 0x4103 { reg := reg, retryLimit := retryLimit }
  | .eepromShiftIn bit => .host 0x5006 { bit := bit }
  | .eepromShiftInout bit => .host 0x5106 { bit := bit }
  | .eepromRead eeAddr => .host 0x5206 { eeAddr := eeAddr }
  | .eepromWrite eeAddr word => .host 0x5306 { eeAddr := eeAddr, word := word }
  | .eepromErase eeAddr => .host 0x5406 { eeAddr := eeAddr }
  | .eepromEwen => .host 0x5506 {}
  | .eepromEwds => .host 0x5606 {}
  | .eepromEral => .host 0x5706 {}
  | .eepromWral word => .host 0x5806 { word := word }
  | .eepromWait => .host 0x5906 {}
  | .sampleAccel retryLimit => .host 0x5A06 { retryLimit := retryLimit }
  | .takePhoto retryLimit => .host 0x6007 { retryLimit := retryLimit }
  | .tama5Unlock retryLimit => .host 0x7008 { retryLimit := retryLimit }
  | .tama5WriteReg r nib => .host 0x7108 { r := r, nib := nib }
  | .tama5ReadReg r retryLimit => .host 0x7208 { r := r, retryLimit := retryLimit }
  | .tama5RamRead ta retryLimit => .host 0x7308 { ta := ta, retryLimit := retryLimit }
  | .tama5RamWrite ta value => .host 0x7408 { ta := ta, value := value }

/-- The name by which events refer to an instruction (R435, R442; log 12). -/
def Instr.opId (i : Instr) : OpId :=
  match encode i with
  | .wire bytes => .wire (bytes.headD 0)
  | .ee frame _ => .ee frame
  | .host selector _ => .selector selector

/-! ### The table's numbering of an instruction's bits (log 14) -/

/-- The five bytes of a wire word, the first in the low bits. -/
def wireBytes (w : Nat) : List Byte :=
  [BitVec.ofNat 8 w, BitVec.ofNat 8 (w >>> 8), BitVec.ofNat 8 (w >>> 16), BitVec.ofNat 8 (w >>> 24), BitVec.ofNat 8 (w >>> 32)]

/-- The request of a table word: 16-bit words are host selectors or, where no host row has that selector and the word has
ten bits, EEPROM frames with zero data; words of other lengths are wire frames with zero operand bytes. No operand travels
in a selector, so the operand record is the default one. -/
def tableRequest (nbits w : Nat) : Request :=
  if nbits = 16 ∨ nbits = 10 then
    if w < 0x400 ∧ (hostRows.find? (fun row => row.1 == w)).isNone then .ee (BitVec.ofNat 10 w) 0
    else .host (BitVec.ofNat 16 w) {}
  else .wire (wireBytes w)

/-- The instruction of a table word, `none` where the decoder rejects it. -/
def decodeTableWord (nbits w : Nat) : Option Instr :=
  match decode (tableRequest nbits w) with
  | .ok i => some i
  | .error _ => none

end Sys2Proof
end

