-- ==== Sys2Proof/Machine/State.lean ====
section
/-!
DEFINITION. The state of the sequencer as plain data (10_state.md): the session, controller and operation registers, the
bookkeeping, and beside them the host program, the parameters and the link's replies, which the spec calls parameters of the
step relation (R30). Also the two reasons for which a step of the model itself can stop, and the state after reset (R59, R460).
-/

namespace Sys2Proof.Machine

/-! ### Session and controller registers -/

/-- The header snapshot (R33, R34, R35). -/
structure Header where
  cartType : Byte
  romSizeCode : Byte
  ramSizeCode : Byte
  checksum : U16
  /-- Sixteen bytes, kept byte for byte (R34). -/
  title : List Byte
  deriving DecidableEq, Repr

/-- The controller (R36, R38, R44). -/
structure Controller where
  variant : Variant
  romBankCount : U32
  ramSizeBytes : U32
  romShadow : Option Nat
  ramShadow : Option Nat
  deriving DecidableEq, Repr

/-! ### Operation registers (R45 to R49): they exist only while a host operation runs -/

/-- The `read_ec` registers (R45). -/
structure EcRegs where
  base : U16
  size : Nat
  off : Nat
  len : Nat
  prev : Option (List Byte)
  reads : Nat
  limit : Option Nat
  out : List Byte
  deriving DecidableEq, Repr

/-- The `write_ec` registers (R46). -/
structure WeRegs where
  addr : U16
  value : Byte
  rounds : Nat
  deriving DecidableEq, Repr

/-- The phase of `connect` (R47). -/
inductive HsPhase where
  | one | two | hdr
  deriving DecidableEq, Repr

/-- The `connect` registers (R47). -/
structure HsRegs where
  phase : HsPhase
  attempts : Nat
  bytes : List Byte
  deriving DecidableEq, Repr

/-- The EEPROM registers (R49). -/
structure EeRegs where
  word : U16
  bit : Nat
  deriving DecidableEq, Repr

/-! ### Errors, refusals, results and events (R50, R420, R430, R442) -/

/-- The six error kinds (R420). -/
inductive ErrKind where
  | notConnected | protocolError | unsupportedCartridge | readUnstable | deviceTimeout | cancelled
  deriving DecidableEq, Repr

/-- The information an error records (R420, last column). -/
inductive Info where
  | phase (n : Nat)
  | op (name : OpName)
  | terminator (t0 t1 : Byte)
  | cartType (code : Byte)
  | romSizeCode (code : Byte)
  | chunk (addr reads : Nat)
  | polls (name : OpName) (polls : Nat)
  | addr (name : OpName) (addr : U16)
  | cell (name : OpName) (cell : Nat)
  | opId (id : OpId)
  deriving DecidableEq, Repr

/-- The refusal reasons (R430). -/
inductive RefuseReason where
  | badSelector | wrongVariant | noController | alreadyConnected | rangeOverflow | operandRange | badImageLength
  deriving DecidableEq, Repr

/-- The value an operation returns (R442; log 26). -/
inductive Value where
  | unit
  | byte (b : Byte)
  | bytes (bs : List Byte)
  | word (w : U16)
  | words (x y : U16)
  | variant (v : Variant)
  deriving DecidableEq, Repr

/-- The events of the trace (R50). -/
inductive Event where
  | exchange (sent received : Byte)
  | progress (index : Nat) (bytes : List Byte)
  | result (op : OpId) (value : Value)
  | error (op : OpId) (kind : ErrKind) (info : Info)
  deriving DecidableEq, Repr

/-- The outcome with which the host program stopped (R53, R435). -/
inductive Stop where
  | error (op : OpId) (kind : ErrKind) (info : Info)
  | refusal (reason : RefuseReason)
  deriving DecidableEq, Repr

/-- How a running operation is cut short: an error (R14), a cancellation that it honours (R441), a refusal (R14), or an
exchange whose reply has not come yet (log 3). -/
inductive Halt where
  | raised (kind : ErrKind) (info : Info)
  | cancelled
  | refused (reason : RefuseReason)
  | waiting
  deriving DecidableEq, Repr

/-! ### The environment's side of the link, and an operation that waits for it -/

/-- One reply of the link device, a free draw (R15), with a mark that the host raised its cancellation request during that
exchange (R52, R441; log 2, log 5). -/
structure LinkIn where
  reply : Byte
  cancel : Bool
  deriving DecidableEq, Repr

/-- An operation that waits for a reply (R43; log 3): the instruction and the state it was started from, as far as an
operation can change that before it ends. -/
structure Running where
  instr : Instr
  link : List LinkIn
  ctrl : Option Controller
  cancelReq : Bool
  traceRev : List Event
  deriving DecidableEq, Repr

/-- The sequencer's state record (R30). -/
structure State where
  /-- R31. -/
  connected : Bool
  /-- R32. -/
  header : Option Header
  /-- R36. -/
  ctrl : Option Controller
  /-- R45. -/
  ec : Option EcRegs
  /-- R46. -/
  we : Option WeRegs
  /-- R47. -/
  hs : Option HsRegs
  /-- `poll_count` (R48). -/
  poll : Option Nat
  /-- R49. -/
  ee : Option EeRegs
  /-- `S.trace` (R50), newest event first (log 18). -/
  traceRev : List Event
  /-- R51. -/
  refused : Bool
  /-- R52. -/
  cancelReq : Bool
  /-- R53. -/
  hpc : Nat
  /-- The host program P (R53; log 6). -/
  program : List Request
  /-- The parameters of R9 (log 9). -/
  cfg : Params
  /-- The replies to come (R15; log 2). -/
  link : List LinkIn
  /-- The byte sent whose reply has not come (R81; log 3). -/
  awaiting : Option Byte
  /-- The operation that waits (R43; log 3). -/
  run : Option Running
  /-- The outcome the program stopped with (R53; log 7). -/
  stop : Option Stop
  deriving DecidableEq, Repr

/-- Why a step of the model stops the machine. No instruction raises either: both come from `step` when there is no host
operation to run. -/
inductive Fault where
  /-- `hpc = len(P)`: "the program is finished" (R53). Safe: the machine stops where the spec has no further step. -/
  | programFinished
  /-- The program stopped at an error or a refusal (R53) and the host has issued no other. Safe, for the same reason. -/
  | programStopped
  deriving DecidableEq, Repr

/-- Why the model gives a request no meaning at all. Only the fetch of a request raises the last two. -/
inductive Refusal where
  /-- The instruction has no meaning in this model yet. Raised by `exec`'s arms only; safe. -/
  | notModelled (mnemonic : String)
  /-- Wire bytes that begin with no opcode, or end too early: "not a frame" (R116). Raised by `step`; safe. -/
  | notAFrame
  /-- An EEPROM bit string that the block never sends (R126). Raised by `step`; safe. -/
  | reservedEeFrame
  deriving DecidableEq, Repr

/-- The state after reset, "constructed unconnected" (R59, R460). -/
def State.reset : State where
  connected := false
  header := none
  ctrl := none
  ec := none
  we := none
  hs := none
  poll := none
  ee := none
  traceRev := []
  refused := false
  cancelReq := false
  hpc := 0
  program := []
  cfg := Params.default (Config.freeCameraPolls + 1) (Config.freeEepromPolls + 1)
  link := []
  awaiting := none
  run := none
  stop := none

end Sys2Proof.Machine
end

