-- ==== Sys2Proof/Machine/Ops.lean ====
section
/-!
DEFINITION. The shared operations: the exchange and the frames (R12, R13, R110 to R114, R441), raising an error and refusing
(R14, R435, R430), the end of an operation (R53, R442), and the one wrapper `runOp` in which every instruction runs.

A procedure of the spec is a `Proc`: it runs on the state and either returns a value or is cut short by a `Halt`. `do` blocks
follow the spec's pseudocode line by line.
-/

namespace Sys2Proof.Machine

/-- A procedure: a state transformer that returns a value or is cut short. -/
abbrev Proc (α : Type) : Type := EStateM Halt State α

/-- The trace in the order of its events (R50). -/
def State.trace (s : State) : List Event := s.traceRev.reverse

/-- `raise E(info)` (R14). -/
def raise {α : Type} (kind : ErrKind) (info : Info) : Proc α := throw (.raised kind info)

/-- `refuse(reason)` (R14). -/
def refuse {α : Type} (reason : RefuseReason) : Proc α := throw (.refused reason)

/-- `if bad: refuse(reason)`, the form of every check that refuses. -/
def refuseIf (bad : Bool) (reason : RefuseReason) : Proc Unit :=
  if bad then refuse reason else pure ()

/-- `Emit(ev)` (R14). -/
def emit (ev : Event) : Proc Unit := modify fun s => { s with traceRev := ev :: s.traceRev }

/-! ### The exchange (R12, R80, R81) -/

/-- `Xfer(b)`: sends `b`, takes the link's next reply, records the exchange. A cancellation request that the host raises
during the exchange is latched and not honoured here (R441). With no reply in the queue the exchange stays incomplete (R81;
log 3). -/
def xfer (b : Byte) : Proc Byte := fun s =>
  match s.link with
  | [] => .error .waiting { s with awaiting := some b }
  | i :: rest =>
    .ok i.reply
      { s with
        link := rest
        traceRev := .exchange b i.reply :: s.traceRev
        cancelReq := s.cancelReq || i.cancel }

/-- `XferBlock(bs)`: the exchanges in order (R12). -/
def xferBlock : List Byte → Proc (List Byte)
  | [] => pure []
  | b :: bs => do
    let r ← xfer b
    let rs ← xferBlock bs
    pure (r :: rs)

/-! ### Frames -/

/-- Every frame primitive first honours a pending cancellation request (R441). -/
def beginFrame : Proc Unit := fun s =>
  if s.cancelReq then .error .cancelled { s with cancelReq := false } else .ok () s

/-- `Probe()`: one handshake probe, a frame of its own (R111). -/
def probe : Proc Byte := do
  beginFrame
  xfer Config.hsProbe

/-- `n` exchanges that send FILL_BYTE; their replies are data (R13, R112, R114). -/
def dataIn (n : Nat) : Proc (List Byte) := do
  let s ← get
  xferBlock (List.replicate n s.cfg.fillByte)

/-- `HeaderIn()`: the 23 exchanges of the header phase as one frame (R114). -/
def headerIn : Proc (List Byte) := do
  beginFrame
  dataIn (Config.hdrLen + 2)

/-- `MemRead(addr, n)`: the READ frame, whose five command replies are discarded, and its data phase (R13, R112). -/
def memRead (addr len : U16) : Proc (List Byte) := do
  beginFrame
  let _ ← xferBlock (readFrameBytes addr len)
  dataIn len.toNat

/-- `MemWrite(addr, 1, v)`: the WRITE frame, whose replies are discarded (R13, R113). -/
def memWrite (addr : U16) (value : Byte) : Proc Unit := do
  beginFrame
  let _ ← xferBlock (writeFrameBytes addr value)
  pure ()

/-- A control write `W(a, v)` of a table (R118). -/
def ctrlWrite (w : CtrlWrite) : Proc Unit := memWrite w.addr w.value

/-- Control writes in the order of their list. -/
def ctrlWrites : List CtrlWrite → Proc Unit
  | [] => pure ()
  | w :: ws => do
    ctrlWrite w
    ctrlWrites ws

/-- A byte read by `MemRead(addr, 1)[0]`. -/
def memRead1 (addr : U16) : Proc Byte := do
  let d ← memRead addr 1
  pure (d.headD 0)

/-! ### Register writes -/

/-- `S.ec_* <- ...` (R45). -/
def setEc (r : EcRegs) : Proc Unit := modify fun s => { s with ec := some r }

/-- `S.we_* <- ...` (R46). -/
def setWe (r : WeRegs) : Proc Unit := modify fun s => { s with we := some r }

/-- `S.hs_* <- ...` (R47). -/
def setHs (r : HsRegs) : Proc Unit := modify fun s => { s with hs := some r }

/-- `S.poll_count <- n` (R48). -/
def setPoll (n : Nat) : Proc Unit := modify fun s => { s with poll := some n }

/-- `S.ee_* <- ...` (R49). -/
def setEe (r : EeRegs) : Proc Unit := modify fun s => { s with ee := some r }

/-- `S.ctrl.rom_shadow <- some n` (R44). -/
def setRomShadow (n : Nat) : Proc Unit :=
  modify fun s => { s with ctrl := s.ctrl.map fun c => { c with romShadow := some n } }

/-- `S.ctrl.ram_shadow <- some n` (R44). -/
def setRamShadow (n : Nat) : Proc Unit :=
  modify fun s => { s with ctrl := s.ctrl.map fun c => { c with ramShadow := some n } }

/-- Runs a loop that the spec leaves unbounded, with a bound it cannot reach: each round makes at least one exchange, so the
rounds are fewer than the replies in the queue plus one, and a loop that would go on waits for the link (R16, R175; log 4). -/
def unbounded {α : Type} (loop : Nat → Proc α) : Proc α := fun s => loop (s.link.length + 1) s

/-! ### The end of an operation -/

/-- The numeric code of an error kind (R420). -/
def errCode : ErrKind → Nat
  | .notConnected => 1
  | .protocolError => 2
  | .unsupportedCartridge => 3
  | .readUnstable => 4
  | .deviceTimeout => 5
  | .cancelled => 6

/-- The operation registers hold no value between operations (R45 to R49, R460), and nothing waits. -/
def State.idle (s : State) : State :=
  { s with ec := none, we := none, hs := none, poll := none, ee := none, awaiting := none, run := none }

/-- A normal end: `Result(op, value)` is appended (R442) and `hpc <- hpc + 1` (R53). -/
def State.endResult (op : OpId) (v : Value) (s : State) : State :=
  { s.idle with traceRev := .result op v :: s.traceRev, hpc := s.hpc + 1 }

/-- Error entry, the block's only trap mechanism (R435): `Error(op, code, info)` is appended, the operation registers lose
their values, `hpc` is not advanced and the host program stops with that outcome. -/
def State.raiseError (op : OpId) (kind : ErrKind) (info : Info) (s : State) : State :=
  { s.idle with traceRev := .error op kind info :: s.traceRev, stop := some (.error op kind info) }

/-- A refusal (R14, R51, R53, R430): no event, the sticky mark is set, `hpc` is not advanced and the program stops. -/
def State.takeRefusal (reason : RefuseReason) (s : State) : State :=
  { s.idle with refused := true, stop := some (.refusal reason) }

/-- An operation that waits for a reply: `s` is where it stands, `s0` where it was started (R43; log 3). -/
def State.suspend (i : Instr) (s0 s : State) : State :=
  { s with
    run := some { instr := i, link := s0.link, ctrl := s0.ctrl, cancelReq := s0.cancelReq, traceRev := s0.traceRev } }

/-- Runs the body of an instruction to its end (R53, R440): a result, an error, a refusal, or a wait for the link. -/
def runOp (i : Instr) (body : Proc Value) (s : State) : Host.Outcome State Fault Refusal :=
  match body s.idle with
  | .ok v s' => .next (s'.endResult i.opId v)
  | .error (.raised kind info) s' => .next (s'.raiseError i.opId kind info)
  | .error .cancelled s' => .next (s'.raiseError i.opId .cancelled (.opId i.opId))
  | .error (.refused reason) s' => .next (s'.takeRefusal reason)
  | .error .waiting s' => .next (State.suspend i s s')

/-- The state a waiting operation was started from, with the replies that have come since at the end of its queue; a
cancellation request the host made while it waited counts as made during the exchange that waits (log 3, log 5). -/
def State.rewind (r : Running) (i : LinkIn) (rest : List LinkIn) (s : State) : State :=
  { s.idle with
    link := r.link ++ { i with cancel := i.cancel || s.cancelReq } :: rest
    ctrl := r.ctrl
    cancelReq := r.cancelReq
    traceRev := r.traceRev }

/-! ### The host's side (R437, R440, R441) -/

/-- The host raises its cancellation request (R52, R441). -/
def State.requestCancel (s : State) : State := { s with cancelReq := true }

/-- The link device gives further replies (R80). -/
def State.supplyReplies (ins : List LinkIn) (s : State) : State := { s with link := s.link ++ ins }

/-- The host issues a program on the session as it stands: after an error or a refusal too, since there is no
return-from-error instruction and the host "may issue any further host operation on the same session" (R437). DESIGN CHOICE (log 29): where an operation still waits for the
link, a case that R440 says the host cannot bring about and R487 gives no meaning, that operation and its incomplete exchange are
dropped with no end event, in the middle of a frame it may be, and the new program starts at once. -/
def State.startProgram (p : List Request) (s : State) : State := { s.idle with program := p, hpc := 0, stop := none }

/-- Puts a request where the next step fetches: at index `n` of a program. -/
def placeAt {α : Type} : Nat → α → List α → List α
  | 0, x, [] => [x]
  | 0, x, _ :: ys => x :: ys
  | n + 1, x, [] => x :: placeAt n x []
  | n + 1, x, y :: ys => y :: placeAt n x ys

end Sys2Proof.Machine
end

