-- ==== Sys2Proof/Machine/Flags.lean ====
section
/-!
DEFINITION. The block's one status flag `S.connected` (R54) and the checks by which operations are admitted (R40, R132,
R421, R433). No operation has a condition code (R54).
-/

namespace Sys2Proof.Machine

/-- `if not S.connected: raise NotConnected(op)` (R421). -/
def requireConnected (op : OpName) : Proc Unit := fun s =>
  if s.connected then .ok () s else .error (.raised .notConnected (.op op)) s

/-- The checks of a controller operation in the order of R433: a controller, its variant, the connection (R40, R132). The
body receives the controller. -/
def withController (v : Variant) (op : OpName) (body : Controller → Proc Value) : Proc Value := fun s =>
  match s.ctrl with
  | none => .error (.refused .noController) s
  | some c =>
    if c.variant = v then
      (do requireConnected op; body c : Proc Value) s
    else .error (.refused .wrongVariant) s

/-- A failed `connect` leaves the session unconnected (R31, R60): after any error of it the session registers hold their
reset values. -/
def disconnectOnError {α : Type} (p : Proc α) : Proc α := fun s =>
  match p s with
  | .error (.raised kind info) s' => .error (.raised kind info) { s' with connected := false, header := none }
  | .error .cancelled s' => .error .cancelled { s' with connected := false, header := none }
  | r => r

end Sys2Proof.Machine
end

