-- ==== Sys2Proof/Machine/Operands.lean ====
section
/-!
DEFINITION. Operand forms: the range checks of R432, the split of an operand into the fields of a frame or of a control
write (R115, R231, R233), bits of a word, and the packing of images (R86, R87, R88).
-/

namespace Sys2Proof.Machine

/-- `if v > max: refuse(OperandRange)` (R432). -/
def checkRange (v max : Nat) : Proc Unit := refuseIf (decide (max < v)) .operandRange

/-- A checked operand as the byte it is sent in. -/
def toByte (v : Nat) : Byte := BitVec.ofNat 8 v

/-- A checked operand as the 16-bit field it is sent in (R115). -/
def toU16 (v : Nat) : U16 := BitVec.ofNat 16 v

/-- `v & 0x1F`: MBC1's low ROM bank bits (R231). -/
def low5 (n : Nat) : Byte := toByte (n &&& 0x1F)

/-- `(n >> 5) & 0xFF`: MBC1's high ROM bank bits (R231). -/
def high5 (n : Nat) : Byte := toByte ((n >>> 5) &&& 0xFF)

/-- The bits of `value`, most significant first: for i in count − 1 down to 0, `(value >> i) & 1` (R332). -/
def msbFirst (value : Nat) : Nat → List Bool
  | 0 => []
  | count + 1 => value.testBit count :: msbFirst value count

/-- MBC2 packing (R87, R282): cells `2i` and `2i + 1` give the high and the low nibble of image byte `i`. -/
def packNibbles : List Byte → List Byte
  | hi :: lo :: rest => (((hi &&& 0x0F) <<< 4) ||| (lo &&& 0x0F)) :: packNibbles rest
  | _ => []

/-- An EEPROM word as its two image bytes, high byte first (R86, R360). -/
def wordBytes (w : U16) : List Byte := [hi8 w, lo8 w]

/-- Image bytes `2a` and `2a + 1` as the EEPROM word `a` (R86, R361). -/
def imageWord (image : List Byte) (a : Nat) : U16 := join16 (image.getD (2 * a) 0) (image.getD (2 * a + 1) 0)

/-- `(ta >> 4)` beside a TAMA5 command in bits 3..1: the value of TAMA5_REG_CMD (R390, R396, R397). -/
def tama5Cmd (cmd : BitVec 3) (ta : Nat) : Nat := (cmd.toNat <<< 1) ||| (ta >>> 4)

/-- Two nibbles as a byte, the low one read first (R88, R396). -/
def joinNibbles (hi lo : Byte) : Byte := (hi <<< 4) ||| lo

end Sys2Proof.Machine
end

