-- ==== Sys2Proof/Machine/Session.lean ====
section
/-!
DEFINITION. The DeviceSession operations (40_session.md): `connect`, `read`, `write`, `read_ec` and `write_ec`. The last two
are procedures as well, since controller operations call them.
-/

namespace Sys2Proof.Machine

/-! ### connect (R150 to R156) -/

/-- `wait(d)`: a settle delay, which changes no state (R14, R152, R471). -/
def settle : Proc Unit := pure ()

/-- One handshake phase: at most `left` further probes, until the reply to a probe is `magic` (R151, R153). The bound is
checked before the probe, so the last probe may still match. Returns the probes sent in the phase. -/
def handshakeLoop (phase : HsPhase) (number : Nat) (magic : Byte) : (left attempts : Nat) → Proc Nat
  | 0, _ => raise .notConnected (.phase number)
  | left + 1, attempts => do
    let r ← probe
    setHs { phase := phase, attempts := attempts + 1, bytes := [] }
    if r = magic then pure (attempts + 1) else handshakeLoop phase number magic left (attempts + 1)

/-- A handshake phase from its start, of at most HS_LIMIT probes (R151, R153). -/
def handshake (phase : HsPhase) (number : Nat) (magic : Byte) : Proc Nat := do
  setHs { phase := phase, attempts := 0, bytes := [] }
  handshakeLoop phase number magic Config.hsLimit 0

/-- `ParseHeader(b[0..21))` (R155, R33 to R35, R85). -/
def parseHeader (b : List Byte) : Header where
  cartType := b.getD 0 0
  romSizeCode := b.getD 1 0
  ramSizeCode := b.getD 2 0
  checksum := join16 (b.getD 3 0) (b.getD 4 0)
  title := (b.drop 5).take 16

/-- The header phase and the terminator check (R154, R156). -/
def readHeader (attempts : Nat) : Proc Header := do
  setHs { phase := .hdr, attempts := attempts, bytes := [] }
  let bytes ← headerIn
  setHs { phase := .hdr, attempts := attempts, bytes := bytes }
  let t0 := bytes.getD Config.hdrLen 0
  let t1 := bytes.getD (Config.hdrLen + 1) 0
  if t0 = Config.hdrTerm0 ∧ t1 = Config.hdrTerm1 then pure (parseHeader (bytes.take Config.hdrLen))
  else raise .protocolError (.terminator t0 t1)

/-- `connect()` after its admission check (R150). -/
def connectBody : Proc Value := do
  let _ ← handshake .one 1 Config.hsMagic1
  settle
  let attempts ← handshake .two 2 Config.hsMagic2
  let h ← readHeader attempts
  modify fun s => { s with header := some h, connected := true }
  pure .unit

/-- `connect()` (R150): refused on a connected session. -/
def connect : Proc Value := fun s =>
  if s.connected then .error (.refused .alreadyConnected) s else disconnectOnError connectBody s

/-! ### read and write (R160, R162) -/

/-- `read(addr, length)` (R160). -/
def rawRead (addr length : Nat) : Proc (List Byte) := do
  requireConnected .read
  checkRange addr 0xFFFF
  checkRange length 0xFFFF
  refuseIf (decide (0x10000 < addr + length)) .rangeOverflow
  memRead (toU16 addr) (toU16 length)

/-- `write(addr, value)` (R162). -/
def rawWrite (addr value : Nat) : Proc Unit := do
  requireConnected .write
  checkRange addr 0xFFFF
  checkRange value 0xFF
  memWrite (toU16 addr) (toByte value)

/-! ### read_ec (R170 to R177) -/

/-- The address of the current chunk, `ec_base + ec_off`. -/
def EcRegs.chunkAddr (r : EcRegs) : Nat := r.base.toNat + r.off

/-- Agreement of the read just made with the one before it, of the same chunk (R173). -/
def ecAgrees (hash : ChunkHash) (prev : Option (List Byte)) (d : List Byte) : Bool :=
  match prev with
  | some p => decide (hash.apply p = hash.apply d)
  | none => false

/-- `ec_limit = some L` and `ec_reads ≥ L + 2` (R174). -/
def ecLimitReached (r : EcRegs) : Bool :=
  match r.limit with
  | some l => decide (l + 2 ≤ r.reads)
  | none => false

/-- EC_READ and EC_CMP of R177 until the chunk is accepted (EC_ACCEPT) or fails (EC_FAIL). -/
def ecAttempts : (rounds : Nat) → EcRegs → Proc EcRegs
  | 0, _ => throw .waiting
  | rounds + 1, r => do
    let d ← memRead (toU16 r.chunkAddr) (toU16 r.len)
    let r : EcRegs := { r with reads := r.reads + 1 }
    setEc r
    let s ← get
    if ecAgrees s.cfg.chunkHash r.prev d then
      let r : EcRegs := { r with out := r.out ++ d, off := r.off + r.len }
      setEc r
      pure r
    else if ecLimitReached r then raise .readUnstable (.chunk r.chunkAddr r.reads)
    else
      let r : EcRegs := { r with prev := some d }
      setEc r
      ecAttempts rounds r

/-- EC_CHUNK of R177 for at most `chunks` further chunks: EC_DONE when the whole range is accepted (R171). -/
def ecChunks : (chunks : Nat) → EcRegs → Proc (List Byte)
  | 0, r => pure r.out
  | chunks + 1, r =>
    if r.off < r.size then do
      let r : EcRegs := { r with len := min Config.ecChunk (r.size - r.off), prev := none, reads := 0 }
      setEc r
      let r ← unbounded fun rounds => ecAttempts rounds r
      ecChunks chunks r
    else pure r.out

/-- `read_ec(addr, size, retry_limit)` (R170). -/
def readEc (addr size : Nat) (limit : Option Nat) : Proc (List Byte) := do
  requireConnected .readEc
  checkRange addr 0xFFFF
  checkRange size 0x10000
  refuseIf (decide (0x10000 < addr + size)) .rangeOverflow
  let r : EcRegs :=
    { base := toU16 addr, size := size, off := 0, len := 0, prev := none, reads := 0, limit := limit, out := [] }
  setEc r
  ecChunks (size / Config.ecChunk + 1) r

/-- `read_ec(addr, 1, retry_limit)[0]`. -/
def readEc1 (addr : Nat) (limit : Option Nat) : Proc Byte := do
  let d ← readEc addr 1 limit
  pure (d.headD 0)

/-! ### write_ec (R180 to R183) -/

/-- `WRITE_EC_LIMIT = some K` and `we_rounds = K`. -/
def weLimitReached (limit : Option Nat) (rounds : Nat) : Bool :=
  match limit with
  | some k => decide (rounds = k)
  | none => false

/-- The write and read-back rounds (R180, R181, R182), with the compare mask `m`. -/
def weRounds (m : Byte) : (fuel : Nat) → WeRegs → Proc Unit
  | 0, _ => throw .waiting
  | fuel + 1, r => do
    let s ← get
    if weLimitReached s.cfg.writeEcLimit r.rounds then raise .deviceTimeout (.addr .writeEc r.addr)
    else
      memWrite r.addr r.value
      let d ← memRead1 r.addr
      let r : WeRegs := { r with rounds := r.rounds + 1 }
      setWe r
      if d &&& m = r.value &&& m then pure () else weRounds m fuel r

/-- `write_ec(addr, value, m)` (R180); the mask is 0xFF but for the cells of MBC2 (R291). -/
def writeEc (addr value : Nat) (m : Byte) : Proc Unit := do
  requireConnected .writeEc
  checkRange addr 0xFFFF
  checkRange value 0xFF
  let r : WeRegs := { addr := toU16 addr, value := toByte value, rounds := 0 }
  setWe r
  unbounded fun fuel => weRounds m fuel r

/-! ### The meanings -/

/-- `connect` (R150). -/
def execConnect (s : State) : Host.Outcome State Fault Refusal := runOp .connect connect s

/-- `read` (R160). -/
def execRead (addr length : Nat) (s : State) : Host.Outcome State Fault Refusal :=
  runOp (.read addr length) (do return .bytes (← rawRead addr length)) s

/-- `write` (R162). -/
def execWrite (addr value : Nat) (s : State) : Host.Outcome State Fault Refusal :=
  runOp (.write addr value) (do rawWrite addr value; return .unit) s

/-- `read_ec` (R170). -/
def execReadEc (addr size : Nat) (retryLimit : Option Nat) (s : State) : Host.Outcome State Fault Refusal :=
  runOp (.readEc addr size retryLimit) (do return .bytes (← readEc addr size retryLimit)) s

/-- `write_ec` (R180), with the mask 0xFF of the host operation. -/
def execWriteEc (addr value : Nat) (s : State) : Host.Outcome State Fault Refusal :=
  runOp (.writeEc addr value) (do writeEc addr value 0xFF; return .unit) s

end Sys2Proof.Machine
end

