-- ==== Sys2Proof/Machine/Camera.lean ====
section
/-!
DEFINITION. The camera capture busy-poll (46_camera.md).
-/

namespace Sys2Proof.Machine

/-- The busy-poll: `left` further status reads, each one `read_ec(0xA000, 1)`, until bit 0 is clear (R372). -/
def cameraPollLoop (limit : Option Nat) : (left polls : Nat) → Proc Unit
  | 0, polls => raise .deviceTimeout (.polls .takePhoto polls)
  | left + 1, polls => do
    let d ← readEc1 Config.ramWin limit
    setPoll (polls + 1)
    if d &&& 0x01 = 0 then pure () else cameraPollLoop limit left (polls + 1)

/-- `take_photo(retry_limit)`: sensor bank, trigger, busy-poll of at most CAMERA_POLL_LIMIT reads (R370 to R373). -/
def takePhoto (limit : Option Nat) : Proc Unit := do
  memWrite 0x4000 (toByte Config.cameraSensorBank)
  setRamShadow Config.cameraSensorBank
  let s ← get
  memWrite (toU16 Config.ramWin) s.cfg.cameraTrigger
  setPoll 0
  cameraPollLoop limit s.cfg.cameraPollLimit 0

/-- `take_photo.Camera` (R370). -/
def execTakePhoto (retryLimit : Option Nat) (s : State) : Host.Outcome State Fault Refusal :=
  runOp (.takePhoto retryLimit) (withController .camera .takePhoto fun _ => do takePhoto retryLimit; return .unit) s

end Sys2Proof.Machine
end

