-- ==== Sys2Proof/Machine/Tama5.lean ====
section
/-!
DEFINITION. The TAMA5 nibble-multiplexed register protocol (47_tama5.md): unlock, sub-register access, ROM select, RAM bytes.
-/

namespace Sys2Proof.Machine

/-! ### Unlock and register access (R392, R393, R394) -/

/-- The unlock poll: `left` further polls of the sub-register TAMA5_REG_ACTIVE, until its low nibble is 1 (R392). -/
def tama5UnlockLoop (limit : Option Nat) : (left polls : Nat) → Proc Unit
  | 0, polls => raise .deviceTimeout (.polls .tama5Unlock polls)
  | left + 1, polls => do
    let s ← get
    memWrite s.cfg.tama5Sel (toByte s.cfg.tama5RegActive.toNat)
    let d ← readEc1 s.cfg.tama5Data.toNat limit
    setPoll (polls + 1)
    if d &&& 0x0F = 0x01 then pure () else tama5UnlockLoop limit left (polls + 1)

/-- `tama5_unlock(retry_limit)`, at most TAMA5_UNLOCK_LIMIT polls (R392). -/
def tama5Unlock (limit : Option Nat) : Proc Unit := do
  setPoll 0
  tama5UnlockLoop limit Config.tama5UnlockLimit 0

/-- `tama5_write_reg(r, nib)` (R393). -/
def tama5WriteReg (r nib : Nat) : Proc Unit := do
  refuseIf (decide (0x0F < r) || decide (0x0F < nib)) .operandRange
  let s ← get
  memWrite s.cfg.tama5Sel (toByte r)
  memWrite s.cfg.tama5Data (toByte nib)

/-- `tama5_read_reg(r, retry_limit)`: the low nibble of the agreed byte (R394). -/
def tama5ReadReg (r : Nat) (limit : Option Nat) : Proc Byte := do
  checkRange r 0x0F
  let s ← get
  memWrite s.cfg.tama5Sel (toByte r)
  let d ← readEc1 s.cfg.tama5Data.toNat limit
  pure (d &&& 0x0F)

/-! ### ROM select and RAM bytes (R395, R396, R397) -/

/-- `select_rom_bank(n)` on TAMA5: unlock with no retry limit, then the two nibbles (R395). -/
def selectRomTama5 (n : Nat) : Proc Unit := do
  checkRange n 0xFF
  tama5Unlock none
  let s ← get
  tama5WriteReg s.cfg.tama5RegRomLo.toNat (n &&& 0x0F)
  tama5WriteReg s.cfg.tama5RegRomHi.toNat ((n >>> 4) &&& 0x0F)
  setRomShadow n

/-- `tama5_ram_read(ta, retry_limit)`: low nibble first (R396). -/
def tama5RamRead (ta : Nat) (limit : Option Nat) : Proc Byte := do
  checkRange ta 31
  let s ← get
  tama5WriteReg s.cfg.tama5RegCmd.toNat (tama5Cmd s.cfg.tama5CmdRead ta)
  tama5WriteReg s.cfg.tama5RegAddrLo.toNat (ta &&& 0x0F)
  let lo ← tama5ReadReg s.cfg.tama5RegRdLo.toNat limit
  let hi ← tama5ReadReg s.cfg.tama5RegRdHi.toNat limit
  pure (joinNibbles hi lo)

/-- `tama5_ram_write(ta, value)`: the data nibbles before the command (R397). -/
def tama5RamWrite (ta value : Nat) : Proc Unit := do
  refuseIf (decide (31 < ta) || decide (0xFF < value)) .operandRange
  let s ← get
  tama5WriteReg s.cfg.tama5RegWrLo.toNat (value &&& 0x0F)
  tama5WriteReg s.cfg.tama5RegWrHi.toNat (value >>> 4)
  tama5WriteReg s.cfg.tama5RegCmd.toNat (tama5Cmd s.cfg.tama5CmdWrite ta)
  tama5WriteReg s.cfg.tama5RegAddrLo.toNat (ta &&& 0x0F)

/-! ### The meanings -/

/-- `tama5_unlock.TAMA5` (R392). -/
def execTama5Unlock (retryLimit : Option Nat) (s : State) : Host.Outcome State Fault Refusal :=
  runOp (.tama5Unlock retryLimit)
    (withController .tama5 .tama5Unlock fun _ => do tama5Unlock retryLimit; return .unit) s

/-- `tama5_write_reg.TAMA5` (R393). -/
def execTama5WriteReg (r nib : Nat) (s : State) : Host.Outcome State Fault Refusal :=
  runOp (.tama5WriteReg r nib) (withController .tama5 .tama5WriteReg fun _ => do tama5WriteReg r nib; return .unit) s

/-- `tama5_read_reg.TAMA5` (R394). -/
def execTama5ReadReg (r : Nat) (retryLimit : Option Nat) (s : State) : Host.Outcome State Fault Refusal :=
  runOp (.tama5ReadReg r retryLimit)
    (withController .tama5 .tama5ReadReg fun _ => do return .byte (← tama5ReadReg r retryLimit)) s

/-- `tama5_ram_read.TAMA5` (R396). -/
def execTama5RamRead (ta : Nat) (retryLimit : Option Nat) (s : State) : Host.Outcome State Fault Refusal :=
  runOp (.tama5RamRead ta retryLimit)
    (withController .tama5 .tama5RamRead fun _ => do return .byte (← tama5RamRead ta retryLimit)) s

/-- `tama5_ram_write.TAMA5` (R397). -/
def execTama5RamWrite (ta value : Nat) (s : State) : Host.Outcome State Fault Refusal :=
  runOp (.tama5RamWrite ta value)
    (withController .tama5 .tama5RamWrite fun _ => do tama5RamWrite ta value; return .unit) s

end Sys2Proof.Machine
end

