-- ==== Sys2Proof/Machine/Bank.lean ====
section
/-!
DEFINITION. Bank selection and RAM enable (42_bank_select.md; TAMA5's ROM select is 47_tama5.md R395). Each select is a
procedure of its own, since the dumps and restores of the same variant call it.
-/

namespace Sys2Proof.Machine

/-! ### select_rom_bank -/

/-- `select_rom_bank(n)` on Base: a no-op (R230). -/
def selectRomBase (n : Nat) : Proc Unit := do
  checkRange n 0xFF
  setRomShadow n

/-- `select_rom_bank(n)` on MBC1: low bits, high bits, mode (R231). -/
def selectRomMbc1 (n : Nat) : Proc Unit := do
  checkRange n 0xFF
  let s ← get
  memWrite 0x2100 (low5 n)
  memWrite 0x4000 (high5 n)
  memWrite 0x6000 s.cfg.mbc1ModeValue
  setRomShadow n
  setRamShadow (n >>> 5)

/-- `select_rom_bank(n)`, "standard": MBC2, MBC3, MBC7 and Camera (R232). -/
def selectRomStd (n : Nat) : Proc Unit := do
  checkRange n 0xFF
  memWrite 0x2100 (toByte n)
  setRomShadow n

/-- `select_rom_bank(n)` on MBC5: low eight bits, then the high bit (R233). -/
def selectRomMbc5 (n : Nat) : Proc Unit := do
  checkRange n 0x1FF
  memWrite 0x2100 (toByte (n &&& 0xFF))
  memWrite 0x3000 (toByte ((n >>> 8) &&& 0x01))
  setRomShadow n

/-- `select_rom_bank(n)` on MBC6, an 8 KiB block number (R234). -/
def selectRomMbc6 (n : Nat) : Proc Unit := do
  checkRange n 0xFF
  let s ← get
  memWrite s.cfg.mbc6RomSel (toByte n)
  setRomShadow n

/-- The current variant's `select_rom_bank` (43_dump_restore.md's preamble). -/
def selectRomBank : Variant → Nat → Proc Unit
  | .base => selectRomBase
  | .mbc1 => selectRomMbc1
  | .mbc2 => selectRomStd
  | .mbc3 => selectRomStd
  | .mbc5 => selectRomMbc5
  | .mbc6 => selectRomMbc6
  | .mbc7 => selectRomStd
  | .camera => selectRomStd
  | .tama5 => selectRomTama5

/-! ### select_ram_bank -/

/-- `select_ram_bank(n)`, "standard": Base, MBC3, MBC5, MBC7 and Camera (R240). -/
def selectRamStd (n : Nat) : Proc Unit := do
  checkRange n 0xFF
  memWrite 0x4000 (toByte n)
  setRamShadow n

/-- `select_ram_bank(n)` on MBC1: the mode first (R241). -/
def selectRamMbc1 (n : Nat) : Proc Unit := do
  checkRange n 0xFF
  let s ← get
  memWrite 0x6000 s.cfg.mbc1ModeValue
  memWrite 0x4000 (toByte n)
  setRamShadow n

/-- `select_ram_bank(n)` on MBC2 and TAMA5: no frame (R242). -/
def selectRamNone (n : Nat) : Proc Unit := do
  checkRange n 0xFF
  setRamShadow n

/-- `select_ram_bank(n)` on MBC6 (R243). -/
def selectRamMbc6 (n : Nat) : Proc Unit := do
  checkRange n 0xFF
  let s ← get
  memWrite s.cfg.mbc6RamSel (toByte n)
  setRamShadow n

/-- The current variant's `select_ram_bank` (43_dump_restore.md's preamble). -/
def selectRamBank : Variant → Nat → Proc Unit
  | .base => selectRamStd
  | .mbc1 => selectRamMbc1
  | .mbc2 => selectRamNone
  | .mbc3 => selectRamStd
  | .mbc5 => selectRamStd
  | .mbc6 => selectRamMbc6
  | .mbc7 => selectRamStd
  | .camera => selectRamStd
  | .tama5 => selectRamNone

/-! ### enable_ram -/

/-- `RAM_ENABLE_SEQ(variant)` (R250). -/
def ramEnableSeq (table : List (Variant × List CtrlWrite)) (v : Variant) : List CtrlWrite :=
  ((table.find? fun row => row.1 == v).map (·.2)).getD []

/-- `enable_ram()` (R251). -/
def enableRam (v : Variant) : Proc Unit := do
  let s ← get
  ctrlWrites (ramEnableSeq s.cfg.ramEnableSeq v)
  if v = .mbc7 then setRamShadow 0x40 else pure ()

/-! ### The meanings: one per row of the table -/

/-- `select_rom_bank.Base` (R230). -/
def execSelectRomBankBase (n : Nat) (s : State) : Host.Outcome State Fault Refusal :=
  runOp (.selectRomBankBase n) (withController .base .selectRomBank fun _ => do selectRomBank .base n; return .unit) s

/-- `select_rom_bank.MBC1` (R231). -/
def execSelectRomBankMbc1 (n : Nat) (s : State) : Host.Outcome State Fault Refusal :=
  runOp (.selectRomBankMbc1 n) (withController .mbc1 .selectRomBank fun _ => do selectRomBank .mbc1 n; return .unit) s

/-- `select_rom_bank.MBC2` (R232). -/
def execSelectRomBankMbc2 (n : Nat) (s : State) : Host.Outcome State Fault Refusal :=
  runOp (.selectRomBankMbc2 n) (withController .mbc2 .selectRomBank fun _ => do selectRomBank .mbc2 n; return .unit) s

/-- `select_rom_bank.MBC3` (R232). -/
def execSelectRomBankMbc3 (n : Nat) (s : State) : Host.Outcome State Fault Refusal :=
  runOp (.selectRomBankMbc3 n) (withController .mbc3 .selectRomBank fun _ => do selectRomBank .mbc3 n; return .unit) s

/-- `select_rom_bank.MBC5` (R233). -/
def execSelectRomBankMbc5 (n : Nat) (s : State) : Host.Outcome State Fault Refusal :=
  runOp (.selectRomBankMbc5 n) (withController .mbc5 .selectRomBank fun _ => do selectRomBank .mbc5 n; return .unit) s

/-- `select_rom_bank.MBC6` (R234). -/
def execSelectRomBankMbc6 (n : Nat) (s : State) : Host.Outcome State Fault Refusal :=
  runOp (.selectRomBankMbc6 n) (withController .mbc6 .selectRomBank fun _ => do selectRomBank .mbc6 n; return .unit) s

/-- `select_rom_bank.MBC7` (R232). -/
def execSelectRomBankMbc7 (n : Nat) (s : State) : Host.Outcome State Fault Refusal :=
  runOp (.selectRomBankMbc7 n) (withController .mbc7 .selectRomBank fun _ => do selectRomBank .mbc7 n; return .unit) s

/-- `select_rom_bank.Camera` (R232). -/
def execSelectRomBankCamera (n : Nat) (s : State) : Host.Outcome State Fault Refusal :=
  runOp (.selectRomBankCamera n) (withController .camera .selectRomBank fun _ => do selectRomBank .camera n; return .unit) s

/-- `select_rom_bank.TAMA5` (R395). -/
def execSelectRomBankTama5 (n : Nat) (s : State) : Host.Outcome State Fault Refusal :=
  runOp (.selectRomBankTama5 n) (withController .tama5 .selectRomBank fun _ => do selectRomBank .tama5 n; return .unit) s

/-- `select_ram_bank.Base` (R240). -/
def execSelectRamBankBase (n : Nat) (s : State) : Host.Outcome State Fault Refusal :=
  runOp (.selectRamBankBase n) (withController .base .selectRamBank fun _ => do selectRamBank .base n; return .unit) s

/-- `select_ram_bank.MBC1` (R241). -/
def execSelectRamBankMbc1 (n : Nat) (s : State) : Host.Outcome State Fault Refusal :=
  runOp (.selectRamBankMbc1 n) (withController .mbc1 .selectRamBank fun _ => do selectRamBank .mbc1 n; return .unit) s

/-- `select_ram_bank.MBC2` (R242). -/
def execSelectRamBankMbc2 (n : Nat) (s : State) : Host.Outcome State Fault Refusal :=
  runOp (.selectRamBankMbc2 n) (withController .mbc2 .selectRamBank fun _ => do selectRamBank .mbc2 n; return .unit) s

/-- `select_ram_bank.MBC3` (R240). -/
def execSelectRamBankMbc3 (n : Nat) (s : State) : Host.Outcome State Fault Refusal :=
  runOp (.selectRamBankMbc3 n) (withController .mbc3 .selectRamBank fun _ => do selectRamBank .mbc3 n; return .unit) s

/-- `select_ram_bank.MBC5` (R240). -/
def execSelectRamBankMbc5 (n : Nat) (s : State) : Host.Outcome State Fault Refusal :=
  runOp (.selectRamBankMbc5 n) (withController .mbc5 .selectRamBank fun _ => do selectRamBank .mbc5 n; return .unit) s

/-- `select_ram_bank.MBC6` (R243). -/
def execSelectRamBankMbc6 (n : Nat) (s : State) : Host.Outcome State Fault Refusal :=
  runOp (.selectRamBankMbc6 n) (withController .mbc6 .selectRamBank fun _ => do selectRamBank .mbc6 n; return .unit) s

/-- `select_ram_bank.MBC7` (R240). -/
def execSelectRamBankMbc7 (n : Nat) (s : State) : Host.Outcome State Fault Refusal :=
  runOp (.selectRamBankMbc7 n) (withController .mbc7 .selectRamBank fun _ => do selectRamBank .mbc7 n; return .unit) s

/-- `select_ram_bank.Camera` (R240). -/
def execSelectRamBankCamera (n : Nat) (s : State) : Host.Outcome State Fault Refusal :=
  runOp (.selectRamBankCamera n) (withController .camera .selectRamBank fun _ => do selectRamBank .camera n; return .unit) s

/-- `select_ram_bank.TAMA5` (R242). -/
def execSelectRamBankTama5 (n : Nat) (s : State) : Host.Outcome State Fault Refusal :=
  runOp (.selectRamBankTama5 n) (withController .tama5 .selectRamBank fun _ => do selectRamBank .tama5 n; return .unit) s

/-- `enable_ram.Base` (R251). -/
def execEnableRamBase (s : State) : Host.Outcome State Fault Refusal :=
  runOp .enableRamBase (withController .base .enableRam fun _ => do enableRam .base; return .unit) s

/-- `enable_ram.MBC1` (R251). -/
def execEnableRamMbc1 (s : State) : Host.Outcome State Fault Refusal :=
  runOp .enableRamMbc1 (withController .mbc1 .enableRam fun _ => do enableRam .mbc1; return .unit) s

/-- `enable_ram.MBC2` (R251). -/
def execEnableRamMbc2 (s : State) : Host.Outcome State Fault Refusal :=
  runOp .enableRamMbc2 (withController .mbc2 .enableRam fun _ => do enableRam .mbc2; return .unit) s

/-- `enable_ram.MBC3` (R251). -/
def execEnableRamMbc3 (s : State) : Host.Outcome State Fault Refusal :=
  runOp .enableRamMbc3 (withController .mbc3 .enableRam fun _ => do enableRam .mbc3; return .unit) s

/-- `enable_ram.MBC5` (R251). -/
def execEnableRamMbc5 (s : State) : Host.Outcome State Fault Refusal :=
  runOp .enableRamMbc5 (withController .mbc5 .enableRam fun _ => do enableRam .mbc5; return .unit) s

/-- `enable_ram.MBC6` (R251). -/
def execEnableRamMbc6 (s : State) : Host.Outcome State Fault Refusal :=
  runOp .enableRamMbc6 (withController .mbc6 .enableRam fun _ => do enableRam .mbc6; return .unit) s

/-- `enable_ram.MBC7` (R251). -/
def execEnableRamMbc7 (s : State) : Host.Outcome State Fault Refusal :=
  runOp .enableRamMbc7 (withController .mbc7 .enableRam fun _ => do enableRam .mbc7; return .unit) s

/-- `enable_ram.Camera` (R251). -/
def execEnableRamCamera (s : State) : Host.Outcome State Fault Refusal :=
  runOp .enableRamCamera (withController .camera .enableRam fun _ => do enableRam .camera; return .unit) s

/-- `enable_ram.TAMA5` (R251). -/
def execEnableRamTama5 (s : State) : Host.Outcome State Fault Refusal :=
  runOp .enableRamTama5 (withController .tama5 .enableRam fun _ => do enableRam .tama5; return .unit) s

end Sys2Proof.Machine
end

