-- ==== Sys2Proof/Machine/Eeprom.lean ====
section
/-!
DEFINITION. The MBC7 EEPROM protocol and accelerometer (45_mbc7_eeprom.md). MBC7's dump and restore are in Dump.lean.
-/

namespace Sys2Proof.Machine

/-! ### Bits (R330, R331, R332) -/

/-- `EE_CS | d` or `EE_CS | EE_CLK | d`, the two values that clock one bit (R121, R330). -/
def eePortValue (cfg : Params) (clk bit : Bool) : Byte :=
  cfg.eeCs ||| (if clk then cfg.eeClk else 0) ||| (if bit then cfg.eeDi else 0)

/-- `eeprom_shift_in(bit)`: clock low with data, then clock high with data (R330). -/
def eeShiftIn (bit : Bool) : Proc Unit := do
  let s ← get
  memWrite s.cfg.eeReg (eePortValue s.cfg false bit)
  memWrite s.cfg.eeReg (eePortValue s.cfg true bit)

/-- `eeprom_shift_inout(bit)`: a pulse, then the response bit by one plain read (R331). -/
def eeShiftInout (bit : Bool) : Proc Bool := do
  eeShiftIn bit
  let s ← get
  let r ← memRead1 s.cfg.eeReg
  pure (decide (r &&& s.cfg.eeDo ≠ 0))

/-- The bits of `ee_send_bits`, counted in `ee_bit` (R332). -/
def eeSendLoop (word : U16) : List Bool → (sent : Nat) → Proc Unit
  | [], _ => pure ()
  | b :: bs, sent => do
    eeShiftIn b
    setEe { word := word, bit := sent + 1 }
    eeSendLoop word bs (sent + 1)

/-- `ee_send_bits(value, count)`, most significant bit first; `ee_bit` counts the bits of this call (R332; log 30). -/
def eeSendBits (value count : Nat) : Proc Unit := do
  setEe { word := toU16 value, bit := 0 }
  eeSendLoop (toU16 value) (msbFirst value count) 0

/-- The bits of `ee_recv_bits`: `ee_word <- (ee_word << 1) | bit` (R332). -/
def eeRecvLoop : (left : Nat) → EeRegs → Proc U16
  | 0, r => pure r.word
  | left + 1, r => do
    let b ← eeShiftInout false
    let r : EeRegs := { word := (r.word <<< 1) ||| (if b then 1 else 0), bit := r.bit + 1 }
    setEe r
    eeRecvLoop left r

/-- `ee_recv_bits(count)` (R332). DEDUCED (log 30): R332 writes only `ee_word <- 0` before the bits; `ee_bit` starts at 0 here as well,
so that it counts the bits shifted so far, 0 to 16 (R49). -/
def eeRecvBits (count : Nat) : Proc U16 := do
  setEe { word := 0, bit := 0 }
  eeRecvLoop count { word := 0, bit := 0 }

/-! ### Commands (R334 to R342) -/

/-- EE_INIT, step by step (R334). -/
def eeInitSteps : List EeInitStep → Proc Unit
  | [] => pure ()
  | .write w :: rest => do
    ctrlWrite w
    eeInitSteps rest
  | .shift b :: rest => do
    eeShiftIn b
    eeInitSteps rest

/-- `ee_start()` (R334). -/
def eeStart : Proc Unit := do
  let s ← get
  eeInitSteps s.cfg.eeInit

/-- `ee_command(opc, field)` (R335). -/
def eeCommand (opc : BitVec 2) (field : Byte) : Proc Unit := do
  eeStart
  eeSendBits opc.toNat 2
  eeSendBits field.toNat 8

/-- A sub-operation in the top two bits of the field, then padding 0 (R125, R339 to R342). -/
def eeSubField (sub : BitVec 2) : Byte := toByte (sub.toNat <<< 6)

/-- The polls of `eeprom_wait`: `left` further ones, until one reads 1 (R343). -/
def eepromWaitLoop : (left polls : Nat) → Proc Unit
  | 0, polls => raise .deviceTimeout (.polls .eepromWait polls)
  | left + 1, polls => do
    let b ← eeShiftInout false
    setPoll (polls + 1)
    if b then pure () else eepromWaitLoop left (polls + 1)

/-- `eeprom_wait()`: the prelude, then at most EEPROM_WAIT_LIMIT polls (R343, R344). -/
def eepromWait : Proc Unit := do
  let s ← get
  ctrlWrites s.cfg.eeWaitPrelude
  setPoll 0
  eepromWaitLoop s.cfg.eepromWaitLimit 0

/-- `eeprom_read(ee_addr)` (R336). -/
def eepromRead (eeAddr : Nat) : Proc U16 := do
  checkRange eeAddr 127
  let s ← get
  eeCommand s.cfg.eeOpcRead (toByte eeAddr)
  eeRecvBits 16

/-- `eeprom_write(ee_addr, word)` (R337). -/
def eepromWrite (eeAddr word : Nat) : Proc Unit := do
  refuseIf (decide (127 < eeAddr) || decide (0xFFFF < word)) .operandRange
  let s ← get
  eeCommand s.cfg.eeOpcWrite (toByte eeAddr)
  eeSendBits word 16
  eepromWait

/-- `eeprom_erase(ee_addr)` (R338). -/
def eepromErase (eeAddr : Nat) : Proc Unit := do
  checkRange eeAddr 127
  let s ← get
  eeCommand s.cfg.eeOpcErase (toByte eeAddr)
  eepromWait

/-- `eeprom_ewen()` (R339). -/
def eepromEwen : Proc Unit := do
  let s ← get
  eeCommand 0b00 (eeSubField s.cfg.eeSubEwen)

/-- `eeprom_ewds()` (R340). -/
def eepromEwds : Proc Unit := do
  let s ← get
  eeCommand 0b00 (eeSubField s.cfg.eeSubEwds)

/-- `eeprom_eral()` (R341). -/
def eepromEral : Proc Unit := do
  let s ← get
  eeCommand 0b00 (eeSubField s.cfg.eeSubEral)
  eepromWait

/-- `eeprom_wral(word)` (R342). -/
def eepromWral (word : Nat) : Proc Unit := do
  checkRange word 0xFFFF
  let s ← get
  eeCommand 0b00 (eeSubField s.cfg.eeSubWral)
  eeSendBits word 16
  eepromWait

/-! ### Accelerometer (R350) -/

/-- `sample_accel(retry_limit)`: latch, then X and Y, each low byte then high byte (R350, R88). -/
def sampleAccel (limit : Option Nat) : Proc (U16 × U16) := do
  let s ← get
  ctrlWrite s.cfg.accelLatch1
  ctrlWrite s.cfg.accelLatch2
  let xl ← readEc1 s.cfg.accelXl.toNat limit
  let xh ← readEc1 s.cfg.accelXh.toNat limit
  let yl ← readEc1 s.cfg.accelYl.toNat limit
  let yh ← readEc1 s.cfg.accelYh.toNat limit
  pure (join16 xh xl, join16 yh yl)

/-! ### The meanings -/

/-- `eeprom_shift_in.MBC7` (R330). -/
def execEepromShiftIn (bit : Nat) (s : State) : Host.Outcome State Fault Refusal :=
  runOp (.eepromShiftIn bit)
    (withController .mbc7 .eepromShiftIn fun _ => do
      checkRange bit 1
      eeShiftIn (decide (bit = 1))
      return .unit) s

/-- `eeprom_shift_inout.MBC7` (R331): the response bit as a byte 0 or 1 (log 26). -/
def execEepromShiftInout (bit : Nat) (s : State) : Host.Outcome State Fault Refusal :=
  runOp (.eepromShiftInout bit)
    (withController .mbc7 .eepromShiftInout fun _ => do
      checkRange bit 1
      let b ← eeShiftInout (decide (bit = 1))
      return .byte (if b then 1 else 0)) s

/-- `eeprom_read.MBC7` (R336). -/
def execEepromRead (eeAddr : Nat) (s : State) : Host.Outcome State Fault Refusal :=
  runOp (.eepromRead eeAddr) (withController .mbc7 .eepromRead fun _ => do return .word (← eepromRead eeAddr)) s

/-- `eeprom_write.MBC7` (R337). -/
def execEepromWrite (eeAddr word : Nat) (s : State) : Host.Outcome State Fault Refusal :=
  runOp (.eepromWrite eeAddr word)
    (withController .mbc7 .eepromWrite fun _ => do eepromWrite eeAddr word; return .unit) s

/-- `eeprom_erase.MBC7` (R338). -/
def execEepromErase (eeAddr : Nat) (s : State) : Host.Outcome State Fault Refusal :=
  runOp (.eepromErase eeAddr) (withController .mbc7 .eepromErase fun _ => do eepromErase eeAddr; return .unit) s

/-- `eeprom_ewen.MBC7` (R339). -/
def execEepromEwen (s : State) : Host.Outcome State Fault Refusal :=
  runOp .eepromEwen (withController .mbc7 .eepromEwen fun _ => do eepromEwen; return .unit) s

/-- `eeprom_ewds.MBC7` (R340). -/
def execEepromEwds (s : State) : Host.Outcome State Fault Refusal :=
  runOp .eepromEwds (withController .mbc7 .eepromEwds fun _ => do eepromEwds; return .unit) s

/-- `eeprom_eral.MBC7` (R341). -/
def execEepromEral (s : State) : Host.Outcome State Fault Refusal :=
  runOp .eepromEral (withController .mbc7 .eepromEral fun _ => do eepromEral; return .unit) s

/-- `eeprom_wral.MBC7` (R342). -/
def execEepromWral (word : Nat) (s : State) : Host.Outcome State Fault Refusal :=
  runOp (.eepromWral word) (withController .mbc7 .eepromWral fun _ => do eepromWral word; return .unit) s

/-- `eeprom_wait.MBC7` (R343). -/
def execEepromWait (s : State) : Host.Outcome State Fault Refusal :=
  runOp .eepromWait (withController .mbc7 .eepromWait fun _ => do eepromWait; return .unit) s

/-- `sample_accel.MBC7` (R350). -/
def execSampleAccel (retryLimit : Option Nat) (s : State) : Host.Outcome State Fault Refusal :=
  runOp (.sampleAccel retryLimit)
    (withController .mbc7 .sampleAccel fun _ => do
      let p ← sampleAccel retryLimit
      return .words p.1 p.2) s

end Sys2Proof.Machine
end

