-- ==== Sys2Proof/Machine/Dump.lean ====
section
/-!
DEFINITION. ROM and RAM dump and restore (43_dump_restore.md; MBC7's R360 and R361, TAMA5's R400 and R401). An error of a
nested operation ends the whole operation and no image is returned (R273, R292): that is how `Proc` sequences.
-/

namespace Sys2Proof.Machine

/-! ### dump_rom (R270 to R274) -/

/-- `if progress: Emit(Progress(k, b))` (R271). -/
def emitProgress (progress : Bool) (k : Nat) (b : List Byte) : Proc Unit :=
  if progress then emit (.progress k b) else pure ()

/-- The banks `k` of a list: select, read the bank's window, report, concatenate (R270, R272, R274). -/
def dumpBanks (select : Nat → Proc Unit) (window : Nat → Nat) (size : Nat) (progress : Bool) (limit : Option Nat) :
    List Nat → Proc (List Byte)
  | [] => pure []
  | k :: ks => do
    select k
    let b ← readEc (window k) size limit
    emitProgress progress k b
    let rest ← dumpBanks select window size progress limit ks
    pure (b ++ rest)

/-- `dump_rom` of every variant but MBC6: bank 0 at 0x0000 without a select, then banks 1 to count − 1 (R270). -/
def dumpRom (v : Variant) (window : Nat → Nat) (count : Nat) (progress : Bool) (limit : Option Nat) :
    Proc (List Byte) := do
  let b ← readEc Config.romWin0 Config.romBankSize limit
  emitProgress progress 0 b
  let rest ← dumpBanks (selectRomBank v) window Config.romBankSize progress limit (List.range' 1 (count - 1))
  pure (b ++ rest)

/-- Every bank after bank 0 is read at 0x4000 (R270). -/
def stdWindow (_ : Nat) : Nat := Config.romWinX

/-- On MBC1 a bank with `k & 0x1F = 0` is read at 0x0000 (R272). -/
def mbc1Window (k : Nat) : Nat := if k &&& 0x1F = 0 then Config.romWin0 else Config.romWinX

/-- `dump_rom` on MBC6: twice as many blocks of MBC6_ROM_BLOCK bytes, block 0 included (R274). -/
def dumpRomMbc6 (count : Nat) (progress : Bool) (limit : Option Nat) : Proc (List Byte) := do
  let s ← get
  dumpBanks selectRomMbc6 stdWindow s.cfg.mbc6RomBlock progress limit (List.range (2 * count))

/-! ### dump_ram (R280 to R282, R360, R400) -/

/-- GRAN of R281. -/
def ramGran (cfg : Params) : Variant → Nat
  | .mbc6 => cfg.mbc6RamBank
  | _ => Config.ramBankSize

/-- `per = GRAN / WIN` (R280, R281). -/
def ramPer (cfg : Params) (v : Variant) : Nat := ramGran cfg v / Config.ramDumpWindow

/-- The address of RAM window `i`: `RAM_WIN + (i mod per) × WIN` (R280). -/
def ramWindowAddr (per i : Nat) : Nat := Config.ramWin + (i % per) * Config.ramDumpWindow

/-- `if i mod per = 0: select_ram_bank(i / per)` (R280). -/
def selectRamForWindow (v : Variant) (per i : Nat) : Proc Unit :=
  if i % per = 0 then selectRamBank v (i / per) else pure ()

/-- The windows `i` of a list, read in order (R280). -/
def dumpWindows (v : Variant) (per : Nat) (limit : Option Nat) : List Nat → Proc (List Byte)
  | [] => pure []
  | i :: is => do
    selectRamForWindow v per i
    let b ← readEc (ramWindowAddr per i) Config.ramDumpWindow limit
    let rest ← dumpWindows v per limit is
    pure (b ++ rest)

/-- `dump_ram(retry_limit)` of the variants with windows (R280). -/
def dumpRamStd (v : Variant) (size : Nat) (limit : Option Nat) : Proc (List Byte) :=
  if size = 0 then pure []
  else do
    enableRam v
    let s ← get
    dumpWindows v (ramPer s.cfg v) limit (List.range (size / Config.ramDumpWindow))

/-- `dump_ram(retry_limit)` on MBC2: 512 cells packed to 256 bytes (R282, R87). -/
def dumpRamMbc2 (limit : Option Nat) : Proc (List Byte) := do
  enableRam .mbc2
  let c ← readEc Config.ramWin 0x200 limit
  pure (packNibbles c)

/-- The EEPROM words of a list of cells, in order (R360). -/
def dumpWords : List Nat → Proc (List Byte)
  | [] => pure []
  | a :: as => do
    let w ← eepromRead a
    let rest ← dumpWords as
    pure (wordBytes w ++ rest)

/-- `dump_ram(retry_limit)` on MBC7; the retry limit is not used (R360). -/
def dumpRamMbc7 : Proc (List Byte) := do
  enableRam .mbc7
  dumpWords (List.range 128)

/-- The TAMA5 RAM bytes of a list of addresses, in order (R400). -/
def dumpNibbles (limit : Option Nat) : List Nat → Proc (List Byte)
  | [] => pure []
  | a :: as => do
    let b ← tama5RamRead a limit
    let rest ← dumpNibbles limit as
    pure (b :: rest)

/-- `dump_ram(retry_limit)` on TAMA5: one unlock, then 32 bytes (R400). -/
def dumpRamTama5 (limit : Option Nat) : Proc (List Byte) := do
  enableRam .tama5
  tama5Unlock limit
  dumpNibbles limit (List.range Config.tama5RamImage)

/-! ### restore_ram (R290 to R292, R361, R401) -/

/-- `write_ec` of the bytes of a window in ascending order, from address `addr` (R290). -/
def restoreBytes (addr : Nat) : List Byte → Proc Unit
  | [] => pure ()
  | b :: bs => do
    writeEc addr b.toNat 0xFF
    restoreBytes (addr + 1) bs

/-- The bytes `image[i × WIN .. (i + 1) × WIN)` of window `i` (R290). -/
def imageWindow (image : List Byte) (i : Nat) : List Byte :=
  (image.drop (i * Config.ramDumpWindow)).take Config.ramDumpWindow

/-- The windows `i` of a list, written in order (R290). -/
def restoreWindows (v : Variant) (per : Nat) (image : List Byte) : List Nat → Proc Unit
  | [] => pure ()
  | i :: is => do
    selectRamForWindow v per i
    restoreBytes (ramWindowAddr per i) (imageWindow image i)
    restoreWindows v per image is

/-- `restore_ram(image)` of the variants with windows (R290). -/
def restoreRamStd (v : Variant) (size : Nat) (image : List Byte) : Proc Unit := do
  refuseIf (decide (image.length ≠ size)) .badImageLength
  if size = 0 then pure ()
  else
    enableRam v
    let s ← get
    restoreWindows v (ramPer s.cfg v) image (List.range (size / Config.ramDumpWindow))

/-- The cells of MBC2 from address `addr`: high nibble to the even cell, low nibble to the odd one, compared in the low
nibble only (R291). -/
def restoreCells (addr : Nat) : List Byte → Proc Unit
  | [] => pure ()
  | b :: bs => do
    writeEc addr (b >>> 4).toNat 0x0F
    writeEc (addr + 1) (b &&& 0x0F).toNat 0x0F
    restoreCells (addr + 2) bs

/-- `restore_ram(image)` on MBC2 (R291). -/
def restoreRamMbc2 (image : List Byte) : Proc Unit := do
  refuseIf (decide (image.length ≠ Config.mbc2RamImage)) .badImageLength
  enableRam .mbc2
  restoreCells Config.ramWin image

/-- The rounds of one verified unit: `put`, then `check`, until `check` says that the unit landed; bounded by
WRITE_EC_LIMIT when it is set (R361, R401). -/
def verifyRounds (cell : Nat) (put : Proc Unit) (check : Proc Bool) : (fuel : Nat) → WeRegs → Proc Unit
  | 0, _ => throw .waiting
  | fuel + 1, r => do
    let s ← get
    if weLimitReached s.cfg.writeEcLimit r.rounds then raise .deviceTimeout (.cell .restoreRam cell)
    else
      put
      let landed ← check
      let r : WeRegs := { r with rounds := r.rounds + 1 }
      setWe r
      if landed then pure () else verifyRounds cell put check fuel r

/-- One verified unit from its first round: `S.we_rounds <- 0` (R361, R401; the other two registers of R46 are not used and
hold zero, log 8). -/
def verifyUnit (cell : Nat) (put : Proc Unit) (check : Proc Bool) : Proc Unit := do
  let r : WeRegs := { addr := 0, value := 0, rounds := 0 }
  setWe r
  unbounded fun fuel => verifyRounds cell put check fuel r

/-- The EEPROM words of a list of cells, written and read back (R361). -/
def restoreWords (image : List Byte) : List Nat → Proc Unit
  | [] => pure ()
  | a :: as => do
    verifyUnit a (eepromWrite a (imageWord image a).toNat)
      (do let r ← eepromRead a; pure (decide (r = imageWord image a)))
    restoreWords image as

/-- `restore_ram(image)` on MBC7: EWEN, the words, EWDS (R361). -/
def restoreRamMbc7 (image : List Byte) : Proc Unit := do
  refuseIf (decide (image.length ≠ Config.mbc7RamImage)) .badImageLength
  enableRam .mbc7
  eepromEwen
  restoreWords image (List.range 128)
  eepromEwds

/-- The TAMA5 RAM bytes of a list of addresses, written and read back (R401). -/
def restoreNibbles (image : List Byte) : List Nat → Proc Unit
  | [] => pure ()
  | a :: as => do
    verifyUnit a (tama5RamWrite a (image.getD a 0).toNat)
      (do let r ← tama5RamRead a none; pure (decide (r = image.getD a 0)))
    restoreNibbles image as

/-- `restore_ram(image)` on TAMA5: one unlock, then 32 bytes (R401). -/
def restoreRamTama5 (image : List Byte) : Proc Unit := do
  refuseIf (decide (image.length ≠ Config.tama5RamImage)) .badImageLength
  enableRam .tama5
  tama5Unlock none
  restoreNibbles image (List.range Config.tama5RamImage)

/-! ### The meanings: one per row of the table -/

/-- `dump_rom.Base` (R270). -/
def execDumpRomBase (progress : Bool) (retryLimit : Option Nat) (s : State) : Host.Outcome State Fault Refusal :=
  runOp (.dumpRomBase progress retryLimit)
    (withController .base .dumpRom fun c => do return .bytes (← dumpRom .base stdWindow c.romBankCount.toNat progress retryLimit)) s

/-- `dump_rom.MBC1` (R272). -/
def execDumpRomMbc1 (progress : Bool) (retryLimit : Option Nat) (s : State) : Host.Outcome State Fault Refusal :=
  runOp (.dumpRomMbc1 progress retryLimit)
    (withController .mbc1 .dumpRom fun c => do return .bytes (← dumpRom .mbc1 mbc1Window c.romBankCount.toNat progress retryLimit)) s

/-- `dump_rom.MBC2` (R270). -/
def execDumpRomMbc2 (progress : Bool) (retryLimit : Option Nat) (s : State) : Host.Outcome State Fault Refusal :=
  runOp (.dumpRomMbc2 progress retryLimit)
    (withController .mbc2 .dumpRom fun c => do return .bytes (← dumpRom .mbc2 stdWindow c.romBankCount.toNat progress retryLimit)) s

/-- `dump_rom.MBC3` (R270). -/
def execDumpRomMbc3 (progress : Bool) (retryLimit : Option Nat) (s : State) : Host.Outcome State Fault Refusal :=
  runOp (.dumpRomMbc3 progress retryLimit)
    (withController .mbc3 .dumpRom fun c => do return .bytes (← dumpRom .mbc3 stdWindow c.romBankCount.toNat progress retryLimit)) s

/-- `dump_rom.MBC5` (R270). -/
def execDumpRomMbc5 (progress : Bool) (retryLimit : Option Nat) (s : State) : Host.Outcome State Fault Refusal :=
  runOp (.dumpRomMbc5 progress retryLimit)
    (withController .mbc5 .dumpRom fun c => do return .bytes (← dumpRom .mbc5 stdWindow c.romBankCount.toNat progress retryLimit)) s

/-- `dump_rom.MBC6` (R274). -/
def execDumpRomMbc6 (progress : Bool) (retryLimit : Option Nat) (s : State) : Host.Outcome State Fault Refusal :=
  runOp (.dumpRomMbc6 progress retryLimit)
    (withController .mbc6 .dumpRom fun c => do return .bytes (← dumpRomMbc6 c.romBankCount.toNat progress retryLimit)) s

/-- `dump_rom.MBC7` (R270). -/
def execDumpRomMbc7 (progress : Bool) (retryLimit : Option Nat) (s : State) : Host.Outcome State Fault Refusal :=
  runOp (.dumpRomMbc7 progress retryLimit)
    (withController .mbc7 .dumpRom fun c => do return .bytes (← dumpRom .mbc7 stdWindow c.romBankCount.toNat progress retryLimit)) s

/-- `dump_rom.Camera` (R270). -/
def execDumpRomCamera (progress : Bool) (retryLimit : Option Nat) (s : State) : Host.Outcome State Fault Refusal :=
  runOp (.dumpRomCamera progress retryLimit)
    (withController .camera .dumpRom fun c => do return .bytes (← dumpRom .camera stdWindow c.romBankCount.toNat progress retryLimit)) s

/-- `dump_rom.TAMA5` (R270). -/
def execDumpRomTama5 (progress : Bool) (retryLimit : Option Nat) (s : State) : Host.Outcome State Fault Refusal :=
  runOp (.dumpRomTama5 progress retryLimit)
    (withController .tama5 .dumpRom fun c => do return .bytes (← dumpRom .tama5 stdWindow c.romBankCount.toNat progress retryLimit)) s

/-- `dump_ram.Base` (R280). -/
def execDumpRamBase (retryLimit : Option Nat) (s : State) : Host.Outcome State Fault Refusal :=
  runOp (.dumpRamBase retryLimit)
    (withController .base .dumpRam fun c => do return .bytes (← dumpRamStd .base c.ramSizeBytes.toNat retryLimit)) s

/-- `dump_ram.MBC1` (R280). -/
def execDumpRamMbc1 (retryLimit : Option Nat) (s : State) : Host.Outcome State Fault Refusal :=
  runOp (.dumpRamMbc1 retryLimit)
    (withController .mbc1 .dumpRam fun c => do return .bytes (← dumpRamStd .mbc1 c.ramSizeBytes.toNat retryLimit)) s

/-- `dump_ram.MBC2` (R282). -/
def execDumpRamMbc2 (retryLimit : Option Nat) (s : State) : Host.Outcome State Fault Refusal :=
  runOp (.dumpRamMbc2 retryLimit)
    (withController .mbc2 .dumpRam fun _ => do return .bytes (← dumpRamMbc2 retryLimit)) s

/-- `dump_ram.MBC3` (R280). -/
def execDumpRamMbc3 (retryLimit : Option Nat) (s : State) : Host.Outcome State Fault Refusal :=
  runOp (.dumpRamMbc3 retryLimit)
    (withController .mbc3 .dumpRam fun c => do return .bytes (← dumpRamStd .mbc3 c.ramSizeBytes.toNat retryLimit)) s

/-- `dump_ram.MBC5` (R280). -/
def execDumpRamMbc5 (retryLimit : Option Nat) (s : State) : Host.Outcome State Fault Refusal :=
  runOp (.dumpRamMbc5 retryLimit)
    (withController .mbc5 .dumpRam fun c => do return .bytes (← dumpRamStd .mbc5 c.ramSizeBytes.toNat retryLimit)) s

/-- `dump_ram.MBC6` (R280). -/
def execDumpRamMbc6 (retryLimit : Option Nat) (s : State) : Host.Outcome State Fault Refusal :=
  runOp (.dumpRamMbc6 retryLimit)
    (withController .mbc6 .dumpRam fun c => do return .bytes (← dumpRamStd .mbc6 c.ramSizeBytes.toNat retryLimit)) s

/-- `dump_ram.MBC7` (R360). -/
def execDumpRamMbc7 (retryLimit : Option Nat) (s : State) : Host.Outcome State Fault Refusal :=
  runOp (.dumpRamMbc7 retryLimit)
    (withController .mbc7 .dumpRam fun _ => do return .bytes (← dumpRamMbc7)) s

/-- `dump_ram.Camera` (R280). -/
def execDumpRamCamera (retryLimit : Option Nat) (s : State) : Host.Outcome State Fault Refusal :=
  runOp (.dumpRamCamera retryLimit)
    (withController .camera .dumpRam fun c => do return .bytes (← dumpRamStd .camera c.ramSizeBytes.toNat retryLimit)) s

/-- `dump_ram.TAMA5` (R400). -/
def execDumpRamTama5 (retryLimit : Option Nat) (s : State) : Host.Outcome State Fault Refusal :=
  runOp (.dumpRamTama5 retryLimit)
    (withController .tama5 .dumpRam fun _ => do return .bytes (← dumpRamTama5 retryLimit)) s

/-- `restore_ram.Base` (R290). -/
def execRestoreRamBase (image : List Byte) (s : State) : Host.Outcome State Fault Refusal :=
  runOp (.restoreRamBase image)
    (withController .base .restoreRam fun c => do restoreRamStd .base c.ramSizeBytes.toNat image; return .unit) s

/-- `restore_ram.MBC1` (R290). -/
def execRestoreRamMbc1 (image : List Byte) (s : State) : Host.Outcome State Fault Refusal :=
  runOp (.restoreRamMbc1 image)
    (withController .mbc1 .restoreRam fun c => do restoreRamStd .mbc1 c.ramSizeBytes.toNat image; return .unit) s

/-- `restore_ram.MBC2` (R291). -/
def execRestoreRamMbc2 (image : List Byte) (s : State) : Host.Outcome State Fault Refusal :=
  runOp (.restoreRamMbc2 image)
    (withController .mbc2 .restoreRam fun _ => do restoreRamMbc2 image; return .unit) s

/-- `restore_ram.MBC3` (R290). -/
def execRestoreRamMbc3 (image : List Byte) (s : State) : Host.Outcome State Fault Refusal :=
  runOp (.restoreRamMbc3 image)
    (withController .mbc3 .restoreRam fun c => do restoreRamStd .mbc3 c.ramSizeBytes.toNat image; return .unit) s

/-- `restore_ram.MBC5` (R290). -/
def execRestoreRamMbc5 (image : List Byte) (s : State) : Host.Outcome State Fault Refusal :=
  runOp (.restoreRamMbc5 image)
    (withController .mbc5 .restoreRam fun c => do restoreRamStd .mbc5 c.ramSizeBytes.toNat image; return .unit) s

/-- `restore_ram.MBC6` (R290). -/
def execRestoreRamMbc6 (image : List Byte) (s : State) : Host.Outcome State Fault Refusal :=
  runOp (.restoreRamMbc6 image)
    (withController .mbc6 .restoreRam fun c => do restoreRamStd .mbc6 c.ramSizeBytes.toNat image; return .unit) s

/-- `restore_ram.MBC7` (R361). -/
def execRestoreRamMbc7 (image : List Byte) (s : State) : Host.Outcome State Fault Refusal :=
  runOp (.restoreRamMbc7 image)
    (withController .mbc7 .restoreRam fun _ => do restoreRamMbc7 image; return .unit) s

/-- `restore_ram.Camera` (R290). -/
def execRestoreRamCamera (image : List Byte) (s : State) : Host.Outcome State Fault Refusal :=
  runOp (.restoreRamCamera image)
    (withController .camera .restoreRam fun c => do restoreRamStd .camera c.ramSizeBytes.toNat image; return .unit) s

/-- `restore_ram.TAMA5` (R401). -/
def execRestoreRamTama5 (image : List Byte) (s : State) : Host.Outcome State Fault Refusal :=
  runOp (.restoreRamTama5 image)
    (withController .tama5 .restoreRam fun _ => do restoreRamTama5 image; return .unit) s

end Sys2Proof.Machine
end

