-- ==== Sys2Proof/Machine/Frames.lean ====
section
/-!
DEFINITION. The WIRE and EE rows of the opcode table, each run by itself: the frame of R111 to R113, the EEPROM command of
R336 to R342. A frame is what an operation of the block is made of; it has no check of the session or the controller of its
own (R13, R335), and its end is recorded like an operation's, under the frame's own name (log 12).
-/

namespace Sys2Proof.Machine

/-- HS_PROBE (R111): its reply is the result, since it is meaningful (R151). -/
def execHsProbe (s : State) : Host.Outcome State Fault Refusal :=
  runOp .hsProbe (do return .byte (← probe)) s

/-- READ (R112): the replies of its data phase are the result (R13). A request past 0xFFFF is refused (R83; log 13). -/
def execReadFrame (addr len : U16) (s : State) : Host.Outcome State Fault Refusal :=
  runOp (.readFrame addr len)
    (do
      refuseIf (decide (0x10000 < addr.toNat + len.toNat)) .rangeOverflow
      return .bytes (← memRead addr len)) s

/-- WRITE (R113): fire and forget. -/
def execWriteFrame (addr : U16) (value : Byte) (s : State) : Host.Outcome State Fault Refusal :=
  runOp (.writeFrame addr value) (do memWrite addr value; return .unit) s

/-- EE_READ (R125, R336). -/
def execEeRead (a : Byte) (s : State) : Host.Outcome State Fault Refusal :=
  runOp (.eeRead a) (do return .word (← eepromRead a.toNat)) s

/-- EE_WRITE (R125, R337). -/
def execEeWrite (a : Byte) (data : U16) (s : State) : Host.Outcome State Fault Refusal :=
  runOp (.eeWrite a data) (do eepromWrite a.toNat data.toNat; return .unit) s

/-- EE_ERASE (R125, R338). -/
def execEeErase (a : Byte) (s : State) : Host.Outcome State Fault Refusal :=
  runOp (.eeErase a) (do eepromErase a.toNat; return .unit) s

/-- EE_EWEN (R125, R339). -/
def execEeEwen (s : State) : Host.Outcome State Fault Refusal :=
  runOp .eeEwen (do eepromEwen; return .unit) s

/-- EE_EWDS (R125, R340). -/
def execEeEwds (s : State) : Host.Outcome State Fault Refusal :=
  runOp .eeEwds (do eepromEwds; return .unit) s

/-- EE_ERAL (R125, R341). -/
def execEeEral (s : State) : Host.Outcome State Fault Refusal :=
  runOp .eeEral (do eepromEral; return .unit) s

/-- EE_WRAL (R125, R342). -/
def execEeWral (data : U16) (s : State) : Host.Outcome State Fault Refusal :=
  runOp (.eeWral data) (do eepromWral data.toNat; return .unit) s

end Sys2Proof.Machine
end

