-- ==== Sys2Proof/Machine/Registry.lean ====
section
/-!
DEFINITION. Controller detection and size decoding (41_registry_sizes.md): `detect`.
-/

namespace Sys2Proof.Machine

/-- `CART_TYPE_MAP(code)` (R201). -/
def cartVariant (table : List (Byte × Variant)) (code : Byte) : Option Variant :=
  (table.find? fun row => row.1 == code).map (·.2)

/-- `RomBanks(code)` (R205, R206, R207). -/
def romBanks (code : Byte) : Option Nat :=
  if code.toNat < 8 then some (2 <<< code.toNat)
  else if code = 0x52 then some 72
  else if code = 0x53 then some 80
  else if code = 0x54 then some 96
  else none

/-- The table of RAM sizes for a variant without an override (R208, R209). -/
def ramSizeTable (code : Byte) : Nat :=
  if code = 1 then 0x800
  else if code = 2 then 0x2000
  else if code = 3 then 0x8000
  else if code = 4 then 0x20000
  else if code = 5 then 0x10000
  else 0

/-- `RamSize(v, code)` with the three overrides (R208 to R212). -/
def ramSize (v : Variant) (code : Byte) : Nat :=
  match v with
  | .mbc2 => Config.mbc2RamImage
  | .tama5 => Config.tama5RamImage
  | .mbc7 => Config.mbc7RamImage
  | .base => ramSizeTable code
  | .mbc1 => ramSizeTable code
  | .mbc3 => ramSizeTable code
  | .mbc5 => ramSizeTable code
  | .mbc6 => ramSizeTable code
  | .camera => ramSizeTable code

/-- The fresh controller of a successful `detect` (R200). -/
def newController (v : Variant) (banks ram : Nat) : Controller where
  variant := v
  romBankCount := BitVec.ofNat 32 banks
  ramSizeBytes := BitVec.ofNat 32 ram
  romShadow := none
  ramShadow := none

/-- `detect()` on the header, in the check order of R202. -/
def detectFrom (h : Header) : Proc Value := do
  let s ← get
  match cartVariant s.cfg.cartTypeMap h.cartType with
  | none => raise .unsupportedCartridge (.cartType h.cartType)
  | some v =>
    match romBanks h.romSizeCode with
    | none => raise .unsupportedCartridge (.romSizeCode h.romSizeCode)
    | some banks =>
      modify fun s => { s with ctrl := some (newController v banks (ramSize v h.ramSizeCode)) }
      pure (.variant v)

/-- `detect()` (R200). A connected session has a header (R32); without one it counts as not connected (log 16). -/
def detect : Proc Value := do
  requireConnected .detect
  let s ← get
  match s.header with
  | none => raise .notConnected (.op .detect)
  | some h => detectFrom h

/-- `detect` (R200). -/
def execDetect (s : State) : Host.Outcome State Fault Refusal := runOp .detect detect s

end Sys2Proof.Machine
end

