-- ==== Sys2Proof/Machine/Rtc.lean ====
section
/-!
DEFINITION. The MBC3 real-time clock (44_mbc3_rtc.md).
-/

namespace Sys2Proof.Machine

/-- `latch_rtc()`: 0 then 1 to 0x6000 (R310). -/
def latchRtc : Proc Unit := do
  memWrite 0x6000 0x00
  memWrite 0x6000 0x01

/-- `read_rtc(reg, retry_limit)`: select RAM bank 8 + reg, then read 0xA000 (R311); the byte is returned raw (R312). -/
def readRtc (reg : Nat) (limit : Option Nat) : Proc Byte := do
  checkRange reg 3
  selectRamStd (Config.rtcBankBase + reg)
  readEc1 Config.ramWin limit

/-- `latch_rtc.MBC3` (R310). -/
def execLatchRtc (s : State) : Host.Outcome State Fault Refusal :=
  runOp .latchRtc (withController .mbc3 .latchRtc fun _ => do latchRtc; return .unit) s

/-- `read_rtc.MBC3` (R311). -/
def execReadRtc (reg : Nat) (retryLimit : Option Nat) (s : State) : Host.Outcome State Fault Refusal :=
  runOp (.readRtc reg retryLimit) (withController .mbc3 .readRtc fun _ => do return .byte (← readRtc reg retryLimit)) s

end Sys2Proof.Machine
end

