-- ==== Sys2Proof/Machine/Dispatch.lean ====
section
/-!
DEFINITION. Dispatch: one arm per constructor of `Instr`, each one direct call of its meaning.
-/

namespace Sys2Proof.Machine

def exec (i : Instr) (s : State) : Host.Outcome State Fault Refusal :=
  match i with
  | .hsProbe => Sys2Proof.Machine.execHsProbe s
  | .readFrame addr len => Sys2Proof.Machine.execReadFrame addr len s
  | .writeFrame addr value => Sys2Proof.Machine.execWriteFrame addr value s
  | .eeRead a => Sys2Proof.Machine.execEeRead a s
  | .eeWrite a data => Sys2Proof.Machine.execEeWrite a data s
  | .eeErase a => Sys2Proof.Machine.execEeErase a s
  | .eeEwen => Sys2Proof.Machine.execEeEwen s
  | .eeEwds => Sys2Proof.Machine.execEeEwds s
  | .eeEral => Sys2Proof.Machine.execEeEral s
  | .eeWral data => Sys2Proof.Machine.execEeWral data s
  | .connect => Sys2Proof.Machine.execConnect s
  | .read addr length => Sys2Proof.Machine.execRead addr length s
  | .write addr value => Sys2Proof.Machine.execWrite addr value s
  | .readEc addr size retryLimit => Sys2Proof.Machine.execReadEc addr size retryLimit s
  | .writeEc addr value => Sys2Proof.Machine.execWriteEc addr value s
  | .detect => Sys2Proof.Machine.execDetect s
  | .selectRomBankBase n => Sys2Proof.Machine.execSelectRomBankBase n s
  | .selectRomBankMbc1 n => Sys2Proof.Machine.execSelectRomBankMbc1 n s
  | .selectRomBankMbc2 n => Sys2Proof.Machine.execSelectRomBankMbc2 n s
  | .selectRomBankMbc3 n => Sys2Proof.Machine.execSelectRomBankMbc3 n s
  | .selectRomBankMbc5 n => Sys2Proof.Machine.execSelectRomBankMbc5 n s
  | .selectRomBankMbc6 n => Sys2Proof.Machine.execSelectRomBankMbc6 n s
  | .selectRomBankMbc7 n => Sys2Proof.Machine.execSelectRomBankMbc7 n s
  | .selectRomBankCamera n => Sys2Proof.Machine.execSelectRomBankCamera n s
  | .selectRomBankTama5 n => Sys2Proof.Machine.execSelectRomBankTama5 n s
  | .selectRamBankBase n => Sys2Proof.Machine.execSelectRamBankBase n s
  | .selectRamBankMbc1 n => Sys2Proof.Machine.execSelectRamBankMbc1 n s
  | .selectRamBankMbc2 n => Sys2Proof.Machine.execSelectRamBankMbc2 n s
  | .selectRamBankMbc3 n => Sys2Proof.Machine.execSelectRamBankMbc3 n s
  | .selectRamBankMbc5 n => Sys2Proof.Machine.execSelectRamBankMbc5 n s
  | .selectRamBankMbc6 n => Sys2Proof.Machine.execSelectRamBankMbc6 n s
  | .selectRamBankMbc7 n => Sys2Proof.Machine.execSelectRamBankMbc7 n s
  | .selectRamBankCamera n => Sys2Proof.Machine.execSelectRamBankCamera n s
  | .selectRamBankTama5 n => Sys2Proof.Machine.execSelectRamBankTama5 n s
  | .enableRamBase => Sys2Proof.Machine.execEnableRamBase s
  | .enableRamMbc1 => Sys2Proof.Machine.execEnableRamMbc1 s
  | .enableRamMbc2 => Sys2Proof.Machine.execEnableRamMbc2 s
  | .enableRamMbc3 => Sys2Proof.Machine.execEnableRamMbc3 s
  | .enableRamMbc5 => Sys2Proof.Machine.execEnableRamMbc5 s
  | .enableRamMbc6 => Sys2Proof.Machine.execEnableRamMbc6 s
  | .enableRamMbc7 => Sys2Proof.Machine.execEnableRamMbc7 s
  | .enableRamCamera => Sys2Proof.Machine.execEnableRamCamera s
  | .enableRamTama5 => Sys2Proof.Machine.execEnableRamTama5 s
  | .dumpRomBase progress retryLimit => Sys2Proof.Machine.execDumpRomBase progress retryLimit s
  | .dumpRomMbc1 progress retryLimit => Sys2Proof.Machine.execDumpRomMbc1 progress retryLimit s
  | .dumpRomMbc2 progress retryLimit => Sys2Proof.Machine.execDumpRomMbc2 progress retryLimit s
  | .dumpRomMbc3 progress retryLimit => Sys2Proof.Machine.execDumpRomMbc3 progress retryLimit s
  | .dumpRomMbc5 progress retryLimit => Sys2Proof.Machine.execDumpRomMbc5 progress retryLimit s
  | .dumpRomMbc6 progress retryLimit => Sys2Proof.Machine.execDumpRomMbc6 progress retryLimit s
  | .dumpRomMbc7 progress retryLimit => Sys2Proof.Machine.execDumpRomMbc7 progress retryLimit s
  | .dumpRomCamera progress retryLimit => Sys2Proof.Machine.execDumpRomCamera progress retryLimit s
  | .dumpRomTama5 progress retryLimit => Sys2Proof.Machine.execDumpRomTama5 progress retryLimit s
  | .dumpRamBase retryLimit => Sys2Proof.Machine.execDumpRamBase retryLimit s
  | .dumpRamMbc1 retryLimit => Sys2Proof.Machine.execDumpRamMbc1 retryLimit s
  | .dumpRamMbc2 retryLimit => Sys2Proof.Machine.execDumpRamMbc2 retryLimit s
  | .dumpRamMbc3 retryLimit => Sys2Proof.Machine.execDumpRamMbc3 retryLimit s
  | .dumpRamMbc5 retryLimit => Sys2Proof.Machine.execDumpRamMbc5 retryLimit s
  | .dumpRamMbc6 retryLimit => Sys2Proof.Machine.execDumpRamMbc6 retryLimit s
  | .dumpRamMbc7 retryLimit => Sys2Proof.Machine.execDumpRamMbc7 retryLimit s
  | .dumpRamCamera retryLimit => Sys2Proof.Machine.execDumpRamCamera retryLimit s
  | .dumpRamTama5 retryLimit => Sys2Proof.Machine.execDumpRamTama5 retryLimit s
  | .restoreRamBase image => Sys2Proof.Machine.execRestoreRamBase image s
  | .restoreRamMbc1 image => Sys2Proof.Machine.execRestoreRamMbc1 image s
  | .restoreRamMbc2 image => Sys2Proof.Machine.execRestoreRamMbc2 image s
  | .restoreRamMbc3 image => Sys2Proof.Machine.execRestoreRamMbc3 image s
  | .restoreRamMbc5 image => Sys2Proof.Machine.execRestoreRamMbc5 image s
  | .restoreRamMbc6 image => Sys2Proof.Machine.execRestoreRamMbc6 image s
  | .restoreRamMbc7 image => Sys2Proof.Machine.execRestoreRamMbc7 image s
  | .restoreRamCamera image => Sys2Proof.Machine.execRestoreRamCamera image s
  | .restoreRamTama5 image => Sys2Proof.Machine.execRestoreRamTama5 image s
  | .latchRtc => Sys2Proof.Machine.execLatchRtc s
  | .readRtc reg retryLimit => Sys2Proof.Machine.execReadRtc reg retryLimit s
  | .eepromShiftIn bit => Sys2Proof.Machine.execEepromShiftIn bit s
  | .eepromShiftInout bit => Sys2Proof.Machine.execEepromShiftInout bit s
  | .eepromRead eeAddr => Sys2Proof.Machine.execEepromRead eeAddr s
  | .eepromWrite eeAddr word => Sys2Proof.Machine.execEepromWrite eeAddr word s
  | .eepromErase eeAddr => Sys2Proof.Machine.execEepromErase eeAddr s
  | .eepromEwen => Sys2Proof.Machine.execEepromEwen s
  | .eepromEwds => Sys2Proof.Machine.execEepromEwds s
  | .eepromEral => Sys2Proof.Machine.execEepromEral s
  | .eepromWral word => Sys2Proof.Machine.execEepromWral word s
  | .eepromWait => Sys2Proof.Machine.execEepromWait s
  | .sampleAccel retryLimit => Sys2Proof.Machine.execSampleAccel retryLimit s
  | .takePhoto retryLimit => Sys2Proof.Machine.execTakePhoto retryLimit s
  | .tama5Unlock retryLimit => Sys2Proof.Machine.execTama5Unlock retryLimit s
  | .tama5WriteReg r nib => Sys2Proof.Machine.execTama5WriteReg r nib s
  | .tama5ReadReg r retryLimit => Sys2Proof.Machine.execTama5ReadReg r retryLimit s
  | .tama5RamRead ta retryLimit => Sys2Proof.Machine.execTama5RamRead ta retryLimit s
  | .tama5RamWrite ta value => Sys2Proof.Machine.execTama5RamWrite ta value s

end Sys2Proof.Machine
end

