-- ==== Sys2Proof/Machine/Step.lean ====
section
/-!
DEFINITION. One step (R53, R440): the request at `hpc` is decoded and run to its end, or the operation that waits for the
link goes on.
-/

namespace Sys2Proof.Machine

/-- A request that decodes to no instruction: a selector that is no row is refused by the block (R132); bytes that are no
frame and bit strings that are no command have no meaning (R116, R126; log 24). -/
def rejectRequest (r : Reject) (s : State) : Host.Outcome State Fault Refusal :=
  match r with
  | .badSelector => .next (s.takeRefusal .badSelector)
  | .notAFrame => .refused .notAFrame
  | .truncatedFrame => .refused .notAFrame
  | .reservedEeFrame => .refused .reservedEeFrame

/-- Runs the request at `hpc` (R53). -/
def fetchStep (s : State) : Host.Outcome State Fault Refusal :=
  match s.program[s.hpc]? with
  | none => .fault .programFinished
  | some req =>
    match decode req with
    | .ok i => exec i s
    | .error r => rejectRequest r s

/-- An operation that waits: with no reply in the queue it goes on waiting, else it goes on from where it was started, with
the replies that have come (R16, R81; log 3). -/
def resumeStep (r : Running) (s : State) : Host.Outcome State Fault Refusal :=
  match s.link with
  | [] => .next s
  | i :: rest => exec r.instr (s.rewind r i rest)

/-- One step of the machine (R53). A program that stopped runs no further (R53, R435). -/
def step (s : State) : Host.Outcome State Fault Refusal :=
  match s.stop with
  | some _ => .fault .programStopped
  | none =>
    match s.run with
    | some r => resumeStep r s
    | none => fetchStep s

/-- `s` with the table word's request stored where `step` fetches its next instruction: at index `hpc` of the program, with
nothing waiting and no stop (log 6). An operation that still waits for the link is dropped as by `State.startProgram` (DESIGN CHOICE,
log 29). -/
def State.withFetchWord (s : State) (nbits w : Nat) : State :=
  { s.idle with program := placeAt s.hpc (tableRequest nbits w) s.program, stop := none }

end Sys2Proof.Machine
end

