-- ==== Sys2Proof/Machine/RefDev.lean ====
section
/-!
DEFINITION. The reference device RefDev of 92_eei_decisions.md D37. It is no part of the block: "used only in
95_test_vectors.md", and nothing of the machine calls it (log 28). It answers one byte per byte sent, as the link does (R80),
and serves only as a premise of the round-trip statements of R293. D37 covers Base, MBC1, MBC2, MBC3 and MBC5; that the functions
below also answer for MBC6, MBC7, Camera and TAMA5, as they do for Base, is the model's choice (log 28), and no statement uses it.
-/

namespace Sys2Proof.Machine

/-- Where the device stands in the wire protocol: the phases of the handshake, then the frames. -/
inductive RefPhase where
  | shake1
  | shake2
  | header (sent : Nat)
  | command
  | operands (bytes : List Byte)
  | data (addr left : Nat)
  deriving DecidableEq, Repr

/-- RefDev(variant, rom, ram, hdr) with its mapper registers. -/
structure RefDev where
  variant : Variant
  rom : List Byte
  ram : List Byte
  hdr : List Byte
  lo : Nat
  hi : Nat
  rb : Nat
  mode : Nat
  en : Bool
  phase : RefPhase
  deriving DecidableEq, Repr

/-- The device at start: every register 0 but `lo`, which is 1; phase 1 of the handshake. -/
def RefDev.start (v : Variant) (rom ram hdr : List Byte) : RefDev :=
  { variant := v, rom := rom, ram := ram, hdr := hdr, lo := 1, hi := 0, rb := 0, mode := 0, en := false, phase := .shake1 }

/-- `B0`: the bank of the 0x0000 window. -/
def RefDev.bank0 (d : RefDev) : Nat := if d.variant = .mbc1 ∧ d.mode = 1 then d.hi * 32 else 0

/-- `BX`: the bank of the 0x4000 window. D37 gives it for Base (1), MBC1, MBC2, MBC3 and MBC5. DESIGN CHOICE (log 28): for MBC6,
MBC7, Camera and TAMA5, which D37 does not cover, it is 1 as for Base. -/
def RefDev.bankX (d : RefDev) : Nat :=
  let lo1 := if d.lo = 0 then 1 else d.lo
  match d.variant with
  | .mbc1 => d.hi * 32 + lo1
  | .mbc2 => lo1
  | .mbc3 => lo1
  | .mbc5 => d.hi * 256 + d.lo
  | _ => 1

/-- `R`: the RAM bank. -/
def RefDev.ramBank (d : RefDev) : Nat := if d.variant = .mbc1 ∧ d.mode = 1 then d.hi else d.rb

/-- The position in `ram` of a cartridge address, where RAM answers there. -/
def RefDev.ramIndex (d : RefDev) (x : Nat) : Option Nat :=
  if 0xA000 ≤ x ∧ x < 0xC000 ∧ d.en = true then
    if d.variant = .mbc2 then some ((x - 0xA000) % 0x200)
    else if d.ram = [] then none
    else some ((d.ramBank * 0x2000 + (x - 0xA000)) % d.ram.length)
  else none

/-- `Map(x)`: the byte that a read of `x` answers. -/
def RefDev.map (d : RefDev) (x : Nat) : Byte :=
  if x < 0x4000 then d.rom.getD ((d.bank0 * 0x4000 + x) % d.rom.length) 0
  else if x < 0x8000 then d.rom.getD ((d.bankX * 0x4000 + (x - 0x4000)) % d.rom.length) 0
  else
    match d.ramIndex x with
    | some k => if d.variant = .mbc2 then 0xF0 ||| d.ram.getD k 0 else d.ram.getD k 0
    | none => 0xFF

/-- The value of the low bank register that a write of `v` leaves. -/
def RefDev.lowBank (v : Variant) (b : Byte) : Nat :=
  match v with
  | .mbc1 => b.toNat % 32
  | .mbc2 => b.toNat % 16
  | _ => b.toNat

/-- `Wr(x, v)`. -/
def RefDev.write (d : RefDev) (x : Nat) (v : Byte) : RefDev :=
  if x < 0x2000 then { d with en := decide (v &&& 0x0F = 0x0A) }
  else if x < 0x3000 then { d with lo := RefDev.lowBank d.variant v }
  else if x < 0x4000 then
    if d.variant = .mbc5 then { d with hi := v.toNat % 2 }
    else if d.variant = .mbc1 ∨ d.variant = .mbc2 ∨ d.variant = .mbc3 then { d with lo := RefDev.lowBank d.variant v }
    else d
  else if x < 0x6000 then if d.variant = .mbc1 then { d with hi := v.toNat % 4 } else { d with rb := v.toNat }
  else if x < 0x8000 then if d.variant = .mbc1 then { d with mode := v.toNat % 2 } else d
  else
    match d.ramIndex x with
    | some k => { d with ram := d.ram.set k (if d.variant = .mbc2 then v &&& 0x0F else v) }
    | none => d

/-- The end of an operand: a WRITE applies, a READ starts its data phase. -/
def RefDev.operand (d : RefDev) (bytes : List Byte) : RefDev :=
  match bytes with
  | [0x49, ah, al, v] => { d.write (join16 ah al).toNat v with phase := .command }
  | [0x59, ah, al, lh, ll] =>
    if (join16 lh ll).toNat = 0 then { d with phase := .command }
    else { d with phase := .data (join16 ah al).toNat (join16 lh ll).toNat }
  | _ => { d with phase := .operands bytes }

/-- One exchange: the reply to a byte, and the device after it. -/
def RefDev.exchange (d : RefDev) (b : Byte) : Byte × RefDev :=
  match d.phase with
  | .shake1 => if b = 0x9A then (0xB4, { d with phase := .shake2 }) else (0x00, d)
  | .shake2 => if b = 0x9A then (0x1D, { d with phase := .header 0 }) else (0x00, d)
  | .header n =>
    if n < 21 then (d.hdr.getD n 0, { d with phase := .header (n + 1) })
    else if n = 21 then (0x00, { d with phase := .header (n + 1) })
    else (0xFF, { d with phase := .command })
  | .command => if b = 0x59 ∨ b = 0x49 then (0x00, { d with phase := .operands [b] }) else (0x00, d)
  | .operands bytes => (0x00, d.operand (bytes ++ [b]))
  | .data a left => (d.map a, { d with phase := if left ≤ 1 then .command else .data (a + 1) (left - 1) })

/-- The replies to bytes sent in order. -/
def RefDev.replies (d : RefDev) : List Byte → List Byte
  | [] => []
  | b :: bs => (d.exchange b).1 :: (d.exchange b).2.replies bs

/-- The device after bytes sent in order. -/
def RefDev.after (d : RefDev) : List Byte → RefDev
  | [] => d
  | b :: bs => (d.exchange b).2.after bs

end Sys2Proof.Machine
end

