-- ==== Sys2Proof/Machine/Script.lean ====
section
/-!
DEFINITION. Scripts: the exchanges of an operation as one list, in the order in which the spec lists them (R96), each with
what its reply must be for the operation to go that way. The meanings do not use this file; statements do. A script says which
bytes are sent and in which order without the control flow of the pseudocode, so a statement that an operation plays a script
compares two independent readings of a rule. Nothing is assumed of the link device: a script is a premise about the replies
(R15).
-/

namespace Sys2Proof.Machine

/-- One entry of a script: an exchange that sends `sent` and whose reply agrees with `value` under `mask` (`equal`) or
disagrees with it, or a progress report (R271), which is no exchange. -/
inductive Cue where
  | ask (sent mask value : Byte) (equal : Bool)
  | report (index : Nat) (bytes : List Byte)
  deriving DecidableEq, Repr

/-- The exchanges and reports of an operation in order. -/
abbrev Script : Type := List Cue

/-- An exchange whose reply is ignored (R13). -/
def Cue.free (sent : Byte) : Cue := .ask sent 0 0 true

/-- An exchange whose reply is `reply`. -/
def Cue.gives (sent reply : Byte) : Cue := .ask sent 0xFF reply true

/-- A reply fits an exchange. -/
def cueFits (mask value : Byte) (equal : Bool) (reply : Byte) : Bool :=
  decide (reply &&& mask = value &&& mask) == equal

/-- The queue of replies begins with replies that fit the script, with no cancellation request made meanwhile. -/
def answers : Script → List LinkIn → Bool
  | [], _ => true
  | .report _ _ :: cs, link => answers cs link
  | .ask _ mask value equal :: cs, link =>
    match link with
    | [] => false
    | i :: rest => !i.cancel && cueFits mask value equal i.reply && answers cs rest

/-- No cancellation request is pending and the link answers the script. -/
def State.Answers (s : State) (cs : Script) : Prop := s.cancelReq = false ∧ answers cs s.link = true

/-- What the exchanges and reports of a script leave: the events in order, the replies used up. -/
def State.plays (s : State) : Script → State
  | [] => s
  | .report k bs :: cs => State.plays { s with traceRev := .progress k bs :: s.traceRev } cs
  | .ask sent _ _ _ :: cs =>
    match s.link with
    | [] => s
    | i :: rest =>
      State.plays
        { s with
          link := rest
          traceRev := .exchange sent i.reply :: s.traceRev
          cancelReq := s.cancelReq || i.cancel } cs

/-- The shadows after an operation: `some n` where it wrote one (R44). -/
def State.shadows (rom ram : Option Nat) (s : State) : State :=
  { s with
    ctrl := s.ctrl.map fun c =>
      { c with romShadow := rom.or c.romShadow, ramShadow := ram.or c.ramShadow } }

/-- The state after an operation that played a script, wrote these shadows and returned `v` (R53, R442). -/
def State.completes (i : Instr) (cs : Script) (rom ram : Option Nat) (v : Value) (s : State) : State :=
  ((s.idle.plays cs).shadows rom ram).endResult i.opId v

/-- The state after an operation that played a script, wrote these shadows and raised an error (R435). -/
def State.fails (i : Instr) (cs : Script) (rom ram : Option Nat) (kind : ErrKind) (info : Info) (s : State) : State :=
  ((s.idle.plays cs).shadows rom ram).raiseError i.opId kind info

/-- The number of exchanges of a script, the spec's cost measure (R473). -/
def exchangeCount : Script → Nat
  | [] => 0
  | .report _ _ :: cs => exchangeCount cs
  | .ask _ _ _ _ :: cs => exchangeCount cs + 1

/-- The bytes that a script sends, in order. -/
def askedOf : Script → List Byte
  | [] => []
  | .report _ _ :: cs => askedOf cs
  | .ask sent _ _ _ :: cs => sent :: askedOf cs

/-- The first attempt that satisfies `p` is the last of the list: the form of every loop that ends at a match. -/
def endsAt {α : Type} (p : α → Bool) : List α → Bool
  | [] => false
  | [x] => p x
  | x :: y :: rest => !p x && endsAt p (y :: rest)

/-! ### Frames (R111 to R114) -/

/-- The handshake probes that get these replies. -/
def probesScript (replies : List Byte) : Script := replies.map (Cue.gives 0x9A)

/-- The WRITE frame. -/
def writeScript (a : U16) (v : Byte) : Script := [Cue.free 0x49, Cue.free (hi8 a), Cue.free (lo8 a), Cue.free v]

/-- The READ frame that gets these data bytes. -/
def readScript (cfg : Params) (a : U16) (data : List Byte) : Script :=
  [Cue.free 0x59, Cue.free (hi8 a), Cue.free (lo8 a), Cue.free (hi8 (BitVec.ofNat 16 data.length)),
    Cue.free (lo8 (BitVec.ofNat 16 data.length))] ++ data.map (Cue.gives cfg.fillByte)

/-- A table's control writes. -/
def writesScript (ws : List CtrlWrite) : Script := ws.flatMap fun w => writeScript w.addr w.value

/-! ### Error-corrected reads and verified writes -/

/-- Two reads agree (R173). -/
def readsAgree (cfg : Params) (p d : List Byte) : Bool := decide (cfg.chunkHash.apply p = cfg.chunkHash.apply d)

/-- The first two consecutive reads that agree are the last two of the list (R173). -/
def agreesAtEnd (cfg : Params) : List (List Byte) → Bool
  | [] => false
  | [_] => false
  | [p, d] => readsAgree cfg p d
  | p :: d :: e :: rest => !readsAgree cfg p d && agreesAtEnd cfg (d :: e :: rest)

/-- No two consecutive reads of the list agree. -/
def neverAgrees (cfg : Params) : List (List Byte) → Bool
  | [] => true
  | [_] => true
  | p :: d :: rest => !readsAgree cfg p d && neverAgrees cfg (d :: rest)

/-- At most `L + 2` reads where a retry limit `L` is set (R174). -/
def withinLimit (limit : Option Nat) (reads : Nat) : Bool :=
  match limit with
  | some l => decide (reads ≤ l + 2)
  | none => true

/-- The raw reads of every chunk of a `read_ec`, in order. -/
abbrev EcReads : Type := List (List (List Byte))

/-- The READ frames of a `read_ec` from `addr`: the reads of each chunk, chunk by chunk (R171, R172). -/
def ecScript (cfg : Params) (addr : Nat) : EcReads → Script
  | [] => []
  | reads :: rest => reads.flatMap (readScript cfg (BitVec.ofNat 16 addr)) ++ ecScript cfg (addr + 0x800) rest

/-- These reads are those of a `read_ec` of `size` bytes that is accepted: every chunk but the last is 0x800 bytes long
(R171), and each is accepted at its last read, within the limit (R173, R174). -/
def ecFits (cfg : Params) (limit : Option Nat) (size : Nat) : EcReads → Bool
  | [] => decide (size = 0)
  | reads :: rest =>
    decide (0 < size) && reads.all (fun d => decide (d.length = min 0x800 size)) && agreesAtEnd cfg reads &&
      withinLimit limit reads.length && ecFits cfg limit (size - min 0x800 size) rest

/-- The accepted bytes: of each chunk the later of the two reads that agree (R173). -/
def ecBytes (chunks : EcReads) : List Byte := chunks.flatMap fun reads => reads.getLastD []

/-- A list of bytes cut into chunks of 0x800 (R171). -/
def cutChunks : (chunks : Nat) → List Byte → List (List Byte)
  | 0, _ => []
  | n + 1, data => if data.isEmpty then [] else data.take 0x800 :: cutChunks n (data.drop 0x800)

/-- The reads of a device that answers every chunk the same way twice. -/
def stableReads (data : List Byte) : EcReads := (cutChunks (data.length / 0x800 + 1) data).map fun c => [c, c]

/-- The reads of a one-byte `read_ec`. -/
def byteReads (reads : List Byte) : EcReads := [reads.map fun b => [b]]

/-- The READ frames of `read_ec(addr, 1)`. -/
def byteScript (cfg : Params) (addr : Nat) (reads : List Byte) : Script := ecScript cfg addr (byteReads reads)

/-- The reads of an accepted one-byte `read_ec`. -/
def byteFits (cfg : Params) (limit : Option Nat) (reads : List Byte) : Bool := ecFits cfg limit 1 (byteReads reads)

/-- The byte that a one-byte `read_ec` accepts. -/
def byteOf (reads : List Byte) : Byte := reads.getLastD 0

/-- The rounds of a `write_ec` whose read-backs give these bytes: the write and the read again in every round (R182). -/
def weScript (cfg : Params) (addr : Nat) (v : Byte) (reads : List Byte) : Script :=
  reads.flatMap fun r => writeScript (BitVec.ofNat 16 addr) v ++ readScript cfg (BitVec.ofNat 16 addr) [r]

/-- At most `k` rounds where WRITE_EC_LIMIT is `some k` (R181). -/
def withinRounds (limit : Option Nat) (rounds : Nat) : Bool :=
  match limit with
  | some k => decide (rounds ≤ k)
  | none => true

/-- The read-backs of a `write_ec` that ends: the first match under the mask is the last (R180), within WRITE_EC_LIMIT. -/
def weFits (cfg : Params) (m v : Byte) (reads : List Byte) : Bool :=
  endsAt (fun r => decide (r &&& m = v &&& m)) reads &&
    withinRounds cfg.writeEcLimit reads.length

/-! ### EEPROM (R121, R330 to R343) -/

/-- The two writes of one bit (R121). -/
def eeBitScript (cfg : Params) (b : Bool) : Script :=
  let d : Byte := if b then cfg.eeDi else 0
  writeScript cfg.eeReg (cfg.eeCs ||| d) ++ writeScript cfg.eeReg (cfg.eeCs ||| cfg.eeClk ||| d)

/-- Bits in the order of the list. -/
def eeBitsScript (cfg : Params) (bs : List Bool) : Script := bs.flatMap (eeBitScript cfg)

/-- A bit clocked out and the response bit `b` read back (R331). -/
def eeInoutScript (cfg : Params) (out b : Bool) : Script :=
  eeBitScript cfg out ++
    [Cue.free 0x59, Cue.free (hi8 cfg.eeReg), Cue.free (lo8 cfg.eeReg), Cue.free 0x00, Cue.free 0x01,
      .ask cfg.fillByte cfg.eeDo 0 (!b)]

/-- The `count` low bits of a value, bit `count − 1` first (R86). -/
def bitsDown (value count : Nat) : List Bool := (List.range count).map fun i => value.testBit (count - 1 - i)

/-- A step of EE_INIT (R334). -/
def eeStepScript (cfg : Params) : EeInitStep → Script
  | .write w => writeScript w.addr w.value
  | .shift b => eeBitScript cfg b

/-- EE_INIT (R334). -/
def eeInitScript (cfg : Params) : Script := cfg.eeInit.flatMap (eeStepScript cfg)

/-- A command: the init sequence, two class bits, eight field bits (R335). -/
def eeCommandScript (cfg : Params) (cls : BitVec 2) (field : Byte) : Script :=
  eeInitScript cfg ++ eeBitsScript cfg (bitsDown cls.toNat 2) ++ eeBitsScript cfg (bitsDown field.toNat 8)

/-- A wait in which `zeros` polls read 0 and the next one reads 1 (R343). -/
def eeWaitScript (cfg : Params) (zeros : Nat) : Script :=
  writesScript cfg.eeWaitPrelude ++ (List.replicate zeros (eeInoutScript cfg false false)).flatten ++
    eeInoutScript cfg false true

/-- A wait in which every poll reads 0 (R343). -/
def eeWaitFailScript (cfg : Params) : Script :=
  writesScript cfg.eeWaitPrelude ++ (List.replicate cfg.eepromWaitLimit (eeInoutScript cfg false false)).flatten

/-- READ of a cell that holds `w` (R336). -/
def eeReadScript (cfg : Params) (a : Nat) (w : U16) : Script :=
  eeCommandScript cfg cfg.eeOpcRead (BitVec.ofNat 8 a) ++ (bitsDown w.toNat 16).flatMap (eeInoutScript cfg false)

/-- WRITE of `w`, then the wait (R337). -/
def eeWriteScript (cfg : Params) (a : Nat) (w : U16) (zeros : Nat) : Script :=
  eeCommandScript cfg cfg.eeOpcWrite (BitVec.ofNat 8 a) ++ eeBitsScript cfg (bitsDown w.toNat 16) ++ eeWaitScript cfg zeros

/-- WRITE of `w`, then a wait in which every poll reads 0 (R337, R343). -/
def eeWriteFailScript (cfg : Params) (a : Nat) (w : U16) : Script :=
  eeCommandScript cfg cfg.eeOpcWrite (BitVec.ofNat 8 a) ++ eeBitsScript cfg (bitsDown w.toNat 16) ++ eeWaitFailScript cfg

/-- ERASE, then the wait (R338). -/
def eeEraseScript (cfg : Params) (a : Nat) (zeros : Nat) : Script :=
  eeCommandScript cfg cfg.eeOpcErase (BitVec.ofNat 8 a) ++ eeWaitScript cfg zeros

/-- A class-00 command with its sub-operation in the field's top two bits and six padding bits 0 (R125). -/
def eeSubScript (cfg : Params) (sub : BitVec 2) : Script := eeCommandScript cfg 0b00 (sub ++ (0 : BitVec 6))

/-- ERAL, then the wait (R341). -/
def eeEralScript (cfg : Params) (zeros : Nat) : Script := eeSubScript cfg cfg.eeSubEral ++ eeWaitScript cfg zeros

/-- WRAL of `w`, then the wait (R342). -/
def eeWralScript (cfg : Params) (w : U16) (zeros : Nat) : Script :=
  eeSubScript cfg cfg.eeSubWral ++ eeBitsScript cfg (bitsDown w.toNat 16) ++ eeWaitScript cfg zeros

/-! ### TAMA5 (R392 to R397) -/

/-- Selects a sub-register and writes a nibble to it (R393). -/
def tama5WriteScript (cfg : Params) (r nib : Byte) : Script :=
  writeScript cfg.tama5Sel r ++ writeScript cfg.tama5Data nib

/-- Selects a sub-register and reads it (R394). -/
def tama5ReadScript (cfg : Params) (r : Byte) (reads : List Byte) : Script :=
  writeScript cfg.tama5Sel r ++ byteScript cfg cfg.tama5Data.toNat reads

/-- The polls of an unlock (R392). -/
def unlockScript (cfg : Params) (polls : List (List Byte)) : Script :=
  polls.flatMap fun reads => tama5ReadScript cfg (cfg.tama5RegActive.setWidth 8) reads

/-- A low nibble of 1 says that the chip is unlocked (R392). -/
def saysUnlocked (reads : List Byte) : Bool := decide (byteOf reads &&& 0x0F = 0x01)

/-- The polls of an unlock that succeeds: at most 200, each read accepted, the first that says unlocked the last (R392). -/
def unlockFits (cfg : Params) (limit : Option Nat) (polls : List (List Byte)) : Bool :=
  decide (polls.length ≤ 200) && polls.all (byteFits cfg limit) && endsAt saysUnlocked polls

/-- The polls of an unlock that fails: 200, each read accepted, none of which says unlocked (R392). -/
def staysLocked (cfg : Params) (limit : Option Nat) (polls : List (List Byte)) : Bool :=
  decide (polls.length = 200) && polls.all (byteFits cfg limit) && polls.all (fun p => !saysUnlocked p)

/-- The byte of two nibble reads (R396). -/
def nibbleByte (lo hi : List Byte) : Byte := (byteOf hi &&& 0x0F) <<< 4 ||| (byteOf lo &&& 0x0F)

/-- A RAM byte read: command, address, low nibble, high nibble (R396). -/
def tama5RamReadScript (cfg : Params) (ta : Nat) (lo hi : List Byte) : Script :=
  tama5WriteScript cfg (cfg.tama5RegCmd.setWidth 8) (BitVec.ofNat 8 (2 * cfg.tama5CmdRead.toNat + ta / 16)) ++
  tama5WriteScript cfg (cfg.tama5RegAddrLo.setWidth 8) (BitVec.ofNat 8 (ta % 16)) ++
  tama5ReadScript cfg (cfg.tama5RegRdLo.setWidth 8) lo ++ tama5ReadScript cfg (cfg.tama5RegRdHi.setWidth 8) hi

/-- A RAM byte write: low nibble, high nibble, command, address (R397). -/
def tama5RamWriteScript (cfg : Params) (ta : Nat) (v : Byte) : Script :=
  tama5WriteScript cfg (cfg.tama5RegWrLo.setWidth 8) (v &&& 0x0F) ++
  tama5WriteScript cfg (cfg.tama5RegWrHi.setWidth 8) (v >>> 4) ++
  tama5WriteScript cfg (cfg.tama5RegCmd.setWidth 8) (BitVec.ofNat 8 (2 * cfg.tama5CmdWrite.toNat + ta / 16)) ++
  tama5WriteScript cfg (cfg.tama5RegAddrLo.setWidth 8) (BitVec.ofNat 8 (ta % 16))

/-! ### Bank selection and RAM enable (R230 to R251, R395) -/

/-- The writes of `select_rom_bank(n)` (R118); `unlock` are the unlock polls of TAMA5. -/
def romSelectScript (cfg : Params) (v : Variant) (unlock : List (List Byte)) (n : Nat) : Script :=
  match v with
  | .base => []
  | .mbc1 =>
    writeScript 0x2100 (BitVec.ofNat 8 (n % 32)) ++ writeScript 0x4000 (BitVec.ofNat 8 (n / 32)) ++
      writeScript 0x6000 cfg.mbc1ModeValue
  | .mbc2 => writeScript 0x2100 (BitVec.ofNat 8 n)
  | .mbc3 => writeScript 0x2100 (BitVec.ofNat 8 n)
  | .mbc5 => writeScript 0x2100 (BitVec.ofNat 8 (n % 256)) ++ writeScript 0x3000 (BitVec.ofNat 8 (n / 256))
  | .mbc6 => writeScript cfg.mbc6RomSel (BitVec.ofNat 8 n)
  | .mbc7 => writeScript 0x2100 (BitVec.ofNat 8 n)
  | .camera => writeScript 0x2100 (BitVec.ofNat 8 n)
  | .tama5 =>
    unlockScript cfg unlock ++ tama5WriteScript cfg (cfg.tama5RegRomLo.setWidth 8) (BitVec.ofNat 8 (n % 16)) ++
      tama5WriteScript cfg (cfg.tama5RegRomHi.setWidth 8) (BitVec.ofNat 8 (n / 16))

/-- The RAM shadow that `select_rom_bank(n)` writes: on MBC1 only (R231). -/
def romSelectRam (v : Variant) (n : Nat) : Option Nat := if v = .mbc1 then some (n / 32) else none

/-- The writes of `select_ram_bank(n)` (R118). -/
def ramSelectScript (cfg : Params) (v : Variant) (n : Nat) : Script :=
  match v with
  | .base => writeScript 0x4000 (BitVec.ofNat 8 n)
  | .mbc1 => writeScript 0x6000 cfg.mbc1ModeValue ++ writeScript 0x4000 (BitVec.ofNat 8 n)
  | .mbc2 => []
  | .mbc3 => writeScript 0x4000 (BitVec.ofNat 8 n)
  | .mbc5 => writeScript 0x4000 (BitVec.ofNat 8 n)
  | .mbc6 => writeScript cfg.mbc6RamSel (BitVec.ofNat 8 n)
  | .mbc7 => writeScript 0x4000 (BitVec.ofNat 8 n)
  | .camera => writeScript 0x4000 (BitVec.ofNat 8 n)
  | .tama5 => []

/-- The writes of `enable_ram()` (R250, R251). -/
def enableScript (cfg : Params) (v : Variant) : Script := writesScript (ramEnableSeq cfg.ramEnableSeq v)

/-- The RAM shadow that `enable_ram()` writes: on MBC7 only (R251). -/
def enableRamShadow (v : Variant) : Option Nat := if v = .mbc7 then some 0x40 else none

/-! ### Images (R270 to R291, R360, R361, R400, R401) -/

/-- A progress report where one is asked for (R271). -/
def reportScript (progress : Bool) (k : Nat) (b : List Byte) : Script := if progress then [.report k b] else []

/-- The window that bank `k` is read from: 0x4000, but 0x0000 on MBC1 for a multiple of 0x20 (R270, R272). -/
def romWindow (v : Variant) (k : Nat) : Nat := if v = .mbc1 ∧ k % 32 = 0 then 0x0000 else 0x4000

/-- The banks from number `k` on: select, read, report (R270). -/
def banksScript (cfg : Params) (v : Variant) (unlock : List (List Byte)) (progress : Bool) (k : Nat) :
    List EcReads → Script
  | [] => []
  | b :: rest =>
    romSelectScript cfg v unlock k ++ ecScript cfg (romWindow v k) b ++ reportScript progress k (ecBytes b) ++
      banksScript cfg v unlock progress (k + 1) rest

/-- `dump_rom`: bank 0 at 0x0000 without a select, then the others (R270, R272). -/
def dumpRomScript (cfg : Params) (v : Variant) (unlock : List (List Byte)) (progress : Bool) (bank0 : EcReads)
    (banks : List EcReads) : Script :=
  ecScript cfg 0x0000 bank0 ++ reportScript progress 0 (ecBytes bank0) ++ banksScript cfg v unlock progress 1 banks

/-- The image of a dump: the banks' bytes in order (R101). -/
def banksBytes (banks : List EcReads) : List Byte := banks.flatMap ecBytes

/-- The windows of RAM from number `i` on: a select at each bank's first window (R280). -/
def windowsScript (cfg : Params) (v : Variant) (per i : Nat) : List EcReads → Script
  | [] => []
  | w :: rest =>
    (if i % per = 0 then ramSelectScript cfg v (i / per) else []) ++ ecScript cfg (0xA000 + (i % per) * 0x800) w ++
      windowsScript cfg v per (i + 1) rest

/-- GRAN / WIN: four windows a bank, on MBC6 as its bank size gives (R281). -/
def windowsPerBank (cfg : Params) (v : Variant) : Nat := if v = .mbc6 then cfg.mbc6RamBank / 0x800 else 4

/-- The `write_ec` rounds of bytes at consecutive addresses, each with its read-backs (R290). -/
def bytesScript (cfg : Params) (addr : Nat) : List (Byte × List Byte) → Script
  | [] => []
  | (v, reads) :: rest => weScript cfg addr v reads ++ bytesScript cfg (addr + 1) rest

/-- The windows of a restore from number `i` on (R290). -/
def restoreScript (cfg : Params) (v : Variant) (per i : Nat) : List (List (Byte × List Byte)) → Script
  | [] => []
  | w :: rest =>
    (if i % per = 0 then ramSelectScript cfg v (i / per) else []) ++ bytesScript cfg (0xA000 + (i % per) * 0x800) w ++
      restoreScript cfg v per (i + 1) rest

/-- The cells that an image of MBC2 fills: two of each byte, the high nibble first (R291). -/
def imageCells (image : List Byte) : List Byte := image.flatMap fun b : Byte => [b >>> (4 : Nat), b &&& 0x0F]

/-- The two cells of each MBC2 image byte, each with its read-backs (R291). -/
def mbc2Cells (cells : List (Byte × List Byte × List Byte)) : List (Byte × List Byte) :=
  cells.flatMap fun (b, even, odd) => [((b >>> (4 : Nat) : Byte), even), ((b &&& 0x0F : Byte), odd)]

/-- EEPROM words read in order from cell `a` (R360). -/
def wordsScript (cfg : Params) (a : Nat) : List U16 → Script
  | [] => []
  | w :: rest => eeReadScript cfg a w ++ wordsScript cfg (a + 1) rest

/-- Words as image bytes, high byte first (R86). -/
def wordsBytes (ws : List U16) : List Byte := ws.flatMap fun w => [hi8 w, lo8 w]

/-- The words of a restore from cell `a`: each word with the read-backs of its rounds and the zero polls of each wait (R361). -/
def restoreWordsScript (cfg : Params) (a : Nat) : List (U16 × List (Nat × U16)) → Script
  | [] => []
  | (w, rounds) :: rest =>
    (rounds.flatMap fun r => eeWriteScript cfg a w r.1 ++ eeReadScript cfg a r.2) ++ restoreWordsScript cfg (a + 1) rest

/-- The rounds of one word end: the first right read-back is the last, within WRITE_EC_LIMIT, and every wait ends within
EEPROM_WAIT_LIMIT (R361, R343). -/
def wordRoundsFit (cfg : Params) (w : U16) (rounds : List (Nat × U16)) : Bool :=
  endsAt (fun r => decide (r.2 = w)) rounds && rounds.all (fun r => decide (r.1 < cfg.eepromWaitLimit)) &&
    withinRounds cfg.writeEcLimit rounds.length

/-- TAMA5 RAM bytes read in order from address `a`, each by the reads of its two nibbles (R400). -/
def nibblesScript (cfg : Params) (a : Nat) : List (List Byte × List Byte) → Script
  | [] => []
  | (lo, hi) :: rest => tama5RamReadScript cfg a lo hi ++ nibblesScript cfg (a + 1) rest

/-- The bytes of a TAMA5 restore from address `a`, each with the nibble reads of its rounds (R401). -/
def restoreNibblesScript (cfg : Params) (a : Nat) : List (Byte × List (List Byte × List Byte)) → Script
  | [] => []
  | (v, rounds) :: rest =>
    (rounds.flatMap fun r => tama5RamWriteScript cfg a v ++ tama5RamReadScript cfg a r.1 r.2) ++
      restoreNibblesScript cfg (a + 1) rest

/-- The rounds of one TAMA5 byte end: the first right read-back is the last, within WRITE_EC_LIMIT (R401). -/
def nibbleRoundsFit (cfg : Params) (v : Byte) (rounds : List (List Byte × List Byte)) : Bool :=
  endsAt (fun r => decide (nibbleByte r.1 r.2 = v)) rounds &&
    rounds.all (fun r => byteFits cfg none r.1 && byteFits cfg none r.2) &&
    withinRounds cfg.writeEcLimit rounds.length

end Sys2Proof.Machine
end

