-- ==== Sys2Proof/Safety.lean ====
section
/-!
DEFINITION. The terms of claims: which instruction is admitted in which session state, what an operation leaves alone, how it
ends, the frames that sent bytes form, and the invariant of the machine.
-/

namespace Sys2Proof.Machine

/-! ### Kinds of instructions (R130 to R132) -/

/-- The variant of a controller operation; none for the session operations and for frames that run by themselves. -/
def controllerOf (i : Instr) : Option Variant :=
  match i with
  | .hsProbe | .readFrame _ _ | .writeFrame _ _ => none
  | .eeRead _ | .eeWrite _ _ | .eeErase _ | .eeEwen | .eeEwds | .eeEral | .eeWral _ => none
  | .connect | .read _ _ | .write _ _ | .readEc _ _ _ | .writeEc _ _ | .detect => none
  | .selectRomBankBase _ | .selectRamBankBase _ | .enableRamBase => some .base
  | .dumpRomBase _ _ | .dumpRamBase _ | .restoreRamBase _ => some .base
  | .selectRomBankMbc1 _ | .selectRamBankMbc1 _ | .enableRamMbc1 => some .mbc1
  | .dumpRomMbc1 _ _ | .dumpRamMbc1 _ | .restoreRamMbc1 _ => some .mbc1
  | .selectRomBankMbc2 _ | .selectRamBankMbc2 _ | .enableRamMbc2 => some .mbc2
  | .dumpRomMbc2 _ _ | .dumpRamMbc2 _ | .restoreRamMbc2 _ => some .mbc2
  | .selectRomBankMbc3 _ | .selectRamBankMbc3 _ | .enableRamMbc3 => some .mbc3
  | .dumpRomMbc3 _ _ | .dumpRamMbc3 _ | .restoreRamMbc3 _ | .latchRtc | .readRtc _ _ => some .mbc3
  | .selectRomBankMbc5 _ | .selectRamBankMbc5 _ | .enableRamMbc5 => some .mbc5
  | .dumpRomMbc5 _ _ | .dumpRamMbc5 _ | .restoreRamMbc5 _ => some .mbc5
  | .selectRomBankMbc6 _ | .selectRamBankMbc6 _ | .enableRamMbc6 => some .mbc6
  | .dumpRomMbc6 _ _ | .dumpRamMbc6 _ | .restoreRamMbc6 _ => some .mbc6
  | .selectRomBankMbc7 _ | .selectRamBankMbc7 _ | .enableRamMbc7 => some .mbc7
  | .dumpRomMbc7 _ _ | .dumpRamMbc7 _ | .restoreRamMbc7 _ => some .mbc7
  | .eepromShiftIn _ | .eepromShiftInout _ | .eepromRead _ | .eepromWrite _ _ | .eepromErase _ => some .mbc7
  | .eepromEwen | .eepromEwds | .eepromEral | .eepromWral _ | .eepromWait | .sampleAccel _ => some .mbc7
  | .selectRomBankCamera _ | .selectRamBankCamera _ | .enableRamCamera => some .camera
  | .dumpRomCamera _ _ | .dumpRamCamera _ | .restoreRamCamera _ | .takePhoto _ => some .camera
  | .selectRomBankTama5 _ | .selectRamBankTama5 _ | .enableRamTama5 => some .tama5
  | .dumpRomTama5 _ _ | .dumpRamTama5 _ | .restoreRamTama5 _ => some .tama5
  | .tama5Unlock _ | .tama5WriteReg _ _ | .tama5ReadReg _ _ | .tama5RamRead _ _ | .tama5RamWrite _ _ => some .tama5

/-- The name of the operation (R130); the wire frames and EEPROM commands, which are no host operations, have none. -/
def operationOf (i : Instr) : Option OpName :=
  match i with
  | .hsProbe | .readFrame _ _ | .writeFrame _ _ => none
  | .eeRead _ | .eeWrite _ _ | .eeErase _ | .eeEwen | .eeEwds | .eeEral | .eeWral _ => none
  | .connect => some .connect
  | .read _ _ => some .read
  | .write _ _ => some .write
  | .readEc _ _ _ => some .readEc
  | .writeEc _ _ => some .writeEc
  | .detect => some .detect
  | .selectRomBankBase _ | .selectRomBankMbc1 _ | .selectRomBankMbc2 _ | .selectRomBankMbc3 _ => some .selectRomBank
  | .selectRomBankMbc5 _ | .selectRomBankMbc6 _ | .selectRomBankMbc7 _ => some .selectRomBank
  | .selectRomBankCamera _ | .selectRomBankTama5 _ => some .selectRomBank
  | .selectRamBankBase _ | .selectRamBankMbc1 _ | .selectRamBankMbc2 _ | .selectRamBankMbc3 _ => some .selectRamBank
  | .selectRamBankMbc5 _ | .selectRamBankMbc6 _ | .selectRamBankMbc7 _ => some .selectRamBank
  | .selectRamBankCamera _ | .selectRamBankTama5 _ => some .selectRamBank
  | .enableRamBase | .enableRamMbc1 | .enableRamMbc2 | .enableRamMbc3 | .enableRamMbc5 => some .enableRam
  | .enableRamMbc6 | .enableRamMbc7 | .enableRamCamera | .enableRamTama5 => some .enableRam
  | .dumpRomBase _ _ | .dumpRomMbc1 _ _ | .dumpRomMbc2 _ _ | .dumpRomMbc3 _ _ | .dumpRomMbc5 _ _ => some .dumpRom
  | .dumpRomMbc6 _ _ | .dumpRomMbc7 _ _ | .dumpRomCamera _ _ | .dumpRomTama5 _ _ => some .dumpRom
  | .dumpRamBase _ | .dumpRamMbc1 _ | .dumpRamMbc2 _ | .dumpRamMbc3 _ | .dumpRamMbc5 _ => some .dumpRam
  | .dumpRamMbc6 _ | .dumpRamMbc7 _ | .dumpRamCamera _ | .dumpRamTama5 _ => some .dumpRam
  | .restoreRamBase _ | .restoreRamMbc1 _ | .restoreRamMbc2 _ | .restoreRamMbc3 _ | .restoreRamMbc5 _ => some .restoreRam
  | .restoreRamMbc6 _ | .restoreRamMbc7 _ | .restoreRamCamera _ | .restoreRamTama5 _ => some .restoreRam
  | .latchRtc => some .latchRtc
  | .readRtc _ _ => some .readRtc
  | .eepromShiftIn _ => some .eepromShiftIn
  | .eepromShiftInout _ => some .eepromShiftInout
  | .eepromRead _ => some .eepromRead
  | .eepromWrite _ _ => some .eepromWrite
  | .eepromErase _ => some .eepromErase
  | .eepromEwen => some .eepromEwen
  | .eepromEwds => some .eepromEwds
  | .eepromEral => some .eepromEral
  | .eepromWral _ => some .eepromWral
  | .eepromWait => some .eepromWait
  | .sampleAccel _ => some .sampleAccel
  | .takePhoto _ => some .takePhoto
  | .tama5Unlock _ => some .tama5Unlock
  | .tama5WriteReg _ _ => some .tama5WriteReg
  | .tama5ReadReg _ _ => some .tama5ReadReg
  | .tama5RamRead _ _ => some .tama5RamRead
  | .tama5RamWrite _ _ => some .tama5RamWrite

/-- The code of a variant (R37). -/
def variantCode (v : Variant) : Nat :=
  match v with
  | .base => 0x00
  | .mbc1 => 0x01
  | .mbc2 => 0x02
  | .mbc3 => 0x03
  | .mbc5 => 0x04
  | .mbc6 => 0x05
  | .mbc7 => 0x06
  | .camera => 0x07
  | .tama5 => 0x08

/-- The code of an operation (R130). -/
def operationCode (op : OpName) : Nat :=
  match op with
  | .connect => 0x01
  | .read => 0x02
  | .write => 0x03
  | .readEc => 0x04
  | .writeEc => 0x05
  | .detect => 0x10
  | .selectRomBank => 0x20
  | .selectRamBank => 0x21
  | .enableRam => 0x22
  | .dumpRom => 0x30
  | .dumpRam => 0x31
  | .restoreRam => 0x32
  | .latchRtc => 0x40
  | .readRtc => 0x41
  | .eepromShiftIn => 0x50
  | .eepromShiftInout => 0x51
  | .eepromRead => 0x52
  | .eepromWrite => 0x53
  | .eepromErase => 0x54
  | .eepromEwen => 0x55
  | .eepromEwds => 0x56
  | .eepromEral => 0x57
  | .eepromWral => 0x58
  | .eepromWait => 0x59
  | .sampleAccel => 0x5A
  | .takePhoto => 0x60
  | .tama5Unlock => 0x70
  | .tama5WriteReg => 0x71
  | .tama5ReadReg => 0x72
  | .tama5RamRead => 0x73
  | .tama5RamWrite => 0x74

/-- The selector of an instruction that is a host operation: operation code, then variant code or 0xFF (R131). -/
def selectorOf (i : Instr) : Option Nat :=
  (operationOf i).map fun op => operationCode op * 256 + ((controllerOf i).map variantCode).getD 0xFF

/-- The retry limit that an instruction hands to its `read_ec` calls; one without such an operand sets none (R130, R424). -/
def retryLimitOf (i : Instr) : Option Nat :=
  match i with
  | .readEc _ _ l => l
  | .dumpRomBase _ l | .dumpRomMbc1 _ l | .dumpRomMbc2 _ l | .dumpRomMbc3 _ l | .dumpRomMbc5 _ l => l
  | .dumpRomMbc6 _ l | .dumpRomMbc7 _ l | .dumpRomCamera _ l | .dumpRomTama5 _ l => l
  | .dumpRamBase l | .dumpRamMbc1 l | .dumpRamMbc2 l | .dumpRamMbc3 l | .dumpRamMbc5 l => l
  | .dumpRamMbc6 l | .dumpRamMbc7 l | .dumpRamCamera l | .dumpRamTama5 l => l
  | .readRtc _ l | .sampleAccel l | .takePhoto l => l
  | .tama5Unlock l | .tama5ReadReg _ l | .tama5RamRead _ l => l
  | _ => none

/-- Selector validity (R131, R132): the operation codes that go with a variant byte. -/
def validSelector (w : Nat) : Prop :=
  (w % 256 = 0xFF ∧ w / 256 ∈ [0x01, 0x02, 0x03, 0x04, 0x05, 0x10]) ∨
  (w % 256 ≤ 0x08 ∧ w / 256 ∈ [0x20, 0x21, 0x22, 0x30, 0x31, 0x32]) ∨
  (w % 256 = 0x03 ∧ w / 256 ∈ [0x40, 0x41]) ∨
  (w % 256 = 0x06 ∧ 0x50 ≤ w / 256 ∧ w / 256 ≤ 0x5A) ∨
  (w % 256 = 0x07 ∧ w / 256 = 0x60) ∨
  (w % 256 = 0x08 ∧ 0x70 ≤ w / 256 ∧ w / 256 ≤ 0x74)

/-! The nine rows of an operation that every variant has (R130). -/

/-- select_rom_bank. -/
def selectRomOf (v : Variant) (n : Nat) : Instr :=
  match v with
  | .base => .selectRomBankBase n
  | .mbc1 => .selectRomBankMbc1 n
  | .mbc2 => .selectRomBankMbc2 n
  | .mbc3 => .selectRomBankMbc3 n
  | .mbc5 => .selectRomBankMbc5 n
  | .mbc6 => .selectRomBankMbc6 n
  | .mbc7 => .selectRomBankMbc7 n
  | .camera => .selectRomBankCamera n
  | .tama5 => .selectRomBankTama5 n

/-- select_ram_bank. -/
def selectRamOf (v : Variant) (n : Nat) : Instr :=
  match v with
  | .base => .selectRamBankBase n
  | .mbc1 => .selectRamBankMbc1 n
  | .mbc2 => .selectRamBankMbc2 n
  | .mbc3 => .selectRamBankMbc3 n
  | .mbc5 => .selectRamBankMbc5 n
  | .mbc6 => .selectRamBankMbc6 n
  | .mbc7 => .selectRamBankMbc7 n
  | .camera => .selectRamBankCamera n
  | .tama5 => .selectRamBankTama5 n

/-- enable_ram. -/
def enableRamOf (v : Variant) : Instr :=
  match v with
  | .base => .enableRamBase
  | .mbc1 => .enableRamMbc1
  | .mbc2 => .enableRamMbc2
  | .mbc3 => .enableRamMbc3
  | .mbc5 => .enableRamMbc5
  | .mbc6 => .enableRamMbc6
  | .mbc7 => .enableRamMbc7
  | .camera => .enableRamCamera
  | .tama5 => .enableRamTama5

/-- dump_rom. -/
def dumpRomOf (v : Variant) (progress : Bool) (limit : Option Nat) : Instr :=
  match v with
  | .base => .dumpRomBase progress limit
  | .mbc1 => .dumpRomMbc1 progress limit
  | .mbc2 => .dumpRomMbc2 progress limit
  | .mbc3 => .dumpRomMbc3 progress limit
  | .mbc5 => .dumpRomMbc5 progress limit
  | .mbc6 => .dumpRomMbc6 progress limit
  | .mbc7 => .dumpRomMbc7 progress limit
  | .camera => .dumpRomCamera progress limit
  | .tama5 => .dumpRomTama5 progress limit

/-- dump_ram. -/
def dumpRamOf (v : Variant) (limit : Option Nat) : Instr :=
  match v with
  | .base => .dumpRamBase limit
  | .mbc1 => .dumpRamMbc1 limit
  | .mbc2 => .dumpRamMbc2 limit
  | .mbc3 => .dumpRamMbc3 limit
  | .mbc5 => .dumpRamMbc5 limit
  | .mbc6 => .dumpRamMbc6 limit
  | .mbc7 => .dumpRamMbc7 limit
  | .camera => .dumpRamCamera limit
  | .tama5 => .dumpRamTama5 limit

/-- restore_ram. -/
def restoreRamOf (v : Variant) (image : List Byte) : Instr :=
  match v with
  | .base => .restoreRamBase image
  | .mbc1 => .restoreRamMbc1 image
  | .mbc2 => .restoreRamMbc2 image
  | .mbc3 => .restoreRamMbc3 image
  | .mbc5 => .restoreRamMbc5 image
  | .mbc6 => .restoreRamMbc6 image
  | .mbc7 => .restoreRamMbc7 image
  | .camera => .restoreRamCamera image
  | .tama5 => .restoreRamTama5 image

/-- The variants whose RAM is dumped and restored in windows (R280, R281, R290). -/
def hasWindows (v : Variant) : Bool :=
  match v with
  | .base | .mbc1 | .mbc3 | .mbc5 | .mbc6 | .camera => true
  | .mbc2 | .mbc7 | .tama5 => false

/-- The session is connected and its controller is of this variant. -/
def State.Drives (s : State) (v : Variant) : Prop := s.connected = true ∧ s.ctrl.map (·.variant) = some v

/-- The session state admits the instruction (R40, R132, R421, R450). -/
def State.Admits (s : State) (i : Instr) : Prop :=
  match controllerOf i with
  | some v => s.Drives v
  | none => operationOf i ≠ none → (s.connected = true ↔ i ≠ .connect)

/-- The cartridge has RAM, and its enable sequence has a write. -/
def State.enablesRam (s : State) (v : Variant) : Prop :=
  (∀ c, s.ctrl = some c → c.ramSizeBytes ≠ 0) ∧ ramEnableSeq s.cfg.ramEnableSeq v ≠ []

/-- The image has the length of the cartridge's RAM (R290). -/
def State.sizeFits (s : State) (image : List Byte) : Prop := ∀ c, s.ctrl = some c → image.length = c.ramSizeBytes.toNat

/-- The instruction opens with a frame, whatever the link answers, so that a pending cancellation is honoured at its start
(R441). The others are listed with what they depend on: no frame at all, an empty range, an empty RAM, an empty list of writes, a
bound that comes first. -/
def opensWithFrame (s : State) (i : Instr) : Prop :=
  match i with
  | .detect | .selectRomBankBase _ | .selectRamBankMbc2 _ | .selectRamBankTama5 _ => False
  | .readFrame addr len => addr.toNat + len.toNat ≤ 0x10000
  | .read addr length => addr + length ≤ 0x10000
  | .readEc addr size _ => 0 < size ∧ addr + size ≤ 0x10000
  | .writeEc _ _ => s.cfg.writeEcLimit ≠ some 0
  | .enableRamBase => ramEnableSeq s.cfg.ramEnableSeq .base ≠ []
  | .enableRamMbc1 => ramEnableSeq s.cfg.ramEnableSeq .mbc1 ≠ []
  | .enableRamMbc2 => ramEnableSeq s.cfg.ramEnableSeq .mbc2 ≠ []
  | .enableRamMbc3 => ramEnableSeq s.cfg.ramEnableSeq .mbc3 ≠ []
  | .enableRamMbc5 => ramEnableSeq s.cfg.ramEnableSeq .mbc5 ≠ []
  | .enableRamMbc6 => ramEnableSeq s.cfg.ramEnableSeq .mbc6 ≠ []
  | .enableRamMbc7 => ramEnableSeq s.cfg.ramEnableSeq .mbc7 ≠ []
  | .enableRamCamera => ramEnableSeq s.cfg.ramEnableSeq .camera ≠ []
  | .enableRamTama5 => ramEnableSeq s.cfg.ramEnableSeq .tama5 ≠ []
  | .eepromWait => 1 ≤ s.cfg.eepromWaitLimit
  | .dumpRomMbc6 _ _ => ∀ c, s.ctrl = some c → c.romBankCount ≠ 0
  | .dumpRamBase _ => s.enablesRam .base
  | .dumpRamMbc1 _ => s.enablesRam .mbc1
  | .dumpRamMbc3 _ => s.enablesRam .mbc3
  | .dumpRamMbc5 _ => s.enablesRam .mbc5
  | .dumpRamMbc6 _ => s.enablesRam .mbc6
  | .dumpRamMbc7 _ => ramEnableSeq s.cfg.ramEnableSeq .mbc7 ≠ []
  | .dumpRamCamera _ => s.enablesRam .camera
  | .restoreRamBase image => s.enablesRam .base ∧ s.sizeFits image
  | .restoreRamMbc1 image => s.enablesRam .mbc1 ∧ s.sizeFits image
  | .restoreRamMbc2 image => ramEnableSeq s.cfg.ramEnableSeq .mbc2 ≠ [] ∧ image.length = 256
  | .restoreRamMbc3 image => s.enablesRam .mbc3 ∧ s.sizeFits image
  | .restoreRamMbc5 image => s.enablesRam .mbc5 ∧ s.sizeFits image
  | .restoreRamMbc6 image => s.enablesRam .mbc6 ∧ s.sizeFits image
  | .restoreRamMbc7 image => ramEnableSeq s.cfg.ramEnableSeq .mbc7 ≠ [] ∧ image.length = 256
  | .restoreRamCamera image => s.enablesRam .camera ∧ s.sizeFits image
  | .restoreRamTama5 image => image.length = 32
  | _ => True

/-! ### The errors that an instruction may raise (R420 to R426) -/

/-- The instruction makes a poll with a bound of its own: the camera's, the EEPROM's, the TAMA5 unlock's (R425). -/
def pollsDevice (i : Instr) : Bool :=
  match i with
  | .eeWrite _ _ | .eeErase _ | .eeEral | .eeWral _ => true
  | .eepromWrite _ _ | .eepromErase _ | .eepromEral | .eepromWral _ | .eepromWait => true
  | .restoreRamMbc7 _ | .takePhoto _ | .tama5Unlock _ | .selectRomBankTama5 _ => true
  | .dumpRomTama5 _ _ | .dumpRamTama5 _ | .restoreRamTama5 _ => true
  | _ => false

/-- The instruction verifies writes by reading them back (R181, R361, R401). -/
def verifiesWrites (i : Instr) : Bool := operationOf i == some .writeEc || operationOf i == some .restoreRam

/-- Where each error kind may be raised (R420 to R426): NotConnected on a session that is not connected, ProtocolError by
`connect`, UnsupportedCartridge by `detect`, ReadUnstable where a retry limit is set, DeviceTimeout by a bounded poll or under
WRITE_EC_LIMIT, Cancelled where the host asked for it. -/
def mayRaise (s : State) (i : Instr) (k : ErrKind) : Prop :=
  match k with
  | .notConnected => operationOf i ≠ none ∧ s.connected = false
  | .protocolError => i = .connect
  | .unsupportedCartridge => i = .detect
  | .readUnstable => retryLimitOf i ≠ none
  | .deviceTimeout => pollsDevice i = true ∨ (verifiesWrites i = true ∧ s.cfg.writeEcLimit ≠ none)
  | .cancelled => s.cancelReq = true ∨ ∃ x ∈ s.link, x.cancel = true

/-! ### What operations leave alone -/

/-- The instruction may write `rom_shadow` (R230 to R234, R270, R395): `select_rom_bank` and `dump_rom`. -/
def writesRomShadow (i : Instr) : Bool := operationOf i == some .selectRomBank || operationOf i == some .dumpRom

/-- The instruction may write `ram_shadow` (R231, R240 to R243, R251, R280, R311, R370): `select_ram_bank`, MBC7's `enable_ram`,
MBC1's ROM selects, the dumps and restores that select RAM banks, `read_rtc`, `take_photo`. -/
def writesRamShadow (i : Instr) : Bool :=
  match i with
  | .selectRomBankMbc1 _ | .dumpRomMbc1 _ _ | .enableRamMbc7 | .readRtc _ _ | .takePhoto _ => true
  | .dumpRamMbc7 _ | .restoreRamMbc7 _ => true
  | .dumpRamBase _ | .dumpRamMbc1 _ | .dumpRamMbc3 _ | .dumpRamMbc5 _ | .dumpRamMbc6 _ | .dumpRamCamera _ => true
  | .restoreRamBase _ | .restoreRamMbc1 _ | .restoreRamMbc3 _ | .restoreRamMbc5 _ => true
  | .restoreRamMbc6 _ | .restoreRamCamera _ => true
  | _ => operationOf i == some .selectRamBank

/-- A controller but for its shadows. -/
def Controller.bare (c : Controller) : Controller := { c with romShadow := none, ramShadow := none }

/-- A state but for the shadows, in the controller and in what a waiting operation was started from. -/
def State.unshadowed (s : State) : State :=
  { s with ctrl := s.ctrl.map Controller.bare, run := s.run.map fun r => { r with ctrl := r.ctrl.map Controller.bare } }

/-- A state but for the header's checksum and title. -/
def State.untitled (s : State) : State :=
  { s with header := s.header.map fun h => { h with checksum := 0, title := [] } }

/-- An outcome up to a view of its state. -/
def outcomeUpTo (view : State → State) : Host.Outcome State Fault Refusal → Host.Outcome State Fault Refusal
  | .next s => .next (view s)
  | .fault f => .fault f
  | .refused r => .refused r

/-- An event that may occur inside an operation. -/
def Event.inner : Event → Bool
  | .exchange _ _ => true
  | .progress _ _ => true
  | .result _ _ => false
  | .error _ _ _ => false

/-- The bytes sent, of events in order. -/
def sentOf (evs : List Event) : List Byte :=
  evs.filterMap fun e => match e with
    | .exchange sent _ => some sent
    | _ => none

/-! ### The frames that sent bytes form (R110 to R117) -/

/-- A sequence of whole frames: probes, WRITE frames, READ frames with their data phase. -/
inductive WholeFrames (fill : Byte) : List Byte → Prop where
  | none : WholeFrames fill []
  | probe (rest : List Byte) : WholeFrames fill rest → WholeFrames fill (0x9A :: rest)
  | write (ah al v : Byte) (rest : List Byte) : WholeFrames fill rest → WholeFrames fill (0x49 :: ah :: al :: v :: rest)
  | read (ah al lh ll : Byte) (rest : List Byte) : WholeFrames fill rest →
      WholeFrames fill (0x59 :: ah :: al :: lh :: ll :: (List.replicate (join16 lh ll).toNat fill ++ rest))

/-! ### Cancellation requests (R52, R441) -/

/-- A reply in whose exchange the host makes no request. -/
def LinkIn.unmarked (x : LinkIn) : LinkIn := { x with cancel := false }

/-- The same state with a host that requests no cancellation: none is pending, and none comes with a reply of the queue. -/
def State.unasked (s : State) : State :=
  { s with
    cancelReq := false
    link := s.link.map LinkIn.unmarked
    run := s.run.map fun r => { r with cancelReq := false, link := r.link.map LinkIn.unmarked } }

/-- The frames of an instruction (R111 to R114): probe, WRITE, READ with its data phase; of `connect` the header phase too, whose
exchanges are one frame (R441). -/
inductive FrameOf (i : Instr) (fill : Byte) : List Byte → Prop where
  | probe : FrameOf i fill [0x9A]
  | write (ah al v : Byte) : FrameOf i fill [0x49, ah, al, v]
  | read (ah al lh ll : Byte) : FrameOf i fill (0x59 :: ah :: al :: lh :: ll :: List.replicate (join16 lh ll).toNat fill)
  | header : i = .connect → FrameOf i fill (List.replicate 23 fill)

/-- Whole frames that were sent one after another, with the replies they took: from a request pending or not (`asked`) to one
pending or not (`left`). A frame begins only where no request is pending, and after it one is pending exactly where one came with
a reply of it (R441). -/
inductive FramesFrom (i : Instr) (fill : Byte) : (asked : Bool) → List Byte → List LinkIn → (left : Bool) → Prop where
  | none (asked : Bool) : FramesFrom i fill asked [] [] asked
  | frame {f sent : List Byte} {xs used : List LinkIn} {left : Bool} : FrameOf i fill f → xs.length = f.length →
      FramesFrom i fill (xs.any (·.cancel)) sent used left → FramesFrom i fill false (f ++ sent) (xs ++ used) left

/-! ### How an operation ends (R16) -/

/-- A result (R53, R442). -/
def EndsInResult (i : Instr) (s t : State) : Prop :=
  (∃ v, t.traceRev.head? = some (.result i.opId v)) ∧ t.hpc = s.hpc + 1 ∧ t.stop = s.stop ∧ t.refused = s.refused ∧
    t.run = none

/-- An error (R435). -/
def EndsInError (i : Instr) (s t : State) : Prop :=
  ∃ k info, t.traceRev.head? = some (.error i.opId k info) ∧ t.stop = some (.error i.opId k info) ∧ t.hpc = s.hpc ∧
    t.refused = s.refused ∧ t.run = none

/-- A refusal (R430). -/
def EndsInRefusal (s t : State) : Prop :=
  ∃ r, t.stop = some (.refusal r) ∧ t.refused = true ∧ t.hpc = s.hpc ∧ t.run = none ∧
    ∃ evs, t.traceRev = evs ++ s.traceRev ∧ ∀ e ∈ evs, e.inner = true

/-- No end yet: the operation waits for a reply (R16, R81; log 3). -/
def Waits (i : Instr) (s t : State) : Prop :=
  (∃ r, t.run = some r ∧ r.instr = i) ∧ t.awaiting ≠ none ∧ t.link = [] ∧ t.hpc = s.hpc ∧ t.stop = s.stop ∧ t.refused = s.refused

/-! ### The invariant -/

/-- The ROM bank counts that `detect` gives (R205, R206). -/
def legalBanks : List Nat := [2, 4, 8, 16, 32, 64, 128, 256, 72, 80, 96]

/-- The RAM sizes that `detect` gives a variant (R208 to R212). -/
def legalRam (v : Variant) : List Nat :=
  match v with
  | .mbc2 => [256]
  | .mbc7 => [256]
  | .tama5 => [32]
  | _ => [0, 0x800, 0x2000, 0x8000, 0x20000, 0x10000]

/-- A controller as `detect` makes it, up to its shadows. -/
def Controller.Legal (c : Controller) : Prop := c.romBankCount.toNat ∈ legalBanks ∧ c.ramSizeBytes.toNat ∈ legalRam c.variant

/-- The invariant of the machine: the session registers agree (R32, R34, R421), the controller is one that `detect` makes
(R38), the operation registers hold values only while an operation waits (R45 to R49, log 3), a refusal is marked (R51), and the
host program counter indexes the program (R53). -/
structure State.Inv (s : State) : Prop where
  header : s.connected = s.header.isSome
  title : ∀ h, s.header = some h → h.title.length = 16
  controller : s.ctrl ≠ none → s.connected = true
  legal : ∀ c, s.ctrl = some c → c.Legal
  registers : s.run = none → s.ec = none ∧ s.we = none ∧ s.hs = none ∧ s.poll = none ∧ s.ee = none ∧ s.awaiting = none
  waiting : ∀ r, s.run = some r → s.hpc < s.program.length ∧ s.stop = none ∧ r.ctrl.map Controller.bare = s.ctrl.map Controller.bare
  refusal : ∀ r, s.stop = some (.refusal r) → s.refused = true
  counter : s.hpc ≤ s.program.length

end Sys2Proof.Machine
end

