-- ==== Sys2Proof/Certificates/Slice0/Obligations.lean ====
section
/-!
DEFINITION. The statements for the provers. A completion statement says, for every state and every operand that meet its
hypotheses, that `exec` answers the next state `s.completes i script rom ram value`: the exchanges of the script in order,
the two shadows where `some`, the result, `hpc + 1`, and nothing else (Script.lean). A failure statement says the same with
`s.fails` and an error. The scripts are the spec's frames in order; `s.Answers script` is a premise on the link's replies (R15).
-/

section Statements

open Sys2Proof Sys2Proof.Machine

/-! ### Reset, the step, the invariant -/

/-- R59: the state after reset, piece by piece, and the first thing that runs is `P[0]`. -/
def Obligations.ResetState : Prop :=
  State.reset.connected = false ∧ State.reset.header = none ∧ State.reset.ctrl = none ∧ State.reset.trace = [] ∧
  State.reset.refused = false ∧ State.reset.cancelReq = false ∧ State.reset.hpc = 0 ∧
  State.reset.ec = none ∧ State.reset.we = none ∧ State.reset.hs = none ∧ State.reset.poll = none ∧ State.reset.ee = none ∧
  ∀ (req : Request) (rest : List Request) (i : Instr), decode req = .ok i →
    step { State.reset with program := req :: rest } = exec i { State.reset with program := req :: rest }

/-- The invariant holds at reset. -/
def Obligations.ResetMeetsInv : Prop := State.reset.Inv

/-- Every step keeps the invariant: R32 (`connected` exactly when there is a header), R34 (a title of 16 bytes), R40 and R421 (a
controller only on a connected session), R205 to R212 (its sizes are ones that `detect` gives), the operation registers hold no
value between operations (R45 to R49; that they can hold one between steps is log 3), a refusal is marked (R51), `hpc` indexes the program (R53). -/
def Obligations.StepKeepsInv : Prop :=
  ∀ s t : State, s.Inv → step s = .next t → t.Inv

/-- R53: where the request at `hpc` decodes to an instruction and nothing waits, a step is that instruction's meaning in the
whole state: the step itself adds nothing, `hpc + 1` included in the meaning's end. -/
def Obligations.StepRunsTheDecodedInstruction : Prop :=
  ∀ (s : State) (req : Request) (i : Instr), s.stop = none → s.run = none → s.program[s.hpc]? = some req → decode req = .ok i →
    step s = exec i s

/-- R53: a program whose `hpc` has passed its last operation is finished, and one that stopped stays stopped. -/
def Obligations.FinishedAndStoppedPrograms : Prop :=
  (∀ s : State, s.stop = none → s.run = none → s.program.length ≤ s.hpc → step s = .fault .programFinished) ∧
  (∀ s : State, s.stop ≠ none → step s = .fault .programStopped)

/-! ### Encoding -/

/-- R131 and R132: a selector is valid exactly as the table says, its two bytes are the codes of the operation and of its variant
(0xFF for a session operation), an invalid one is refused, and a valid one of another variant than the controller's is refused. -/
def Obligations.SelectorValidity : Prop :=
  ∀ (w : U16) (ops : Operands),
    ((∃ i, decode (.host w ops) = .ok i) ↔ validSelector w.toNat) ∧
    (∀ i, decode (.host w ops) = .ok i → selectorOf i = some w.toNat) ∧
    (¬ validSelector w.toNat → ∀ s : State, s.stop = none → s.run = none → s.program[s.hpc]? = some (.host w ops) →
      step s = .next (s.takeRefusal .badSelector)) ∧
    (∀ i v c, decode (.host w ops) = .ok i → controllerOf i = some v → ∀ s : State, s.ctrl = some c → c.variant ≠ v →
      exec i s = .next (s.takeRefusal .wrongVariant))

/-- R110 to R117: the three wire frames by their first byte, their fields big-endian whatever follows; any other first byte and
any byte list that ends early is no frame, and a step on it is refused by name (the model's choice, log 24). -/
def Obligations.WireFrameDecoding : Prop :=
  (∀ rest : List Byte, decode (.wire (0x9A :: rest)) = .ok .hsProbe) ∧
  (∀ (b1 b2 b3 b4 : Byte) (rest : List Byte), ∃ a n : U16, decode (.wire (0x59 :: b1 :: b2 :: b3 :: b4 :: rest)) = .ok (.readFrame a n) ∧
    a.toNat = b1.toNat * 256 + b2.toNat ∧ n.toNat = b3.toNat * 256 + b4.toNat) ∧
  (∀ (b1 b2 b3 : Byte) (rest : List Byte), ∃ a : U16, decode (.wire (0x49 :: b1 :: b2 :: b3 :: rest)) = .ok (.writeFrame a b3) ∧
    a.toNat = b1.toNat * 256 + b2.toNat) ∧
  (∀ bytes : List Byte,
    bytes = [] ∨ (∃ b rest, bytes = b :: rest ∧ b ≠ 0x9A ∧ b ≠ 0x59 ∧ b ≠ 0x49) ∨
      (bytes.head? = some 0x59 ∧ bytes.length < 5) ∨ (bytes.head? = some 0x49 ∧ bytes.length < 4) →
    ∀ s : State, s.stop = none → s.run = none → s.program[s.hpc]? = some (.wire bytes) → step s = .refused .notAFrame)

/-- R125 and R126: the EEPROM frame of each command and no other one; an address field with a7 = 1 and any other class-00 field is
reserved, and a step on it is refused by name (the model's choice, log 24). -/
def Obligations.EepromFrameDecoding : Prop :=
  ∀ (f : BitVec 10) (d : U16),
    (∀ a, decode (.ee f d) = .ok (.eeRead a) ↔ f = 0b10#2 ++ a ∧ a.toNat ≤ 127) ∧
    (∀ a w, decode (.ee f d) = .ok (.eeWrite a w) ↔ f = 0b01#2 ++ a ∧ a.toNat ≤ 127 ∧ w = d) ∧
    (∀ a, decode (.ee f d) = .ok (.eeErase a) ↔ f = 0b11#2 ++ a ∧ a.toNat ≤ 127) ∧
    (decode (.ee f d) = .ok .eeEwen ↔ f = 0b0011000000) ∧
    (decode (.ee f d) = .ok .eeEwds ↔ f = 0b0000000000) ∧
    (decode (.ee f d) = .ok .eeEral ↔ f = 0b0010000000) ∧
    (∀ w, decode (.ee f d) = .ok (.eeWral w) ↔ f = 0b0001000000 ∧ w = d) ∧
    ((f.toNat < 256 ∧ f ≠ 0b0011000000 ∧ f ≠ 0b0000000000 ∧ f ≠ 0b0010000000 ∧ f ≠ 0b0001000000) ∨
      (256 ≤ f.toNat ∧ 128 ≤ f.toNat % 256) → ∀ s : State, s.stop = none → s.run = none →
      s.program[s.hpc]? = some (.ee f d) → step s = .refused .reservedEeFrame)

/-- A few words written out bit by bit from R111 to R113, R125 and R131. -/
def Obligations.WrittenOutWords : Prop :=
  decode (.wire [0b10011010]) = .ok .hsProbe ∧
  decode (.wire [0b01011001, 0b00000001, 0b00110100, 0b00000000, 0b00000010]) = .ok (.readFrame 0x0134 0x0002) ∧
  decode (.wire [0b01001001, 0b01100000, 0b00000000, 0b00000001]) = .ok (.writeFrame 0x6000 0x01) ∧
  decode (.ee 0b1000000101 0x0000) = .ok (.eeRead 5) ∧
  decode (.ee 0b0101111111 0x1234) = .ok (.eeWrite 127 0x1234) ∧
  decode (.host 0b0000010011111111 { addr := 0x4000, size := 0x4000, retryLimit := some 3 }) = .ok (.readEc 0x4000 0x4000 (some 3)) ∧
  decode (.host 0b0010000000000100 { n := 0x1FF }) = .ok (.selectRomBankMbc5 0x1FF) ∧
  decode (.host 0b0011000000000001 { progress := true }) = .ok (.dumpRomMbc1 true none) ∧
  decode (.host 0b0101001100000110 { eeAddr := 127, word := 0xFFFF }) = .ok (.eepromWrite 127 0xFFFF) ∧
  decode (.host 0b0111010000001000 { ta := 31, value := 0xFF }) = .ok (.tama5RamWrite 31 0xFF)

/-- Decoding what the encoder writes gives every well-formed instruction back, with every operand. -/
def Obligations.DecodeOfEncode : Prop :=
  ∀ i : Instr, i.wf = true → decode (encode i) = .ok i

/-- Encoding what the decoder reads gives the request back: of wire bytes the frame they begin with, of an EEPROM frame the frame
with its data where the command has data, of a host request its selector. -/
def Obligations.EncodeOfDecode : Prop :=
  ∀ (r : Request) (i : Instr), decode r = .ok i →
    match r with
    | .wire bytes => ∃ frame rest, encode i = .wire frame ∧ bytes = frame ++ rest
    | .ee f d => encode i = .ee f (if f.extractLsb' 8 2 = 0b01#2 ∨ f = 0b0001000000 then d else 0)
    | .host w _ => ∃ ops, encode i = .host w ops

/-! ### The machine as a whole -/

/-- R16: an operation ends in exactly one of four ways, and `exec` always answers a next state: a result (R442), an error (R435), a
refusal (R430), or it waits for the link, which is how an operation that goes on for ever shows (log 3). -/
def Obligations.EveryOperationEnds : Prop :=
  ∀ (i : Instr) (s : State), ∃ t, exec i s = .next t ∧
    (EndsInResult i s t ∨ EndsInError i s t ∨ EndsInRefusal s t ∨ Waits i s t)

/-- The frame of every instruction (R31, R32, R36, R38, R44, R50, R51, R52, R53, R61, R460): who writes which register, the trace only
grows; a cancellation request, pending or come with a reply, stays, but for the operation that ends with Cancelled; the program, the parameters and the queue of replies are the model's fields (log 2, log 6, log 9): no operation changes the first
two, and replies are taken in order. -/
def Obligations.RegistersAndTheirWriters : Prop :=
  ∀ (i : Instr) (s t : State), exec i s = .next t →
    (i ≠ .connect → t.connected = s.connected ∧ t.header = s.header) ∧
    (i ≠ .detect → t.ctrl.map Controller.bare = s.ctrl.map Controller.bare) ∧
    (i ≠ .detect → writesRomShadow i = false → t.ctrl.map (·.romShadow) = s.ctrl.map (·.romShadow)) ∧
    (i ≠ .detect → writesRamShadow i = false → t.ctrl.map (·.ramShadow) = s.ctrl.map (·.ramShadow)) ∧
    t.cfg = s.cfg ∧ t.program = s.program ∧ (t.hpc = s.hpc ∨ t.hpc = s.hpc + 1) ∧
    (s.refused = true → t.refused = true) ∧
    (∃ evs, t.traceRev = evs ++ s.traceRev) ∧
    (∃ used, s.link = used ++ t.link ∧
      (t.cancelReq = (s.cancelReq || used.any (·.cancel)) ∨
        t.cancelReq = false ∧ t.stop = some (.error i.opId .cancelled (.opId i.opId))))

/-- R45 to R49, R435: an operation that has ended leaves no value in the operation registers and awaits no reply (log 3). -/
def Obligations.OperationRegistersAreForgotten : Prop :=
  ∀ (i : Instr) (s t : State), exec i s = .next t → t.run = none →
    t.ec = none ∧ t.we = none ∧ t.hs = none ∧ t.poll = none ∧ t.ee = none ∧ t.awaiting = none

/-- R450, R33: once connected, a session stays connected with the same header, whatever the step. -/
def Obligations.ConnectedSessionStays : Prop :=
  ∀ s t : State, s.connected = true → step s = .next t → t.connected = true ∧ t.header = s.header

/-- R44: no operation reads the shadows: states that differ in them only are stepped to states that differ in them only. -/
def Obligations.ShadowsAreNeverRead : Prop :=
  ∀ (i : Instr) (s s' : State), s.unshadowed = s'.unshadowed →
    outcomeUpTo State.unshadowed (exec i s) = outcomeUpTo State.unshadowed (exec i s')

/-- R34, R35: no operation interprets the title or verifies the checksum. -/
def Obligations.TitleAndChecksumAreNeverRead : Prop :=
  ∀ (i : Instr) (s s' : State), s.untitled = s'.untitled →
    outcomeUpTo State.untitled (exec i s) = outcomeUpTo State.untitled (exec i s')

/-- R110, R116: what an operation other than `connect` sends is a sequence of whole frames, and while it waits (log 3) a
beginning of one. -/
def Obligations.SentBytesAreWholeFrames : Prop :=
  ∀ (i : Instr) (s t : State), i ≠ .connect → exec i s = .next t →
    (t.run = none → ∃ evs, t.traceRev = evs ++ s.traceRev ∧ WholeFrames s.cfg.fillByte (sentOf evs.reverse)) ∧
    (t.run ≠ none → ∃ evs b more, t.traceRev = evs ++ s.traceRev ∧ t.awaiting = some b ∧
      WholeFrames s.cfg.fillByte (sentOf evs.reverse ++ b :: more))

/-- R151, R153, R154: `connect` sends at most 200 probes, then at most 23 fill bytes, and nothing else. -/
def Obligations.ConnectSends : Prop :=
  ∀ s t : State, exec .connect s = .next t →
    ∃ evs probes fills, t.traceRev = evs ++ s.traceRev ∧ probes ≤ 200 ∧ fills ≤ 23 ∧
      sentOf evs.reverse = List.replicate probes 0x9A ++ List.replicate fills s.cfg.fillByte

/-- R420 to R426: each error kind is raised only where the spec names it, under the selector of the operation that runs. The second
premise is R32's invariant, which StepKeepsInv states. -/
def Obligations.ErrorsOnlyWhereNamed : Prop :=
  ∀ (i : Instr) (s t : State) (op : OpId) (k : ErrKind) (info : Info), s.stop = none → s.connected = s.header.isSome →
    exec i s = .next t →
    t.stop = some (.error op k info) → op = i.opId ∧ mayRaise s i k

/-- R15, R81: the replies an operation does not take do not matter to it, and a waiting operation that gets replies goes on as if
they had been there from the start; a cancellation request made while it waits counts as made in the exchange that waits (log 3,
log 5: the model's way to wait). -/
def Obligations.WaitingOperationsGoOn : Prop :=
  ∀ (i : Instr) (s t : State), exec i s = .next t →
    (t.run = none → ∀ more, exec i (s.supplyReplies more) = .next (t.supplyReplies more)) ∧
    (t.run ≠ none → s.stop = none → ∀ a more,
      (t.cancelReq = false → step (t.supplyReplies (a :: more)) = exec i (s.supplyReplies (a :: more))) ∧
      step (t.requestCancel.supplyReplies (a :: more)) = exec i (s.supplyReplies ({ a with cancel := true } :: more)))

/-- R16, R81: with no reply to take, a waiting operation waits on, in the same state (log 3). -/
def Obligations.WaitingWithoutReplies : Prop :=
  ∀ (i : Instr) (s t : State), s.stop = none → exec i s = .next t → t.run ≠ none → step t = .next t

/-! ### Admission: the checks before an operation runs -/

/-- R40, R132, R433: a controller operation without a controller is refused, then one of another variant, then one on an unconnected
session raises NotConnected; all before its operands are looked at and before any exchange. -/
def Obligations.ControllerChecks : Prop :=
  ∀ (i : Instr) (v : Variant) (op : OpName) (s : State), controllerOf i = some v → operationOf i = some op →
    (s.ctrl = none → exec i s = .next (s.takeRefusal .noController)) ∧
    (∀ c, s.ctrl = some c → c.variant ≠ v → exec i s = .next (s.takeRefusal .wrongVariant)) ∧
    (∀ c, s.ctrl = some c → c.variant = v → s.connected = false → exec i s = .next (s.raiseError i.opId .notConnected (.op op)))

/-- R421, R433: on an unconnected session every session operation but `connect` raises NotConnected before its operand checks and
before any exchange; R150: on a connected one `connect` is refused. -/
def Obligations.SessionChecks : Prop :=
  (∀ (i : Instr) (op : OpName) (s : State), controllerOf i = none → operationOf i = some op → i ≠ .connect → s.connected = false →
    exec i s = .next (s.raiseError i.opId .notConnected (.op op))) ∧
  (∀ s : State, s.connected = true → exec .connect s = .next (s.takeRefusal .alreadyConnected))

/-- R432: an operand outside its range is refused, before any exchange, whatever else is pending; an EEPROM frame that runs by itself
with a cell above 127 too (log 12). -/
def Obligations.OperandsOutOfRange : Prop :=
  ∀ (i : Instr) (s : State), s.Admits i → i.wf = false → exec i s = .next (s.takeRefusal .operandRange)

/-- R83, R160, R170: a range that passes 0xFFFF is refused, before any exchange; for the READ row run by itself that is the model's
reading of R83 (log 13). -/
def Obligations.RangesPastTheEnd : Prop :=
  ∀ s : State,
    (∀ addr length : Nat, s.connected = true → addr ≤ 0xFFFF → length ≤ 0xFFFF → 0x10000 < addr + length →
      exec (.read addr length) s = .next (s.takeRefusal .rangeOverflow)) ∧
    (∀ (addr size : Nat) (limit : Option Nat), s.connected = true → addr ≤ 0xFFFF → size ≤ 0x10000 → 0x10000 < addr + size →
      exec (.readEc addr size limit) s = .next (s.takeRefusal .rangeOverflow)) ∧
    (∀ addr len : U16, 0x10000 < addr.toNat + len.toNat → exec (.readFrame addr len) s = .next (s.takeRefusal .rangeOverflow))

/-- R290, R291, R361, R401: an image of another length than the RAM is refused, before any exchange. -/
def Obligations.ImagesOfAnotherLength : Prop :=
  ∀ (s : State) (c : Controller) (v : Variant) (image : List Byte), s.connected = true → s.ctrl = some c → c.variant = v →
    image.length ≠ (match v with | .mbc2 => 256 | .mbc7 => 256 | .tama5 => 32 | _ => c.ramSizeBytes.toNat) →
    exec (restoreRamOf v image) s = .next (s.takeRefusal .badImageLength)

/-! ### Cancellation -/

/-- R441, R52, R434: how a cancellation request is honoured, in any state and by any instruction. A request that is pending where an
operation opens with a frame ends it with Cancelled before any exchange, and nothing else has happened. In general, beside the run of
a host that requests nothing (`s.unasked`): either both end alike, a frame having begun only where no request was pending, and what was
requested in the last frame or before an operation without a frame stays pending; or the operation waits (log 3) in a frame that began
so; or it ends with Cancelled after whole frames, the request cleared, at a point where the other run goes on with a further exchange.
That a request comes between steps or with a reply is log 5; frames that run by themselves are among the instructions (log 12). -/
def Obligations.PendingCancellation : Prop :=
  (∀ (i : Instr) (s : State), s.cancelReq = true → s.Admits i → i.wf = true → s.connected = s.header.isSome → opensWithFrame s i →
    exec i s = .next ({ s with cancelReq := false }.raiseError i.opId .cancelled (.opId i.opId))) ∧
  (∀ (i : Instr) (s t u : State), exec i s = .next t → exec i s.unasked = .next u →
    ∃ (evs : List Event) (used : List LinkIn), t.traceRev = evs ++ s.traceRev ∧ s.link = used ++ t.link ∧
      ((t.run = none ∧ t.unasked = u ∧ FramesFrom i s.cfg.fillByte s.cancelReq (sentOf evs.reverse) used t.cancelReq) ∨
        (∃ b sent last more before xs, t.unasked = u ∧ t.awaiting = some b ∧ sentOf evs.reverse ++ [b] = sent ++ last ∧
          used = before ++ xs ∧ FramesFrom i s.cfg.fillByte s.cancelReq sent before false ∧
          FrameOf i s.cfg.fillByte (last ++ more) ∧ t.cancelReq = xs.any (·.cancel)) ∨
        (∃ done more, evs = .error i.opId .cancelled (.opId i.opId) :: done ∧
          t.stop = some (.error i.opId .cancelled (.opId i.opId)) ∧ t.run = none ∧ t.cancelReq = false ∧
          FramesFrom i s.cfg.fillByte s.cancelReq (sentOf evs.reverse) used true ∧
          u.traceRev = more ++ done ++ s.traceRev ∧ sentOf more.reverse ++ u.awaiting.toList ≠ [])))

/-- R441, R230, R242: an operation that sends no frame completes whatever is pending and whatever the link holds, and leaves a
pending request pending: the no-op selects; `detect` likewise (DetectCompletes). -/
def Obligations.FramelessSelects : Prop :=
  ∀ (s : State) (n : Nat), n ≤ 0xFF →
    (s.Drives .base → exec (.selectRomBankBase n) s = .next (s.completes (.selectRomBankBase n) [] (some n) none .unit)) ∧
    (s.Drives .mbc2 → exec (.selectRamBankMbc2 n) s = .next (s.completes (.selectRamBankMbc2 n) [] none (some n) .unit)) ∧
    (s.Drives .tama5 → exec (.selectRamBankTama5 n) s = .next (s.completes (.selectRamBankTama5 n) [] none (some n) .unit))

/-- R183, R434: a bound that is reached before a frame comes before a pending request: with WRITE_EC_LIMIT 0 `write_ec` times out
without an exchange and leaves the request pending. -/
def Obligations.BoundBeforeCancellation : Prop :=
  ∀ (s : State) (addr value : Nat), s.connected = true → s.cfg.writeEcLimit = some 0 → addr ≤ 0xFFFF → value ≤ 0xFF →
    exec (.writeEc addr value) s =
      .next (s.raiseError (.selector 0x05FF) .deviceTimeout (.addr .writeEc (BitVec.ofNat 16 addr)))

/-! ### Frames run by themselves -/

/-- R111 to R113: the three wire frames, byte by byte; the replies of the probe and of the data phase are the result (log 12). -/
def Obligations.WireFramesComplete : Prop :=
  ∀ s : State,
    (∀ r : Byte, s.Answers [Cue.gives 0x9A r] →
      exec .hsProbe s = .next (s.completes .hsProbe [Cue.gives 0x9A r] none none (.byte r))) ∧
    (∀ (addr len : U16) (data : List Byte), data.length = len.toNat → addr.toNat + len.toNat ≤ 0x10000 →
      s.Answers ([Cue.free 0x59, Cue.free (hi8 addr), Cue.free (lo8 addr), Cue.free (hi8 len), Cue.free (lo8 len)] ++
        data.map (Cue.gives s.cfg.fillByte)) →
      exec (.readFrame addr len) s = .next (s.completes (.readFrame addr len)
        ([Cue.free 0x59, Cue.free (hi8 addr), Cue.free (lo8 addr), Cue.free (hi8 len), Cue.free (lo8 len)] ++
          data.map (Cue.gives s.cfg.fillByte)) none none (.bytes data))) ∧
    (∀ (addr : U16) (value : Byte), s.Answers [Cue.free 0x49, Cue.free (hi8 addr), Cue.free (lo8 addr), Cue.free value] →
      exec (.writeFrame addr value) s = .next (s.completes (.writeFrame addr value)
        [Cue.free 0x49, Cue.free (hi8 addr), Cue.free (lo8 addr), Cue.free value] none none .unit))

/-- R125, R335 to R343: the seven EEPROM commands run by themselves (log 12): EE_READ, EE_WRITE, EE_ERASE, EE_EWEN, EE_EWDS, EE_ERAL,
EE_WRAL. -/
def Obligations.EepromFramesComplete : Prop :=
  ∀ s : State,
    (∀ (a : Byte) (w : U16), a.toNat ≤ 127 → s.Answers (eeReadScript s.cfg a.toNat w) →
      exec (.eeRead a) s = .next (s.completes (.eeRead a) (eeReadScript s.cfg a.toNat w) none none (.word w))) ∧
    (∀ (a : Byte) (w : U16) (zeros : Nat), a.toNat ≤ 127 → zeros < s.cfg.eepromWaitLimit →
      s.Answers (eeWriteScript s.cfg a.toNat w zeros) →
      exec (.eeWrite a w) s = .next (s.completes (.eeWrite a w) (eeWriteScript s.cfg a.toNat w zeros) none none .unit)) ∧
    (∀ (a : Byte) (zeros : Nat), a.toNat ≤ 127 → zeros < s.cfg.eepromWaitLimit → s.Answers (eeEraseScript s.cfg a.toNat zeros) →
      exec (.eeErase a) s = .next (s.completes (.eeErase a) (eeEraseScript s.cfg a.toNat zeros) none none .unit)) ∧
    (s.Answers (eeSubScript s.cfg s.cfg.eeSubEwen) →
      exec .eeEwen s = .next (s.completes .eeEwen (eeSubScript s.cfg s.cfg.eeSubEwen) none none .unit)) ∧
    (s.Answers (eeSubScript s.cfg s.cfg.eeSubEwds) →
      exec .eeEwds s = .next (s.completes .eeEwds (eeSubScript s.cfg s.cfg.eeSubEwds) none none .unit)) ∧
    (∀ zeros : Nat, zeros < s.cfg.eepromWaitLimit → s.Answers (eeEralScript s.cfg zeros) →
      exec .eeEral s = .next (s.completes .eeEral (eeEralScript s.cfg zeros) none none .unit)) ∧
    (∀ (w : U16) (zeros : Nat), zeros < s.cfg.eepromWaitLimit → s.Answers (eeWralScript s.cfg w zeros) →
      exec (.eeWral w) s = .next (s.completes (.eeWral w) (eeWralScript s.cfg w zeros) none none .unit))

/-! ### Session operations -/

/-- R150 to R156, R33 to R35: `connect` succeeds when each phase gets its magic at its last probe and not before, of at most 100, and
the terminators match; the header is the 21 bytes by their places, the title byte for byte. -/
def Obligations.ConnectCompletes : Prop :=
  ∀ (s : State) (p1 p2 : List Byte) (ct rom ram ch cl : Byte) (title : List Byte), s.connected = false →
    p1.length < 100 → p2.length < 100 → (∀ r ∈ p1, r ≠ 0xB4) → (∀ r ∈ p2, r ≠ 0x1D) → title.length = 16 →
    s.Answers (probesScript (p1 ++ [0xB4]) ++ probesScript (p2 ++ [0x1D]) ++
      ([ct, rom, ram, ch, cl] ++ title ++ [0x00, 0xFF]).map (Cue.gives s.cfg.fillByte)) →
    exec .connect s = .next
      { s.completes .connect (probesScript (p1 ++ [0xB4]) ++ probesScript (p2 ++ [0x1D]) ++
          ([ct, rom, ram, ch, cl] ++ title ++ [0x00, 0xFF]).map (Cue.gives s.cfg.fillByte)) none none .unit with
        connected := true
        header := some { cartType := ct, romSizeCode := rom, ramSizeCode := ram, checksum := ch ++ cl, title := title } }

/-- R151, R153, R156, R60: `connect` fails in a phase that gets no magic in 100 probes, and on any other pair of terminators; the
session registers then hold their reset values. -/
def Obligations.ConnectFails : Prop :=
  ∀ s : State, s.connected = false →
    (∀ p1 : List Byte, p1.length = 100 → (∀ r ∈ p1, r ≠ 0xB4) → s.Answers (probesScript p1) →
      exec .connect s = .next
        { s.fails .connect (probesScript p1) none none .notConnected (.phase 1) with connected := false, header := none }) ∧
    (∀ p1 p2 : List Byte, p1.length < 100 → p2.length = 100 → (∀ r ∈ p1, r ≠ 0xB4) → (∀ r ∈ p2, r ≠ 0x1D) →
      s.Answers (probesScript (p1 ++ [0xB4]) ++ probesScript p2) →
      exec .connect s = .next
        { s.fails .connect (probesScript (p1 ++ [0xB4]) ++ probesScript p2) none none .notConnected (.phase 2) with
          connected := false, header := none }) ∧
    (∀ (p1 p2 hdr : List Byte) (t0 t1 : Byte), p1.length < 100 → p2.length < 100 → (∀ r ∈ p1, r ≠ 0xB4) → (∀ r ∈ p2, r ≠ 0x1D) →
      hdr.length = 21 → ¬ (t0 = 0x00 ∧ t1 = 0xFF) →
      s.Answers (probesScript (p1 ++ [0xB4]) ++ probesScript (p2 ++ [0x1D]) ++ (hdr ++ [t0, t1]).map (Cue.gives s.cfg.fillByte)) →
      exec .connect s = .next
        { s.fails .connect (probesScript (p1 ++ [0xB4]) ++ probesScript (p2 ++ [0x1D]) ++
            (hdr ++ [t0, t1]).map (Cue.gives s.cfg.fillByte)) none none .protocolError (.terminator t0 t1) with
          connected := false, header := none })

/-- R160, R162: `read` is one READ frame, `write` one WRITE frame. -/
def Obligations.ReadAndWriteComplete : Prop :=
  ∀ s : State, s.connected = true →
    (∀ (addr length : Nat) (data : List Byte), addr ≤ 0xFFFF → length ≤ 0xFFFF → addr + length ≤ 0x10000 → data.length = length →
      s.Answers (readScript s.cfg (BitVec.ofNat 16 addr) data) →
      exec (.read addr length) s =
        .next (s.completes (.read addr length) (readScript s.cfg (BitVec.ofNat 16 addr) data) none none (.bytes data))) ∧
    (∀ addr value : Nat, addr ≤ 0xFFFF → value ≤ 0xFF →
      s.Answers (writeScript (BitVec.ofNat 16 addr) (BitVec.ofNat 8 value)) →
      exec (.write addr value) s = .next (s.completes (.write addr value)
        (writeScript (BitVec.ofNat 16 addr) (BitVec.ofNat 8 value)) none none .unit))

/-- R170 to R174, R176: `read_ec` reads chunk by chunk, each until two consecutive reads agree, and returns the later read of each;
size 0 makes no exchange. -/
def Obligations.ReadEcCompletes : Prop :=
  ∀ (s : State) (addr size : Nat) (limit : Option Nat) (chunks : EcReads), s.connected = true → addr ≤ 0xFFFF →
    addr + size ≤ 0x10000 → ecFits s.cfg limit size chunks = true → s.Answers (ecScript s.cfg addr chunks) →
    exec (.readEc addr size limit) s =
      .next (s.completes (.readEc addr size limit) (ecScript s.cfg addr chunks) none none (.bytes (ecBytes chunks)))

/-- R174: with `retry_limit = some l` a chunk gets at most `l + 2` reads; when no two consecutive ones agree, ReadUnstable is raised at
once, with no further frame and no partial result, whatever was accepted before. -/
def Obligations.ReadEcUnstable : Prop :=
  ∀ (s : State) (addr size l : Nat) (chunks : EcReads) (bad : List (List Byte)), s.connected = true → addr ≤ 0xFFFF →
    addr + size ≤ 0x10000 → 0x800 * chunks.length < size →
    (∀ reads ∈ chunks, agreesAtEnd s.cfg reads = true ∧ reads.length ≤ l + 2 ∧ ∀ d ∈ reads, d.length = 0x800) →
    bad.length = l + 2 → neverAgrees s.cfg bad = true → (∀ d ∈ bad, d.length = min 0x800 (size - 0x800 * chunks.length)) →
    s.Answers (ecScript s.cfg addr (chunks ++ [bad])) →
    exec (.readEc addr size (some l)) s =
      .next (s.fails (.readEc addr size (some l)) (ecScript s.cfg addr (chunks ++ [bad])) none none .readUnstable
        (.chunk (addr + 0x800 * chunks.length) (l + 2)))

/-- R175, R45: with no limit, reads that never agree do not end `read_ec`: after any number of them it waits for the next, its
registers holding the chunk, the last read and the count, and it has neither returned nor raised anything. -/
def Obligations.ReadEcWithoutLimitGoesOn : Prop :=
  ∀ (s : State) (addr size : Nat) (reads : List (List Byte)) (d : List Byte), s.connected = true → addr ≤ 0xFFFF →
    addr + size ≤ 0x10000 → 0 < size → neverAgrees s.cfg (reads ++ [d]) = true →
    (∀ x ∈ reads ++ [d], x.length = min 0x800 size) → s.Answers (ecScript s.cfg addr [reads ++ [d]]) →
    s.link.length = exchangeCount (ecScript s.cfg addr [reads ++ [d]]) →
    ∃ t, exec (.readEc addr size none) s = .next t ∧ Waits (.readEc addr size none) s t ∧ t.awaiting = some 0x59 ∧
      t.traceRev = (s.plays (ecScript s.cfg addr [reads ++ [d]])).traceRev ∧
      t.ec = some { base := BitVec.ofNat 16 addr, size := size, off := 0, len := min 0x800 size, prev := some d,
                    reads := reads.length + 1, limit := none, out := [] }

/-- R180 to R183: `write_ec` makes one WRITE and one READ frame in every round and ends at the first read-back that matches. -/
def Obligations.WriteEcCompletes : Prop :=
  ∀ (s : State) (addr value : Nat) (wrong : List Byte), s.connected = true → addr ≤ 0xFFFF → value ≤ 0xFF →
    (∀ r ∈ wrong, r.toNat ≠ value) → withinRounds s.cfg.writeEcLimit (wrong.length + 1) = true →
    s.Answers (weScript s.cfg addr (BitVec.ofNat 8 value) (wrong ++ [BitVec.ofNat 8 value])) →
    exec (.writeEc addr value) s = .next (s.completes (.writeEc addr value)
      (weScript s.cfg addr (BitVec.ofNat 8 value) (wrong ++ [BitVec.ofNat 8 value])) none none .unit)

/-- R181, R290, R291, R292, R361, R401: with WRITE_EC_LIMIT `some k`, after `k` rounds that do not match DeviceTimeout is raised, by
`write_ec` itself and inside `restore_ram`, which then ends with that error at the unit concerned, wherever it lies in the image: at
a byte of a window (the address in the error is that byte's), at a cell of MBC2 (either nibble of a byte), at a word of MBC7, at a
byte of TAMA5 (the cell in the error). With k = 0 the unit is not written at all. The clause of the windows takes log 22 where
MBC6_RAM_BANK is not a multiple of 0x800 (DESIGN CHOICE). -/
def Obligations.WriteEcTimesOut : Prop :=
  ∀ (s : State) (k : Nat), s.cfg.writeEcLimit = some k →
    (∀ (addr value : Nat) (wrong : List Byte), s.connected = true → addr ≤ 0xFFFF → value ≤ 0xFF → wrong.length = k →
      (∀ r ∈ wrong, r.toNat ≠ value) → s.Answers (weScript s.cfg addr (BitVec.ofNat 8 value) wrong) →
      exec (.writeEc addr value) s = .next (s.fails (.writeEc addr value)
        (weScript s.cfg addr (BitVec.ofNat 8 value) wrong) none none .deviceTimeout (.addr .writeEc (BitVec.ofNat 16 addr)))) ∧
    (∀ (c : Controller) (v : Variant) (done : List (List (Byte × List Byte))) (part : List (Byte × List Byte)) (b : Byte)
      (wrong rest image : List Byte), s.connected = true → s.ctrl = some c → c.variant = v → hasWindows v = true →
      image = (done.flatMap fun w => w.map (·.1)) ++ (part.map (·.1) ++ b :: rest) → image.length = c.ramSizeBytes.toNat →
      0x800 * (done.length + 1) ≤ image.length → (∀ w ∈ done, w.length = 0x800) → part.length < 0x800 →
      (v = .mbc6 → 0x800 ≤ s.cfg.mbc6RamBank ∧ s.cfg.mbc6RamBank ≤ 0x2000) → done.length / windowsPerBank s.cfg v ≤ 0xFF →
      (∀ w ∈ done, ∀ x ∈ w, weFits s.cfg 0xFF x.1 x.2 = true) → (∀ x ∈ part, weFits s.cfg 0xFF x.1 x.2 = true) →
      wrong.length = k → (∀ r ∈ wrong, r ≠ b) →
      s.Answers (enableScript s.cfg v ++ restoreScript s.cfg v (windowsPerBank s.cfg v) 0 (done ++ [part ++ [(b, wrong)]])) →
      exec (restoreRamOf v image) s = .next (s.fails (restoreRamOf v image)
        (enableScript s.cfg v ++ restoreScript s.cfg v (windowsPerBank s.cfg v) 0 (done ++ [part ++ [(b, wrong)]])) none
        (some (done.length / windowsPerBank s.cfg v)) .deviceTimeout
        (.addr .writeEc (BitVec.ofNat 16 (0xA000 + done.length % windowsPerBank s.cfg v * 0x800 + part.length))))) ∧
    (∀ (image : List Byte) (done : List (Byte × List Byte)) (v : Byte) (wrong rest : List Byte), s.Drives .mbc2 →
      image.length = 256 → imageCells image = done.map (·.1) ++ v :: rest → (∀ x ∈ done, weFits s.cfg 0x0F x.1 x.2 = true) →
      wrong.length = k → (∀ r ∈ wrong, r &&& 0x0F ≠ v &&& 0x0F) →
      s.Answers (enableScript s.cfg .mbc2 ++ bytesScript s.cfg 0xA000 (done ++ [(v, wrong)])) →
      exec (.restoreRamMbc2 image) s = .next (s.fails (.restoreRamMbc2 image)
        (enableScript s.cfg .mbc2 ++ bytesScript s.cfg 0xA000 (done ++ [(v, wrong)])) none none .deviceTimeout
        (.addr .writeEc (BitVec.ofNat 16 (0xA000 + done.length))))) ∧
    (∀ (done : List (U16 × List (Nat × U16))) (w : U16) (rounds : List (Nat × U16)) (rest : List U16) (image : List Byte),
      s.Drives .mbc7 → done.length + 1 + rest.length = 128 → image = wordsBytes (done.map (·.1) ++ w :: rest) →
      (∀ x ∈ done, wordRoundsFit s.cfg x.1 x.2 = true) → rounds.length = k →
      (∀ r ∈ rounds, r.2 ≠ w ∧ r.1 < s.cfg.eepromWaitLimit) →
      s.Answers (enableScript s.cfg .mbc7 ++ eeSubScript s.cfg s.cfg.eeSubEwen ++
        restoreWordsScript s.cfg 0 (done ++ [(w, rounds)])) →
      exec (.restoreRamMbc7 image) s = .next (s.fails (.restoreRamMbc7 image)
        (enableScript s.cfg .mbc7 ++ eeSubScript s.cfg s.cfg.eeSubEwen ++ restoreWordsScript s.cfg 0 (done ++ [(w, rounds)]))
        none (some 0x40) .deviceTimeout (.cell .restoreRam done.length))) ∧
    (∀ (polls : List (List Byte)) (done : List (Byte × List (List Byte × List Byte))) (v : Byte)
      (rounds : List (List Byte × List Byte)) (rest image : List Byte), s.Drives .tama5 → unlockFits s.cfg none polls = true →
      done.length + 1 + rest.length = 32 → image = done.map (·.1) ++ v :: rest →
      (∀ x ∈ done, nibbleRoundsFit s.cfg x.1 x.2 = true) → rounds.length = k →
      (∀ r ∈ rounds, nibbleByte r.1 r.2 ≠ v ∧ byteFits s.cfg none r.1 = true ∧ byteFits s.cfg none r.2 = true) →
      s.Answers (enableScript s.cfg .tama5 ++ unlockScript s.cfg polls ++ restoreNibblesScript s.cfg 0 (done ++ [(v, rounds)])) →
      exec (.restoreRamTama5 image) s = .next (s.fails (.restoreRamTama5 image)
        (enableScript s.cfg .tama5 ++ unlockScript s.cfg polls ++ restoreNibblesScript s.cfg 0 (done ++ [(v, rounds)]))
        none none .deviceTimeout (.cell .restoreRam done.length)))

/-! ### detect -/

/-- R200, R205, R206, R208 to R212: `detect` makes no exchange, so nothing pending stops it, and puts a fresh controller in place of
any other: the variant of the table, the bank count of the ROM size code, the RAM size of the variant or of the RAM size code. -/
def Obligations.DetectCompletes : Prop :=
  ∀ (s : State) (h : Header) (v : Variant), s.connected = true → s.header = some h →
    (s.cfg.cartTypeMap.find? fun row => row.1 == h.cartType) = some (h.cartType, v) →
    (h.romSizeCode.toNat < 8 ∨ h.romSizeCode ∈ [0x52, 0x53, 0x54]) →
    exec .detect s = .next
      { s.completes .detect [] none none (.variant v) with
        ctrl := some
          { variant := v
            romBankCount :=
              if h.romSizeCode = 0x52 then 72 else if h.romSizeCode = 0x53 then 80 else if h.romSizeCode = 0x54 then 96
              else BitVec.ofNat 32 (2 * 2 ^ h.romSizeCode.toNat)
            ramSizeBytes :=
              if v = .mbc2 ∨ v = .mbc7 then 256 else if v = .tama5 then 32
              else if h.ramSizeCode = 1 then 0x800 else if h.ramSizeCode = 2 then 0x2000 else if h.ramSizeCode = 3 then 0x8000
              else if h.ramSizeCode = 4 then 0x20000 else if h.ramSizeCode = 5 then 0x10000 else 0
            romShadow := none
            ramShadow := none } }

/-- R202, R207: an unknown type code, and then an unknown ROM size code, is UnsupportedCartridge; the controller stays as it was. -/
def Obligations.DetectFails : Prop :=
  ∀ (s : State) (h : Header), s.connected = true → s.header = some h →
    ((∀ row ∈ s.cfg.cartTypeMap, row.1 ≠ h.cartType) →
      exec .detect s = .next (s.raiseError (.selector 0x10FF) .unsupportedCartridge (.cartType h.cartType))) ∧
    ((∃ row ∈ s.cfg.cartTypeMap, row.1 = h.cartType) → 8 ≤ h.romSizeCode.toNat → h.romSizeCode ∉ [0x52, 0x53, 0x54] →
      exec .detect s = .next (s.raiseError (.selector 0x10FF) .unsupportedCartridge (.romSizeCode h.romSizeCode)))

/-! ### Banks and RAM enable -/

/-- R230 to R234, R395: `select_rom_bank(n)` on all nine variants: its writes in order, `rom_shadow` is `n`, and on MBC1 `ram_shadow` the
high bits (R231). On TAMA5 the unlock comes first; its polls are read with no retry limit. -/
def Obligations.SelectRomBankCompletes : Prop :=
  ∀ (s : State) (v : Variant) (n : Nat) (polls : List (List Byte)), s.Drives v → n ≤ (if v = .mbc5 then 0x1FF else 0xFF) →
    (v = .tama5 → unlockFits s.cfg none polls = true) → s.Answers (romSelectScript s.cfg v polls n) →
    exec (selectRomOf v n) s = .next (s.completes (selectRomOf v n) (romSelectScript s.cfg v polls n) (some n)
      (if v = .mbc1 then some (n / 32) else none) .unit)

/-- R240 to R243: `select_ram_bank(n)` on all nine variants. -/
def Obligations.SelectRamBankCompletes : Prop :=
  ∀ (s : State) (v : Variant) (n : Nat), s.Drives v → n ≤ 0xFF → s.Answers (ramSelectScript s.cfg v n) →
    exec (selectRamOf v n) s = .next (s.completes (selectRamOf v n) (ramSelectScript s.cfg v n) none (some n) .unit)

/-- R250, R251: `enable_ram()` on all nine variants: the table's writes; on MBC7 `ram_shadow` becomes 0x40. -/
def Obligations.EnableRamCompletes : Prop :=
  ∀ (s : State) (v : Variant), s.Drives v → s.Answers (enableScript s.cfg v) →
    exec (enableRamOf v) s =
      .next (s.completes (enableRamOf v) (enableScript s.cfg v) none (if v = .mbc7 then some 0x40 else none) .unit)

/-! ### Dumps and restores -/

/-- R270 to R272: `dump_rom` of every variant but MBC6: bank 0 at 0x0000 without a select, then every other bank by a select and a
read of its window, on MBC1 at 0x0000 for a multiple of 0x20; a report after each bank where one is asked for; the image is the
banks in order, and the shadows are those of the last select. -/
def Obligations.DumpRomCompletes : Prop :=
  ∀ (s : State) (c : Controller) (v : Variant) (progress : Bool) (limit : Option Nat) (polls : List (List Byte)) (bank0 : EcReads)
    (banks : List EcReads), s.connected = true → s.ctrl = some c → c.variant = v → v ≠ .mbc6 →
    c.romBankCount.toNat = banks.length + 1 → banks.length ≤ (if v = .mbc5 then 0x1FF else 0xFF) →
    (v = .tama5 → banks ≠ [] → unlockFits s.cfg none polls = true) →
    (∀ b ∈ bank0 :: banks, ecFits s.cfg limit 0x4000 b = true) →
    s.Answers (dumpRomScript s.cfg v polls progress bank0 banks) →
    exec (dumpRomOf v progress limit) s = .next (s.completes (dumpRomOf v progress limit)
      (dumpRomScript s.cfg v polls progress bank0 banks)
      (if banks.length = 0 then none else some banks.length)
      (if banks.length = 0 ∨ v ≠ .mbc1 then none else some (banks.length / 32))
      (.bytes (banksBytes (bank0 :: banks))))

/-- R274: `dump_rom` of MBC6: twice as many blocks as banks, block 0 included, each by a select and a read at 0x4000. -/
def Obligations.DumpRomMbc6Completes : Prop :=
  ∀ (s : State) (c : Controller) (progress : Bool) (limit : Option Nat) (blocks : List EcReads), s.connected = true →
    s.ctrl = some c → c.variant = .mbc6 → blocks.length = 2 * c.romBankCount.toNat → blocks.length ≤ 0x100 →
    s.cfg.mbc6RomBlock ≤ 0x8000 → (∀ b ∈ blocks, ecFits s.cfg limit s.cfg.mbc6RomBlock b = true) →
    s.Answers (banksScript s.cfg .mbc6 [] progress 0 blocks) →
    exec (.dumpRomMbc6 progress limit) s = .next (s.completes (.dumpRomMbc6 progress limit)
      (banksScript s.cfg .mbc6 [] progress 0 blocks) (if blocks.length = 0 then none else some (blocks.length - 1)) none
      (.bytes (banksBytes blocks)))

/-- R280, R281: `dump_ram` of Base, MBC1, MBC3, MBC5, MBC6 and Camera: nothing for no RAM, else the enable and every window of 0x800
bytes, with a select at each bank's first one. An MBC6_RAM_BANK of 0x800 to 0x2000 bytes is admitted; where it is not a multiple of
0x800, the whole number of windows in a bank is the model's choice (log 22, DESIGN CHOICE: the spec gives the quotient only). -/
def Obligations.DumpRamWindowsCompletes : Prop :=
  ∀ (s : State) (c : Controller) (v : Variant) (limit : Option Nat), s.connected = true → s.ctrl = some c → c.variant = v →
    hasWindows v = true →
    (c.ramSizeBytes = 0 → exec (dumpRamOf v limit) s = .next (s.completes (dumpRamOf v limit) [] none none (.bytes []))) ∧
    (∀ windows : List EcReads, windows ≠ [] → c.ramSizeBytes.toNat = 0x800 * windows.length →
      (v = .mbc6 → 0x800 ≤ s.cfg.mbc6RamBank ∧ s.cfg.mbc6RamBank ≤ 0x2000) →
      windows.length / windowsPerBank s.cfg v ≤ 0xFF → (∀ w ∈ windows, ecFits s.cfg limit 0x800 w = true) →
      s.Answers (enableScript s.cfg v ++ windowsScript s.cfg v (windowsPerBank s.cfg v) 0 windows) →
      exec (dumpRamOf v limit) s = .next (s.completes (dumpRamOf v limit)
        (enableScript s.cfg v ++ windowsScript s.cfg v (windowsPerBank s.cfg v) 0 windows) none
        (some ((windows.length - 1) / windowsPerBank s.cfg v)) (.bytes (banksBytes windows))))

/-- R282, R360, R400: `dump_ram` of MBC2 (512 cells packed to 256 bytes), of MBC7 (128 words, high byte first) and of TAMA5 (one unlock,
32 bytes of two nibbles). -/
def Obligations.DumpRamUnitsComplete : Prop :=
  ∀ (s : State) (limit : Option Nat),
    (∀ cells : EcReads, s.Drives .mbc2 → ecFits s.cfg limit 0x200 cells = true →
      s.Answers (enableScript s.cfg .mbc2 ++ ecScript s.cfg 0xA000 cells) →
      exec (.dumpRamMbc2 limit) s = .next (s.completes (.dumpRamMbc2 limit)
        (enableScript s.cfg .mbc2 ++ ecScript s.cfg 0xA000 cells) none none
        (.bytes ((List.range 256).map fun i =>
          (((ecBytes cells).getD (2 * i) 0 &&& 0x0F) <<< 4) ||| ((ecBytes cells).getD (2 * i + 1) 0 &&& 0x0F))))) ∧
    (∀ words : List U16, s.Drives .mbc7 → words.length = 128 →
      s.Answers (enableScript s.cfg .mbc7 ++ wordsScript s.cfg 0 words) →
      exec (.dumpRamMbc7 limit) s = .next (s.completes (.dumpRamMbc7 limit)
        (enableScript s.cfg .mbc7 ++ wordsScript s.cfg 0 words) none (some 0x40) (.bytes (wordsBytes words)))) ∧
    (∀ (polls : List (List Byte)) (bs : List (List Byte × List Byte)), s.Drives .tama5 → unlockFits s.cfg limit polls = true →
      bs.length = 32 → (∀ b ∈ bs, byteFits s.cfg limit b.1 = true ∧ byteFits s.cfg limit b.2 = true) →
      s.Answers (enableScript s.cfg .tama5 ++ unlockScript s.cfg polls ++ nibblesScript s.cfg 0 bs) →
      exec (.dumpRamTama5 limit) s = .next (s.completes (.dumpRamTama5 limit)
        (enableScript s.cfg .tama5 ++ unlockScript s.cfg polls ++ nibblesScript s.cfg 0 bs) none none
        (.bytes (bs.map fun b => nibbleByte b.1 b.2))))

/-- R290, R281: `restore_ram` of Base, MBC1, MBC3, MBC5, MBC6 and Camera: nothing for no RAM, else the enable and a `write_ec` of every
byte in image order, with a select at each bank's first window. An MBC6_RAM_BANK of 0x800 to 0x2000 bytes is admitted; where it is
not a multiple of 0x800, the whole number of windows in a bank is the model's choice (log 22, DESIGN CHOICE). -/
def Obligations.RestoreRamWindowsCompletes : Prop :=
  ∀ (s : State) (c : Controller) (v : Variant), s.connected = true → s.ctrl = some c → c.variant = v → hasWindows v = true →
    (c.ramSizeBytes = 0 → exec (restoreRamOf v []) s = .next (s.completes (restoreRamOf v []) [] none none .unit)) ∧
    (∀ windows : List (List (Byte × List Byte)), windows ≠ [] → c.ramSizeBytes.toNat = 0x800 * windows.length →
      (v = .mbc6 → 0x800 ≤ s.cfg.mbc6RamBank ∧ s.cfg.mbc6RamBank ≤ 0x2000) →
      windows.length / windowsPerBank s.cfg v ≤ 0xFF → (∀ w ∈ windows, w.length = 0x800) →
      (∀ w ∈ windows, ∀ b ∈ w, weFits s.cfg 0xFF b.1 b.2 = true) →
      s.Answers (enableScript s.cfg v ++ restoreScript s.cfg v (windowsPerBank s.cfg v) 0 windows) →
      exec (restoreRamOf v (windows.flatMap fun w => w.map (·.1))) s =
        .next (s.completes (restoreRamOf v (windows.flatMap fun w => w.map (·.1)))
          (enableScript s.cfg v ++ restoreScript s.cfg v (windowsPerBank s.cfg v) 0 windows) none
          (some ((windows.length - 1) / windowsPerBank s.cfg v)) .unit))

/-- R291, R361, R401: `restore_ram` of MBC2 (two cells a byte, compared in the low nibble), of MBC7 (EWEN, 128 words each written and
read back, EWDS) and of TAMA5 (one unlock, 32 bytes each written and read back). -/
def Obligations.RestoreRamUnitsComplete : Prop :=
  ∀ s : State,
    (∀ cells : List (Byte × List Byte × List Byte), s.Drives .mbc2 → cells.length = 256 →
      (∀ b ∈ mbc2Cells cells, weFits s.cfg 0x0F b.1 b.2 = true) →
      s.Answers (enableScript s.cfg .mbc2 ++ bytesScript s.cfg 0xA000 (mbc2Cells cells)) →
      exec (.restoreRamMbc2 (cells.map (·.1))) s = .next (s.completes (.restoreRamMbc2 (cells.map (·.1)))
        (enableScript s.cfg .mbc2 ++ bytesScript s.cfg 0xA000 (mbc2Cells cells)) none none .unit)) ∧
    (∀ words : List (U16 × List (Nat × U16)), s.Drives .mbc7 → words.length = 128 →
      (∀ w ∈ words, wordRoundsFit s.cfg w.1 w.2 = true) →
      s.Answers (enableScript s.cfg .mbc7 ++ eeSubScript s.cfg s.cfg.eeSubEwen ++ restoreWordsScript s.cfg 0 words ++
        eeSubScript s.cfg s.cfg.eeSubEwds) →
      exec (.restoreRamMbc7 (wordsBytes (words.map (·.1)))) s =
        .next (s.completes (.restoreRamMbc7 (wordsBytes (words.map (·.1))))
          (enableScript s.cfg .mbc7 ++ eeSubScript s.cfg s.cfg.eeSubEwen ++ restoreWordsScript s.cfg 0 words ++
            eeSubScript s.cfg s.cfg.eeSubEwds) none (some 0x40) .unit)) ∧
    (∀ (polls : List (List Byte)) (bs : List (Byte × List (List Byte × List Byte))), s.Drives .tama5 →
      unlockFits s.cfg none polls = true → bs.length = 32 → (∀ b ∈ bs, nibbleRoundsFit s.cfg b.1 b.2 = true) →
      s.Answers (enableScript s.cfg .tama5 ++ unlockScript s.cfg polls ++ restoreNibblesScript s.cfg 0 bs) →
      exec (.restoreRamTama5 (bs.map (·.1))) s = .next (s.completes (.restoreRamTama5 (bs.map (·.1)))
        (enableScript s.cfg .tama5 ++ unlockScript s.cfg polls ++ restoreNibblesScript s.cfg 0 bs) none none .unit))

/-! ### The operations of one variant -/

/-- R310, R311: `latch_rtc` writes 0 then 1 to 0x6000; `read_rtc(reg)` selects RAM bank 8 + reg and returns the agreed byte at 0xA000
unchanged. -/
def Obligations.RtcOperationsComplete : Prop :=
  ∀ s : State, s.Drives .mbc3 →
    (s.Answers (writeScript 0x6000 0x00 ++ writeScript 0x6000 0x01) →
      exec .latchRtc s = .next (s.completes .latchRtc (writeScript 0x6000 0x00 ++ writeScript 0x6000 0x01) none none .unit)) ∧
    (∀ (reg : Nat) (limit : Option Nat) (reads : List Byte), reg ≤ 3 → byteFits s.cfg limit reads = true →
      s.Answers (writeScript 0x4000 (BitVec.ofNat 8 (8 + reg)) ++ byteScript s.cfg 0xA000 reads) →
      exec (.readRtc reg limit) s = .next (s.completes (.readRtc reg limit)
        (writeScript 0x4000 (BitVec.ofNat 8 (8 + reg)) ++ byteScript s.cfg 0xA000 reads) none (some (8 + reg))
        (.byte (byteOf reads))))

/-- R330, R331, R336 to R343: the ten EEPROM operations of MBC7: shift_in, shift_inout, read, write, erase, ewen, ewds, eral, wral, wait.
The bit that shift_inout returns is given as the byte 0 or 1, which is the model's choice (log 26, DESIGN CHOICE). -/
def Obligations.EepromOperationsComplete : Prop :=
  ∀ s : State, s.Drives .mbc7 →
    (∀ bit : Nat, bit ≤ 1 → s.Answers (eeBitScript s.cfg (decide (bit = 1))) →
      exec (.eepromShiftIn bit) s =
        .next (s.completes (.eepromShiftIn bit) (eeBitScript s.cfg (decide (bit = 1))) none none .unit)) ∧
    (∀ (bit : Nat) (b : Bool), bit ≤ 1 → s.Answers (eeInoutScript s.cfg (decide (bit = 1)) b) →
      exec (.eepromShiftInout bit) s = .next (s.completes (.eepromShiftInout bit)
        (eeInoutScript s.cfg (decide (bit = 1)) b) none none (.byte (if b then 1 else 0)))) ∧
    (∀ (a : Nat) (w : U16), a ≤ 127 → s.Answers (eeReadScript s.cfg a w) →
      exec (.eepromRead a) s = .next (s.completes (.eepromRead a) (eeReadScript s.cfg a w) none none (.word w))) ∧
    (∀ (a : Nat) (w : U16) (zeros : Nat), a ≤ 127 → zeros < s.cfg.eepromWaitLimit → s.Answers (eeWriteScript s.cfg a w zeros) →
      exec (.eepromWrite a w.toNat) s =
        .next (s.completes (.eepromWrite a w.toNat) (eeWriteScript s.cfg a w zeros) none none .unit)) ∧
    (∀ a zeros : Nat, a ≤ 127 → zeros < s.cfg.eepromWaitLimit → s.Answers (eeEraseScript s.cfg a zeros) →
      exec (.eepromErase a) s = .next (s.completes (.eepromErase a) (eeEraseScript s.cfg a zeros) none none .unit)) ∧
    (s.Answers (eeSubScript s.cfg s.cfg.eeSubEwen) →
      exec .eepromEwen s = .next (s.completes .eepromEwen (eeSubScript s.cfg s.cfg.eeSubEwen) none none .unit)) ∧
    (s.Answers (eeSubScript s.cfg s.cfg.eeSubEwds) →
      exec .eepromEwds s = .next (s.completes .eepromEwds (eeSubScript s.cfg s.cfg.eeSubEwds) none none .unit)) ∧
    (∀ zeros : Nat, zeros < s.cfg.eepromWaitLimit → s.Answers (eeEralScript s.cfg zeros) →
      exec .eepromEral s = .next (s.completes .eepromEral (eeEralScript s.cfg zeros) none none .unit)) ∧
    (∀ (w : U16) (zeros : Nat), zeros < s.cfg.eepromWaitLimit → s.Answers (eeWralScript s.cfg w zeros) →
      exec (.eepromWral w.toNat) s = .next (s.completes (.eepromWral w.toNat) (eeWralScript s.cfg w zeros) none none .unit)) ∧
    (∀ zeros : Nat, zeros < s.cfg.eepromWaitLimit → s.Answers (eeWaitScript s.cfg zeros) →
      exec .eepromWait s = .next (s.completes .eepromWait (eeWaitScript s.cfg zeros) none none .unit))

/-- R350: `sample_accel` latches, then reads X low, X high, Y low, Y high, and returns the two words raw. -/
def Obligations.SampleAccelCompletes : Prop :=
  ∀ (s : State) (limit : Option Nat) (xl xh yl yh : List Byte), s.Drives .mbc7 →
    (∀ reads ∈ [xl, xh, yl, yh], byteFits s.cfg limit reads = true) →
    s.Answers (writeScript s.cfg.accelLatch1.addr s.cfg.accelLatch1.value ++
      writeScript s.cfg.accelLatch2.addr s.cfg.accelLatch2.value ++ byteScript s.cfg s.cfg.accelXl.toNat xl ++
      byteScript s.cfg s.cfg.accelXh.toNat xh ++ byteScript s.cfg s.cfg.accelYl.toNat yl ++
      byteScript s.cfg s.cfg.accelYh.toNat yh) →
    exec (.sampleAccel limit) s = .next (s.completes (.sampleAccel limit)
      (writeScript s.cfg.accelLatch1.addr s.cfg.accelLatch1.value ++
        writeScript s.cfg.accelLatch2.addr s.cfg.accelLatch2.value ++ byteScript s.cfg s.cfg.accelXl.toNat xl ++
        byteScript s.cfg s.cfg.accelXh.toNat xh ++ byteScript s.cfg s.cfg.accelYl.toNat yl ++
        byteScript s.cfg s.cfg.accelYh.toNat yh) none none
      (.words (byteOf xh ++ byteOf xl) (byteOf yh ++ byteOf yl)))

/-- R370 to R373: `take_photo` selects the sensor bank, triggers, and polls until bit 0 reads 0, within CAMERA_POLL_LIMIT. -/
def Obligations.TakePhotoCompletes : Prop :=
  ∀ (s : State) (limit : Option Nat) (busy : List (List Byte)) (clear : List Byte), s.Drives .camera →
    busy.length < s.cfg.cameraPollLimit → (∀ p ∈ busy, byteFits s.cfg limit p = true ∧ byteOf p &&& 0x01 = 1) →
    byteFits s.cfg limit clear = true → byteOf clear &&& 0x01 = 0 →
    s.Answers (writeScript 0x4000 0x10 ++ writeScript 0xA000 s.cfg.cameraTrigger ++
      (busy ++ [clear]).flatMap (byteScript s.cfg 0xA000)) →
    exec (.takePhoto limit) s = .next (s.completes (.takePhoto limit)
      (writeScript 0x4000 0x10 ++ writeScript 0xA000 s.cfg.cameraTrigger ++
        (busy ++ [clear]).flatMap (byteScript s.cfg 0xA000)) none (some 0x10) .unit)

/-- R392 to R394, R396, R397: the five register operations of TAMA5. The nibble that tama5_read_reg returns is given as a byte, which
is the model's choice (log 26, DESIGN CHOICE). -/
def Obligations.Tama5OperationsComplete : Prop :=
  ∀ s : State, s.Drives .tama5 →
    (∀ (limit : Option Nat) (polls : List (List Byte)), unlockFits s.cfg limit polls = true → s.Answers (unlockScript s.cfg polls) →
      exec (.tama5Unlock limit) s = .next (s.completes (.tama5Unlock limit) (unlockScript s.cfg polls) none none .unit)) ∧
    (∀ r nib : Nat, r ≤ 15 → nib ≤ 15 → s.Answers (tama5WriteScript s.cfg (BitVec.ofNat 8 r) (BitVec.ofNat 8 nib)) →
      exec (.tama5WriteReg r nib) s = .next (s.completes (.tama5WriteReg r nib)
        (tama5WriteScript s.cfg (BitVec.ofNat 8 r) (BitVec.ofNat 8 nib)) none none .unit)) ∧
    (∀ (r : Nat) (limit : Option Nat) (reads : List Byte), r ≤ 15 → byteFits s.cfg limit reads = true →
      s.Answers (tama5ReadScript s.cfg (BitVec.ofNat 8 r) reads) →
      exec (.tama5ReadReg r limit) s = .next (s.completes (.tama5ReadReg r limit)
        (tama5ReadScript s.cfg (BitVec.ofNat 8 r) reads) none none (.byte (byteOf reads &&& 0x0F)))) ∧
    (∀ (ta : Nat) (limit : Option Nat) (lo hi : List Byte), ta ≤ 31 → byteFits s.cfg limit lo = true →
      byteFits s.cfg limit hi = true → s.Answers (tama5RamReadScript s.cfg ta lo hi) →
      exec (.tama5RamRead ta limit) s = .next (s.completes (.tama5RamRead ta limit)
        (tama5RamReadScript s.cfg ta lo hi) none none (.byte (nibbleByte lo hi)))) ∧
    (∀ ta value : Nat, ta ≤ 31 → value ≤ 0xFF → s.Answers (tama5RamWriteScript s.cfg ta (BitVec.ofNat 8 value)) →
      exec (.tama5RamWrite ta value) s = .next (s.completes (.tama5RamWrite ta value)
        (tama5RamWriteScript s.cfg ta (BitVec.ofNat 8 value)) none none .unit))

/-! ### Timeouts and aborts -/

/-- R372, R343, R392, R425, R437: a bounded poll raises DeviceTimeout when its bound is reached, after exactly as many polls, and the
operation that it runs in ends with that error: the camera's in `take_photo`; the EEPROM's in `eeprom_wait`, in write, erase, eral
and wral as host operations and as frames by themselves (log 12), and in `restore_ram` of MBC7 at any word and any round; TAMA5's in
`tama5_unlock`, in `select_rom_bank`, in `dump_rom` at any bank, in `dump_ram` and in `restore_ram`. -/
def Obligations.PollsTimeOut : Prop :=
  ∀ s : State,
    (∀ (limit : Option Nat) (polls : List (List Byte)), s.Drives .camera → polls.length = s.cfg.cameraPollLimit →
      (∀ p ∈ polls, byteFits s.cfg limit p = true ∧ byteOf p &&& 0x01 = 1) →
      s.Answers (writeScript 0x4000 0x10 ++ writeScript 0xA000 s.cfg.cameraTrigger ++ polls.flatMap (byteScript s.cfg 0xA000)) →
      exec (.takePhoto limit) s = .next (s.fails (.takePhoto limit)
        (writeScript 0x4000 0x10 ++ writeScript 0xA000 s.cfg.cameraTrigger ++ polls.flatMap (byteScript s.cfg 0xA000))
        none (some 0x10) .deviceTimeout (.polls .takePhoto s.cfg.cameraPollLimit))) ∧
    (∀ (i : Instr) (cs : Script), (controllerOf i = some .mbc7 → s.Drives .mbc7) →
      (i = .eepromWait ∧ cs = eeWaitFailScript s.cfg ∨
        (∃ (a : Byte) (w : U16), a.toNat ≤ 127 ∧ (i = .eepromWrite a.toNat w.toNat ∨ i = .eeWrite a w) ∧
          cs = eeWriteFailScript s.cfg a.toNat w) ∨
        (∃ a : Byte, a.toNat ≤ 127 ∧ (i = .eepromErase a.toNat ∨ i = .eeErase a) ∧
          cs = eeCommandScript s.cfg s.cfg.eeOpcErase a ++ eeWaitFailScript s.cfg) ∨
        ((i = .eepromEral ∨ i = .eeEral) ∧ cs = eeSubScript s.cfg s.cfg.eeSubEral ++ eeWaitFailScript s.cfg) ∨
        (∃ w : U16, (i = .eepromWral w.toNat ∨ i = .eeWral w) ∧
          cs = eeSubScript s.cfg s.cfg.eeSubWral ++ eeBitsScript s.cfg (bitsDown w.toNat 16) ++ eeWaitFailScript s.cfg)) →
      s.Answers cs →
      exec i s = .next (s.fails i cs none none .deviceTimeout (.polls .eepromWait s.cfg.eepromWaitLimit))) ∧
    (∀ (done : List (U16 × List (Nat × U16))) (w : U16) (rounds : List (Nat × U16)) (rest : List U16) (image : List Byte),
      s.Drives .mbc7 → done.length + 1 + rest.length = 128 → image = wordsBytes (done.map (·.1) ++ w :: rest) →
      (∀ x ∈ done, wordRoundsFit s.cfg x.1 x.2 = true) → withinRounds s.cfg.writeEcLimit (rounds.length + 1) = true →
      (∀ r ∈ rounds, r.2 ≠ w ∧ r.1 < s.cfg.eepromWaitLimit) →
      s.Answers (enableScript s.cfg .mbc7 ++ eeSubScript s.cfg s.cfg.eeSubEwen ++
        (restoreWordsScript s.cfg 0 (done ++ [(w, rounds)]) ++ eeWriteFailScript s.cfg done.length w)) →
      exec (.restoreRamMbc7 image) s = .next (s.fails (.restoreRamMbc7 image)
        (enableScript s.cfg .mbc7 ++ eeSubScript s.cfg s.cfg.eeSubEwen ++
          (restoreWordsScript s.cfg 0 (done ++ [(w, rounds)]) ++ eeWriteFailScript s.cfg done.length w))
        none (some 0x40) .deviceTimeout (.polls .eepromWait s.cfg.eepromWaitLimit))) ∧
    (∀ (limit : Option Nat) (locked : List (List Byte)), s.Drives .tama5 → staysLocked s.cfg limit locked = true →
      (s.Answers (unlockScript s.cfg locked) →
        exec (.tama5Unlock limit) s = .next (s.fails (.tama5Unlock limit) (unlockScript s.cfg locked) none none .deviceTimeout
          (.polls .tama5Unlock 200))) ∧
      (s.Answers (enableScript s.cfg .tama5 ++ unlockScript s.cfg locked) →
        exec (.dumpRamTama5 limit) s = .next (s.fails (.dumpRamTama5 limit)
          (enableScript s.cfg .tama5 ++ unlockScript s.cfg locked) none none .deviceTimeout (.polls .tama5Unlock 200)))) ∧
    (∀ locked : List (List Byte), s.Drives .tama5 → staysLocked s.cfg none locked = true →
      (∀ n : Nat, n ≤ 0xFF → s.Answers (unlockScript s.cfg locked) →
        exec (.selectRomBankTama5 n) s = .next (s.fails (.selectRomBankTama5 n) (unlockScript s.cfg locked) none none
          .deviceTimeout (.polls .tama5Unlock 200))) ∧
      (∀ image : List Byte, image.length = 32 → s.Answers (enableScript s.cfg .tama5 ++ unlockScript s.cfg locked) →
        exec (.restoreRamTama5 image) s = .next (s.fails (.restoreRamTama5 image)
          (enableScript s.cfg .tama5 ++ unlockScript s.cfg locked) none none .deviceTimeout (.polls .tama5Unlock 200))) ∧
      (∀ (c : Controller) (progress : Bool) (limit : Option Nat) (polls : List (List Byte)) (bank0 : EcReads) (banks : List EcReads),
        s.ctrl = some c → banks.length + 1 < c.romBankCount.toNat → banks.length + 1 ≤ 0xFF →
        (banks ≠ [] → unlockFits s.cfg none polls = true) → (∀ b ∈ bank0 :: banks, ecFits s.cfg limit 0x4000 b = true) →
        s.Answers (dumpRomScript s.cfg .tama5 polls progress bank0 banks ++ unlockScript s.cfg locked) →
        exec (.dumpRomTama5 progress limit) s = .next (s.fails (.dumpRomTama5 progress limit)
          (dumpRomScript s.cfg .tama5 polls progress bank0 banks ++ unlockScript s.cfg locked)
          (if banks.length = 0 then none else some banks.length) none .deviceTimeout (.polls .tama5Unlock 200))))

/-- R273, R274, R292: a chunk that never agrees ends the dump with that error, whichever chunk of whichever bank it is and whatever the
variant: no image, the reports already made stay in the trace, and the shadows are those of the last select. In bank 0, which has no
select; in a bank `k ≥ 1`, at the window of its variant (0x0000 for a multiple of 0x20 on MBC1); in a block of MBC6, block 0 included. -/
def Obligations.DumpRomAborts : Prop :=
  ∀ (s : State) (c : Controller) (progress : Bool) (l : Nat) (good : EcReads) (bad : List (List Byte)), s.connected = true →
    s.ctrl = some c → (∀ reads ∈ good, agreesAtEnd s.cfg reads = true ∧ reads.length ≤ l + 2 ∧ ∀ d ∈ reads, d.length = 0x800) →
    bad.length = l + 2 → neverAgrees s.cfg bad = true →
    (∀ v : Variant, c.variant = v → v ≠ .mbc6 → good.length < 8 → (∀ d ∈ bad, d.length = 0x800) →
      s.Answers (ecScript s.cfg 0x0000 (good ++ [bad])) →
      exec (dumpRomOf v progress (some l)) s = .next (s.fails (dumpRomOf v progress (some l))
        (ecScript s.cfg 0x0000 (good ++ [bad])) none none .readUnstable (.chunk (0x800 * good.length) (l + 2)))) ∧
    (∀ (v : Variant) (k : Nat) (polls : List (List Byte)) (bank0 : EcReads) (banks : List EcReads), c.variant = v → v ≠ .mbc6 →
      good.length < 8 → (∀ d ∈ bad, d.length = 0x800) → k = banks.length + 1 → k < c.romBankCount.toNat →
      k ≤ (if v = .mbc5 then 0x1FF else 0xFF) → (v = .tama5 → unlockFits s.cfg none polls = true) →
      (∀ b ∈ bank0 :: banks, ecFits s.cfg (some l) 0x4000 b = true) →
      s.Answers (dumpRomScript s.cfg v polls progress bank0 banks ++
        (romSelectScript s.cfg v polls k ++ ecScript s.cfg (romWindow v k) (good ++ [bad]))) →
      exec (dumpRomOf v progress (some l)) s = .next (s.fails (dumpRomOf v progress (some l))
        (dumpRomScript s.cfg v polls progress bank0 banks ++
          (romSelectScript s.cfg v polls k ++ ecScript s.cfg (romWindow v k) (good ++ [bad])))
        (some k) (if v = .mbc1 then some (k / 32) else none) .readUnstable (.chunk (romWindow v k + 0x800 * good.length) (l + 2)))) ∧
    (∀ blocks : List EcReads, c.variant = .mbc6 → blocks.length < 2 * c.romBankCount.toNat → blocks.length ≤ 0xFF →
      s.cfg.mbc6RomBlock ≤ 0x8000 → (∀ b ∈ blocks, ecFits s.cfg (some l) s.cfg.mbc6RomBlock b = true) →
      0x800 * good.length < s.cfg.mbc6RomBlock →
      (∀ d ∈ bad, d.length = min 0x800 (s.cfg.mbc6RomBlock - 0x800 * good.length)) →
      s.Answers (banksScript s.cfg .mbc6 [] progress 0 blocks ++ romSelectScript s.cfg .mbc6 [] blocks.length ++
        ecScript s.cfg 0x4000 (good ++ [bad])) →
      exec (.dumpRomMbc6 progress (some l)) s = .next (s.fails (.dumpRomMbc6 progress (some l))
        (banksScript s.cfg .mbc6 [] progress 0 blocks ++ romSelectScript s.cfg .mbc6 [] blocks.length ++
          ecScript s.cfg 0x4000 (good ++ [bad])) (some blocks.length) none .readUnstable
        (.chunk (0x4000 + 0x800 * good.length) (l + 2))))

/-- R46 to R49: the operation registers of an operation that waits for the link: the probes of `connect`, the rounds of `write_ec`,
the polls of `tama5_unlock`, the bits of `eeprom_read`. All of it rests on choices of the model: that an operation can be seen while it
waits (log 3), that a register holds what was last written to it also in the middle of a frame (log 23), that `hs_bytes` is empty before
the header phase (log 8), that `ee_bit` counts from 0 in `ee_recv_bits` (log 30). -/
def Obligations.OperationRegistersWhileWaiting : Prop :=
  ∀ s : State,
    (∀ p1 : List Byte, s.connected = false → p1.length < 100 → (∀ r ∈ p1, r ≠ 0xB4) → s.Answers (probesScript p1) →
      s.link.length = p1.length →
      ∃ t, exec .connect s = .next t ∧ Waits .connect s t ∧ t.awaiting = some 0x9A ∧
        t.hs = some { phase := .one, attempts := p1.length, bytes := [] }) ∧
    (∀ (addr value : Nat) (wrong : List Byte), s.connected = true → addr ≤ 0xFFFF → value ≤ 0xFF → s.cfg.writeEcLimit = none →
      (∀ r ∈ wrong, r.toNat ≠ value) → s.Answers (weScript s.cfg addr (BitVec.ofNat 8 value) wrong) →
      s.link.length = exchangeCount (weScript s.cfg addr (BitVec.ofNat 8 value) wrong) →
      ∃ t, exec (.writeEc addr value) s = .next t ∧ Waits (.writeEc addr value) s t ∧ t.awaiting = some 0x49 ∧
        t.we = some { addr := BitVec.ofNat 16 addr, value := BitVec.ofNat 8 value, rounds := wrong.length }) ∧
    (∀ (limit : Option Nat) (polls : List (List Byte)), s.Drives .tama5 → polls.length < 200 →
      (∀ p ∈ polls, byteFits s.cfg limit p = true ∧ byteOf p &&& 0x0F ≠ 0x01) → s.Answers (unlockScript s.cfg polls) →
      s.link.length = exchangeCount (unlockScript s.cfg polls) →
      ∃ t, exec (.tama5Unlock limit) s = .next t ∧ Waits (.tama5Unlock limit) s t ∧ t.awaiting = some 0x49 ∧
        t.poll = some polls.length) ∧
    (∀ (a k : Nat) (w : U16), s.Drives .mbc7 → a ≤ 127 → k < 16 →
      s.Answers (eeCommandScript s.cfg s.cfg.eeOpcRead (BitVec.ofNat 8 a) ++
        ((bitsDown w.toNat 16).take k).flatMap (eeInoutScript s.cfg false)) →
      s.link.length = exchangeCount (eeCommandScript s.cfg s.cfg.eeOpcRead (BitVec.ofNat 8 a) ++
        ((bitsDown w.toNat 16).take k).flatMap (eeInoutScript s.cfg false)) →
      ∃ t, exec (.eepromRead a) s = .next t ∧ Waits (.eepromRead a) s t ∧ t.awaiting = some 0x49 ∧
        t.ee = some { word := w >>> (16 - k), bit := k })

/-! ### The reference device (R293, V30) -/

/-- R293, V30 of 95_test_vectors.md: with a reference device that answers the bytes of the dump, `dump_rom` returns the device's ROM:
Base with two banks, MBC1 with at most 128, MBC2 with at most 16, MBC3 and MBC5 with at most 256. The device is a premise on the
replies, as R15 asks (log 28). -/
def Obligations.RomDumpIsTheRom : Prop :=
  ∀ (s : State) (c : Controller) (v : Variant) (progress : Bool) (limit : Option Nat) (ram hdr : List Byte)
    (bank0 : List Byte) (banks : List (List Byte)) (more : List LinkIn),
    s.connected = true → s.ctrl = some c → c.variant = v → s.cancelReq = false → s.cfg.mbc1ModeValue &&& 0x01 = 1 →
    c.romBankCount.toNat = banks.length + 1 → (∀ b ∈ bank0 :: banks, b.length = 0x4000) →
    (v = .base ∧ banks.length = 1 ∨ v = .mbc1 ∧ banks.length ≤ 127 ∨ v = .mbc2 ∧ banks.length ≤ 15 ∨
      v = .mbc3 ∧ banks.length ≤ 255 ∨ v = .mbc5 ∧ banks.length ≤ 255) →
    s.link = (({ RefDev.start v (bank0 :: banks).flatten ram hdr with phase := .command } : RefDev).replies
        (askedOf (dumpRomScript s.cfg v [] progress (stableReads bank0) (banks.map stableReads)))).map
      (fun b => { reply := b, cancel := false }) ++ more →
    exec (dumpRomOf v progress limit) s = .next (s.completes (dumpRomOf v progress limit)
      (dumpRomScript s.cfg v [] progress (stableReads bank0) (banks.map stableReads))
      (if banks.length = 0 then none else some banks.length)
      (if banks.length = 0 ∨ v ≠ .mbc1 then none else some (banks.length / 32))
      (.bytes (bank0 :: banks).flatten))

end Statements
end

