-- ==== Sys2Proof/Laws/State.lean ====
section
/-!
SUPPORT. The fields of State after each named update, so that no proof unfolds a record update.
-/

namespace Sys2Proof.Machine

/-! ### `idle`: the operation registers lose their values -/

@[simp] theorem State.idle_connected (s : State) : s.idle.connected = s.connected := rfl
@[simp] theorem State.idle_header (s : State) : s.idle.header = s.header := rfl
@[simp] theorem State.idle_ctrl (s : State) : s.idle.ctrl = s.ctrl := rfl
@[simp] theorem State.idle_ec (s : State) : s.idle.ec = none := rfl
@[simp] theorem State.idle_we (s : State) : s.idle.we = none := rfl
@[simp] theorem State.idle_hs (s : State) : s.idle.hs = none := rfl
@[simp] theorem State.idle_poll (s : State) : s.idle.poll = none := rfl
@[simp] theorem State.idle_ee (s : State) : s.idle.ee = none := rfl
@[simp] theorem State.idle_traceRev (s : State) : s.idle.traceRev = s.traceRev := rfl
@[simp] theorem State.idle_refused (s : State) : s.idle.refused = s.refused := rfl
@[simp] theorem State.idle_cancelReq (s : State) : s.idle.cancelReq = s.cancelReq := rfl
@[simp] theorem State.idle_hpc (s : State) : s.idle.hpc = s.hpc := rfl
@[simp] theorem State.idle_program (s : State) : s.idle.program = s.program := rfl
@[simp] theorem State.idle_cfg (s : State) : s.idle.cfg = s.cfg := rfl
@[simp] theorem State.idle_link (s : State) : s.idle.link = s.link := rfl
@[simp] theorem State.idle_awaiting (s : State) : s.idle.awaiting = none := rfl
@[simp] theorem State.idle_run (s : State) : s.idle.run = none := rfl
@[simp] theorem State.idle_stop (s : State) : s.idle.stop = s.stop := rfl
@[simp] theorem State.idle_idle (s : State) : s.idle.idle = s.idle := rfl

/-! ### `endResult`: a normal end (R53, R442) -/

@[simp] theorem State.endResult_connected (op : OpId) (v : Value) (s : State) :
    (s.endResult op v).connected = s.connected := rfl
@[simp] theorem State.endResult_header (op : OpId) (v : Value) (s : State) : (s.endResult op v).header = s.header := rfl
@[simp] theorem State.endResult_ctrl (op : OpId) (v : Value) (s : State) : (s.endResult op v).ctrl = s.ctrl := rfl
@[simp] theorem State.endResult_traceRev (op : OpId) (v : Value) (s : State) :
    (s.endResult op v).traceRev = .result op v :: s.traceRev := rfl
@[simp] theorem State.endResult_refused (op : OpId) (v : Value) (s : State) : (s.endResult op v).refused = s.refused := rfl
@[simp] theorem State.endResult_cancelReq (op : OpId) (v : Value) (s : State) :
    (s.endResult op v).cancelReq = s.cancelReq := rfl
@[simp] theorem State.endResult_hpc (op : OpId) (v : Value) (s : State) : (s.endResult op v).hpc = s.hpc + 1 := rfl
@[simp] theorem State.endResult_program (op : OpId) (v : Value) (s : State) : (s.endResult op v).program = s.program := rfl
@[simp] theorem State.endResult_cfg (op : OpId) (v : Value) (s : State) : (s.endResult op v).cfg = s.cfg := rfl
@[simp] theorem State.endResult_link (op : OpId) (v : Value) (s : State) : (s.endResult op v).link = s.link := rfl
@[simp] theorem State.endResult_run (op : OpId) (v : Value) (s : State) : (s.endResult op v).run = none := rfl
@[simp] theorem State.endResult_awaiting (op : OpId) (v : Value) (s : State) : (s.endResult op v).awaiting = none := rfl
@[simp] theorem State.endResult_stop (op : OpId) (v : Value) (s : State) : (s.endResult op v).stop = s.stop := rfl

/-- A normal end depends on the state up to its operation registers. -/
theorem State.endResult_of_idle {op : OpId} {v : Value} {s t : State} (h : s.idle = t.idle) :
    s.endResult op v = t.endResult op v := by
  have h1 : s.traceRev = t.traceRev := (congrArg State.traceRev h : s.idle.traceRev = t.idle.traceRev)
  have h2 : s.hpc = t.hpc := (congrArg State.hpc h : s.idle.hpc = t.idle.hpc)
  simp only [State.endResult, h, h1, h2]

/-! ### `raiseError`: error entry (R435) -/

@[simp] theorem State.raiseError_connected (op : OpId) (k : ErrKind) (i : Info) (s : State) :
    (s.raiseError op k i).connected = s.connected := rfl
@[simp] theorem State.raiseError_header (op : OpId) (k : ErrKind) (i : Info) (s : State) :
    (s.raiseError op k i).header = s.header := rfl
@[simp] theorem State.raiseError_ctrl (op : OpId) (k : ErrKind) (i : Info) (s : State) :
    (s.raiseError op k i).ctrl = s.ctrl := rfl
@[simp] theorem State.raiseError_traceRev (op : OpId) (k : ErrKind) (i : Info) (s : State) :
    (s.raiseError op k i).traceRev = .error op k i :: s.traceRev := rfl
@[simp] theorem State.raiseError_refused (op : OpId) (k : ErrKind) (i : Info) (s : State) :
    (s.raiseError op k i).refused = s.refused := rfl
@[simp] theorem State.raiseError_cancelReq (op : OpId) (k : ErrKind) (i : Info) (s : State) :
    (s.raiseError op k i).cancelReq = s.cancelReq := rfl
@[simp] theorem State.raiseError_hpc (op : OpId) (k : ErrKind) (i : Info) (s : State) :
    (s.raiseError op k i).hpc = s.hpc := rfl
@[simp] theorem State.raiseError_program (op : OpId) (k : ErrKind) (i : Info) (s : State) :
    (s.raiseError op k i).program = s.program := rfl
@[simp] theorem State.raiseError_cfg (op : OpId) (k : ErrKind) (i : Info) (s : State) :
    (s.raiseError op k i).cfg = s.cfg := rfl
@[simp] theorem State.raiseError_link (op : OpId) (k : ErrKind) (i : Info) (s : State) :
    (s.raiseError op k i).link = s.link := rfl
@[simp] theorem State.raiseError_run (op : OpId) (k : ErrKind) (i : Info) (s : State) :
    (s.raiseError op k i).run = none := rfl
@[simp] theorem State.raiseError_awaiting (op : OpId) (k : ErrKind) (i : Info) (s : State) :
    (s.raiseError op k i).awaiting = none := rfl
@[simp] theorem State.raiseError_stop (op : OpId) (k : ErrKind) (i : Info) (s : State) :
    (s.raiseError op k i).stop = some (.error op k i) := rfl

/-- Error entry depends on the state up to its operation registers. -/
theorem State.raiseError_of_idle {op : OpId} {k : ErrKind} {i : Info} {s t : State} (h : s.idle = t.idle) :
    s.raiseError op k i = t.raiseError op k i := by
  have h1 : s.traceRev = t.traceRev := (congrArg State.traceRev h : s.idle.traceRev = t.idle.traceRev)
  simp only [State.raiseError, h, h1]

/-! ### `takeRefusal`: a refusal (R430) -/

@[simp] theorem State.takeRefusal_connected (r : RefuseReason) (s : State) : (s.takeRefusal r).connected = s.connected := rfl
@[simp] theorem State.takeRefusal_header (r : RefuseReason) (s : State) : (s.takeRefusal r).header = s.header := rfl
@[simp] theorem State.takeRefusal_ctrl (r : RefuseReason) (s : State) : (s.takeRefusal r).ctrl = s.ctrl := rfl
@[simp] theorem State.takeRefusal_traceRev (r : RefuseReason) (s : State) : (s.takeRefusal r).traceRev = s.traceRev := rfl
@[simp] theorem State.takeRefusal_refused (r : RefuseReason) (s : State) : (s.takeRefusal r).refused = true := rfl
@[simp] theorem State.takeRefusal_cancelReq (r : RefuseReason) (s : State) : (s.takeRefusal r).cancelReq = s.cancelReq := rfl
@[simp] theorem State.takeRefusal_hpc (r : RefuseReason) (s : State) : (s.takeRefusal r).hpc = s.hpc := rfl
@[simp] theorem State.takeRefusal_program (r : RefuseReason) (s : State) : (s.takeRefusal r).program = s.program := rfl
@[simp] theorem State.takeRefusal_cfg (r : RefuseReason) (s : State) : (s.takeRefusal r).cfg = s.cfg := rfl
@[simp] theorem State.takeRefusal_link (r : RefuseReason) (s : State) : (s.takeRefusal r).link = s.link := rfl
@[simp] theorem State.takeRefusal_run (r : RefuseReason) (s : State) : (s.takeRefusal r).run = none := rfl
@[simp] theorem State.takeRefusal_awaiting (r : RefuseReason) (s : State) : (s.takeRefusal r).awaiting = none := rfl
@[simp] theorem State.takeRefusal_stop (r : RefuseReason) (s : State) : (s.takeRefusal r).stop = some (.refusal r) := rfl
@[simp] theorem State.takeRefusal_idle (r : RefuseReason) (s : State) : s.idle.takeRefusal r = s.takeRefusal r := rfl

/-! ### `suspend` and `rewind`: an operation that waits (log 3) -/

@[simp] theorem State.suspend_connected (i : Instr) (s0 s : State) : (State.suspend i s0 s).connected = s.connected := rfl
@[simp] theorem State.suspend_header (i : Instr) (s0 s : State) : (State.suspend i s0 s).header = s.header := rfl
@[simp] theorem State.suspend_ctrl (i : Instr) (s0 s : State) : (State.suspend i s0 s).ctrl = s.ctrl := rfl
@[simp] theorem State.suspend_traceRev (i : Instr) (s0 s : State) : (State.suspend i s0 s).traceRev = s.traceRev := rfl
@[simp] theorem State.suspend_refused (i : Instr) (s0 s : State) : (State.suspend i s0 s).refused = s.refused := rfl
@[simp] theorem State.suspend_cancelReq (i : Instr) (s0 s : State) : (State.suspend i s0 s).cancelReq = s.cancelReq := rfl
@[simp] theorem State.suspend_hpc (i : Instr) (s0 s : State) : (State.suspend i s0 s).hpc = s.hpc := rfl
@[simp] theorem State.suspend_program (i : Instr) (s0 s : State) : (State.suspend i s0 s).program = s.program := rfl
@[simp] theorem State.suspend_cfg (i : Instr) (s0 s : State) : (State.suspend i s0 s).cfg = s.cfg := rfl
@[simp] theorem State.suspend_link (i : Instr) (s0 s : State) : (State.suspend i s0 s).link = s.link := rfl
@[simp] theorem State.suspend_awaiting (i : Instr) (s0 s : State) : (State.suspend i s0 s).awaiting = s.awaiting := rfl
@[simp] theorem State.suspend_stop (i : Instr) (s0 s : State) : (State.suspend i s0 s).stop = s.stop := rfl
@[simp] theorem State.suspend_run (i : Instr) (s0 s : State) :
    (State.suspend i s0 s).run = some ⟨i, s0.link, s0.ctrl, s0.cancelReq, s0.traceRev⟩ := rfl

@[simp] theorem State.rewind_connected (r : Running) (i : LinkIn) (l : List LinkIn) (s : State) :
    (s.rewind r i l).connected = s.connected := rfl
@[simp] theorem State.rewind_header (r : Running) (i : LinkIn) (l : List LinkIn) (s : State) :
    (s.rewind r i l).header = s.header := rfl
@[simp] theorem State.rewind_ctrl (r : Running) (i : LinkIn) (l : List LinkIn) (s : State) :
    (s.rewind r i l).ctrl = r.ctrl := rfl
@[simp] theorem State.rewind_traceRev (r : Running) (i : LinkIn) (l : List LinkIn) (s : State) :
    (s.rewind r i l).traceRev = r.traceRev := rfl
@[simp] theorem State.rewind_refused (r : Running) (i : LinkIn) (l : List LinkIn) (s : State) :
    (s.rewind r i l).refused = s.refused := rfl
@[simp] theorem State.rewind_cancelReq (r : Running) (i : LinkIn) (l : List LinkIn) (s : State) :
    (s.rewind r i l).cancelReq = r.cancelReq := rfl
@[simp] theorem State.rewind_hpc (r : Running) (i : LinkIn) (l : List LinkIn) (s : State) :
    (s.rewind r i l).hpc = s.hpc := rfl
@[simp] theorem State.rewind_program (r : Running) (i : LinkIn) (l : List LinkIn) (s : State) :
    (s.rewind r i l).program = s.program := rfl
@[simp] theorem State.rewind_cfg (r : Running) (i : LinkIn) (l : List LinkIn) (s : State) :
    (s.rewind r i l).cfg = s.cfg := rfl
@[simp] theorem State.rewind_stop (r : Running) (i : LinkIn) (l : List LinkIn) (s : State) :
    (s.rewind r i l).stop = s.stop := rfl
@[simp] theorem State.rewind_link (r : Running) (i : LinkIn) (l : List LinkIn) (s : State) :
    (s.rewind r i l).link = r.link ++ { i with cancel := i.cancel || s.cancelReq } :: l := rfl

/-! ### `shadows`: the bank shadows (R44) -/

@[simp] theorem State.shadows_connected (a b : Option Nat) (s : State) : (s.shadows a b).connected = s.connected := rfl
@[simp] theorem State.shadows_header (a b : Option Nat) (s : State) : (s.shadows a b).header = s.header := rfl
@[simp] theorem State.shadows_traceRev (a b : Option Nat) (s : State) : (s.shadows a b).traceRev = s.traceRev := rfl
@[simp] theorem State.shadows_cancelReq (a b : Option Nat) (s : State) : (s.shadows a b).cancelReq = s.cancelReq := rfl
@[simp] theorem State.shadows_cfg (a b : Option Nat) (s : State) : (s.shadows a b).cfg = s.cfg := rfl
@[simp] theorem State.shadows_link (a b : Option Nat) (s : State) : (s.shadows a b).link = s.link := rfl
theorem State.shadows_idle (a b : Option Nat) (s : State) : (s.shadows a b).idle = s.idle.shadows a b := rfl

@[simp] theorem State.shadows_none (s : State) : s.shadows none none = s := by
  cases s; simp [State.shadows]

/-- Writing the shadows twice: the later write wins. -/
theorem State.shadows_shadows (a b c d : Option Nat) (s : State) :
    (s.shadows a b).shadows c d = s.shadows (c.or a) (d.or b) := by
  cases s; simp only [State.shadows]; congr 1; simp [Option.map_map, Function.comp_def, Option.or_assoc]

/-! ### `plays`: a script touches the queue, the trace and the cancellation request -/

@[simp] theorem State.plays_nil (s : State) : s.plays [] = s := by rw [State.plays]

/-- Whatever a script leaves alone. -/
theorem State.plays_eq (cs : Script) : ∀ s : State, s.plays cs =
    { s with link := (s.plays cs).link, traceRev := (s.plays cs).traceRev, cancelReq := (s.plays cs).cancelReq } := by
  induction cs with
  | nil => intro s; simp
  | cons c cs ih =>
    intro s
    cases c with
    | report k bs => simp only [State.plays]; exact ih _
    | ask b m v e =>
      simp only [State.plays]
      cases s.link with
      | nil => rfl
      | cons i rest => exact ih _

@[simp] theorem State.plays_connected (s : State) (cs : Script) : (s.plays cs).connected = s.connected := by
  rw [State.plays_eq]
@[simp] theorem State.plays_header (s : State) (cs : Script) : (s.plays cs).header = s.header := by rw [State.plays_eq]
@[simp] theorem State.plays_ctrl (s : State) (cs : Script) : (s.plays cs).ctrl = s.ctrl := by rw [State.plays_eq]
@[simp] theorem State.plays_refused (s : State) (cs : Script) : (s.plays cs).refused = s.refused := by
  rw [State.plays_eq]
@[simp] theorem State.plays_hpc (s : State) (cs : Script) : (s.plays cs).hpc = s.hpc := by rw [State.plays_eq]
@[simp] theorem State.plays_program (s : State) (cs : Script) : (s.plays cs).program = s.program := by
  rw [State.plays_eq]
@[simp] theorem State.plays_cfg (s : State) (cs : Script) : (s.plays cs).cfg = s.cfg := by rw [State.plays_eq]
@[simp] theorem State.plays_stop (s : State) (cs : Script) : (s.plays cs).stop = s.stop := by rw [State.plays_eq]

/-- A script plays the same whatever the operation registers hold. -/
theorem State.plays_idle (cs : Script) : ∀ s : State, (s.plays cs).idle = s.idle.plays cs := by
  induction cs with
  | nil => intro s; simp
  | cons c cs ih =>
    intro s
    cases c with
    | report k bs => exact ih { s with traceRev := .progress k bs :: s.traceRev }
    | ask b m v e =>
      simp only [State.plays, State.idle_link]
      split
      · rfl
      · rename_i i rest _
        exact ih { s with link := rest, traceRev := .exchange b i.reply :: s.traceRev, cancelReq := s.cancelReq || i.cancel }

/-- A script plays the same whatever the shadows hold. -/
theorem State.plays_shadows (a b : Option Nat) (cs : Script) : ∀ s : State, (s.shadows a b).plays cs = (s.plays cs).shadows a b := by
  induction cs with
  | nil => intro s; simp
  | cons c cs ih =>
    intro s
    cases c with
    | report k bs => exact ih { s with traceRev := .progress k bs :: s.traceRev }
    | ask b' m v e =>
      simp only [State.plays, State.shadows_link]
      split
      · rfl
      · rename_i i rest _
        exact ih { s with link := rest, traceRev := .exchange b' i.reply :: s.traceRev, cancelReq := s.cancelReq || i.cancel }

/-! ### The reset state (R59, R460) -/

@[simp] theorem reset_connected : State.reset.connected = false := rfl
@[simp] theorem reset_ctrl : State.reset.ctrl = none := rfl
@[simp] theorem reset_link : State.reset.link = [] := rfl
@[simp] theorem reset_run : State.reset.run = none := rfl
@[simp] theorem reset_stop : State.reset.stop = none := rfl

end Sys2Proof.Machine
end

