-- ==== Sys2Proof/Laws/Run.lean ====
section
/-!
SUPPORT. How procedures run against a script: `Runs` (to a result) and `Raises` (to an error), their sequencing, and the
shared operations of Ops.lean and Flags.lean. A procedure is proved once here and cited by its callers.
-/

namespace Sys2Proof.Machine

/-- A word from its two bytes (R85). -/
theorem join16_parts (w : U16) : join16 (hi8 w) (lo8 w) = w := by
  apply BitVec.eq_of_getLsbD_eq
  intro i hi
  simp only [join16, hi8, lo8, BitVec.getLsbD_append, BitVec.getLsbD_extractLsb']
  by_cases h8 : i < 8
  · simp [h8]
  · have : i - 8 < 8 := by omega
    have e2 : 8 + (i - 8) = i := by omega
    simp [h8, this, e2]

/-! ### Scripts -/

@[simp] theorem answers_nil (l : List LinkIn) : answers [] l = true := by rw [answers]

/-- A script answered in two parts. -/
theorem answers_append (cs ds : Script) : ∀ s : State,
    answers (cs ++ ds) s.link = (answers cs s.link && answers ds (s.plays cs).link) := by
  induction cs with
  | nil => intro s; simp
  | cons c cs ih =>
    intro s
    cases c with
    | report k bs =>
      simp only [List.cons_append, answers, State.plays]
      exact ih { s with traceRev := .progress k bs :: s.traceRev }
    | ask b m v e =>
      simp only [List.cons_append, answers, State.plays]
      split
      · simp
      · rename_i i rest _
        have := ih { s with link := rest, traceRev := .exchange b i.reply :: s.traceRev, cancelReq := s.cancelReq || i.cancel }
        simp only [this, Bool.and_assoc]

/-- A script played in two parts. -/
theorem State.plays_append (cs ds : Script) : ∀ s : State, answers cs s.link = true →
    s.plays (cs ++ ds) = (s.plays cs).plays ds := by
  induction cs with
  | nil => intro s _; simp
  | cons c cs ih =>
    intro s h
    cases c with
    | report k bs =>
      simp only [List.cons_append, State.plays]
      exact ih { s with traceRev := .progress k bs :: s.traceRev } h
    | ask b m v e =>
      simp only [answers] at h
      simp only [List.cons_append, State.plays]
      split at h
      · simp at h
      · rename_i i rest hl
        simp only [Bool.and_eq_true] at h
        exact ih { s with link := rest, traceRev := .exchange b i.reply :: s.traceRev, cancelReq := s.cancelReq || i.cancel } h.2

/-- A script that is answered makes no cancellation request. -/
theorem State.plays_cancelReq (cs : Script) : ∀ s : State, answers cs s.link = true →
    (s.plays cs).cancelReq = s.cancelReq := by
  induction cs with
  | nil => intro s _; simp
  | cons c cs ih =>
    intro s h
    cases c with
    | report k bs => exact ih { s with traceRev := .progress k bs :: s.traceRev } h
    | ask b m v e =>
      simp only [answers] at h
      simp only [State.plays]
      split at h
      · simp at h
      · rename_i i rest hl
        simp only [Bool.and_eq_true, Bool.not_eq_true'] at h
        rw [ih { s with link := rest, traceRev := .exchange b i.reply :: s.traceRev, cancelReq := s.cancelReq || i.cancel } h.2]
        simp [h.1.1]

/-- An answered script has as many replies in the queue as exchanges. -/
theorem exchangeCount_le_of_answers (cs : Script) : ∀ l : List LinkIn, answers cs l = true → exchangeCount cs ≤ l.length := by
  induction cs with
  | nil => intro l _; simp [exchangeCount]
  | cons c cs ih =>
    intro l h
    cases c with
    | report k bs => exact ih l h
    | ask b m v e =>
      cases l with
      | nil => simp [answers] at h
      | cons i rest =>
        simp only [answers, Bool.and_eq_true] at h
        simp only [exchangeCount, List.length_cons]
        exact Nat.succ_le_succ (ih rest h.2)

theorem exchangeCount_append (cs ds : Script) : exchangeCount (cs ++ ds) = exchangeCount cs + exchangeCount ds := by
  induction cs with
  | nil => simp [exchangeCount]
  | cons c cs ih => cases c <;> simp [exchangeCount, ih, Nat.add_right_comm]

/-- `Answers` of a script in two parts. -/
theorem State.Answers.split {s : State} {cs ds : Script} (h : s.Answers (cs ++ ds)) :
    s.Answers cs ∧ (s.plays cs).Answers ds := by
  obtain ⟨h1, h2⟩ := h
  rw [answers_append, Bool.and_eq_true] at h2
  exact ⟨⟨h1, h2.1⟩, by rw [State.plays_cancelReq cs s h2.1]; exact h1, h2.2⟩

/-- `Answers` looks at the queue and the cancellation request only. -/
theorem State.Answers.of_idle {s t : State} {cs : Script} (h : s.idle = t.idle) (ht : t.Answers cs) : s.Answers cs := by
  have h1 : s.cancelReq = t.cancelReq := (congrArg State.cancelReq h : s.idle.cancelReq = t.idle.cancelReq)
  have h2 : s.link = t.link := (congrArg State.link h : s.idle.link = t.idle.link)
  exact ⟨h1.trans ht.1, by rw [h2]; exact ht.2⟩

/-! ### Sequencing -/

/-- With parameters `cfg` and the status flag at `conn`, the procedure plays the script, writes the shadows and returns `a`,
whenever the link answers the script. -/
def Runs {α : Type} (cfg : Params) (conn : Bool) (p : Proc α) (cs : Script) (rom ram : Option Nat) (a : α) : Prop :=
  ∀ s : State, s.cfg = cfg → s.connected = conn → s.Answers cs →
    ∃ s', p s = .ok a s' ∧ s'.idle = ((s.plays cs).shadows rom ram).idle

/-- As `Runs`, to an error. -/
def Raises {α : Type} (cfg : Params) (conn : Bool) (p : Proc α) (cs : Script) (rom ram : Option Nat) (k : ErrKind)
    (info : Info) : Prop :=
  ∀ s : State, s.cfg = cfg → s.connected = conn → s.Answers cs →
    ∃ s', p s = .error (.raised k info) s' ∧ s'.idle = ((s.plays cs).shadows rom ram).idle

variable {α β : Type} {cfg : Params} {conn : Bool}

theorem bind_ok {p : Proc α} {g : α → Proc β} {s s' : State} {a : α} (h : p s = .ok a s') : (p >>= g) s = g a s' := by
  show EStateM.bind p g s = _
  simp [EStateM.bind, h]

theorem bind_error {p : Proc α} {g : α → Proc β} {s s' : State} {e : Halt} (h : p s = .error e s') :
    (p >>= g) s = .error e s' := by
  show EStateM.bind p g s = _
  simp [EStateM.bind, h]

/-- The state in which the second of two procedures starts. -/
theorem State.after_first {s s' : State} {cs ds : Script} {rom ram : Option Nat} (hs : s.Answers (cs ++ ds))
    (h : s'.idle = ((s.plays cs).shadows rom ram).idle) :
    s'.cfg = s.cfg ∧ s'.connected = s.connected ∧ s'.Answers ds ∧
      ∀ rom' ram', ((s'.plays ds).shadows rom' ram').idle = ((s.plays (cs ++ ds)).shadows (rom'.or rom) (ram'.or ram)).idle := by
  have hc : s'.cfg = s.cfg := by
    have := (congrArg State.cfg h : s'.idle.cfg = ((s.plays cs).shadows rom ram).idle.cfg); simpa using this
  have hd : s'.connected = s.connected := by
    have := (congrArg State.connected h : s'.idle.connected = ((s.plays cs).shadows rom ram).idle.connected); simpa using this
  refine ⟨hc, hd, ?_, ?_⟩
  · exact State.Answers.of_idle h hs.split.2
  · intro rom' ram'
    rw [State.shadows_idle, State.plays_idle, h, State.plays_append cs ds s hs.split.1.2, ← State.plays_idle,
      State.plays_shadows, ← State.shadows_idle, State.shadows_shadows]

theorem Runs.bind {p : Proc α} {g : α → Proc β} {cs ds : Script} {r m r' m' : Option Nat} {a : α} {b : β}
    (hp : Runs cfg conn p cs r m a) (hg : Runs cfg conn (g a) ds r' m' b) :
    Runs cfg conn (p >>= g) (cs ++ ds) (r'.or r) (m'.or m) b := by
  intro s hc hn hs
  obtain ⟨s1, h1, e1⟩ := hp s hc hn hs.split.1
  obtain ⟨c1, d1, a1, f1⟩ := State.after_first hs e1
  obtain ⟨s2, h2, e2⟩ := hg s1 (c1.trans hc) (d1.trans hn) a1
  exact ⟨s2, (bind_ok h1).trans h2, e2.trans (f1 r' m')⟩

theorem Raises.bind {p : Proc α} {g : α → Proc β} {cs ds : Script} {r m r' m' : Option Nat} {a : α} {k : ErrKind} {i : Info}
    (hp : Runs cfg conn p cs r m a) (hg : Raises cfg conn (g a) ds r' m' k i) :
    Raises cfg conn (p >>= g) (cs ++ ds) (r'.or r) (m'.or m) k i := by
  intro s hc hn hs
  obtain ⟨s1, h1, e1⟩ := hp s hc hn hs.split.1
  obtain ⟨c1, d1, a1, f1⟩ := State.after_first hs e1
  obtain ⟨s2, h2, e2⟩ := hg s1 (c1.trans hc) (d1.trans hn) a1
  exact ⟨s2, (bind_ok h1).trans h2, e2.trans (f1 r' m')⟩

theorem Raises.first {p : Proc α} {g : α → Proc β} {cs : Script} {r m : Option Nat} {k : ErrKind} {i : Info}
    (hp : Raises cfg conn p cs r m k i) : Raises cfg conn (p >>= g) cs r m k i := by
  intro s hc hn hs
  obtain ⟨s1, h1, e1⟩ := hp s hc hn hs
  exact ⟨s1, bind_error h1, e1⟩

theorem Runs.pure (a : α) : Runs cfg conn (pure a : Proc α) [] none none a := by
  intro s _ _ _
  exact ⟨s, rfl, by simp⟩

/-- A procedure of no exchange and no shadow before another. -/
theorem Runs.then {p : Proc α} {g : α → Proc β} {ds : Script} {r m : Option Nat} {a : α} {b : β}
    (hp : Runs cfg conn p [] none none a) (hg : Runs cfg conn (g a) ds r m b) : Runs cfg conn (p >>= g) ds r m b := by
  have h := hp.bind hg
  simpa using h

theorem Raises.then {p : Proc α} {g : α → Proc β} {ds : Script} {r m : Option Nat} {a : α} {k : ErrKind} {i : Info}
    (hp : Runs cfg conn p [] none none a) (hg : Raises cfg conn (g a) ds r m k i) : Raises cfg conn (p >>= g) ds r m k i := by
  have h := Raises.bind hp hg
  simpa using h

/-- A procedure after which nothing is played. -/
theorem Runs.map {p : Proc α} {cs : Script} {r m : Option Nat} {a : α} (hp : Runs cfg conn p cs r m a) (f : α → β) :
    Runs cfg conn (do let x ← p; Pure.pure (f x)) cs r m (f a) := by
  have h := hp.bind (g := fun x => Pure.pure (f x)) (Runs.pure (f a))
  simpa using h

/-- A procedure that reads the state reads no more of it than the parameters. -/
theorem Runs.get {g : State → Proc α} {cs : Script} {r m : Option Nat} {a : α}
    (h : ∀ s : State, s.cfg = cfg → Runs cfg conn (g s) cs r m a) : Runs cfg conn (get >>= g) cs r m a := by
  intro s hc hn hs
  exact h s hc s hc hn hs

theorem Raises.get {g : State → Proc α} {cs : Script} {r m : Option Nat} {k : ErrKind} {i : Info}
    (h : ∀ s : State, s.cfg = cfg → Raises cfg conn (g s) cs r m k i) : Raises cfg conn (get >>= g) cs r m k i := by
  intro s hc hn hs
  exact h s hc s hc hn hs

theorem Raises.raise (k : ErrKind) (i : Info) : Raises (α := α) cfg conn (raise k i) [] none none k i := by
  intro s _ _ _
  exact ⟨s, rfl, by simp⟩

/-- As `Runs`, to some value that satisfies `Q`. -/
def RunsTo {α : Type} (cfg : Params) (conn : Bool) (p : Proc α) (cs : Script) (rom ram : Option Nat) (Q : α → Prop) : Prop :=
  ∀ s : State, s.cfg = cfg → s.connected = conn → s.Answers cs →
    ∃ a s', Q a ∧ p s = .ok a s' ∧ s'.idle = ((s.plays cs).shadows rom ram).idle

theorem Runs.to {p : Proc α} {cs : Script} {r m : Option Nat} {a : α} {Q : α → Prop} (h : Runs cfg conn p cs r m a) (hq : Q a) :
    RunsTo cfg conn p cs r m Q := by
  intro s hc hn hs
  obtain ⟨s', h1, e1⟩ := h s hc hn hs
  exact ⟨a, s', hq, h1, e1⟩

theorem RunsTo.bind {p : Proc α} {g : α → Proc β} {cs ds : Script} {r m r' m' : Option Nat} {Q : α → Prop} {b : β}
    (hp : RunsTo cfg conn p cs r m Q) (hg : ∀ a, Q a → Runs cfg conn (g a) ds r' m' b) :
    Runs cfg conn (p >>= g) (cs ++ ds) (r'.or r) (m'.or m) b := by
  intro s hc hn hs
  obtain ⟨a, s1, hq, h1, e1⟩ := hp s hc hn hs.split.1
  obtain ⟨c1, d1, a1, f1⟩ := State.after_first hs e1
  obtain ⟨s2, h2, e2⟩ := hg a hq s1 (c1.trans hc) (d1.trans hn) a1
  exact ⟨s2, (bind_ok h1).trans h2, e2.trans (f1 r' m')⟩

theorem RunsTo.bindTo {p : Proc α} {g : α → Proc β} {cs ds : Script} {r m r' m' : Option Nat} {Q : α → Prop} {R : β → Prop}
    (hp : RunsTo cfg conn p cs r m Q) (hg : ∀ a, Q a → RunsTo cfg conn (g a) ds r' m' R) :
    RunsTo cfg conn (p >>= g) (cs ++ ds) (r'.or r) (m'.or m) R := by
  intro s hc hn hs
  obtain ⟨a, s1, hq, h1, e1⟩ := hp s hc hn hs.split.1
  obtain ⟨c1, d1, a1, f1⟩ := State.after_first hs e1
  obtain ⟨b, s2, hr, h2, e2⟩ := hg a hq s1 (c1.trans hc) (d1.trans hn) a1
  exact ⟨b, s2, hr, (bind_ok h1).trans h2, e2.trans (f1 r' m')⟩

theorem RunsTo.bindRaises {p : Proc α} {g : α → Proc β} {cs ds : Script} {r m r' m' : Option Nat} {Q : α → Prop} {k : ErrKind}
    {i : Info} (hp : RunsTo cfg conn p cs r m Q) (hg : ∀ a, Q a → Raises cfg conn (g a) ds r' m' k i) :
    Raises cfg conn (p >>= g) (cs ++ ds) (r'.or r) (m'.or m) k i := by
  intro s hc hn hs
  obtain ⟨a, s1, hq, h1, e1⟩ := hp s hc hn hs.split.1
  obtain ⟨c1, d1, a1, f1⟩ := State.after_first hs e1
  obtain ⟨s2, h2, e2⟩ := hg a hq s1 (c1.trans hc) (d1.trans hn) a1
  exact ⟨s2, (bind_ok h1).trans h2, e2.trans (f1 r' m')⟩

theorem Runs.thenTo {p : Proc α} {g : α → Proc β} {ds : Script} {r m : Option Nat} {a : α} {Q : β → Prop}
    (hp : Runs cfg conn p [] none none a) (hg : RunsTo cfg conn (g a) ds r m Q) : RunsTo cfg conn (p >>= g) ds r m Q := by
  have h := (hp.to (Q := (· = a)) rfl).bindTo (g := g) (fun x hx => hx ▸ hg)
  simpa using h

theorem RunsTo.get {g : State → Proc α} {cs : Script} {r m : Option Nat} {Q : α → Prop}
    (h : ∀ s : State, s.cfg = cfg → RunsTo cfg conn (g s) cs r m Q) : RunsTo cfg conn (get >>= g) cs r m Q := by
  intro s hc hn hs
  exact h s hc s hc hn hs

/-! The same, where one of the two parts writes no shadow. -/

theorem Runs.seq {p : Proc α} {g : α → Proc β} {cs ds : Script} {r m : Option Nat} {a : α} {b : β}
    (hp : Runs cfg conn p cs none none a) (hg : Runs cfg conn (g a) ds r m b) : Runs cfg conn (p >>= g) (cs ++ ds) r m b := by
  simpa using hp.bind hg

theorem Runs.seqL {p : Proc α} {g : α → Proc β} {cs ds : Script} {r m : Option Nat} {a : α} {b : β}
    (hp : Runs cfg conn p cs r m a) (hg : Runs cfg conn (g a) ds none none b) : Runs cfg conn (p >>= g) (cs ++ ds) r m b := by
  simpa using hp.bind hg

theorem Raises.seq {p : Proc α} {g : α → Proc β} {cs ds : Script} {r m : Option Nat} {a : α} {k : ErrKind} {i : Info}
    (hp : Runs cfg conn p cs none none a) (hg : Raises cfg conn (g a) ds r m k i) :
    Raises cfg conn (p >>= g) (cs ++ ds) r m k i := by
  simpa using Raises.bind hp hg

theorem Raises.seqL {p : Proc α} {g : α → Proc β} {cs ds : Script} {r m : Option Nat} {a : α} {k : ErrKind} {i : Info}
    (hp : Runs cfg conn p cs r m a) (hg : Raises cfg conn (g a) ds none none k i) :
    Raises cfg conn (p >>= g) (cs ++ ds) r m k i := by
  simpa using Raises.bind hp hg

theorem RunsTo.seq {p : Proc α} {g : α → Proc β} {cs ds : Script} {r m : Option Nat} {Q : α → Prop} {b : β}
    (hp : RunsTo cfg conn p cs none none Q) (hg : ∀ a, Q a → Runs cfg conn (g a) ds r m b) :
    Runs cfg conn (p >>= g) (cs ++ ds) r m b := by
  simpa using hp.bind hg

theorem RunsTo.seqTo {p : Proc α} {g : α → Proc β} {cs ds : Script} {r m : Option Nat} {Q : α → Prop} {R : β → Prop}
    (hp : RunsTo cfg conn p cs none none Q) (hg : ∀ a, Q a → RunsTo cfg conn (g a) ds r m R) :
    RunsTo cfg conn (p >>= g) (cs ++ ds) r m R := by
  simpa using hp.bindTo hg

theorem Runs.seqTo {p : Proc α} {g : α → Proc β} {cs ds : Script} {r m : Option Nat} {a : α} {R : β → Prop}
    (hp : Runs cfg conn p cs none none a) (hg : RunsTo cfg conn (g a) ds r m R) : RunsTo cfg conn (p >>= g) (cs ++ ds) r m R :=
  (hp.to (Q := (· = a)) rfl).seqTo fun _ hx => hx ▸ hg

theorem RunsTo.seqRaises {p : Proc α} {g : α → Proc β} {cs ds : Script} {r m : Option Nat} {Q : α → Prop} {k : ErrKind}
    {i : Info} (hp : RunsTo cfg conn p cs none none Q) (hg : ∀ a, Q a → Raises cfg conn (g a) ds r m k i) :
    Raises cfg conn (p >>= g) (cs ++ ds) r m k i := by
  simpa using hp.bindRaises hg

/-! ### The shared operations -/

/-- One exchange whose reply fits. -/
theorem xfer_runs (b m v : Byte) (e : Bool) (s : State) (h : s.Answers [.ask b m v e]) :
    ∃ r, cueFits m v e r = true ∧ xfer b s = .ok r (s.plays [.ask b m v e]) := by
  obtain ⟨_, h2⟩ := h
  simp only [answers] at h2
  split at h2
  · simp at h2
  · rename_i i rest hl
    refine ⟨i.reply, ?_, ?_⟩
    · simp only [Bool.and_true, Bool.and_eq_true] at h2
      exact h2.2
    · simp only [xfer, State.plays, hl]

@[simp] theorem cueFits_free (r : Byte) : cueFits 0 0 true r = true := by simp [cueFits]

theorem cueFits_gives {b r : Byte} (h : cueFits 0xFF b true r = true) : r = b := by
  simp only [cueFits, beq_true, decide_eq_true_eq] at h
  have e : ∀ x : Byte, x &&& 0xFF = x := by decide
  rwa [e, e] at h

theorem xfer_gives (b r : Byte) : Runs cfg conn (xfer b) [Cue.gives b r] none none r := by
  intro s _ _ hs
  obtain ⟨r', hr, hx⟩ := xfer_runs b 0xFF r true s hs
  cases cueFits_gives hr
  exact ⟨_, hx, by simp [Cue.gives]⟩

theorem xfer_free (b : Byte) : RunsTo cfg conn (xfer b) [Cue.free b] none none (fun _ => True) := by
  intro s _ _ hs
  obtain ⟨r, _, hx⟩ := xfer_runs b 0 0 true s hs
  exact ⟨r, _, trivial, hx, by simp [Cue.free]⟩

/-- A block of exchanges whose replies are ignored (R12, R13). -/
theorem xferBlock_free (bs : List Byte) : RunsTo cfg conn (xferBlock bs) (bs.map Cue.free) none none (fun _ => True) := by
  induction bs with
  | nil => exact (Runs.pure []).to trivial
  | cons b bs ih =>
    have h := (xfer_free (cfg := cfg) (conn := conn) b).bindTo (g := fun r => do
      let rs ← xferBlock bs; Pure.pure (r :: rs)) (fun r _ => by
        have h2 := ih.bindTo (g := fun rs => Pure.pure (r :: rs)) (R := fun _ => True) (fun rs _ => (Runs.pure _).to trivial)
        exact h2)
    simpa [xferBlock] using h

/-- A data phase (R13, R112). -/
theorem xferBlock_gives (b : Byte) (data : List Byte) :
    Runs cfg conn (xferBlock (List.replicate data.length b)) (data.map (Cue.gives b)) none none data := by
  induction data with
  | nil => exact Runs.pure []
  | cons d data ih =>
    simp only [List.length_cons, List.replicate_succ, xferBlock, List.map_cons]
    have h := (xfer_gives (cfg := cfg) (conn := conn) b d).bind (g := fun r => do
      let rs ← xferBlock (List.replicate data.length b); Pure.pure (r :: rs)) (ih.map (fun rs => d :: rs))
    simpa using h

theorem beginFrame_runs : Runs cfg conn beginFrame [] none none () := by
  intro s _ _ hs
  exact ⟨s, by simp [beginFrame, hs.1], by simp⟩

/-- The WRITE frame (R13, R113). -/
theorem memWrite_runs (a : U16) (v : Byte) : Runs cfg conn (memWrite a v) (writeScript a v) none none () := by
  unfold memWrite
  refine beginFrame_runs.then ?_
  have h := (xferBlock_free (cfg := cfg) (conn := conn) (writeFrameBytes a v)).bind (g := fun _ => pure ())
    (fun _ _ => Runs.pure ())
  simpa [writeFrameBytes, writeScript, Config.opWrite] using h

/-- The READ frame (R13, R112). -/
theorem memRead_runs (a : U16) (data : List Byte) (len : U16) (h : len.toNat = data.length) :
    Runs cfg conn (memRead a len) (readScript cfg a data) none none data := by
  unfold memRead
  refine beginFrame_runs.then ?_
  have hl : len = BitVec.ofNat 16 data.length := by rw [← h]; simp
  have h2 : Runs cfg conn (dataIn len.toNat) (data.map (Cue.gives cfg.fillByte)) none none data := by
    unfold dataIn
    refine Runs.get fun s hs => ?_
    rw [h, hs]
    exact xferBlock_gives cfg.fillByte data
  have h3 := (xferBlock_free (cfg := cfg) (conn := conn) (readFrameBytes a len)).bind (g := fun _ => dataIn len.toNat)
    (fun _ _ => h2)
  simpa [readFrameBytes, readScript, Config.opRead, ← hl] using h3

theorem memRead1_runs (a : U16) (b : Byte) : Runs cfg conn (memRead1 a) (readScript cfg a [b]) none none b := by
  unfold memRead1
  have h := (memRead_runs (cfg := cfg) (conn := conn) a [b] 1 (by simp)).map (fun d => d.headD 0)
  simpa using h

theorem ctrlWrites_runs (ws : List CtrlWrite) : Runs cfg conn (ctrlWrites ws) (writesScript ws) none none () := by
  induction ws with
  | nil => exact Runs.pure ()
  | cons w ws ih =>
    have h := (memWrite_runs (cfg := cfg) (conn := conn) w.addr w.value).bind (g := fun _ => ctrlWrites ws) ih
    simpa [ctrlWrites, ctrlWrite, writesScript] using h

/-! ### Registers: no exchange, no shadow -/

theorem setEc_runs (r : EcRegs) : Runs cfg conn (setEc r) [] none none () := fun s _ _ _ => ⟨_, rfl, by simp; rfl⟩
theorem setWe_runs (r : WeRegs) : Runs cfg conn (setWe r) [] none none () := fun s _ _ _ => ⟨_, rfl, by simp; rfl⟩
theorem setHs_runs (r : HsRegs) : Runs cfg conn (setHs r) [] none none () := fun s _ _ _ => ⟨_, rfl, by simp; rfl⟩
theorem setPoll_runs (n : Nat) : Runs cfg conn (setPoll n) [] none none () := fun s _ _ _ => ⟨_, rfl, by simp; rfl⟩
theorem setEe_runs (r : EeRegs) : Runs cfg conn (setEe r) [] none none () := fun s _ _ _ => ⟨_, rfl, by simp; rfl⟩

theorem setRomShadow_runs (n : Nat) : Runs cfg conn (setRomShadow n) [] (some n) none () :=
  fun s _ _ _ => ⟨_, rfl, by simp [State.shadows]⟩
theorem setRamShadow_runs (n : Nat) : Runs cfg conn (setRamShadow n) [] none (some n) () :=
  fun s _ _ _ => ⟨_, rfl, by simp [State.shadows]⟩

/-! ### Checks -/

theorem refuseIf_runs {bad : Bool} (reason : RefuseReason) (h : bad = false) :
    Runs cfg conn (refuseIf bad reason) [] none none () := by
  subst h; exact Runs.pure ()

theorem checkRange_runs {v max : Nat} (h : v ≤ max) : Runs cfg conn (checkRange v max) [] none none () :=
  refuseIf_runs _ (by simpa using h)

theorem requireConnected_runs (op : OpName) : Runs cfg true (requireConnected op) [] none none () :=
  fun s _ hn _ => ⟨s, by simp [requireConnected, hn], by simp⟩

/-- A loop with a bound it cannot reach: the script has enough replies for its rounds (log 4). -/
theorem unbounded_runs {loop : Nat → Proc α} {cs : Script} {r m : Option Nat} {a : α}
    (h : ∀ fuel, exchangeCount cs < fuel → Runs cfg conn (loop fuel) cs r m a) : Runs cfg conn (unbounded loop) cs r m a := by
  intro s hc hn hs
  exact h (s.link.length + 1) (Nat.lt_succ_of_le (exchangeCount_le_of_answers _ _ hs.2)) s hc hn hs

theorem unbounded_raises {loop : Nat → Proc α} {cs : Script} {r m : Option Nat} {k : ErrKind} {i : Info}
    (h : ∀ fuel, exchangeCount cs < fuel → Raises cfg conn (loop fuel) cs r m k i) :
    Raises cfg conn (unbounded loop) cs r m k i := by
  intro s hc hn hs
  exact h (s.link.length + 1) (Nat.lt_succ_of_le (exchangeCount_le_of_answers _ _ hs.2)) s hc hn hs

/-! ### Instructions -/

theorem State.completes_of_idle {i : Instr} {cs : Script} {r m : Option Nat} {v : Value} {s s' : State}
    (h : s'.idle = ((s.idle.plays cs).shadows r m).idle) : s'.endResult i.opId v = s.completes i cs r m v :=
  State.endResult_of_idle h

/-- An instruction whose body runs completes. -/
theorem runOp_completes {i : Instr} {body : Proc Value} {cs : Script} {r m : Option Nat} {v : Value} {s : State}
    (h : Runs s.cfg s.connected body cs r m v) (hs : s.Answers cs) :
    runOp i body s = .next (s.completes i cs r m v) := by
  obtain ⟨s', h1, e1⟩ := h s.idle rfl rfl hs
  simp only [runOp, h1, State.completes_of_idle e1]

/-- An instruction whose body raises fails. -/
theorem runOp_fails {i : Instr} {body : Proc Value} {cs : Script} {r m : Option Nat} {k : ErrKind} {info : Info} {s : State}
    (h : Raises s.cfg s.connected body cs r m k info) (hs : s.Answers cs) :
    runOp i body s = .next (s.fails i cs r m k info) := by
  obtain ⟨s', h1, e1⟩ := h s.idle rfl rfl hs
  simp only [runOp, h1]
  exact congrArg Host.Outcome.next (State.raiseError_of_idle e1)

/-- A controller operation that is admitted runs its body. -/
theorem runOp_controller {i : Instr} {v : Variant} {op : OpName} {body : Controller → Proc Value} {s : State} {c : Controller}
    (hc : s.ctrl = some c) (hv : c.variant = v) (hn : s.connected = true) :
    runOp i (withController v op body) s = runOp i (body c) s := by
  have : withController v op body s.idle = body c s.idle := by
    simp only [withController, State.idle_ctrl, hc, hv, if_pos]
    exact bind_ok (a := ()) (by simp [requireConnected, hn])
  simp only [runOp, this]

end Sys2Proof.Machine
end

