-- ==== Sys2Proof/Laws/Built.lean ====
section
/-!
SUPPORT. What every procedure does, whatever the link answers. `Built` lists the steps that procedures are built from; each
procedure is shown to be built once (Laws/Procs.lean), and what holds of every step is proved here by one induction over them:
what a procedure leaves alone, which errors it raises, the frames it sends, that it reads neither shadows nor title, and that
more replies do not change what was done.
-/

namespace Sys2Proof.Machine

/-! ### Loops -/

/-- The rounds of a loop whose bound is a number of rounds. -/
def goLoop {σ α : Type} (body : σ → Proc (σ ⊕ α)) : (fuel : Nat) → σ → Proc α
  | 0, _ => throw .waiting
  | n + 1, x => do
    let r ← body x
    match r with
    | .inl y => goLoop body n y
    | .inr a => pure a

/-- The steps that procedures are built from, with parameters `P` and the status flag at `conn`; `rom` and `ram` say which
shadows may be written, `K` which errors may be raised. -/
inductive Built (P : Params) (conn rom ram : Bool) (K : ErrKind → Prop) : {α : Type} → Proc α → Prop where
  | pure {α : Type} (a : α) : Built P conn rom ram K (Pure.pure a : Proc α)
  | bind {α β : Type} {p : Proc α} {g : α → Proc β} : Built P conn rom ram K p →
      (∀ a, (∃ s t, p s = .ok a t) → Built P conn rom ram K (g a)) → Built P conn rom ram K (p >>= g)
  | raise {α : Type} (k : ErrKind) (i : Info) : K k → Built P conn rom ram K (Machine.raise k i : Proc α)
  | refuse {α : Type} (r : RefuseReason) : Built P conn rom ram K (Machine.refuse r : Proc α)
  | probe : Built P conn rom ram K Machine.probe
  | memRead (a n : U16) : Built P conn rom ram K (Machine.memRead a n)
  | memWrite (a : U16) (v : Byte) : Built P conn rom ram K (Machine.memWrite a v)
  | connected (op : OpName) : (conn = false → K .notConnected) → Built P conn rom ram K (requireConnected op)
  | params {α : Type} {g : State → Proc α} : (∀ s t : State, s.cfg = t.cfg → g s = g t) →
      (∀ s : State, s.cfg = P → Built P conn rom ram K (g s)) → Built P conn rom ram K (get >>= g)
  | report (k : Nat) (bs : List Byte) : Built P conn rom ram K (emit (.progress k bs))
  | setEc (r : EcRegs) : Built P conn rom ram K (Machine.setEc r)
  | setWe (r : WeRegs) : Built P conn rom ram K (Machine.setWe r)
  | setHs (r : HsRegs) : Built P conn rom ram K (Machine.setHs r)
  | setPoll (n : Nat) : Built P conn rom ram K (Machine.setPoll n)
  | setEe (r : EeRegs) : Built P conn rom ram K (Machine.setEe r)
  | setRom (n : Nat) : rom = true → Built P conn rom ram K (setRomShadow n)
  | setRam (n : Nat) : ram = true → Built P conn rom ram K (setRamShadow n)
  | loop {σ α : Type} (I : σ → Prop) (body : σ → Proc (σ ⊕ α)) (x : σ) : I x → (∀ y, I y → Built P conn rom ram K (body y)) →
      (∀ y s z t, I y → body y s = .ok (.inl z) t → I z ∧ t.link.length < s.link.length) →
      Built P conn rom ram K (unbounded fun n => goLoop body n x)

/-! ### Results of a procedure -/

/-- The state in which a procedure stands at its end. -/
def endState {α : Type} (r : EStateM.Result Halt State α) : State :=
  match r with
  | .ok _ s => s
  | .error _ s => s

@[simp] theorem endState_ok {α : Type} (a : α) (s : State) : endState (.ok a s : EStateM.Result Halt State α) = s := rfl
@[simp] theorem endState_error {α : Type} (h : Halt) (s : State) : endState (.error h s : EStateM.Result Halt State α) = s := rfl

/-- A property of the result of a procedure, where it is kept by going on after a result. -/
theorem bind_cases {α β : Type} (p : Proc α) (g : α → Proc β) (s : State) :
    (∃ a s1, p s = .ok a s1 ∧ (p >>= g) s = g a s1) ∨ (∃ h s1, p s = .error h s1 ∧ (p >>= g) s = .error h s1) := by
  cases h : p s with
  | ok a s1 => exact .inl ⟨a, s1, rfl, bind_ok h⟩
  | error e s1 => exact .inr ⟨e, s1, rfl, bind_error h⟩

theorem goLoop_inl {σ α : Type} {body : σ → Proc (σ ⊕ α)} {n : Nat} {y z : σ} {s t : State}
    (h : body y s = .ok (.inl z) t) : goLoop body (n + 1) y s = goLoop body n z t := bind_ok h

theorem goLoop_inr {σ α : Type} {body : σ → Proc (σ ⊕ α)} {n : Nat} {y : σ} {a : α} {s t : State}
    (h : body y s = .ok (.inr a) t) : goLoop body (n + 1) y s = .ok a t := bind_ok h

theorem goLoop_error {σ α : Type} {body : σ → Proc (σ ⊕ α)} {n : Nat} {y : σ} {h : Halt} {s t : State}
    (e : body y s = .error h t) : goLoop body (n + 1) y s = .error h t := bind_error e

/-! ### What is left alone -/

/-- What every procedure may do to the state. -/
structure Within (rom ram : Bool) (s t : State) : Prop where
  connected : t.connected = s.connected
  header : t.header = s.header
  cfg : t.cfg = s.cfg
  program : t.program = s.program
  hpc : t.hpc = s.hpc
  stop : t.stop = s.stop
  refused : t.refused = s.refused
  run : t.run = s.run
  bare : t.ctrl.map Controller.bare = s.ctrl.map Controller.bare
  romShadow : rom = false → t.ctrl.map (·.romShadow) = s.ctrl.map (·.romShadow)
  ramShadow : ram = false → t.ctrl.map (·.ramShadow) = s.ctrl.map (·.ramShadow)
  trace : ∃ evs, t.traceRev = evs ++ s.traceRev ∧ ∀ e ∈ evs, e.inner = true
  link : ∃ used, s.link = used ++ t.link ∧ (t.cancelReq = true → s.cancelReq = true ∨ ∃ i ∈ used, i.cancel = true)

theorem Within.refl (rom ram : Bool) (s : State) : Within rom ram s s :=
  ⟨rfl, rfl, rfl, rfl, rfl, rfl, rfl, rfl, rfl, fun _ => rfl, fun _ => rfl, ⟨[], rfl, by simp⟩, ⟨[], rfl, .inl⟩⟩

theorem Within.trans {rom ram : Bool} {s t u : State} (h : Within rom ram s t) (k : Within rom ram t u) : Within rom ram s u where
  connected := k.connected.trans h.connected
  header := k.header.trans h.header
  cfg := k.cfg.trans h.cfg
  program := k.program.trans h.program
  hpc := k.hpc.trans h.hpc
  stop := k.stop.trans h.stop
  refused := k.refused.trans h.refused
  run := k.run.trans h.run
  bare := k.bare.trans h.bare
  romShadow e := (k.romShadow e).trans (h.romShadow e)
  ramShadow e := (k.ramShadow e).trans (h.ramShadow e)
  trace := by
    obtain ⟨e1, h1, i1⟩ := h.trace
    obtain ⟨e2, h2, i2⟩ := k.trace
    refine ⟨e2 ++ e1, by rw [h2, h1, List.append_assoc], fun e he => ?_⟩
    rcases List.mem_append.1 he with he | he
    · exact i2 e he
    · exact i1 e he
  link := by
    obtain ⟨u1, h1, c1⟩ := h.link
    obtain ⟨u2, h2, c2⟩ := k.link
    refine ⟨u1 ++ u2, by rw [h1, h2, List.append_assoc], fun e => ?_⟩
    rcases c2 e with c | ⟨i, hi, hc⟩
    · rcases c1 c with c | ⟨i, hi, hc⟩
      · exact .inl c
      · exact .inr ⟨i, List.mem_append_left _ hi, hc⟩
    · exact .inr ⟨i, List.mem_append_right _ hi, hc⟩

/-- What every procedure does, whatever it ends in. -/
structure Ends (K : ErrKind → Prop) (rom ram : Bool) {α : Type} (s : State) (r : EStateM.Result Halt State α) : Prop where
  within : Within rom ram s (endState r)
  kinds : ∀ k i t, r = .error (.raised k i) t → K k
  cancelled : ∀ t, r = .error .cancelled t → s.cancelReq = true ∨ ∃ i ∈ s.link, i.cancel = true
  waiting : ∀ t, r = .error .waiting t → t.link = [] ∧ t.awaiting ≠ none

theorem Ends.of_ok {K : ErrKind → Prop} {rom ram : Bool} {α : Type} {a : α} {s t : State} (h : Within rom ram s t) :
    Ends K rom ram s (.ok a t : EStateM.Result Halt State α) := by
  refine ⟨h, ?_, ?_, ?_⟩ <;> intros <;> rename_i h <;> cases h

theorem Ends.bind {K : ErrKind → Prop} {rom ram : Bool} {α β : Type} {p : Proc α} {g : α → Proc β} {s : State}
    (hp : Ends K rom ram s (p s)) (hg : ∀ a t, p s = .ok a t → Ends K rom ram t (g a t)) : Ends K rom ram s ((p >>= g) s) := by
  rcases bind_cases p g s with ⟨a, t, h, e⟩ | ⟨x, t, h, e⟩
  · have h2 := hg a t h
    rw [e]
    have w : Within rom ram s t := by simpa [h] using hp.within
    refine ⟨w.trans h2.within, h2.kinds, fun u hu => ?_, h2.waiting⟩
    obtain ⟨used, hl, hc⟩ := w.link
    rcases h2.cancelled u hu with c | ⟨i, hi, c⟩
    · rcases hc c with c | ⟨i, hi, c⟩
      · exact .inl c
      · exact .inr ⟨i, by rw [hl]; exact List.mem_append_left _ hi, c⟩
    · exact .inr ⟨i, by rw [hl]; exact List.mem_append_right _ hi, c⟩
  · rw [e]
    rw [h] at hp
    refine ⟨hp.within, fun k i u hu => ?_, fun u hu => ?_, fun u hu => ?_⟩ <;> cases hu
    · exact hp.kinds _ _ _ rfl
    · exact hp.cancelled _ rfl
    · exact hp.waiting _ rfl

/-! ### The exchange and the frames -/

theorem beginFrame_ends (K : ErrKind → Prop) (rom ram : Bool) (s : State) : Ends K rom ram s (beginFrame s) := by
  unfold beginFrame
  by_cases h : s.cancelReq = true
  · simp only [h, if_true]
    refine ⟨⟨rfl, rfl, rfl, rfl, rfl, rfl, rfl, rfl, rfl, fun _ => rfl, fun _ => rfl, ⟨[], rfl, by simp⟩, ⟨[], rfl, by simp⟩⟩, ?_, ?_, ?_⟩
    · intro k i t e; cases e
    · intro t _; exact .inl h
    · intro t e; cases e
  · simp only [h]
    exact Ends.of_ok (Within.refl _ _ _)

theorem xfer_ends (K : ErrKind → Prop) (rom ram : Bool) (b : Byte) (s : State) : Ends K rom ram s (xfer b s) := by
  unfold xfer
  split
  · rename_i h
    refine ⟨⟨rfl, rfl, rfl, rfl, rfl, rfl, rfl, rfl, rfl, fun _ => rfl, fun _ => rfl, ⟨[], rfl, by simp⟩, ⟨[], rfl, .inl⟩⟩, ?_, ?_, ?_⟩
    · intro k i t e; cases e
    · intro t e; cases e
    · intro t e; cases e; exact ⟨h, by simp⟩
  · rename_i i rest h
    refine Ends.of_ok ⟨rfl, rfl, rfl, rfl, rfl, rfl, rfl, rfl, rfl, fun _ => rfl, fun _ => rfl, ⟨[_], rfl, by simp [Event.inner]⟩,
      ⟨[i], h, ?_⟩⟩
    simp only [Bool.or_eq_true, List.mem_singleton, exists_eq_left]
    exact id

theorem xferBlock_ends (K : ErrKind → Prop) (rom ram : Bool) (bs : List Byte) : ∀ s, Ends K rom ram s (xferBlock bs s) := by
  induction bs with
  | nil => intro s; exact Ends.of_ok (Within.refl _ _ _)
  | cons b bs ih =>
    intro s
    exact Ends.bind (xfer_ends K rom ram b s) fun a t _ => Ends.bind (ih t) fun as u _ => Ends.of_ok (Within.refl _ _ _)

theorem dataIn_ends (K : ErrKind → Prop) (rom ram : Bool) (n : Nat) (s : State) : Ends K rom ram s (dataIn n s) :=
  Ends.bind (p := get) (Ends.of_ok (Within.refl _ _ _)) fun _ t _ => xferBlock_ends K rom ram _ t

theorem probe_ends (K : ErrKind → Prop) (rom ram : Bool) (s : State) : Ends K rom ram s (probe s) :=
  Ends.bind (beginFrame_ends K rom ram s) fun _ t _ => xfer_ends K rom ram _ t

theorem headerIn_ends (K : ErrKind → Prop) (rom ram : Bool) (s : State) : Ends K rom ram s (headerIn s) :=
  Ends.bind (beginFrame_ends K rom ram s) fun _ t _ => dataIn_ends K rom ram _ t

theorem memRead_ends (K : ErrKind → Prop) (rom ram : Bool) (a n : U16) (s : State) : Ends K rom ram s (memRead a n s) :=
  Ends.bind (beginFrame_ends K rom ram s) fun _ t _ =>
    Ends.bind (xferBlock_ends K rom ram _ t) fun _ u _ => dataIn_ends K rom ram _ u

theorem memWrite_ends (K : ErrKind → Prop) (rom ram : Bool) (a : U16) (v : Byte) (s : State) :
    Ends K rom ram s (memWrite a v s) :=
  Ends.bind (beginFrame_ends K rom ram s) fun _ t _ =>
    Ends.bind (xferBlock_ends K rom ram _ t) fun _ _ _ => Ends.of_ok (Within.refl _ _ _)

/-! ### One induction over the steps -/

variable {P : Params} {conn rom ram : Bool} {K : ErrKind → Prop} {α : Type}

theorem Built.ends {p : Proc α} (h : Built P conn rom ram K p) : ∀ s : State, s.cfg = P → s.connected = conn → Ends K rom ram s (p s) := by
  induction h with
  | pure a => intro s _ _; exact Ends.of_ok (Within.refl _ _ _)
  | bind _ _ ih1 ih2 =>
    intro s hc hn
    refine Ends.bind (ih1 s hc hn) fun a t e => ih2 a ⟨s, t, e⟩ t ?_ ?_
    · have w := (ih1 s hc hn).within; rw [e] at w; exact w.cfg.trans hc
    · have w := (ih1 s hc hn).within; rw [e] at w; exact w.connected.trans hn
  | raise k i hk =>
    intro s _ _
    refine ⟨Within.refl _ _ _, ?_, ?_, ?_⟩
    · intro k' i' t e; cases e; exact hk
    · intro t e; cases e
    · intro t e; cases e
  | refuse r =>
    intro s _ _
    refine ⟨Within.refl _ _ _, ?_, ?_, ?_⟩ <;> intros <;> rename_i e <;> cases e
  | probe => intro s _ _; exact probe_ends _ _ _ s
  | memRead a n => intro s _ _; exact memRead_ends _ _ _ a n s
  | memWrite a v => intro s _ _; exact memWrite_ends _ _ _ a v s
  | connected op hk =>
    intro s _ hn
    unfold requireConnected
    by_cases h : s.connected = true
    · rw [if_pos h]; exact Ends.of_ok (Within.refl _ _ _)
    · rw [if_neg h]
      refine ⟨Within.refl _ _ _, ?_, ?_, ?_⟩
      · intro k i t e; cases e; exact hk (by rw [← hn]; simpa using h)
      · intro t e; cases e
      · intro t e; cases e
  | params _ _ ih => intro s hc hn; exact ih s hc s hc hn
  | report k bs =>
    intro s _ _
    exact Ends.of_ok ⟨rfl, rfl, rfl, rfl, rfl, rfl, rfl, rfl, rfl, fun _ => rfl, fun _ => rfl, ⟨[_], rfl, by simp [Event.inner]⟩,
      ⟨[], rfl, .inl⟩⟩
  | setEc r => intro s _ _; exact Ends.of_ok ⟨rfl, rfl, rfl, rfl, rfl, rfl, rfl, rfl, rfl, fun _ => rfl, fun _ => rfl, ⟨[], rfl, by simp⟩, ⟨[], rfl, .inl⟩⟩
  | setWe r => intro s _ _; exact Ends.of_ok ⟨rfl, rfl, rfl, rfl, rfl, rfl, rfl, rfl, rfl, fun _ => rfl, fun _ => rfl, ⟨[], rfl, by simp⟩, ⟨[], rfl, .inl⟩⟩
  | setHs r => intro s _ _; exact Ends.of_ok ⟨rfl, rfl, rfl, rfl, rfl, rfl, rfl, rfl, rfl, fun _ => rfl, fun _ => rfl, ⟨[], rfl, by simp⟩, ⟨[], rfl, .inl⟩⟩
  | setPoll r => intro s _ _; exact Ends.of_ok ⟨rfl, rfl, rfl, rfl, rfl, rfl, rfl, rfl, rfl, fun _ => rfl, fun _ => rfl, ⟨[], rfl, by simp⟩, ⟨[], rfl, .inl⟩⟩
  | setEe r => intro s _ _; exact Ends.of_ok ⟨rfl, rfl, rfl, rfl, rfl, rfl, rfl, rfl, rfl, fun _ => rfl, fun _ => rfl, ⟨[], rfl, by simp⟩, ⟨[], rfl, .inl⟩⟩
  | setRom n hr =>
    intro s _ _
    refine Ends.of_ok ⟨rfl, rfl, rfl, rfl, rfl, rfl, rfl, rfl, ?_, ?_, ?_, ⟨[], rfl, by simp⟩, ⟨[], rfl, .inl⟩⟩
    · cases h : s.ctrl <;> simp [h, Controller.bare]
    · intro h; rw [hr] at h; cases h
    · intro _; cases h : s.ctrl <;> simp [h]
  | setRam n hr =>
    intro s _ _
    refine Ends.of_ok ⟨rfl, rfl, rfl, rfl, rfl, rfl, rfl, rfl, ?_, ?_, ?_, ⟨[], rfl, by simp⟩, ⟨[], rfl, .inl⟩⟩
    · cases h : s.ctrl <;> simp [h, Controller.bare]
    · intro _; cases h : s.ctrl <;> simp [h]
    · intro h; rw [hr] at h; cases h
  | loop I body x hx _ hless ih =>
    intro s hc hn
    suffices ∀ n y s, I y → s.link.length < n → s.cfg = P → s.connected = conn → Ends K rom ram s (goLoop body n y s) from
      this _ x s hx (Nat.lt_succ_self _) hc hn
    intro n
    induction n with
    | zero => intro y s _ h; exact absurd h (Nat.not_lt_zero _)
    | succ n ihn =>
      intro y s hy hl hc hn
      refine Ends.bind (ih y hy s hc hn) fun r t e => ?_
      have w := (ih y hy s hc hn).within
      rw [e] at w
      cases r with
      | inl z =>
        have hz := hless y s z t hy e
        exact ihn z t hz.1 (by omega) (w.cfg.trans hc) (w.connected.trans hn)
      | inr a => exact Ends.of_ok (Within.refl _ _ _)

/-- A loop only adds to the trace. -/
theorem goLoop_grows {σ : Type} {I : σ → Prop} {body : σ → Proc (σ ⊕ α)} (hb : ∀ y, I y → Built P conn rom ram K (body y))
    (hless : ∀ y s z t, I y → body y s = .ok (.inl z) t → I z ∧ t.link.length < s.link.length) :
    ∀ n y s, I y → s.link.length < n → s.cfg = P → s.connected = conn →
      ∃ evs, (endState (goLoop body n y s)).traceRev = evs ++ s.traceRev := by
  intro n
  induction n with
  | zero => intro y s _ h; exact absurd h (Nat.not_lt_zero _)
  | succ n ihn =>
    intro y s hy hl hc hn
    have w := ((hb y hy).ends s hc hn).within
    obtain ⟨evs, h1, _⟩ := w.trace
    cases h : body y s with
    | ok r t =>
      rw [h] at h1 w
      cases r with
      | inl z =>
        have hz := hless y s z t hy h
        obtain ⟨ev2, h2⟩ := ihn z t hz.1 (by omega) (w.cfg.trans hc) (w.connected.trans hn)
        exact ⟨ev2 ++ evs, by rw [goLoop_inl h, h2, show t.traceRev = _ from h1, List.append_assoc]⟩
      | inr a => rw [goLoop_inr h]; exact ⟨evs, h1⟩
    | error x t => rw [goLoop_error h]; rw [h] at h1; exact ⟨evs, h1⟩

end Sys2Proof.Machine
end

