-- ==== Sys2Proof/Laws/Frames.lean ====
section
/-!
SUPPORT. The bytes that procedures send form whole frames (R110 to R117): by one induction over the steps.
-/

namespace Sys2Proof.Machine

theorem sentOf_append (xs ys : List Event) : sentOf (xs ++ ys) = sentOf xs ++ sentOf ys := by simp [sentOf]

theorem WholeFrames.append {fill : Byte} {xs ys : List Byte} (h : WholeFrames fill xs) (k : WholeFrames fill ys) :
    WholeFrames fill (xs ++ ys) := by
  induction h with
  | none => exact k
  | probe rest _ ih => exact .probe _ ih
  | write ah al v rest _ ih => exact .write ah al v _ ih
  | read ah al lh ll rest _ ih =>
    simp only [List.cons_append, List.append_assoc]
    exact .read ah al lh ll _ ih

/-- A procedure that sends exactly these bytes, or some first part of them where it waits. -/
def Sent {α : Type} (bs : List Byte) (s : State) (r : EStateM.Result Halt State α) : Prop :=
  (∃ evs, (endState r).traceRev = evs ++ s.traceRev ∧ (∀ t, r ≠ .error .waiting t) ∧ sentOf evs.reverse = bs) ∨
  (∃ evs t b more, r = .error .waiting t ∧ t.traceRev = evs ++ s.traceRev ∧ t.awaiting = some b ∧ sentOf evs.reverse ++ b :: more = bs)

theorem Sent.bind {α β : Type} {p : Proc α} {g : α → Proc β} {s : State} {bs cs : List Byte} (hp : Sent bs s (p s))
    (hok : ∀ h t, p s = .error h t → h = .waiting) (hg : ∀ a t, p s = .ok a t → Sent cs t (g a t)) :
    Sent (bs ++ cs) s ((p >>= g) s) := by
  rcases bind_cases p g s with ⟨a, t, h, e⟩ | ⟨x, t, h, e⟩
  · rw [e]
    rcases hp with ⟨evs, h1, _, h3⟩ | ⟨evs, u, b, more, h1, _⟩
    · rw [h] at h1
      rcases hg a t h with ⟨ev2, k1, k2, k3⟩ | ⟨ev2, u, b, more, k1, k2, k3, k4⟩
      · refine .inl ⟨ev2 ++ evs, by rw [k1, show t.traceRev = _ from h1, List.append_assoc], k2, ?_⟩
        rw [List.reverse_append, sentOf_append, h3, k3]
      · refine .inr ⟨ev2 ++ evs, u, b, more, k1, by rw [k2, show t.traceRev = _ from h1, List.append_assoc], k3, ?_⟩
        rw [List.reverse_append, sentOf_append, h3, List.append_assoc, k4]
    · rw [h] at h1; cases h1
  · rw [e]
    cases hok x t h
    rcases hp with ⟨evs, _, h2, _⟩ | ⟨evs, u, b, more, h1, h2, h3, h4⟩
    · exact absurd h (h2 t)
    · rw [h] at h1; cases h1
      exact .inr ⟨evs, t, b, more ++ cs, rfl, h2, h3, by rw [← h4]; simp⟩

theorem xfer_sent (b : Byte) (s : State) : Sent [b] s (xfer b s) := by
  unfold xfer
  split
  · exact .inr ⟨[], _, b, [], rfl, rfl, rfl, rfl⟩
  · exact .inl ⟨[_], rfl, (fun t e => by cases e), rfl⟩

theorem xfer_error (b : Byte) {s : State} {h : Halt} {t : State} (e : xfer b s = .error h t) : h = .waiting := by
  unfold xfer at e
  split at e <;> cases e
  rfl

theorem xferBlock_error (bs : List Byte) : ∀ {s : State} {h : Halt} {t : State}, xferBlock bs s = .error h t → h = .waiting := by
  induction bs with
  | nil => intro s h t e; cases e
  | cons b bs ih =>
    intro s h t e
    rcases bind_cases (xfer b) (fun r => xferBlock bs >>= fun rs => pure (r :: rs)) s with ⟨a, u, h1, e1⟩ | ⟨x, u, h1, e1⟩
    · have e' := e1.symm.trans e
      rcases bind_cases (xferBlock bs) (fun rs => (pure (a :: rs) : Proc (List Byte))) u with ⟨as, v, h2, e2⟩ | ⟨x, v, h2, e2⟩
      · have e'' := e2.symm.trans e'; cases e''
      · have e'' := e2.symm.trans e'; cases e''; exact ih h2
    · have e' := e1.symm.trans e; cases e'; exact xfer_error b h1

theorem sent_pure {α : Type} (a : α) (s : State) : Sent [] s ((pure a : Proc α) s) :=
  .inl ⟨[], rfl, (fun t e => by cases e), rfl⟩

theorem xferBlock_sent (bs : List Byte) : ∀ s : State, Sent bs s (xferBlock bs s) := by
  induction bs with
  | nil => intro s; exact sent_pure _ s
  | cons b bs ih =>
    intro s
    refine Sent.bind (cs := bs) (xfer_sent b s) (fun h t e => xfer_error b e) fun r t _ => ?_
    have := Sent.bind (g := fun rs => (pure (r :: rs) : Proc (List Byte))) (cs := []) (ih t) (fun h u e => xferBlock_error bs e)
      (fun as u _ => sent_pure _ u)
    simpa using this

theorem dataIn_sent (n : Nat) (s : State) : Sent (List.replicate n s.cfg.fillByte) s (dataIn n s) := by
  have e : dataIn n s = xferBlock (List.replicate n s.cfg.fillByte) s := bind_ok rfl
  rw [e]; exact xferBlock_sent _ s

/-- The frame of a primitive, or nothing where a cancellation is honoured first (R441). -/
def SentFrame {α : Type} (bs : List Byte) (s : State) (r : EStateM.Result Halt State α) : Prop :=
  (∃ t, r = .error .cancelled t ∧ t.traceRev = s.traceRev) ∨ Sent bs s r

theorem beginFrame_then {α : Type} {p : Proc α} {bs : List Byte} {s : State} (h : Sent bs s (p s)) :
    SentFrame bs s ((beginFrame >>= fun _ => p) s) := by
  by_cases hc : s.cancelReq = true
  · have e : beginFrame s = .error .cancelled { s with cancelReq := false } := by simp [beginFrame, hc]
    rw [bind_error e]; exact .inl ⟨_, rfl, rfl⟩
  · have e : beginFrame s = .ok () s := by simp [beginFrame, hc]
    rw [bind_ok e]; exact .inr h

theorem probe_sent (s : State) : SentFrame [0x9A] s (probe s) := beginFrame_then (xfer_sent _ s)

theorem memWrite_sent (a : U16) (v : Byte) (s : State) : SentFrame [0x49, hi8 a, lo8 a, v] s (memWrite a v s) := by
  refine beginFrame_then ?_
  have := Sent.bind (g := fun _ => (pure () : Proc Unit)) (cs := []) (xferBlock_sent (writeFrameBytes a v) s)
    (fun h u e => xferBlock_error _ e) (fun as u _ => sent_pure _ u)
  simpa [writeFrameBytes, Config.opWrite] using this

theorem memRead_sent (a n : U16) (s : State) :
    SentFrame ([0x59, hi8 a, lo8 a, hi8 n, lo8 n] ++ List.replicate n.toNat s.cfg.fillByte) s (memRead a n s) := by
  refine beginFrame_then ?_
  refine Sent.bind (xferBlock_sent (readFrameBytes a n) s) (fun h u e => xferBlock_error _ e) (fun as u e => ?_)
  have w := (xferBlock_ends (fun _ => True) true true (readFrameBytes a n) s).within
  rw [e] at w
  have := dataIn_sent n.toNat u
  rwa [show u.cfg = s.cfg from w.cfg] at this

/-! ### Every procedure -/

/-- Whole frames were sent; where the procedure waits, the byte that waits goes on a frame. -/
structure SendsFrames (fill : Byte) {α : Type} (s : State) (r : EStateM.Result Halt State α) : Prop where
  done : (∀ t, r ≠ .error .waiting t) → ∃ evs, (endState r).traceRev = evs ++ s.traceRev ∧ WholeFrames fill (sentOf evs.reverse)
  waits : ∀ t, r = .error .waiting t → ∃ evs b more, t.traceRev = evs ++ s.traceRev ∧ t.awaiting = some b ∧
    WholeFrames fill (sentOf evs.reverse ++ b :: more)

theorem SendsFrames.of_none {fill : Byte} {α : Type} {s : State} {r : EStateM.Result Halt State α}
    (h : (endState r).traceRev = s.traceRev) (hw : ∀ t, r ≠ .error .waiting t) : SendsFrames fill s r :=
  ⟨fun _ => ⟨[], h, .none⟩, fun t e => absurd e (hw t)⟩

theorem SendsFrames.of_frame {fill : Byte} {α : Type} {s : State} {r : EStateM.Result Halt State α} {bs : List Byte}
    (h : SentFrame bs s r) (hf : WholeFrames fill bs) : SendsFrames fill s r := by
  rcases h with ⟨t, rfl, ht⟩ | ⟨evs, h1, h2, h3⟩ | ⟨evs, t, b, more, rfl, h2, h3, h4⟩
  · exact .of_none ht (fun t e => by cases e)
  · exact ⟨fun _ => ⟨evs, h1, h3 ▸ hf⟩, fun t e => absurd e (h2 t)⟩
  · exact ⟨fun h => absurd rfl (h t), fun u e => by cases e; exact ⟨evs, b, more, h2, h3, h4 ▸ hf⟩⟩

theorem SendsFrames.bind {fill : Byte} {α β : Type} {p : Proc α} {g : α → Proc β} {s : State} (hp : SendsFrames fill s (p s))
    (hg : ∀ a t, p s = .ok a t → SendsFrames fill t (g a t)) : SendsFrames fill s ((p >>= g) s) := by
  rcases bind_cases p g s with ⟨a, t, h, e⟩ | ⟨x, t, h, e⟩
  · rw [e]
    obtain ⟨e1, h1, w1⟩ := hp.done (fun u hu => by rw [h] at hu; cases hu)
    rw [h] at h1
    refine ⟨fun hw => ?_, fun u hu => ?_⟩
    · obtain ⟨e2, h2, w2⟩ := (hg a t h).done hw
      exact ⟨e2 ++ e1, by rw [h2, show t.traceRev = _ from h1, List.append_assoc], by
        rw [List.reverse_append, sentOf_append]; exact w1.append w2⟩
    · obtain ⟨e2, b, more, h2, h3, w2⟩ := (hg a t h).waits u hu
      exact ⟨e2 ++ e1, b, more, by rw [h2, show t.traceRev = _ from h1, List.append_assoc], h3, by
        rw [List.reverse_append, sentOf_append, List.append_assoc]; exact w1.append w2⟩
  · rw [e]
    rw [h] at hp
    refine ⟨fun hw => ?_, fun u hu => ?_⟩
    · exact hp.done (fun u hu => by cases hu; exact hw t rfl)
    · cases hu; exact hp.waits _ rfl

theorem wholeFrames_read (fill : Byte) (a n : U16) :
    WholeFrames fill ([0x59, hi8 a, lo8 a, hi8 n, lo8 n] ++ List.replicate n.toNat fill) := by
  have h := WholeFrames.read (fill := fill) (hi8 a) (lo8 a) (hi8 n) (lo8 n) [] .none
  rw [join16_parts, List.append_nil] at h
  exact h

variable {P : Params} {conn rom ram : Bool} {K : ErrKind → Prop} {α : Type}

theorem Built.sends {p : Proc α} (h : Built P conn rom ram K p) : ∀ s : State, s.cfg = P → s.connected = conn →
    SendsFrames P.fillByte s (p s) := by
  induction h with
  | pure a => intro s _ _; exact .of_none rfl (fun t e => by cases e)
  | bind h1 _ ih1 ih2 =>
    intro s hc hn
    refine (ih1 s hc hn).bind fun a t e => ?_
    have w := (h1.ends s hc hn).within
    rw [e] at w
    exact ih2 a ⟨s, t, e⟩ t (w.cfg.trans hc) (w.connected.trans hn)
  | raise k i _ => intro s _ _; exact .of_none rfl (fun t e => by cases e)
  | refuse r => intro s _ _; exact .of_none rfl (fun t e => by cases e)
  | probe => intro s _ _; exact .of_frame (probe_sent s) (.probe [] .none)
  | memRead a n => intro s hc _; exact .of_frame (memRead_sent a n s) (hc ▸ wholeFrames_read _ a n)
  | memWrite a v => intro s _ _; exact .of_frame (memWrite_sent a v s) (.write _ _ _ [] .none)
  | connected op _ =>
    intro s _ _
    unfold requireConnected
    split <;> exact .of_none rfl (fun t e => by cases e)
  | params _ _ ih => intro s hc hn; exact ih s hc s hc hn
  | report k bs =>
    intro s _ _
    exact ⟨fun _ => ⟨[_], rfl, .none⟩, fun t e => by cases e⟩
  | setEc r => intro s _ _; exact .of_none rfl (fun t e => by cases e)
  | setWe r => intro s _ _; exact .of_none rfl (fun t e => by cases e)
  | setHs r => intro s _ _; exact .of_none rfl (fun t e => by cases e)
  | setPoll r => intro s _ _; exact .of_none rfl (fun t e => by cases e)
  | setEe r => intro s _ _; exact .of_none rfl (fun t e => by cases e)
  | setRom n _ => intro s _ _; exact .of_none rfl (fun t e => by cases e)
  | setRam n _ => intro s _ _; exact .of_none rfl (fun t e => by cases e)
  | loop I body x hx hb hless ih =>
    intro s hc hn
    suffices ∀ n y s, I y → s.link.length < n → s.cfg = P → s.connected = conn → SendsFrames P.fillByte s (goLoop body n y s) from
      this _ x s hx (Nat.lt_succ_self _) hc hn
    intro n
    induction n with
    | zero => intro y s _ h; exact absurd h (Nat.not_lt_zero _)
    | succ n ihn =>
      intro y s hy hl hc hn
      refine (ih y hy s hc hn).bind fun r t e => ?_
      have w := ((hb y hy).ends s hc hn).within
      rw [e] at w
      cases r with
      | inl z =>
        have hz := hless y s z t hy e
        exact ihn z t hz.1 (by omega) (w.cfg.trans hc) (w.connected.trans hn)
      | inr a => exact .of_none rfl (fun t e => by cases e)

end Sys2Proof.Machine
end

