-- ==== Sys2Proof/Laws/View.lean ====
section
/-!
SUPPORT. Two inductions over the steps: procedures read neither the header nor the shadows (R34, R35, R44), and a run on a
longer queue of replies begins as the run on the shorter one (R15, R81).
-/

namespace Sys2Proof.Machine

/-! ### States that a procedure cannot tell apart -/

/-- Two states that agree in what procedures read, with controllers related by `C`. -/
structure Alike (C : Option Controller → Option Controller → Prop) (s t : State) : Prop where
  connected : s.connected = t.connected
  cfg : s.cfg = t.cfg
  ec : s.ec = t.ec
  we : s.we = t.we
  hs : s.hs = t.hs
  poll : s.poll = t.poll
  ee : s.ee = t.ee
  traceRev : s.traceRev = t.traceRev
  cancelReq : s.cancelReq = t.cancelReq
  link : s.link = t.link
  awaiting : s.awaiting = t.awaiting
  ctrl : C s.ctrl t.ctrl

/-- The same end in states that are alike. -/
inductive AlikeEnds (C : Option Controller → Option Controller → Prop) {α : Type} :
    EStateM.Result Halt State α → EStateM.Result Halt State α → Prop where
  | ok (a : α) {s t : State} : Alike C s t → AlikeEnds C (.ok a s) (.ok a t)
  | error (h : Halt) {s t : State} : Alike C s t → AlikeEnds C (.error h s) (.error h t)

variable {C : Option Controller → Option Controller → Prop} {α β : Type}

theorem AlikeEnds.bind {p : Proc α} {g : α → Proc β} {s t : State} (hp : AlikeEnds C (p s) (p t))
    (hg : ∀ a s' t', p s = .ok a s' → Alike C s' t' → AlikeEnds C (g a s') (g a t')) :
    AlikeEnds C ((p >>= g) s) ((p >>= g) t) := by
  generalize e1 : p s = r1 at hp
  generalize e2 : p t = r2 at hp
  cases hp with
  | ok a h => rw [bind_ok e1, bind_ok e2]; exact hg a _ _ e1 h
  | error x h => rw [bind_error e1, bind_error e2]; exact .error x h

theorem beginFrame_alike {s t : State} (h : Alike C s t) : AlikeEnds C (beginFrame s) (beginFrame t) := by
  unfold beginFrame
  rw [← h.cancelReq]
  split
  · exact .error _ { h with cancelReq := rfl }
  · exact .ok _ h

theorem xfer_alike (b : Byte) {s t : State} (h : Alike C s t) : AlikeEnds C (xfer b s) (xfer b t) := by
  have hl := h.link
  cases e : s.link with
  | nil =>
    rw [e] at hl
    simp only [xfer, e, ← hl]
    exact .error _ { h with awaiting := rfl, link := rfl }
  | cons i rest =>
    rw [e] at hl
    simp only [xfer, e, ← hl]
    exact .ok _ { h with link := rfl, traceRev := by simp [h.traceRev], cancelReq := by simp [h.cancelReq] }

theorem xferBlock_alike (bs : List Byte) : ∀ {s t : State}, Alike C s t → AlikeEnds C (xferBlock bs s) (xferBlock bs t) := by
  induction bs with
  | nil => intro s t h; exact .ok _ h
  | cons b bs ih =>
    intro s t h
    exact (xfer_alike b h).bind fun a s' t' _ h' => (ih h').bind fun as s'' t'' _ h'' => .ok _ h''

theorem dataIn_alike (n : Nat) {s t : State} (h : Alike C s t) : AlikeEnds C (dataIn n s) (dataIn n t) := by
  have e : ∀ s : State, dataIn n s = xferBlock (List.replicate n s.cfg.fillByte) s := fun s => bind_ok rfl
  rw [e, e, h.cfg]; exact xferBlock_alike _ h

theorem headerIn_alike {s t : State} (h : Alike C s t) : AlikeEnds C (headerIn s) (headerIn t) :=
  (beginFrame_alike h).bind fun _ _ _ _ h' => dataIn_alike _ h'

variable {P : Params} {conn rom ram : Bool} {K : ErrKind → Prop}

theorem Built.alike {p : Proc α} (h : Built P conn rom ram K p)
    (hrom : ∀ c d n, C c d → C (c.map fun x => { x with romShadow := some n }) (d.map fun x => { x with romShadow := some n }))
    (hram : ∀ c d n, C c d → C (c.map fun x => { x with ramShadow := some n }) (d.map fun x => { x with ramShadow := some n })) :
    ∀ s t : State, s.cfg = P → s.connected = conn → Alike C s t → AlikeEnds C (p s) (p t) := by
  induction h with
  | pure a => intro s t _ _ h; exact .ok _ h
  | bind h1 _ ih1 ih2 =>
    intro s t hc hn h
    refine (ih1 s t hc hn h).bind fun a s' t' e h' => ?_
    have w := (h1.ends s hc hn).within
    rw [e] at w
    exact ih2 a ⟨s, s', e⟩ s' t' (w.cfg.trans hc) (w.connected.trans hn) h'
  | raise k i _ => intro s t _ _ h; exact .error _ h
  | refuse r => intro s t _ _ h; exact .error _ h
  | probe => intro s t _ _ h; exact (beginFrame_alike h).bind fun _ _ _ _ h' => xfer_alike _ h'
  | memRead a n =>
    intro s t _ _ h
    exact (beginFrame_alike h).bind fun _ _ _ _ h' => (xferBlock_alike _ h').bind fun _ _ _ _ h'' => dataIn_alike _ h''
  | memWrite a v =>
    intro s t _ _ h
    exact (beginFrame_alike h).bind fun _ _ _ _ h' => (xferBlock_alike _ h').bind fun _ _ _ _ h'' => .ok _ h''
  | connected op _ =>
    intro s t _ _ h
    unfold requireConnected
    rw [← h.connected]
    split
    · exact .ok _ h
    · exact .error _ h
  | @params α g hdep _ ih =>
    intro s t hc hn h
    have e : (get >>= g) t = g s t := by rw [hdep s t h.cfg]; rfl
    rw [e]
    exact ih s hc s t hc hn h
  | report k bs => intro s t _ _ h; exact .ok _ { h with traceRev := by simp [h.traceRev] }
  | setEc r => intro s t _ _ h; exact .ok _ { h with ec := rfl }
  | setWe r => intro s t _ _ h; exact .ok _ { h with we := rfl }
  | setHs r => intro s t _ _ h; exact .ok _ { h with hs := rfl }
  | setPoll r => intro s t _ _ h; exact .ok _ { h with poll := rfl }
  | setEe r => intro s t _ _ h; exact .ok _ { h with ee := rfl }
  | setRom n _ => intro s t _ _ h; exact .ok _ { h with ctrl := hrom _ _ n h.ctrl }
  | setRam n _ => intro s t _ _ h; exact .ok _ { h with ctrl := hram _ _ n h.ctrl }
  | loop I body x hx hb hless ih =>
    intro s t hc hn h
    suffices ∀ n y s t, I y → s.link.length < n → s.cfg = P → s.connected = conn → Alike C s t →
        AlikeEnds C (goLoop body n y s) (goLoop body n y t) by
      have := this (s.link.length + 1) x s t hx (Nat.lt_succ_self _) hc hn h
      simp only [unbounded, ← h.link]
      exact this
    intro n
    induction n with
    | zero => intro y s t _ h; exact absurd h (Nat.not_lt_zero _)
    | succ n ihn =>
      intro y s t hy hl hc hn h
      refine (ih y hy s t hc hn h).bind fun r s' t' e h' => ?_
      have w := ((hb y hy).ends s hc hn).within
      rw [e] at w
      cases r with
      | inl z =>
        have hz := hless y s z s' hy e
        exact ihn z s' t' hz.1 (by omega) (w.cfg.trans hc) (w.connected.trans hn) h'
      | inr a => exact .ok _ h'

/-! ### More replies -/

@[simp] theorem State.supplyReplies_link (ins : List LinkIn) (s : State) : (s.supplyReplies ins).link = s.link ++ ins := rfl
@[simp] theorem State.supplyReplies_traceRev (ins : List LinkIn) (s : State) : (s.supplyReplies ins).traceRev = s.traceRev := rfl
@[simp] theorem State.supplyReplies_cfg (ins : List LinkIn) (s : State) : (s.supplyReplies ins).cfg = s.cfg := rfl
@[simp] theorem State.supplyReplies_connected (ins : List LinkIn) (s : State) : (s.supplyReplies ins).connected = s.connected := rfl

/-- What a run on more replies has in common with the run on fewer: a run that ended ends the same way, and one that waited
goes on. -/
structure GoesOn {α : Type} (ins : List LinkIn) (r r' : EStateM.Result Halt State α) : Prop where
  ok : ∀ a t, r = .ok a t → r' = .ok a (t.supplyReplies ins)
  error : ∀ h t, r = .error h t → h ≠ .waiting → r' = .error h (t.supplyReplies ins)
  waiting : ∀ t, r = .error .waiting t → ∃ evs, (endState r').traceRev = evs ++ t.traceRev

theorem GoesOn.of_ok {ins : List LinkIn} {a : α} {t : State} :
    GoesOn ins (.ok a t : EStateM.Result Halt State α) (.ok a (t.supplyReplies ins)) :=
  ⟨fun b u e => (by cases e; rfl), fun h u e => (by cases e), fun u e => (by cases e)⟩

theorem GoesOn.of_error {ins : List LinkIn} {h : Halt} {t : State} (hw : h ≠ .waiting) :
    GoesOn ins (.error h t : EStateM.Result Halt State α) (.error h (t.supplyReplies ins)) :=
  ⟨fun b u e => (by cases e), fun h u e _ => (by cases e; rfl), fun u e => (by cases e; exact absurd rfl hw)⟩

theorem GoesOn.bind {p : Proc α} {g : α → Proc β} {ins : List LinkIn} {s : State}
    (hp : GoesOn ins (p s) (p (s.supplyReplies ins)))
    (hg : ∀ a t, p s = .ok a t → GoesOn ins (g a t) (g a (t.supplyReplies ins)))
    (hx : ∀ a t, p (s.supplyReplies ins) = .ok a t → ∃ evs, (endState (g a t)).traceRev = evs ++ t.traceRev) :
    GoesOn ins ((p >>= g) s) ((p >>= g) (s.supplyReplies ins)) := by
  rcases bind_cases p g s with ⟨a, t, h, e⟩ | ⟨x, t, h, e⟩
  · rw [e, bind_ok (hp.ok a t h)]
    exact hg a t h
  · rw [e]
    by_cases hw : x = .waiting
    · subst hw
      refine ⟨fun b u e => (by cases e), fun h u e hn => (by cases e; exact absurd rfl hn), fun u e => ?_⟩
      cases e
      obtain ⟨evs, h1⟩ := hp.waiting t h
      rcases bind_cases p g (s.supplyReplies ins) with ⟨a, u, h2, e2⟩ | ⟨y, u, h2, e2⟩
      · obtain ⟨ev2, h3⟩ := hx a u h2
        rw [h2] at h1
        exact ⟨ev2 ++ evs, by rw [e2, h3, show u.traceRev = _ from h1, List.append_assoc]⟩
      · rw [h2] at h1
        exact ⟨evs, by rw [e2]; exact h1⟩
    · rw [bind_error (hp.error x t h hw)]
      exact .of_error hw

theorem beginFrame_goesOn (ins : List LinkIn) (s : State) : GoesOn ins (beginFrame s) (beginFrame (s.supplyReplies ins)) := by
  unfold beginFrame
  by_cases h : s.cancelReq = true
  · rw [if_pos h, if_pos (show (s.supplyReplies ins).cancelReq = true from h)]
    exact GoesOn.of_error (ins := ins) (t := { s with cancelReq := false }) (fun e => by cases e)
  · rw [if_neg h, if_neg (show ¬ (s.supplyReplies ins).cancelReq = true from h)]
    exact .of_ok

theorem xfer_goesOn (b : Byte) (ins : List LinkIn) (s : State) : GoesOn ins (xfer b s) (xfer b (s.supplyReplies ins)) := by
  cases h : s.link with
  | nil =>
    have e : xfer b s = .error .waiting { s with awaiting := some b } := by simp [xfer, h]
    rw [e]
    refine ⟨fun a u e => (by cases e), fun x u e hn => (by cases e; exact absurd rfl hn), fun u e => ?_⟩
    cases e
    exact (xfer_ends (fun _ => True) true true b (s.supplyReplies ins)).within.trace.imp fun _ h => h.1
  | cons i rest =>
    have e1 : xfer b s = .ok i.reply { s with link := rest, traceRev := .exchange b i.reply :: s.traceRev, cancelReq := s.cancelReq || i.cancel } := by
      simp [xfer, h]
    have e2 : xfer b (s.supplyReplies ins) = .ok i.reply (State.supplyReplies ins
        { s with link := rest, traceRev := .exchange b i.reply :: s.traceRev, cancelReq := s.cancelReq || i.cancel }) := by
      simp [xfer, State.supplyReplies, h]
    rw [e1, e2]
    exact .of_ok

theorem xferBlock_goesOn (bs : List Byte) (ins : List LinkIn) : ∀ s : State,
    GoesOn ins (xferBlock bs s) (xferBlock bs (s.supplyReplies ins)) := by
  induction bs with
  | nil => intro s; exact .of_ok
  | cons b bs ih =>
    intro s
    refine (xfer_goesOn b ins s).bind (fun a t _ => (ih t).bind (fun as u _ => .of_ok) (fun as u _ => ⟨[], rfl⟩)) (fun a t _ => ?_)
    exact (Ends.bind (xferBlock_ends (fun _ => True) true true bs t) fun as u _ =>
      Ends.of_ok (a := a :: as) (Within.refl _ _ _)).within.trace.imp fun _ h => h.1

theorem dataIn_goesOn (n : Nat) (ins : List LinkIn) (s : State) : GoesOn ins (dataIn n s) (dataIn n (s.supplyReplies ins)) := by
  have e : ∀ s : State, dataIn n s = xferBlock (List.replicate n s.cfg.fillByte) s := fun s => bind_ok rfl
  rw [e, e]; exact xferBlock_goesOn _ ins s

theorem headerIn_goesOn (ins : List LinkIn) (s : State) : GoesOn ins (headerIn s) (headerIn (s.supplyReplies ins)) :=
  (beginFrame_goesOn ins s).bind (fun _ t _ => dataIn_goesOn _ ins t)
    (fun _ t _ => (dataIn_ends (fun _ => True) true true _ t).within.trace.imp fun _ h => h.1)

theorem Built.goesOn {p : Proc α} (h : Built P conn rom ram K p) (ins : List LinkIn) : ∀ s : State, s.cfg = P → s.connected = conn →
    GoesOn ins (p s) (p (s.supplyReplies ins)) := by
  induction h with
  | pure a => intro s _ _; exact .of_ok
  | bind h1 h2 ih1 ih2 =>
    intro s hc hn
    refine (ih1 s hc hn).bind (fun a t e => ?_) (fun a t e => ?_)
    · have w := (h1.ends s hc hn).within
      rw [e] at w
      exact ih2 a ⟨s, t, e⟩ t (w.cfg.trans hc) (w.connected.trans hn)
    · have w := (h1.ends (s.supplyReplies ins) hc hn).within
      rw [e] at w
      exact ((h2 a ⟨_, t, e⟩).ends t (w.cfg.trans hc) (w.connected.trans hn)).within.trace.imp fun _ h => h.1
  | raise k i _ => intro s _ _; exact .of_error (fun e => by cases e)
  | refuse r => intro s _ _; exact .of_error (fun e => by cases e)
  | probe =>
    intro s _ _
    exact (beginFrame_goesOn ins s).bind (fun _ t _ => xfer_goesOn _ ins t)
      (fun _ t _ => (xfer_ends (fun _ => True) true true _ t).within.trace.imp fun _ h => h.1)
  | memRead a n =>
    intro s _ _
    refine (beginFrame_goesOn ins s).bind (fun _ t _ => (xferBlock_goesOn _ ins t).bind (fun _ u _ => dataIn_goesOn _ ins u)
      (fun _ t _ => (dataIn_ends (fun _ => True) true true _ t).within.trace.imp fun _ h => h.1)) (fun _ t _ => ?_)
    exact (Ends.bind (xferBlock_ends (fun _ => True) true true _ t) fun _ u _ =>
      dataIn_ends (fun _ => True) true true _ u).within.trace.imp fun _ h => h.1
  | memWrite a v =>
    intro s _ _
    refine (beginFrame_goesOn ins s).bind (fun _ t _ => (xferBlock_goesOn _ ins t).bind (fun _ u _ => .of_ok)
      (fun _ t _ => ⟨[], rfl⟩)) (fun _ t _ => ?_)
    exact (Ends.bind (xferBlock_ends (fun _ => True) true true _ t) fun _ u _ =>
      Ends.of_ok (a := ()) (Within.refl _ _ _)).within.trace.imp fun _ h => h.1
  | connected op _ =>
    intro s _ hn
    unfold requireConnected
    by_cases h : s.connected = true
    · rw [if_pos h, if_pos (show (s.supplyReplies ins).connected = true from h)]; exact .of_ok
    · rw [if_neg h, if_neg (show ¬ (s.supplyReplies ins).connected = true from h)]; exact .of_error (fun e => by cases e)
  | @params α g hdep _ ih =>
    intro s hc hn
    have e : (get >>= g) (s.supplyReplies ins) = g s (s.supplyReplies ins) := by rw [hdep s (s.supplyReplies ins) rfl]; rfl
    rw [e]
    exact ih s hc s hc hn
  | report k bs => intro s _ _; exact .of_ok
  | setEc r => intro s _ _; exact .of_ok
  | setWe r => intro s _ _; exact .of_ok
  | setHs r => intro s _ _; exact .of_ok
  | setPoll r => intro s _ _; exact .of_ok
  | setEe r => intro s _ _; exact .of_ok
  | setRom n _ => intro s _ _; exact .of_ok
  | setRam n _ => intro s _ _; exact .of_ok
  | loop I body x hx hb hless ih =>
    intro s hc hn
    suffices ∀ n m y s, I y → s.link.length < n → s.link.length + ins.length < m → s.cfg = P → s.connected = conn →
        GoesOn ins (goLoop body n y s) (goLoop body m y (s.supplyReplies ins)) from
      this _ _ x s hx (Nat.lt_succ_self _) (by simp) hc hn
    intro n
    induction n with
    | zero => intro m y s _ h; exact absurd h (Nat.not_lt_zero _)
    | succ n ihn =>
      intro m y s hy hl hm hc hn
      obtain ⟨m, rfl⟩ : ∃ k, m = k + 1 := ⟨m - 1, by omega⟩
      have hbody := ih y hy s hc hn
      have w := ((hb y hy).ends s hc hn).within
      cases h : body y s with
      | ok r t =>
        rw [h] at w
        have h' := hbody.ok r t h
        cases r with
        | inl z =>
          have hz := hless y s z t hy h
          rw [goLoop_inl h, goLoop_inl h']
          exact ihn m z t hz.1 (by omega) (by omega) (w.cfg.trans hc) (w.connected.trans hn)
        | inr a => rw [goLoop_inr h, goLoop_inr h']; exact .of_ok
      | error x t =>
        rw [goLoop_error h]
        by_cases hw : x = .waiting
        · subst hw
          refine ⟨fun b u e => (by cases e), fun h u e hn => (by cases e; exact absurd rfl hn), fun u e => ?_⟩
          cases e
          obtain ⟨evs, h1⟩ := hbody.waiting t h
          have w := ((hb y hy).ends (s.supplyReplies ins) hc hn).within
          cases h2 : body y (s.supplyReplies ins) with
          | ok r u =>
            rw [h2] at h1 w
            cases r with
            | inl z =>
              have hz := hless y _ z u hy h2
              simp only [State.supplyReplies_link, List.length_append] at hz
              obtain ⟨ev2, h3⟩ := goLoop_grows hb hless m z u hz.1 (by omega) (w.cfg.trans hc) (w.connected.trans hn)
              exact ⟨ev2 ++ evs, by rw [goLoop_inl h2, h3, show u.traceRev = _ from h1, List.append_assoc]⟩
            | inr a => rw [goLoop_inr h2]; exact ⟨evs, h1⟩
          | error v u => rw [goLoop_error h2]; rw [h2] at h1; exact ⟨evs, h1⟩
        · rw [goLoop_error (hbody.error x t h hw)]
          exact .of_error hw

end Sys2Proof.Machine
end

