-- ==== Sys2Proof/Laws/Procs.lean ====
section
/-!
SUPPORT. Every procedure of the model is built from the steps of Laws/Built.lean, with the shadows that it writes and the errors
that it raises.
-/

namespace Sys2Proof.Machine

variable {P : Params} {conn rom ram : Bool} {K : ErrKind → Prop} {α β : Type}

theorem Built.then {p : Proc α} {g : α → Proc β} (h : Built P conn rom ram K p) (hg : ∀ a, Built P conn rom ram K (g a)) :
    Built P conn rom ram K (p >>= g) := .bind h fun a _ => hg a

theorem Built.ite {c : Prop} [Decidable c] {p q : Proc α} (hp : c → Built P conn rom ram K p) (hq : ¬ c → Built P conn rom ram K q) :
    Built P conn rom ram K (if c then p else q) := by
  split
  · exact hp ‹_›
  · exact hq ‹_›

/-! ### Replies used up -/

/-- A procedure whose result takes at least one reply. -/
def Uses (p : Proc α) : Prop := ∀ s a t, p s = .ok a t → t.link.length < s.link.length

/-- A procedure whose result adds no reply. -/
def Keeps (p : Proc α) : Prop := ∀ s a t, p s = .ok a t → t.link.length ≤ s.link.length

theorem Keeps.of_within {p : Proc α} (h : ∀ s, Within true true s (endState (p s))) : Keeps p := by
  intro s a t e
  have w := h s
  rw [e] at w
  obtain ⟨used, hl, _⟩ := w.link
  rw [hl, List.length_append]; exact Nat.le_add_left _ _

/-- Every procedure adds no reply. -/
theorem Built.keeps {p : Proc α} (h : ∀ P conn, Built P conn true true (fun _ => True) p) : Keeps p :=
  .of_within fun s => ((h s.cfg s.connected).ends s rfl rfl).within

theorem bind_ok_split {p : Proc α} {g : α → Proc β} {s t : State} {b : β} (e : (p >>= g) s = .ok b t) :
    ∃ a u, p s = .ok a u ∧ g a u = .ok b t := by
  rcases bind_cases p g s with ⟨a, u, h, e1⟩ | ⟨x, u, h, e1⟩
  · exact ⟨a, u, h, e1.symm.trans e⟩
  · rw [e1] at e; cases e

theorem Uses.left {p : Proc α} {g : α → Proc β} (hp : Uses p) (hg : ∀ a, Keeps (g a)) : Uses (p >>= g) := by
  intro s b t e
  obtain ⟨a, u, h, e1⟩ := bind_ok_split e
  exact Nat.lt_of_le_of_lt (hg a u b t e1) (hp s a u h)

theorem Uses.right {p : Proc α} {g : α → Proc β} (hp : Keeps p) (hg : ∀ a, Uses (g a)) : Uses (p >>= g) := by
  intro s b t e
  obtain ⟨a, u, h, e1⟩ := bind_ok_split e
  exact Nat.lt_of_lt_of_le (hg a u b t e1) (hp s a u h)

theorem Keeps.bind {p : Proc α} {g : α → Proc β} (hp : Keeps p) (hg : ∀ a, Keeps (g a)) : Keeps (p >>= g) := by
  intro s b t e
  obtain ⟨a, u, h, e1⟩ := bind_ok_split e
  exact Nat.le_trans (hg a u b t e1) (hp s a u h)

theorem Keeps.get {g : State → Proc α} (h : ∀ s, Keeps (g s)) : Keeps (get >>= g) := fun s a t e => h s s a t e
theorem Uses.get {g : State → Proc α} (h : ∀ s, Uses (g s)) : Uses (get >>= g) := fun s a t e => h s s a t e

theorem Keeps.pure (a : α) : Keeps (Pure.pure a : Proc α) := by
  intro s b t e; cases e; exact Nat.le_refl _

theorem xfer_uses (b : Byte) : Uses (xfer b) := by
  intro s a t e
  unfold xfer at e
  split at e
  · cases e
  · rename_i i rest h; cases e; rw [h]; simp

theorem xferBlock_keeps (bs : List Byte) : Keeps (xferBlock bs) :=
  .of_within fun s => (xferBlock_ends (fun _ => True) true true bs s).within

theorem xferBlock_uses (b : Byte) (bs : List Byte) : Uses (xferBlock (b :: bs)) :=
  (xfer_uses b).left fun _ => (xferBlock_keeps bs).bind fun _ => .pure _

theorem beginFrame_keeps : Keeps beginFrame := .of_within fun s => (beginFrame_ends (fun _ => True) true true s).within

theorem memWrite_uses (a : U16) (v : Byte) : Uses (memWrite a v) :=
  .right beginFrame_keeps fun _ => (xferBlock_uses _ _).left fun _ => .pure _

theorem memRead_uses (a n : U16) : Uses (memRead a n) :=
  .right beginFrame_keeps fun _ => (xferBlock_uses _ _).left fun _ =>
    .of_within fun s => (dataIn_ends (fun _ => True) true true _ s).within

/-! ### Shared operations -/

theorem refuseIf_built (b : Bool) (r : RefuseReason) : Built P conn rom ram K (refuseIf b r) := by
  unfold refuseIf; split
  · exact .refuse r
  · exact .pure ()

theorem checkRange_built (v max : Nat) : Built P conn rom ram K (checkRange v max) := refuseIf_built _ _

theorem ctrlWrites_built (ws : List CtrlWrite) : Built P conn rom ram K (ctrlWrites ws) := by
  induction ws with
  | nil => exact .pure ()
  | cons w ws ih => exact .then (.memWrite _ _) fun _ => ih

theorem memRead1_built (a : U16) : Built P conn rom ram K (memRead1 a) := .then (.memRead _ _) fun _ => .pure _

/-! ### read, write, read_ec, write_ec -/

theorem rawRead_built (a n : Nat) (hn : conn = false → K .notConnected) : Built P conn rom ram K (rawRead a n) :=
  .then (.connected _ hn) fun _ => .then (checkRange_built _ _) fun _ => .then (checkRange_built _ _) fun _ =>
    .then (refuseIf_built _ _) fun _ => .memRead _ _

theorem rawWrite_built (a n : Nat) (hn : conn = false → K .notConnected) : Built P conn rom ram K (rawWrite a n) :=
  .then (.connected _ hn) fun _ => .then (checkRange_built _ _) fun _ => .then (checkRange_built _ _) fun _ => .memWrite _ _

/-- One round of `ecAttempts`. -/
def ecBody (r : EcRegs) : Proc (EcRegs ⊕ EcRegs) := do
  let d ← memRead (toU16 r.chunkAddr) (toU16 r.len)
  let r1 : EcRegs := { r with reads := r.reads + 1 }
  setEc r1
  let s ← get
  if ecAgrees s.cfg.chunkHash r.prev d then do
    let r2 : EcRegs := { r1 with out := r.out ++ d, off := r.off + r.len }
    setEc r2
    pure (.inr r2)
  else if ecLimitReached r1 then raise .readUnstable (.chunk r.chunkAddr r1.reads)
  else do
    let r3 : EcRegs := { r1 with prev := some d }
    setEc r3
    pure (.inl r3)

theorem raise_bind (k : ErrKind) (i : Info) (g : α → Proc β) : ((raise k i : Proc α) >>= g) = raise k i := rfl

theorem ecAttempts_eq (n : Nat) : ∀ r, ecAttempts n r = goLoop ecBody n r := by
  induction n with
  | zero => intro r; rfl
  | succ n ih =>
    intro r
    simp only [ecAttempts, goLoop, ecBody, bind_assoc]
    congr 1; funext d; congr 1; funext _; congr 1; funext s
    split
    · simp only [bind_assoc, pure_bind]
    · split
      · rfl
      · simp only [bind_assoc, pure_bind, ih]

theorem ecBody_built (limit : Option Nat) (hu : limit ≠ none → K .readUnstable) (r : EcRegs) (hr : r.limit = limit) :
    Built P conn rom ram K (ecBody r) := by
  unfold ecBody
  refine .then (.memRead _ _) fun d => .then (.setEc _) fun _ => .params (fun s t h => by rw [h]) fun s _ => ?_
  refine .ite (fun _ => .then (.setEc _) fun _ => .pure _) fun _ => .ite (fun h => .raise _ _ (hu ?_)) fun _ => .then (.setEc _) fun _ => .pure _
  rintro rfl
  simp [ecLimitReached, hr] at h

theorem ecBody_next {r r' : EcRegs} {s t : State} (e : ecBody r s = .ok (.inl r') t) :
    r'.limit = r.limit ∧ t.link.length < s.link.length := by
  unfold ecBody at e
  obtain ⟨d, u, h1, e1⟩ := bind_ok_split e
  have hl := memRead_uses _ _ s d u h1
  obtain ⟨_, u2, h2, e2⟩ := bind_ok_split e1
  cases h2
  obtain ⟨s', u3, h3, e3⟩ := bind_ok_split e2
  cases h3
  split at e3
  · obtain ⟨_, u4, h4, e4⟩ := bind_ok_split e3
    cases h4; cases e4
  · split at e3
    · cases e3
    · obtain ⟨_, u4, h4, e4⟩ := bind_ok_split e3
      cases h4; cases e4
      exact ⟨rfl, hl⟩

theorem ecBody_last {r r' : EcRegs} {s t : State} (e : ecBody r s = .ok (.inr r') t) : r'.limit = r.limit := by
  unfold ecBody at e
  obtain ⟨d, u, h1, e1⟩ := bind_ok_split e
  obtain ⟨_, u2, h2, e2⟩ := bind_ok_split e1
  obtain ⟨s', u3, h3, e3⟩ := bind_ok_split e2
  split at e3
  · obtain ⟨_, u4, h4, e4⟩ := bind_ok_split e3
    cases e4; rfl
  · split at e3
    · cases e3
    · obtain ⟨_, u4, h4, e4⟩ := bind_ok_split e3
      cases e4

theorem ecAttempts_limit {n : Nat} : ∀ {r r' : EcRegs} {s t : State}, goLoop ecBody n r s = .ok r' t → r'.limit = r.limit := by
  induction n with
  | zero => intro r r' s t e; cases e
  | succ n ih =>
    intro r r' s t e
    cases h : ecBody r s with
    | ok x u =>
      cases x with
      | inl z => rw [goLoop_inl h] at e; exact (ih e).trans (ecBody_next h).1
      | inr a => rw [goLoop_inr h] at e; cases e; exact ecBody_last h
    | error x u => rw [goLoop_error h] at e; cases e

theorem ecChunks_built (limit : Option Nat) (hu : limit ≠ none → K .readUnstable) (n : Nat) : ∀ r : EcRegs, r.limit = limit →
    Built P conn rom ram K (ecChunks n r) := by
  induction n with
  | zero => intro r _; exact .pure _
  | succ n ih =>
    intro r hr
    simp only [ecChunks, ecAttempts_eq]
    refine .ite (fun _ => .then (.setEc _) fun _ => .bind (.loop (fun y => y.limit = limit) ecBody _ hr
      (fun y hy => ecBody_built limit hu y hy) (fun y s z t hy e => ?_)) (fun a ha => ih a ?_)) fun _ => .pure _
    · have := ecBody_next e
      exact ⟨this.1.trans hy, this.2⟩
    · obtain ⟨s, t, e⟩ := ha
      exact (ecAttempts_limit e).trans hr

theorem readEc_built (a n : Nat) (limit : Option Nat) (hn : conn = false → K .notConnected) (hu : limit ≠ none → K .readUnstable) :
    Built P conn rom ram K (readEc a n limit) :=
  .then (.connected _ hn) fun _ => .then (checkRange_built _ _) fun _ => .then (checkRange_built _ _) fun _ =>
    .then (refuseIf_built _ _) fun _ => .then (.setEc _) fun _ => ecChunks_built limit hu _ _ rfl

theorem readEc1_built (a : Nat) (limit : Option Nat) (hn : conn = false → K .notConnected) (hu : limit ≠ none → K .readUnstable) :
    Built P conn rom ram K (readEc1 a limit) := .then (readEc_built a 1 limit hn hu) fun _ => .pure _

/-- One round of `weRounds`. -/
def weBody (m : Byte) (r : WeRegs) : Proc (WeRegs ⊕ Unit) := do
  let s ← get
  if weLimitReached s.cfg.writeEcLimit r.rounds then raise .deviceTimeout (.addr .writeEc r.addr)
  else do
    memWrite r.addr r.value
    let d ← memRead1 r.addr
    let r1 : WeRegs := { r with rounds := r.rounds + 1 }
    setWe r1
    if d &&& m = r.value &&& m then pure (.inr ()) else pure (.inl r1)

theorem weRounds_eq (m : Byte) (n : Nat) : ∀ r, weRounds m n r = goLoop (weBody m) n r := by
  induction n with
  | zero => intro r; rfl
  | succ n ih =>
    intro r
    simp only [weRounds, goLoop, weBody, bind_assoc]
    congr 1; funext s
    split
    · rfl
    · simp only [bind_assoc]
      congr 1; funext _; congr 1; funext d; congr 1; funext _
      split
      · rfl
      · simp only [pure_bind, ih]

theorem weLimit_some {l : Option Nat} {n : Nat} (h : weLimitReached l n = true) : l ≠ none := by
  rintro rfl; simp [weLimitReached] at h

theorem writeEc_built (a v : Nat) (m : Byte) (hn : conn = false → K .notConnected) (ht : P.writeEcLimit ≠ none → K .deviceTimeout) :
    Built P conn rom ram K (writeEc a v m) := by
  unfold writeEc
  simp only [weRounds_eq]
  refine .then (.connected _ hn) fun _ => .then (checkRange_built _ _) fun _ => .then (checkRange_built _ _) fun _ =>
    .then (.setWe _) fun _ => .loop (fun _ => True) (weBody m) _ trivial (fun r _ => ?_) (fun r s z t _ e => ⟨trivial, ?_⟩)
  · refine .params (fun s t h => by rw [h]) fun s hs => .ite (fun h => .raise _ _ (ht ?_)) fun _ =>
      .then (.memWrite _ _) fun _ => .then (memRead1_built _) fun _ => .then (.setWe _) fun _ => .ite (fun _ => .pure _) fun _ => .pure _
    rw [hs] at h; exact weLimit_some h
  · unfold weBody at e
    obtain ⟨s', u1, h1, e1⟩ := bind_ok_split e
    cases h1
    split at e1
    · cases e1
    · obtain ⟨_, u2, h2, e2⟩ := bind_ok_split e1
      have k : Keeps (do
          let d ← memRead1 r.addr
          let r1 : WeRegs := { r with rounds := r.rounds + 1 }
          setWe r1
          if d &&& m = r.value &&& m then pure (.inr ()) else pure (.inl r1) : Proc (WeRegs ⊕ Unit)) :=
        Built.keeps fun P conn => .then (memRead1_built _) fun _ => .then (.setWe _) fun _ => .ite (fun _ => .pure _) fun _ => .pure _
      exact Nat.lt_of_le_of_lt (k _ _ _ e2) (memWrite_uses _ _ _ _ _ h2)

/-! ### TAMA5 -/

theorem tama5UnlockLoop_built (limit : Option Nat) (hn : conn = false → K .notConnected) (hu : limit ≠ none → K .readUnstable)
    (hd : K .deviceTimeout) (left : Nat) : ∀ polls, Built P conn rom ram K (tama5UnlockLoop limit left polls) := by
  induction left with
  | zero => intro polls; exact .raise _ _ hd
  | succ left ih =>
    intro polls
    exact .params (fun s t h => by rw [h]) fun s _ => .then (.memWrite _ _) fun _ => .then (readEc1_built _ _ hn hu) fun _ =>
      .then (.setPoll _) fun _ => .ite (fun _ => .pure _) fun _ => ih _

theorem tama5Unlock_built (limit : Option Nat) (hn : conn = false → K .notConnected) (hu : limit ≠ none → K .readUnstable)
    (hd : K .deviceTimeout) : Built P conn rom ram K (tama5Unlock limit) :=
  .then (.setPoll _) fun _ => tama5UnlockLoop_built limit hn hu hd _ _

theorem tama5WriteReg_built (r nib : Nat) : Built P conn rom ram K (tama5WriteReg r nib) :=
  .then (refuseIf_built _ _) fun _ => .params (fun s t h => by rw [h]) fun _ _ => .then (.memWrite _ _) fun _ => .memWrite _ _

theorem tama5ReadReg_built (r : Nat) (limit : Option Nat) (hn : conn = false → K .notConnected) (hu : limit ≠ none → K .readUnstable) :
    Built P conn rom ram K (tama5ReadReg r limit) :=
  .then (checkRange_built _ _) fun _ => .params (fun s t h => by rw [h]) fun _ _ => .then (.memWrite _ _) fun _ =>
    .then (readEc1_built _ _ hn hu) fun _ => .pure _

theorem selectRomTama5_built (n : Nat) (hn : conn = false → K .notConnected) (hd : K .deviceTimeout) (hr : rom = true) :
    Built P conn rom ram K (selectRomTama5 n) :=
  .then (checkRange_built _ _) fun _ => .then (tama5Unlock_built none hn (fun h => absurd rfl h) hd) fun _ =>
    .params (fun s t h => by rw [h]) fun _ _ => .then (tama5WriteReg_built _ _) fun _ => .then (tama5WriteReg_built _ _) fun _ => .setRom n hr

theorem tama5RamRead_built (ta : Nat) (limit : Option Nat) (hn : conn = false → K .notConnected) (hu : limit ≠ none → K .readUnstable) :
    Built P conn rom ram K (tama5RamRead ta limit) :=
  .then (checkRange_built _ _) fun _ => .params (fun s t h => by rw [h]) fun _ _ => .then (tama5WriteReg_built _ _) fun _ =>
    .then (tama5WriteReg_built _ _) fun _ => .then (tama5ReadReg_built _ _ hn hu) fun _ => .then (tama5ReadReg_built _ _ hn hu) fun _ => .pure _

theorem tama5RamWrite_built (ta v : Nat) : Built P conn rom ram K (tama5RamWrite ta v) :=
  .then (refuseIf_built _ _) fun _ => .params (fun s t h => by rw [h]) fun _ _ => .then (tama5WriteReg_built _ _) fun _ =>
    .then (tama5WriteReg_built _ _) fun _ => .then (tama5WriteReg_built _ _) fun _ => tama5WriteReg_built _ _

/-! ### Bank selection and RAM enable -/

theorem selectRomBank_built (v : Variant) (n : Nat) (hn : conn = false → K .notConnected) (hd : v = .tama5 → K .deviceTimeout)
    (hr : rom = true) (hm : v = .mbc1 → ram = true) : Built P conn rom ram K (selectRomBank v n) := by
  have std : Built P conn rom ram K (selectRomStd n) :=
    .then (checkRange_built _ _) fun _ => .then (.memWrite _ _) fun _ => .setRom n hr
  cases v with
  | base => exact .then (checkRange_built _ _) fun _ => .setRom n hr
  | mbc1 =>
    exact .then (checkRange_built _ _) fun _ => .params (fun s t h => by rw [h]) fun _ _ => .then (.memWrite _ _) fun _ =>
      .then (.memWrite _ _) fun _ => .then (.memWrite _ _) fun _ => .then (.setRom n hr) fun _ => .setRam _ (hm rfl)
  | mbc2 => exact std
  | mbc3 => exact std
  | mbc5 =>
    exact .then (checkRange_built _ _) fun _ => .then (.memWrite _ _) fun _ => .then (.memWrite _ _) fun _ => .setRom n hr
  | mbc6 =>
    exact .then (checkRange_built _ _) fun _ => .params (fun s t h => by rw [h]) fun _ _ => .then (.memWrite _ _) fun _ => .setRom n hr
  | mbc7 => exact std
  | camera => exact std
  | tama5 => exact selectRomTama5_built n hn (hd rfl) hr

theorem selectRamBank_built (v : Variant) (n : Nat) (hr : ram = true) : Built P conn rom ram K (selectRamBank v n) := by
  have std : Built P conn rom ram K (selectRamStd n) :=
    .then (checkRange_built _ _) fun _ => .then (.memWrite _ _) fun _ => .setRam n hr
  have none : Built P conn rom ram K (selectRamNone n) := .then (checkRange_built _ _) fun _ => .setRam n hr
  cases v with
  | mbc1 =>
    exact .then (checkRange_built _ _) fun _ => .params (fun s t h => by rw [h]) fun _ _ => .then (.memWrite _ _) fun _ =>
      .then (.memWrite _ _) fun _ => .setRam n hr
  | mbc6 =>
    exact .then (checkRange_built _ _) fun _ => .params (fun s t h => by rw [h]) fun _ _ => .then (.memWrite _ _) fun _ => .setRam n hr
  | mbc2 => exact none
  | tama5 => exact none
  | base => exact std
  | mbc3 => exact std
  | mbc5 => exact std
  | mbc7 => exact std
  | camera => exact std

theorem enableRam_built (v : Variant) (hr : v = .mbc7 → ram = true) : Built P conn rom ram K (enableRam v) :=
  .params (fun s t h => by rw [h]) fun _ _ => .then (ctrlWrites_built _) fun _ => .ite (fun h => .setRam _ (hr h)) fun _ => .pure _

/-! ### EEPROM -/

theorem eeShiftIn_built (b : Bool) : Built P conn rom ram K (eeShiftIn b) :=
  .params (fun s t h => by rw [h]) fun _ _ => .then (.memWrite _ _) fun _ => .memWrite _ _

theorem eeShiftIn_uses (b : Bool) : Uses (eeShiftIn b) :=
  .get fun _ => (memWrite_uses _ _).left fun _ s a t e => Nat.le_of_lt (memWrite_uses _ _ s a t e)

theorem eeShiftInout_built (b : Bool) : Built P conn rom ram K (eeShiftInout b) :=
  .then (eeShiftIn_built b) fun _ => .params (fun s t h => by rw [h]) fun _ _ => .then (memRead1_built _) fun _ => .pure _

theorem eeSendLoop_built (w : U16) (bs : List Bool) : ∀ n, Built P conn rom ram K (eeSendLoop w bs n) := by
  induction bs with
  | nil => intro n; exact .pure _
  | cons b bs ih => intro n; exact .then (eeShiftIn_built b) fun _ => .then (.setEe _) fun _ => ih _

theorem eeSendBits_built (v n : Nat) : Built P conn rom ram K (eeSendBits v n) :=
  .then (.setEe _) fun _ => eeSendLoop_built _ _ _

theorem eeRecvLoop_built (n : Nat) : ∀ r, Built P conn rom ram K (eeRecvLoop n r) := by
  induction n with
  | zero => intro r; exact .pure _
  | succ n ih => intro r; exact .then (eeShiftInout_built _) fun _ => .then (.setEe _) fun _ => ih _

theorem eeInitSteps_built (st : List EeInitStep) : Built P conn rom ram K (eeInitSteps st) := by
  induction st with
  | nil => exact .pure _
  | cons x st ih =>
    cases x with
    | write w => exact .then (.memWrite _ _) fun _ => ih
    | shift b => exact .then (eeShiftIn_built b) fun _ => ih

theorem eeStart_built : Built P conn rom ram K eeStart := .params (fun s t h => by rw [h]) fun _ _ => eeInitSteps_built _

theorem eeCommand_built (c : BitVec 2) (f : Byte) : Built P conn rom ram K (eeCommand c f) :=
  .then eeStart_built fun _ => .then (eeSendBits_built _ _) fun _ => eeSendBits_built _ _

theorem eepromWaitLoop_built (hd : K .deviceTimeout) (left : Nat) : ∀ n, Built P conn rom ram K (eepromWaitLoop left n) := by
  induction left with
  | zero => intro n; exact .raise _ _ hd
  | succ left ih =>
    intro n; exact .then (eeShiftInout_built _) fun _ => .then (.setPoll _) fun _ => .ite (fun _ => .pure _) fun _ => ih _

theorem eepromWait_built (hd : K .deviceTimeout) : Built P conn rom ram K eepromWait :=
  .params (fun s t h => by rw [h]) fun _ _ => .then (ctrlWrites_built _) fun _ => .then (.setPoll _) fun _ => eepromWaitLoop_built hd _ _

theorem eepromRead_built (a : Nat) : Built P conn rom ram K (eepromRead a) :=
  .then (checkRange_built _ _) fun _ => .params (fun s t h => by rw [h]) fun _ _ => .then (eeCommand_built _ _) fun _ =>
    .then (.setEe _) fun _ => eeRecvLoop_built _ _

theorem eepromWrite_built (a w : Nat) (hd : K .deviceTimeout) : Built P conn rom ram K (eepromWrite a w) :=
  .then (refuseIf_built _ _) fun _ => .params (fun s t h => by rw [h]) fun _ _ => .then (eeCommand_built _ _) fun _ =>
    .then (eeSendBits_built _ _) fun _ => eepromWait_built hd

theorem eepromErase_built (a : Nat) (hd : K .deviceTimeout) : Built P conn rom ram K (eepromErase a) :=
  .then (checkRange_built _ _) fun _ => .params (fun s t h => by rw [h]) fun _ _ => .then (eeCommand_built _ _) fun _ => eepromWait_built hd

theorem eepromEwen_built : Built P conn rom ram K eepromEwen := .params (fun s t h => by rw [h]) fun _ _ => eeCommand_built _ _
theorem eepromEwds_built : Built P conn rom ram K eepromEwds := .params (fun s t h => by rw [h]) fun _ _ => eeCommand_built _ _
theorem eepromEral_built (hd : K .deviceTimeout) : Built P conn rom ram K eepromEral :=
  .params (fun s t h => by rw [h]) fun _ _ => .then (eeCommand_built _ _) fun _ => eepromWait_built hd
theorem eepromWral_built (w : Nat) (hd : K .deviceTimeout) : Built P conn rom ram K (eepromWral w) :=
  .then (checkRange_built _ _) fun _ => .params (fun s t h => by rw [h]) fun _ _ => .then (eeCommand_built _ _) fun _ =>
    .then (eeSendBits_built _ _) fun _ => eepromWait_built hd

theorem sampleAccel_built (limit : Option Nat) (hn : conn = false → K .notConnected) (hu : limit ≠ none → K .readUnstable) :
    Built P conn rom ram K (sampleAccel limit) :=
  .params (fun s t h => by rw [h]) fun _ _ => .then (.memWrite _ _) fun _ => .then (.memWrite _ _) fun _ =>
    .then (readEc1_built _ _ hn hu) fun _ => .then (readEc1_built _ _ hn hu) fun _ => .then (readEc1_built _ _ hn hu) fun _ =>
    .then (readEc1_built _ _ hn hu) fun _ => .pure _

/-! ### RTC and camera -/

theorem latchRtc_built : Built P conn rom ram K latchRtc := .then (.memWrite _ _) fun _ => .memWrite _ _

theorem readRtc_built (r : Nat) (limit : Option Nat) (hn : conn = false → K .notConnected) (hu : limit ≠ none → K .readUnstable)
    (hr : ram = true) : Built P conn rom ram K (readRtc r limit) :=
  .then (checkRange_built _ _) fun _ => .then (selectRamBank_built .mbc3 _ hr) fun _ => readEc1_built _ _ hn hu

theorem cameraPollLoop_built (limit : Option Nat) (hn : conn = false → K .notConnected) (hu : limit ≠ none → K .readUnstable)
    (hd : K .deviceTimeout) (left : Nat) : ∀ n, Built P conn rom ram K (cameraPollLoop limit left n) := by
  induction left with
  | zero => intro n; exact .raise _ _ hd
  | succ left ih =>
    intro n
    exact .then (readEc1_built _ _ hn hu) fun _ => .then (.setPoll _) fun _ => .ite (fun _ => .pure _) fun _ => ih _

theorem takePhoto_built (limit : Option Nat) (hn : conn = false → K .notConnected) (hu : limit ≠ none → K .readUnstable)
    (hd : K .deviceTimeout) (hr : ram = true) : Built P conn rom ram K (takePhoto limit) :=
  .then (.memWrite _ _) fun _ => .then (.setRam _ hr) fun _ => .params (fun s t h => by rw [h]) fun _ _ =>
    .then (.memWrite _ _) fun _ => .then (.setPoll _) fun _ => cameraPollLoop_built limit hn hu hd _ _

/-! ### Dumps and restores -/

theorem emitProgress_built (p : Bool) (k : Nat) (b : List Byte) : Built P conn rom ram K (emitProgress p k b) :=
  .ite (fun _ => .report k b) fun _ => .pure _

theorem dumpBanks_built (select : Nat → Proc Unit) (window : Nat → Nat) (size : Nat) (p : Bool) (limit : Option Nat)
    (hs : ∀ k, Built P conn rom ram K (select k)) (hn : conn = false → K .notConnected) (hu : limit ≠ none → K .readUnstable)
    (ks : List Nat) : Built P conn rom ram K (dumpBanks select window size p limit ks) := by
  induction ks with
  | nil => exact .pure _
  | cons k ks ih =>
    exact .then (hs k) fun _ => .then (readEc_built _ _ _ hn hu) fun _ => .then (emitProgress_built _ _ _) fun _ =>
      .then ih fun _ => .pure _

theorem dumpRom_built (v : Variant) (window : Nat → Nat) (count : Nat) (p : Bool) (limit : Option Nat)
    (hn : conn = false → K .notConnected) (hu : limit ≠ none → K .readUnstable) (hd : v = .tama5 → K .deviceTimeout)
    (hr : rom = true) (hm : v = .mbc1 → ram = true) : Built P conn rom ram K (dumpRom v window count p limit) :=
  .then (readEc_built _ _ _ hn hu) fun _ => .then (emitProgress_built _ _ _) fun _ =>
    .then (dumpBanks_built _ _ _ _ _ (fun k => selectRomBank_built v k hn hd hr hm) hn hu _) fun _ => .pure _

theorem dumpRomMbc6_built (count : Nat) (p : Bool) (limit : Option Nat) (hn : conn = false → K .notConnected)
    (hu : limit ≠ none → K .readUnstable) (hr : rom = true) : Built P conn rom ram K (dumpRomMbc6 count p limit) :=
  .params (fun s t h => by rw [h]) fun _ _ => dumpBanks_built _ _ _ _ _
    (fun k => selectRomBank_built .mbc6 k hn (fun h => by cases h) hr (fun h => by cases h)) hn hu _

theorem selectRamForWindow_built (v : Variant) (per i : Nat) (hr : ram = true) :
    Built P conn rom ram K (selectRamForWindow v per i) :=
  .ite (fun _ => selectRamBank_built v _ hr) fun _ => .pure _

theorem dumpWindows_built (v : Variant) (per : Nat) (limit : Option Nat) (hn : conn = false → K .notConnected)
    (hu : limit ≠ none → K .readUnstable) (hr : ram = true) (is : List Nat) : Built P conn rom ram K (dumpWindows v per limit is) := by
  induction is with
  | nil => exact .pure _
  | cons i is ih =>
    exact .then (selectRamForWindow_built v per i hr) fun _ => .then (readEc_built _ _ _ hn hu) fun _ => .then ih fun _ => .pure _

theorem dumpRamStd_built (v : Variant) (size : Nat) (limit : Option Nat) (hn : conn = false → K .notConnected)
    (hu : limit ≠ none → K .readUnstable) (hr : ram = true) : Built P conn rom ram K (dumpRamStd v size limit) :=
  .ite (fun _ => .pure _) fun _ => .then (enableRam_built v fun _ => hr) fun _ => .params (fun s t h => by rw [h]) fun _ _ =>
    dumpWindows_built v _ limit hn hu hr _

theorem dumpRamMbc2_built (limit : Option Nat) (hn : conn = false → K .notConnected) (hu : limit ≠ none → K .readUnstable) :
    Built P conn rom ram K (dumpRamMbc2 limit) :=
  .then (enableRam_built _ fun h => by cases h) fun _ => .then (readEc_built _ _ _ hn hu) fun _ => .pure _

theorem dumpWords_built (as : List Nat) : Built P conn rom ram K (dumpWords as) := by
  induction as with
  | nil => exact .pure _
  | cons a as ih => exact .then (eepromRead_built a) fun _ => .then ih fun _ => .pure _

theorem dumpRamMbc7_built (hr : ram = true) : Built P conn rom ram K dumpRamMbc7 :=
  .then (enableRam_built _ fun _ => hr) fun _ => dumpWords_built _

theorem dumpNibbles_built (limit : Option Nat) (hn : conn = false → K .notConnected) (hu : limit ≠ none → K .readUnstable)
    (as : List Nat) : Built P conn rom ram K (dumpNibbles limit as) := by
  induction as with
  | nil => exact .pure _
  | cons a as ih => exact .then (tama5RamRead_built a limit hn hu) fun _ => .then ih fun _ => .pure _

theorem dumpRamTama5_built (limit : Option Nat) (hn : conn = false → K .notConnected) (hu : limit ≠ none → K .readUnstable)
    (hd : K .deviceTimeout) : Built P conn rom ram K (dumpRamTama5 limit) :=
  .then (enableRam_built _ fun h => by cases h) fun _ => .then (tama5Unlock_built limit hn hu hd) fun _ => dumpNibbles_built limit hn hu _

theorem restoreBytes_built (hn : conn = false → K .notConnected) (ht : P.writeEcLimit ≠ none → K .deviceTimeout) (bs : List Byte) :
    ∀ a, Built P conn rom ram K (restoreBytes a bs) := by
  induction bs with
  | nil => intro a; exact .pure _
  | cons b bs ih => intro a; exact .then (writeEc_built _ _ _ hn ht) fun _ => ih _

theorem restoreWindows_built (v : Variant) (per : Nat) (image : List Byte) (hn : conn = false → K .notConnected)
    (ht : P.writeEcLimit ≠ none → K .deviceTimeout) (hr : ram = true) (is : List Nat) :
    Built P conn rom ram K (restoreWindows v per image is) := by
  induction is with
  | nil => exact .pure _
  | cons i is ih => exact .then (selectRamForWindow_built v per i hr) fun _ => .then (restoreBytes_built hn ht _ _) fun _ => ih

theorem restoreRamStd_built (v : Variant) (size : Nat) (image : List Byte) (hn : conn = false → K .notConnected)
    (ht : P.writeEcLimit ≠ none → K .deviceTimeout) (hr : ram = true) : Built P conn rom ram K (restoreRamStd v size image) :=
  .then (refuseIf_built _ _) fun _ => .ite (fun _ => .pure _) fun _ => .then (enableRam_built v fun _ => hr) fun _ =>
    .params (fun s t h => by rw [h]) fun _ _ => restoreWindows_built v _ image hn ht hr _

theorem restoreCells_built (hn : conn = false → K .notConnected) (ht : P.writeEcLimit ≠ none → K .deviceTimeout) (bs : List Byte) :
    ∀ a, Built P conn rom ram K (restoreCells a bs) := by
  induction bs with
  | nil => intro a; exact .pure _
  | cons b bs ih => intro a; exact .then (writeEc_built _ _ _ hn ht) fun _ => .then (writeEc_built _ _ _ hn ht) fun _ => ih _

theorem restoreRamMbc2_built (image : List Byte) (hn : conn = false → K .notConnected)
    (ht : P.writeEcLimit ≠ none → K .deviceTimeout) : Built P conn rom ram K (restoreRamMbc2 image) :=
  .then (refuseIf_built _ _) fun _ => .then (enableRam_built _ fun h => by cases h) fun _ => restoreCells_built hn ht _ _

/-- One round of `verifyRounds`. -/
def verifyBody (cell : Nat) (put : Proc Unit) (check : Proc Bool) (r : WeRegs) : Proc (WeRegs ⊕ Unit) := do
  let s ← get
  if weLimitReached s.cfg.writeEcLimit r.rounds then raise .deviceTimeout (.cell .restoreRam cell)
  else do
    put
    let landed ← check
    let r1 : WeRegs := { r with rounds := r.rounds + 1 }
    setWe r1
    if landed then pure (.inr ()) else pure (.inl r1)

theorem verifyRounds_eq (cell : Nat) (put : Proc Unit) (check : Proc Bool) (n : Nat) : ∀ r,
    verifyRounds cell put check n r = goLoop (verifyBody cell put check) n r := by
  induction n with
  | zero => intro r; rfl
  | succ n ih =>
    intro r
    simp only [verifyRounds, goLoop, verifyBody, bind_assoc]
    congr 1; funext s
    split
    · rfl
    · simp only [bind_assoc]
      congr 1; funext _; congr 1; funext landed; congr 1; funext _
      cases landed
      · simp only [Bool.false_eq_true, if_false, pure_bind, ih]
      · simp only [if_true, pure_bind]

theorem verifyUnit_built (cell : Nat) (put : Proc Unit) (check : Proc Bool) (hp : Built P conn rom ram K put)
    (hc : Built P conn rom ram K check) (hput : Uses put) (hcheck : Keeps check) (ht : P.writeEcLimit ≠ none → K .deviceTimeout) :
    Built P conn rom ram K (verifyUnit cell put check) := by
  unfold verifyUnit
  simp only [verifyRounds_eq]
  refine .then (.setWe _) fun _ => .loop (fun _ => True) _ _ trivial (fun r _ => ?_) (fun r s z t _ e => ⟨trivial, ?_⟩)
  · refine .params (fun s t h => by rw [h]) fun s hs => .ite (fun h => .raise _ _ (ht ?_)) fun _ =>
      .then hp fun _ => .then hc fun _ => .then (.setWe _) fun _ => .ite (fun _ => .pure _) fun _ => .pure _
    rw [hs] at h; exact weLimit_some h
  · unfold verifyBody at e
    obtain ⟨s', u1, h1, e1⟩ := bind_ok_split e
    cases h1
    split at e1
    · cases e1
    · obtain ⟨_, u2, h2, e2⟩ := bind_ok_split e1
      obtain ⟨b, u3, h3, e3⟩ := bind_ok_split e2
      obtain ⟨_, u4, h4, e4⟩ := bind_ok_split e3
      have : t.link = u4.link := by
        split at e4 <;> cases e4
        rfl
      have h5 : u4.link = u3.link := by cases h4; rfl
      rw [this, h5]
      exact Nat.lt_of_le_of_lt (hcheck _ _ _ h3) (hput _ _ _ h2)

theorem eepromWrite_uses (a w : Nat) : Uses (eepromWrite a w) :=
  .right (Built.keeps fun _ _ => refuseIf_built _ _) fun _ => .get fun s => .left
    (.right (Built.keeps fun _ _ => eeStart_built) fun _ => .left
      (.right (Built.keeps fun _ _ => .setEe _) fun _ => by
        simp only [msbFirst, eeSendLoop]
        exact (eeShiftIn_uses _).left fun _ => Built.keeps fun _ _ => .then (.setEe _) fun _ => .then (eeShiftIn_built _) fun _ =>
          .then (.setEe _) fun _ => .pure _)
      fun _ => Built.keeps fun _ _ => eeSendBits_built _ _)
    fun _ => Built.keeps fun _ _ => .then (eeSendBits_built _ _) fun _ => eepromWait_built trivial

theorem restoreWords_built (image : List Byte) (hd : K .deviceTimeout) (as : List Nat) : Built P conn rom ram K (restoreWords image as) := by
  induction as with
  | nil => exact .pure _
  | cons a as ih =>
    refine .then (verifyUnit_built _ _ _ (eepromWrite_built _ _ hd) (.then (eepromRead_built a) fun _ => .pure _)
      (eepromWrite_uses _ _) (Built.keeps fun _ _ => .then (eepromRead_built a) fun _ => .pure _) fun _ => hd) fun _ => ih

theorem restoreRamMbc7_built (image : List Byte) (hd : K .deviceTimeout) (hr : ram = true) :
    Built P conn rom ram K (restoreRamMbc7 image) :=
  .then (refuseIf_built _ _) fun _ => .then (enableRam_built _ fun _ => hr) fun _ => .then eepromEwen_built fun _ =>
    .then (restoreWords_built image hd _) fun _ => eepromEwds_built

theorem tama5WriteReg_uses (r nib : Nat) : Uses (tama5WriteReg r nib) :=
  .right (Built.keeps fun _ _ => refuseIf_built _ _) fun _ => .get fun _ => (memWrite_uses _ _).left fun _ =>
    Built.keeps fun _ _ => .memWrite _ _

theorem tama5RamWrite_uses (ta v : Nat) : Uses (tama5RamWrite ta v) :=
  .right (Built.keeps fun _ _ => refuseIf_built _ _) fun _ => .get fun _ => (tama5WriteReg_uses _ _).left fun _ =>
    Built.keeps fun _ _ => .then (tama5WriteReg_built _ _) fun _ => .then (tama5WriteReg_built _ _) fun _ => tama5WriteReg_built _ _

theorem restoreNibbles_built (image : List Byte) (hn : conn = false → K .notConnected)
    (ht : P.writeEcLimit ≠ none → K .deviceTimeout) (as : List Nat) : Built P conn rom ram K (restoreNibbles image as) := by
  induction as with
  | nil => exact .pure _
  | cons a as ih =>
    exact .then (verifyUnit_built _ _ _ (tama5RamWrite_built _ _)
      (.then (tama5RamRead_built a none hn (fun h => absurd rfl h)) fun _ => .pure _) (tama5RamWrite_uses _ _)
      (Built.keeps fun _ _ => .then (tama5RamRead_built a none (fun _ => trivial) (fun _ => trivial)) fun _ => .pure _) ht) fun _ => ih

theorem restoreRamTama5_built (image : List Byte) (hn : conn = false → K .notConnected)
    (hd : K .deviceTimeout) : Built P conn rom ram K (restoreRamTama5 image) :=
  .then (refuseIf_built _ _) fun _ => .then (enableRam_built _ fun h => by cases h) fun _ =>
    .then (tama5Unlock_built none hn (fun h => absurd rfl h) hd) fun _ => restoreNibbles_built image hn (fun _ => hd) _

/-! ### The handshake -/

theorem handshakeLoop_built (ph : HsPhase) (n : Nat) (magic : Byte) (hn : K .notConnected) (left : Nat) : ∀ attempts,
    Built P conn rom ram K (handshakeLoop ph n magic left attempts) := by
  induction left with
  | zero => intro a; exact .raise _ _ hn
  | succ left ih => intro a; exact .then .probe fun _ => .then (.setHs _) fun _ => .ite (fun _ => .pure _) fun _ => ih _

theorem handshake_built (ph : HsPhase) (n : Nat) (magic : Byte) (hn : K .notConnected) : Built P conn rom ram K (handshake ph n magic) :=
  .then (.setHs _) fun _ => handshakeLoop_built ph n magic hn _ _

end Sys2Proof.Machine
end

