-- ==== Sys2Proof/Laws/Exec.lean ====
section
/-!
SUPPORT. Every instruction as one body in `runOp`, and what every body does: it is built from the steps of Laws/Built.lean, behind
the checks of its kind. `connect` and `detect`, which write the session registers, stand apart.
-/

namespace Sys2Proof.Machine

/-- The body of an instruction. -/
def bodyOf (i : Instr) : Proc Value :=
  match i with
  | .hsProbe => (do return .byte (← probe))
  | .readFrame addr len => (do
        refuseIf (decide (0x10000 < addr.toNat + len.toNat)) .rangeOverflow
        return .bytes (← memRead addr len))
  | .writeFrame addr value => (do memWrite addr value; return .unit)
  | .eeRead a => (do return .word (← eepromRead a.toNat))
  | .eeWrite a data => (do eepromWrite a.toNat data.toNat; return .unit)
  | .eeErase a => (do eepromErase a.toNat; return .unit)
  | .eeEwen => (do eepromEwen; return .unit)
  | .eeEwds => (do eepromEwds; return .unit)
  | .eeEral => (do eepromEral; return .unit)
  | .eeWral data => (do eepromWral data.toNat; return .unit)
  | .connect => connect
  | .read addr length => (do return .bytes (← rawRead addr length))
  | .write addr value => (do rawWrite addr value; return .unit)
  | .readEc addr size retryLimit => (do return .bytes (← readEc addr size retryLimit))
  | .writeEc addr value => (do writeEc addr value 0xFF; return .unit)
  | .detect => detect
  | .selectRomBankBase n => (withController .base .selectRomBank fun _ => do selectRomBank .base n; return .unit)
  | .selectRomBankMbc1 n => (withController .mbc1 .selectRomBank fun _ => do selectRomBank .mbc1 n; return .unit)
  | .selectRomBankMbc2 n => (withController .mbc2 .selectRomBank fun _ => do selectRomBank .mbc2 n; return .unit)
  | .selectRomBankMbc3 n => (withController .mbc3 .selectRomBank fun _ => do selectRomBank .mbc3 n; return .unit)
  | .selectRomBankMbc5 n => (withController .mbc5 .selectRomBank fun _ => do selectRomBank .mbc5 n; return .unit)
  | .selectRomBankMbc6 n => (withController .mbc6 .selectRomBank fun _ => do selectRomBank .mbc6 n; return .unit)
  | .selectRomBankMbc7 n => (withController .mbc7 .selectRomBank fun _ => do selectRomBank .mbc7 n; return .unit)
  | .selectRomBankCamera n => (withController .camera .selectRomBank fun _ => do selectRomBank .camera n; return .unit)
  | .selectRomBankTama5 n => (withController .tama5 .selectRomBank fun _ => do selectRomBank .tama5 n; return .unit)
  | .selectRamBankBase n => (withController .base .selectRamBank fun _ => do selectRamBank .base n; return .unit)
  | .selectRamBankMbc1 n => (withController .mbc1 .selectRamBank fun _ => do selectRamBank .mbc1 n; return .unit)
  | .selectRamBankMbc2 n => (withController .mbc2 .selectRamBank fun _ => do selectRamBank .mbc2 n; return .unit)
  | .selectRamBankMbc3 n => (withController .mbc3 .selectRamBank fun _ => do selectRamBank .mbc3 n; return .unit)
  | .selectRamBankMbc5 n => (withController .mbc5 .selectRamBank fun _ => do selectRamBank .mbc5 n; return .unit)
  | .selectRamBankMbc6 n => (withController .mbc6 .selectRamBank fun _ => do selectRamBank .mbc6 n; return .unit)
  | .selectRamBankMbc7 n => (withController .mbc7 .selectRamBank fun _ => do selectRamBank .mbc7 n; return .unit)
  | .selectRamBankCamera n => (withController .camera .selectRamBank fun _ => do selectRamBank .camera n; return .unit)
  | .selectRamBankTama5 n => (withController .tama5 .selectRamBank fun _ => do selectRamBank .tama5 n; return .unit)
  | .enableRamBase => (withController .base .enableRam fun _ => do enableRam .base; return .unit)
  | .enableRamMbc1 => (withController .mbc1 .enableRam fun _ => do enableRam .mbc1; return .unit)
  | .enableRamMbc2 => (withController .mbc2 .enableRam fun _ => do enableRam .mbc2; return .unit)
  | .enableRamMbc3 => (withController .mbc3 .enableRam fun _ => do enableRam .mbc3; return .unit)
  | .enableRamMbc5 => (withController .mbc5 .enableRam fun _ => do enableRam .mbc5; return .unit)
  | .enableRamMbc6 => (withController .mbc6 .enableRam fun _ => do enableRam .mbc6; return .unit)
  | .enableRamMbc7 => (withController .mbc7 .enableRam fun _ => do enableRam .mbc7; return .unit)
  | .enableRamCamera => (withController .camera .enableRam fun _ => do enableRam .camera; return .unit)
  | .enableRamTama5 => (withController .tama5 .enableRam fun _ => do enableRam .tama5; return .unit)
  | .dumpRomBase progress retryLimit => (withController .base .dumpRom fun c => do return .bytes (← dumpRom .base stdWindow c.romBankCount.toNat progress retryLimit))
  | .dumpRomMbc1 progress retryLimit => (withController .mbc1 .dumpRom fun c => do return .bytes (← dumpRom .mbc1 mbc1Window c.romBankCount.toNat progress retryLimit))
  | .dumpRomMbc2 progress retryLimit => (withController .mbc2 .dumpRom fun c => do return .bytes (← dumpRom .mbc2 stdWindow c.romBankCount.toNat progress retryLimit))
  | .dumpRomMbc3 progress retryLimit => (withController .mbc3 .dumpRom fun c => do return .bytes (← dumpRom .mbc3 stdWindow c.romBankCount.toNat progress retryLimit))
  | .dumpRomMbc5 progress retryLimit => (withController .mbc5 .dumpRom fun c => do return .bytes (← dumpRom .mbc5 stdWindow c.romBankCount.toNat progress retryLimit))
  | .dumpRomMbc6 progress retryLimit => (withController .mbc6 .dumpRom fun c => do return .bytes (← dumpRomMbc6 c.romBankCount.toNat progress retryLimit))
  | .dumpRomMbc7 progress retryLimit => (withController .mbc7 .dumpRom fun c => do return .bytes (← dumpRom .mbc7 stdWindow c.romBankCount.toNat progress retryLimit))
  | .dumpRomCamera progress retryLimit => (withController .camera .dumpRom fun c => do return .bytes (← dumpRom .camera stdWindow c.romBankCount.toNat progress retryLimit))
  | .dumpRomTama5 progress retryLimit => (withController .tama5 .dumpRom fun c => do return .bytes (← dumpRom .tama5 stdWindow c.romBankCount.toNat progress retryLimit))
  | .dumpRamBase retryLimit => (withController .base .dumpRam fun c => do return .bytes (← dumpRamStd .base c.ramSizeBytes.toNat retryLimit))
  | .dumpRamMbc1 retryLimit => (withController .mbc1 .dumpRam fun c => do return .bytes (← dumpRamStd .mbc1 c.ramSizeBytes.toNat retryLimit))
  | .dumpRamMbc2 retryLimit => (withController .mbc2 .dumpRam fun _ => do return .bytes (← dumpRamMbc2 retryLimit))
  | .dumpRamMbc3 retryLimit => (withController .mbc3 .dumpRam fun c => do return .bytes (← dumpRamStd .mbc3 c.ramSizeBytes.toNat retryLimit))
  | .dumpRamMbc5 retryLimit => (withController .mbc5 .dumpRam fun c => do return .bytes (← dumpRamStd .mbc5 c.ramSizeBytes.toNat retryLimit))
  | .dumpRamMbc6 retryLimit => (withController .mbc6 .dumpRam fun c => do return .bytes (← dumpRamStd .mbc6 c.ramSizeBytes.toNat retryLimit))
  | .dumpRamMbc7 _ => (withController .mbc7 .dumpRam fun _ => do return .bytes (← dumpRamMbc7))
  | .dumpRamCamera retryLimit => (withController .camera .dumpRam fun c => do return .bytes (← dumpRamStd .camera c.ramSizeBytes.toNat retryLimit))
  | .dumpRamTama5 retryLimit => (withController .tama5 .dumpRam fun _ => do return .bytes (← dumpRamTama5 retryLimit))
  | .restoreRamBase image => (withController .base .restoreRam fun c => do restoreRamStd .base c.ramSizeBytes.toNat image; return .unit)
  | .restoreRamMbc1 image => (withController .mbc1 .restoreRam fun c => do restoreRamStd .mbc1 c.ramSizeBytes.toNat image; return .unit)
  | .restoreRamMbc2 image => (withController .mbc2 .restoreRam fun _ => do restoreRamMbc2 image; return .unit)
  | .restoreRamMbc3 image => (withController .mbc3 .restoreRam fun c => do restoreRamStd .mbc3 c.ramSizeBytes.toNat image; return .unit)
  | .restoreRamMbc5 image => (withController .mbc5 .restoreRam fun c => do restoreRamStd .mbc5 c.ramSizeBytes.toNat image; return .unit)
  | .restoreRamMbc6 image => (withController .mbc6 .restoreRam fun c => do restoreRamStd .mbc6 c.ramSizeBytes.toNat image; return .unit)
  | .restoreRamMbc7 image => (withController .mbc7 .restoreRam fun _ => do restoreRamMbc7 image; return .unit)
  | .restoreRamCamera image => (withController .camera .restoreRam fun c => do restoreRamStd .camera c.ramSizeBytes.toNat image; return .unit)
  | .restoreRamTama5 image => (withController .tama5 .restoreRam fun _ => do restoreRamTama5 image; return .unit)
  | .latchRtc => (withController .mbc3 .latchRtc fun _ => do latchRtc; return .unit)
  | .readRtc reg retryLimit => (withController .mbc3 .readRtc fun _ => do return .byte (← readRtc reg retryLimit))
  | .eepromShiftIn bit => (withController .mbc7 .eepromShiftIn fun _ => do
        checkRange bit 1
        eeShiftIn (decide (bit = 1))
        return .unit)
  | .eepromShiftInout bit => (withController .mbc7 .eepromShiftInout fun _ => do
        checkRange bit 1
        let b ← eeShiftInout (decide (bit = 1))
        return .byte (if b then 1 else 0))
  | .eepromRead eeAddr => (withController .mbc7 .eepromRead fun _ => do return .word (← eepromRead eeAddr))
  | .eepromWrite eeAddr word => (withController .mbc7 .eepromWrite fun _ => do eepromWrite eeAddr word; return .unit)
  | .eepromErase eeAddr => (withController .mbc7 .eepromErase fun _ => do eepromErase eeAddr; return .unit)
  | .eepromEwen => (withController .mbc7 .eepromEwen fun _ => do eepromEwen; return .unit)
  | .eepromEwds => (withController .mbc7 .eepromEwds fun _ => do eepromEwds; return .unit)
  | .eepromEral => (withController .mbc7 .eepromEral fun _ => do eepromEral; return .unit)
  | .eepromWral word => (withController .mbc7 .eepromWral fun _ => do eepromWral word; return .unit)
  | .eepromWait => (withController .mbc7 .eepromWait fun _ => do eepromWait; return .unit)
  | .sampleAccel retryLimit => (withController .mbc7 .sampleAccel fun _ => do
        let p ← sampleAccel retryLimit
        return .words p.1 p.2)
  | .takePhoto retryLimit => (withController .camera .takePhoto fun _ => do takePhoto retryLimit; return .unit)
  | .tama5Unlock retryLimit => (withController .tama5 .tama5Unlock fun _ => do tama5Unlock retryLimit; return .unit)
  | .tama5WriteReg r nib => (withController .tama5 .tama5WriteReg fun _ => do tama5WriteReg r nib; return .unit)
  | .tama5ReadReg r retryLimit => (withController .tama5 .tama5ReadReg fun _ => do return .byte (← tama5ReadReg r retryLimit))
  | .tama5RamRead ta retryLimit => (withController .tama5 .tama5RamRead fun _ => do return .byte (← tama5RamRead ta retryLimit))
  | .tama5RamWrite ta value => (withController .tama5 .tama5RamWrite fun _ => do tama5RamWrite ta value; return .unit)

theorem exec_body (i : Instr) (s : State) : exec i s = runOp i (bodyOf i) s := by
  cases i <;> rfl

/-- The two kinds of bodies: a controller operation behind its checks, or a plain one. -/
inductive Shape (s : State) (i : Instr) : Proc Value → Prop where
  | plain {p : Proc Value} : controllerOf i = none →
      Built s.cfg s.connected (writesRomShadow i) (writesRamShadow i) (mayRaise s i) p → Shape s i p
  | controller (v : Variant) (op : OpName) (b : Controller → Proc Value) : controllerOf i = some v → operationOf i = some op →
      (∀ c d : Controller, c.bare = d.bare → b c = b d) → (∀ c, Built s.cfg true (writesRomShadow i) (writesRamShadow i) (mayRaise s i) (b c)) → Shape s i (withController v op b)

theorem bare_counts {c d : Controller} (h : c.bare = d.bare) :
    c.romBankCount = d.romBankCount ∧ c.ramSizeBytes = d.ramSizeBytes ∧ c.variant = d.variant := by
  simp only [Controller.bare, Controller.mk.injEq] at h
  exact ⟨h.2.1, h.2.2.1, h.1⟩

theorem body_shape (s : State) (i : Instr) (h1 : i ≠ .connect) (h2 : i ≠ .detect) : Shape s i (bodyOf i) := by
  cases i with
  | hsProbe  => exact .plain rfl (.then .probe fun _ => .pure _)
  | readFrame _ _ => exact .plain rfl (.then (refuseIf_built _ _) fun _ => .then (.memRead _ _) fun _ => .pure _)
  | writeFrame _ _ => exact .plain rfl (.then (.memWrite _ _) fun _ => .pure _)
  | eeRead _ => exact .plain rfl (.then (eepromRead_built _) fun _ => .pure _)
  | eeWrite _ _ => exact .plain rfl (.then (eepromWrite_built _ _ (.inl rfl)) fun _ => .pure _)
  | eeErase _ => exact .plain rfl (.then (eepromErase_built _ (.inl rfl)) fun _ => .pure _)
  | eeEwen  => exact .plain rfl (.then eepromEwen_built fun _ => .pure _)
  | eeEwds  => exact .plain rfl (.then eepromEwds_built fun _ => .pure _)
  | eeEral  => exact .plain rfl (.then (eepromEral_built (.inl rfl)) fun _ => .pure _)
  | eeWral _ => exact .plain rfl (.then (eepromWral_built _ (.inl rfl)) fun _ => .pure _)
  | connect => exact absurd rfl h1
  | read _ _ => exact .plain rfl (.then (rawRead_built _ _ (fun h => ⟨by simp [operationOf], h⟩)) fun _ => .pure _)
  | write _ _ => exact .plain rfl (.then (rawWrite_built _ _ (fun h => ⟨by simp [operationOf], h⟩)) fun _ => .pure _)
  | readEc _ _ _ => exact .plain rfl (.then (readEc_built _ _ _ (fun h => ⟨by simp [operationOf], h⟩) id) fun _ => .pure _)
  | writeEc _ _ => exact .plain rfl (.then (writeEc_built _ _ _ (fun h => ⟨by simp [operationOf], h⟩) (fun h => .inr ⟨rfl, h⟩)) fun _ => .pure _)
  | detect => exact absurd rfl h2
  | selectRomBankBase _ => exact .controller _ _ _ rfl rfl (fun _ _ _ => rfl) fun _ => .then (selectRomBank_built .base _ (fun h => by cases h) (fun h => by cases h) rfl (fun h => by cases h)) fun _ => .pure _
  | selectRomBankMbc1 _ => exact .controller _ _ _ rfl rfl (fun _ _ _ => rfl) fun _ => .then (selectRomBank_built .mbc1 _ (fun h => by cases h) (fun h => by cases h) rfl (fun _ => rfl)) fun _ => .pure _
  | selectRomBankMbc2 _ => exact .controller _ _ _ rfl rfl (fun _ _ _ => rfl) fun _ => .then (selectRomBank_built .mbc2 _ (fun h => by cases h) (fun h => by cases h) rfl (fun h => by cases h)) fun _ => .pure _
  | selectRomBankMbc3 _ => exact .controller _ _ _ rfl rfl (fun _ _ _ => rfl) fun _ => .then (selectRomBank_built .mbc3 _ (fun h => by cases h) (fun h => by cases h) rfl (fun h => by cases h)) fun _ => .pure _
  | selectRomBankMbc5 _ => exact .controller _ _ _ rfl rfl (fun _ _ _ => rfl) fun _ => .then (selectRomBank_built .mbc5 _ (fun h => by cases h) (fun h => by cases h) rfl (fun h => by cases h)) fun _ => .pure _
  | selectRomBankMbc6 _ => exact .controller _ _ _ rfl rfl (fun _ _ _ => rfl) fun _ => .then (selectRomBank_built .mbc6 _ (fun h => by cases h) (fun h => by cases h) rfl (fun h => by cases h)) fun _ => .pure _
  | selectRomBankMbc7 _ => exact .controller _ _ _ rfl rfl (fun _ _ _ => rfl) fun _ => .then (selectRomBank_built .mbc7 _ (fun h => by cases h) (fun h => by cases h) rfl (fun h => by cases h)) fun _ => .pure _
  | selectRomBankCamera _ => exact .controller _ _ _ rfl rfl (fun _ _ _ => rfl) fun _ => .then (selectRomBank_built .camera _ (fun h => by cases h) (fun h => by cases h) rfl (fun h => by cases h)) fun _ => .pure _
  | selectRomBankTama5 _ => exact .controller _ _ _ rfl rfl (fun _ _ _ => rfl) fun _ => .then (selectRomBank_built .tama5 _ (fun h => by cases h) (fun _ => .inl rfl) rfl (fun h => by cases h)) fun _ => .pure _
  | selectRamBankBase _ => exact .controller _ _ _ rfl rfl (fun _ _ _ => rfl) fun _ => .then (selectRamBank_built .base _ rfl) fun _ => .pure _
  | selectRamBankMbc1 _ => exact .controller _ _ _ rfl rfl (fun _ _ _ => rfl) fun _ => .then (selectRamBank_built .mbc1 _ rfl) fun _ => .pure _
  | selectRamBankMbc2 _ => exact .controller _ _ _ rfl rfl (fun _ _ _ => rfl) fun _ => .then (selectRamBank_built .mbc2 _ rfl) fun _ => .pure _
  | selectRamBankMbc3 _ => exact .controller _ _ _ rfl rfl (fun _ _ _ => rfl) fun _ => .then (selectRamBank_built .mbc3 _ rfl) fun _ => .pure _
  | selectRamBankMbc5 _ => exact .controller _ _ _ rfl rfl (fun _ _ _ => rfl) fun _ => .then (selectRamBank_built .mbc5 _ rfl) fun _ => .pure _
  | selectRamBankMbc6 _ => exact .controller _ _ _ rfl rfl (fun _ _ _ => rfl) fun _ => .then (selectRamBank_built .mbc6 _ rfl) fun _ => .pure _
  | selectRamBankMbc7 _ => exact .controller _ _ _ rfl rfl (fun _ _ _ => rfl) fun _ => .then (selectRamBank_built .mbc7 _ rfl) fun _ => .pure _
  | selectRamBankCamera _ => exact .controller _ _ _ rfl rfl (fun _ _ _ => rfl) fun _ => .then (selectRamBank_built .camera _ rfl) fun _ => .pure _
  | selectRamBankTama5 _ => exact .controller _ _ _ rfl rfl (fun _ _ _ => rfl) fun _ => .then (selectRamBank_built .tama5 _ rfl) fun _ => .pure _
  | enableRamBase => exact .controller _ _ _ rfl rfl (fun _ _ _ => rfl) fun _ => .then (enableRam_built .base (fun h => by cases h)) fun _ => .pure _
  | enableRamMbc1 => exact .controller _ _ _ rfl rfl (fun _ _ _ => rfl) fun _ => .then (enableRam_built .mbc1 (fun h => by cases h)) fun _ => .pure _
  | enableRamMbc2 => exact .controller _ _ _ rfl rfl (fun _ _ _ => rfl) fun _ => .then (enableRam_built .mbc2 (fun h => by cases h)) fun _ => .pure _
  | enableRamMbc3 => exact .controller _ _ _ rfl rfl (fun _ _ _ => rfl) fun _ => .then (enableRam_built .mbc3 (fun h => by cases h)) fun _ => .pure _
  | enableRamMbc5 => exact .controller _ _ _ rfl rfl (fun _ _ _ => rfl) fun _ => .then (enableRam_built .mbc5 (fun h => by cases h)) fun _ => .pure _
  | enableRamMbc6 => exact .controller _ _ _ rfl rfl (fun _ _ _ => rfl) fun _ => .then (enableRam_built .mbc6 (fun h => by cases h)) fun _ => .pure _
  | enableRamMbc7 => exact .controller _ _ _ rfl rfl (fun _ _ _ => rfl) fun _ => .then (enableRam_built .mbc7 (fun _ => rfl)) fun _ => .pure _
  | enableRamCamera => exact .controller _ _ _ rfl rfl (fun _ _ _ => rfl) fun _ => .then (enableRam_built .camera (fun h => by cases h)) fun _ => .pure _
  | enableRamTama5 => exact .controller _ _ _ rfl rfl (fun _ _ _ => rfl) fun _ => .then (enableRam_built .tama5 (fun h => by cases h)) fun _ => .pure _
  | dumpRomBase _ _ => exact .controller _ _ _ rfl rfl (fun _ _ h => by simp only [bare_counts h]) fun _ => .then (dumpRom_built .base _ _ _ _ (fun h => by cases h) id (fun h => by cases h) rfl (fun h => by cases h)) fun _ => .pure _
  | dumpRomMbc1 _ _ => exact .controller _ _ _ rfl rfl (fun _ _ h => by simp only [bare_counts h]) fun _ => .then (dumpRom_built .mbc1 _ _ _ _ (fun h => by cases h) id (fun h => by cases h) rfl (fun _ => rfl)) fun _ => .pure _
  | dumpRomMbc2 _ _ => exact .controller _ _ _ rfl rfl (fun _ _ h => by simp only [bare_counts h]) fun _ => .then (dumpRom_built .mbc2 _ _ _ _ (fun h => by cases h) id (fun h => by cases h) rfl (fun h => by cases h)) fun _ => .pure _
  | dumpRomMbc3 _ _ => exact .controller _ _ _ rfl rfl (fun _ _ h => by simp only [bare_counts h]) fun _ => .then (dumpRom_built .mbc3 _ _ _ _ (fun h => by cases h) id (fun h => by cases h) rfl (fun h => by cases h)) fun _ => .pure _
  | dumpRomMbc5 _ _ => exact .controller _ _ _ rfl rfl (fun _ _ h => by simp only [bare_counts h]) fun _ => .then (dumpRom_built .mbc5 _ _ _ _ (fun h => by cases h) id (fun h => by cases h) rfl (fun h => by cases h)) fun _ => .pure _
  | dumpRomMbc6 _ _ => exact .controller _ _ _ rfl rfl (fun _ _ h => by simp only [bare_counts h]) fun _ => .then (dumpRomMbc6_built _ _ _ (fun h => by cases h) id rfl) fun _ => .pure _
  | dumpRomMbc7 _ _ => exact .controller _ _ _ rfl rfl (fun _ _ h => by simp only [bare_counts h]) fun _ => .then (dumpRom_built .mbc7 _ _ _ _ (fun h => by cases h) id (fun h => by cases h) rfl (fun h => by cases h)) fun _ => .pure _
  | dumpRomCamera _ _ => exact .controller _ _ _ rfl rfl (fun _ _ h => by simp only [bare_counts h]) fun _ => .then (dumpRom_built .camera _ _ _ _ (fun h => by cases h) id (fun h => by cases h) rfl (fun h => by cases h)) fun _ => .pure _
  | dumpRomTama5 _ _ => exact .controller _ _ _ rfl rfl (fun _ _ h => by simp only [bare_counts h]) fun _ => .then (dumpRom_built .tama5 _ _ _ _ (fun h => by cases h) id (fun _ => .inl rfl) rfl (fun h => by cases h)) fun _ => .pure _
  | dumpRamBase _ => exact .controller _ _ _ rfl rfl (fun _ _ h => by simp only [bare_counts h]) fun _ => .then (dumpRamStd_built .base _ _ (fun h => by cases h) id rfl) fun _ => .pure _
  | dumpRamMbc1 _ => exact .controller _ _ _ rfl rfl (fun _ _ h => by simp only [bare_counts h]) fun _ => .then (dumpRamStd_built .mbc1 _ _ (fun h => by cases h) id rfl) fun _ => .pure _
  | dumpRamMbc2 _ => exact .controller _ _ _ rfl rfl (fun _ _ _ => rfl) fun _ => .then (dumpRamMbc2_built _ (fun h => by cases h) id) fun _ => .pure _
  | dumpRamMbc3 _ => exact .controller _ _ _ rfl rfl (fun _ _ h => by simp only [bare_counts h]) fun _ => .then (dumpRamStd_built .mbc3 _ _ (fun h => by cases h) id rfl) fun _ => .pure _
  | dumpRamMbc5 _ => exact .controller _ _ _ rfl rfl (fun _ _ h => by simp only [bare_counts h]) fun _ => .then (dumpRamStd_built .mbc5 _ _ (fun h => by cases h) id rfl) fun _ => .pure _
  | dumpRamMbc6 _ => exact .controller _ _ _ rfl rfl (fun _ _ h => by simp only [bare_counts h]) fun _ => .then (dumpRamStd_built .mbc6 _ _ (fun h => by cases h) id rfl) fun _ => .pure _
  | dumpRamMbc7 _ => exact .controller _ _ _ rfl rfl (fun _ _ _ => rfl) fun _ => .then (dumpRamMbc7_built rfl) fun _ => .pure _
  | dumpRamCamera _ => exact .controller _ _ _ rfl rfl (fun _ _ h => by simp only [bare_counts h]) fun _ => .then (dumpRamStd_built .camera _ _ (fun h => by cases h) id rfl) fun _ => .pure _
  | dumpRamTama5 _ => exact .controller _ _ _ rfl rfl (fun _ _ _ => rfl) fun _ => .then (dumpRamTama5_built _ (fun h => by cases h) id (.inl rfl)) fun _ => .pure _
  | restoreRamBase _ => exact .controller _ _ _ rfl rfl (fun _ _ h => by simp only [bare_counts h]) fun _ => .then (restoreRamStd_built .base _ _ (fun h => by cases h) (fun h => .inr ⟨rfl, h⟩) rfl) fun _ => .pure _
  | restoreRamMbc1 _ => exact .controller _ _ _ rfl rfl (fun _ _ h => by simp only [bare_counts h]) fun _ => .then (restoreRamStd_built .mbc1 _ _ (fun h => by cases h) (fun h => .inr ⟨rfl, h⟩) rfl) fun _ => .pure _
  | restoreRamMbc2 _ => exact .controller _ _ _ rfl rfl (fun _ _ _ => rfl) fun _ => .then (restoreRamMbc2_built _ (fun h => by cases h) (fun h => .inr ⟨rfl, h⟩)) fun _ => .pure _
  | restoreRamMbc3 _ => exact .controller _ _ _ rfl rfl (fun _ _ h => by simp only [bare_counts h]) fun _ => .then (restoreRamStd_built .mbc3 _ _ (fun h => by cases h) (fun h => .inr ⟨rfl, h⟩) rfl) fun _ => .pure _
  | restoreRamMbc5 _ => exact .controller _ _ _ rfl rfl (fun _ _ h => by simp only [bare_counts h]) fun _ => .then (restoreRamStd_built .mbc5 _ _ (fun h => by cases h) (fun h => .inr ⟨rfl, h⟩) rfl) fun _ => .pure _
  | restoreRamMbc6 _ => exact .controller _ _ _ rfl rfl (fun _ _ h => by simp only [bare_counts h]) fun _ => .then (restoreRamStd_built .mbc6 _ _ (fun h => by cases h) (fun h => .inr ⟨rfl, h⟩) rfl) fun _ => .pure _
  | restoreRamMbc7 _ => exact .controller _ _ _ rfl rfl (fun _ _ _ => rfl) fun _ => .then (restoreRamMbc7_built _ (.inl rfl) rfl) fun _ => .pure _
  | restoreRamCamera _ => exact .controller _ _ _ rfl rfl (fun _ _ h => by simp only [bare_counts h]) fun _ => .then (restoreRamStd_built .camera _ _ (fun h => by cases h) (fun h => .inr ⟨rfl, h⟩) rfl) fun _ => .pure _
  | restoreRamTama5 _ => exact .controller _ _ _ rfl rfl (fun _ _ _ => rfl) fun _ => .then (restoreRamTama5_built _ (fun h => by cases h) (.inl rfl)) fun _ => .pure _
  | latchRtc => exact .controller _ _ _ rfl rfl (fun _ _ _ => rfl) fun _ => .then latchRtc_built fun _ => .pure _
  | readRtc _ _ => exact .controller _ _ _ rfl rfl (fun _ _ _ => rfl) fun _ => .then (readRtc_built _ _ (fun h => by cases h) id rfl) fun _ => .pure _
  | eepromShiftIn _ => exact .controller _ _ _ rfl rfl (fun _ _ _ => rfl) fun _ => .then (checkRange_built _ _) fun _ => .then (eeShiftIn_built _) fun _ => .pure _
  | eepromShiftInout _ => exact .controller _ _ _ rfl rfl (fun _ _ _ => rfl) fun _ => .then (checkRange_built _ _) fun _ => .then (eeShiftInout_built _) fun _ => .pure _
  | eepromRead _ => exact .controller _ _ _ rfl rfl (fun _ _ _ => rfl) fun _ => .then (eepromRead_built _) fun _ => .pure _
  | eepromWrite _ _ => exact .controller _ _ _ rfl rfl (fun _ _ _ => rfl) fun _ => .then (eepromWrite_built _ _ (.inl rfl)) fun _ => .pure _
  | eepromErase _ => exact .controller _ _ _ rfl rfl (fun _ _ _ => rfl) fun _ => .then (eepromErase_built _ (.inl rfl)) fun _ => .pure _
  | eepromEwen => exact .controller _ _ _ rfl rfl (fun _ _ _ => rfl) fun _ => .then eepromEwen_built fun _ => .pure _
  | eepromEwds => exact .controller _ _ _ rfl rfl (fun _ _ _ => rfl) fun _ => .then eepromEwds_built fun _ => .pure _
  | eepromEral => exact .controller _ _ _ rfl rfl (fun _ _ _ => rfl) fun _ => .then (eepromEral_built (.inl rfl)) fun _ => .pure _
  | eepromWral _ => exact .controller _ _ _ rfl rfl (fun _ _ _ => rfl) fun _ => .then (eepromWral_built _ (.inl rfl)) fun _ => .pure _
  | eepromWait => exact .controller _ _ _ rfl rfl (fun _ _ _ => rfl) fun _ => .then (eepromWait_built (.inl rfl)) fun _ => .pure _
  | sampleAccel _ => exact .controller _ _ _ rfl rfl (fun _ _ _ => rfl) fun _ => .then (sampleAccel_built _ (fun h => by cases h) id) fun _ => .pure _
  | takePhoto _ => exact .controller _ _ _ rfl rfl (fun _ _ _ => rfl) fun _ => .then (takePhoto_built _ (fun h => by cases h) id (.inl rfl) rfl) fun _ => .pure _
  | tama5Unlock _ => exact .controller _ _ _ rfl rfl (fun _ _ _ => rfl) fun _ => .then (tama5Unlock_built _ (fun h => by cases h) id (.inl rfl)) fun _ => .pure _
  | tama5WriteReg _ _ => exact .controller _ _ _ rfl rfl (fun _ _ _ => rfl) fun _ => .then (tama5WriteReg_built _ _) fun _ => .pure _
  | tama5ReadReg _ _ => exact .controller _ _ _ rfl rfl (fun _ _ _ => rfl) fun _ => .then (tama5ReadReg_built _ _ (fun h => by cases h) id) fun _ => .pure _
  | tama5RamRead _ _ => exact .controller _ _ _ rfl rfl (fun _ _ _ => rfl) fun _ => .then (tama5RamRead_built _ _ (fun h => by cases h) id) fun _ => .pure _
  | tama5RamWrite _ _ => exact .controller _ _ _ rfl rfl (fun _ _ _ => rfl) fun _ => .then (tama5RamWrite_built _ _) fun _ => .pure _

/-! ### What every body does -/

theorem withController_ends {K : ErrKind → Prop} {rom ram : Bool} {v : Variant} {op : OpName} {b : Controller → Proc Value} {s : State}
    (hn : s.connected = false → K .notConnected)
    (hb : ∀ c, s.connected = true → Ends K rom ram s (b c s)) : Ends K rom ram s (withController v op b s) := by
  unfold withController
  split
  · refine ⟨Within.refl _ _ _, ?_, ?_, ?_⟩ <;> intros <;> rename_i e <;> cases e
  · split
    · by_cases h : s.connected = true
      · rw [bind_ok (a := ()) (s' := s) (by simp [requireConnected, h])]
        exact hb _ h
      · rw [bind_error (e := .raised .notConnected (.op op)) (s' := s) (by simp [requireConnected, h])]
        refine ⟨Within.refl _ _ _, fun k i t e => ?_, ?_, ?_⟩
        · cases e; exact hn (by simpa using h)
        · intro t e; cases e
        · intro t e; cases e
    · refine ⟨Within.refl _ _ _, ?_, ?_, ?_⟩ <;> intros <;> rename_i e <;> cases e

theorem body_ends (i : Instr) (h1 : i ≠ .connect) (h2 : i ≠ .detect) (s : State) :
    Ends (mayRaise s i) (writesRomShadow i) (writesRamShadow i) s (bodyOf i s) := by
  have hs := body_shape s i h1 h2
  generalize bodyOf i = p at hs ⊢
  cases hs with
  | plain _ hb => exact hb.ends s rfl rfl
  | controller v op b _ ho _ hb =>
    exact withController_ends (fun h => ⟨by rw [ho]; simp, h⟩) fun c hc => (hb c).ends s rfl hc

/-- The three ends of the checks of a controller operation, and its body. -/
theorem withController_cases (v : Variant) (op : OpName) (b : Controller → Proc Value) (s : State) :
    (∃ h, h ≠ .waiting ∧ withController v op b s = .error h s) ∨
    (∃ c, s.ctrl = some c ∧ s.connected = true ∧ withController v op b s = b c s) := by
  unfold withController
  cases hc : s.ctrl with
  | none => exact .inl ⟨.refused .noController, by simp, rfl⟩
  | some c =>
    by_cases hv : c.variant = v
    · by_cases hn : s.connected = true
      · refine .inr ⟨c, rfl, hn, ?_⟩
        simp only [hv, if_true]
        exact bind_ok (a := ()) (s' := s) (by simp [requireConnected, hn])
      · refine .inl ⟨.raised .notConnected (.op op), by simp, ?_⟩
        simp only [hv, if_true]
        exact bind_error (e := .raised .notConnected (.op op)) (s' := s) (by simp [requireConnected, hn])
    · exact .inl ⟨.refused .wrongVariant, by simp, by simp [hv]⟩

theorem body_sends (i : Instr) (h1 : i ≠ .connect) (h2 : i ≠ .detect) (s : State) :
    SendsFrames s.cfg.fillByte s (bodyOf i s) := by
  have hs := body_shape s i h1 h2
  generalize bodyOf i = p at hs ⊢
  cases hs with
  | plain _ hb => exact hb.sends s rfl rfl
  | controller v op b _ ho _ hb =>
    rcases withController_cases v op b s with ⟨h, hw, e⟩ | ⟨c, _, hn, e⟩
    · rw [e]; exact .of_none rfl (fun t e => by cases e; exact hw rfl)
    · rw [e]; exact (hb c).sends s rfl hn

theorem body_alike (i : Instr) (h1 : i ≠ .connect) (h2 : i ≠ .detect) {C : Option Controller → Option Controller → Prop}
    (hbare : ∀ c d, C c d → c.map Controller.bare = d.map Controller.bare)
    (hrom : ∀ c d n, C c d → C (c.map fun x => { x with romShadow := some n }) (d.map fun x => { x with romShadow := some n }))
    (hram : ∀ c d n, C c d → C (c.map fun x => { x with ramShadow := some n }) (d.map fun x => { x with ramShadow := some n }))
    {s t : State} (h : Alike C s t) : AlikeEnds C (bodyOf i s) (bodyOf i t) := by
  have hs := body_shape s i h1 h2
  generalize bodyOf i = p at hs ⊢
  cases hs with
  | plain _ hb => exact hb.alike hrom hram s t rfl rfl h
  | controller v op b _ ho hdep hb =>
    have hc := hbare _ _ h.ctrl
    unfold withController
    cases e1 : s.ctrl with
    | none =>
      rw [e1] at hc
      cases e2 : t.ctrl with
      | none => exact .error _ h
      | some d => rw [e2] at hc; cases hc
    | some c =>
      rw [e1] at hc
      cases e2 : t.ctrl with
      | none => rw [e2] at hc; cases hc
      | some d =>
        rw [e2] at hc
        have hcd : c.bare = d.bare := by simpa using hc
        have hv := (bare_counts hcd).2.2
        simp only [← hv]
        split
        · rw [← hdep c d hcd]
          have he : ∀ u : State, (requireConnected op >>= fun _ => b c) u =
              if u.connected = true then b c u else .error (.raised .notConnected (.op op)) u := by
            intro u
            by_cases hn : u.connected = true
            · rw [if_pos hn]; exact bind_ok (a := ()) (s' := u) (by simp [requireConnected, hn])
            · rw [if_neg hn]; exact bind_error (by simp [requireConnected, hn])
          rw [he, he, ← h.connected]
          split
          · exact (hb c).alike hrom hram s t rfl ‹_› h
          · exact .error _ h
        · exact .error _ h

theorem body_goesOn (i : Instr) (h1 : i ≠ .connect) (h2 : i ≠ .detect) (ins : List LinkIn) (s : State) :
    GoesOn ins (bodyOf i s) (bodyOf i (s.supplyReplies ins)) := by
  have hs := body_shape s i h1 h2
  generalize bodyOf i = p at hs ⊢
  cases hs with
  | plain _ hb => exact hb.goesOn ins s rfl rfl
  | controller v op b _ ho _ hb =>
    unfold withController
    show GoesOn ins _ (match s.ctrl with | none => _ | some c => _)
    cases hc : s.ctrl with
    | none => exact .of_error (fun e => by cases e)
    | some c =>
      by_cases hv : c.variant = v
      · simp only [hv, if_true]
        by_cases hn : s.connected = true
        · rw [bind_ok (a := ()) (s' := s) (by simp [requireConnected, hn]),
            bind_ok (a := ()) (s' := s.supplyReplies ins) (by simp [requireConnected, hn])]
          exact (hb c).goesOn ins s rfl hn
        · rw [bind_error (e := .raised .notConnected (.op op)) (s' := s) (by simp [requireConnected, hn]),
            bind_error (e := .raised .notConnected (.op op)) (s' := s.supplyReplies ins) (by simp [requireConnected, hn])]
          exact .of_error (fun e => by cases e)
      · simp only [hv, if_false]; exact .of_error (fun e => by cases e)

end Sys2Proof.Machine
end

