-- ==== Sys2Proof/Laws/Session.lean ====
section
/-!
SUPPORT. The session procedures against their scripts: `read_ec` and `write_ec` to a result and to an error, the plain frames,
the handshake.
-/

namespace Sys2Proof.Machine

variable {α : Type} {cfg : Params} {conn : Bool}

/-! ### read and write -/

theorem rawRead_runs {addr length : Nat} {data : List Byte} (h1 : addr ≤ 0xFFFF) (h2 : length ≤ 0xFFFF)
    (h3 : addr + length ≤ 0x10000) (h4 : data.length = length) :
    Runs cfg true (rawRead addr length) (readScript cfg (BitVec.ofNat 16 addr) data) none none data := by
  unfold rawRead
  refine (requireConnected_runs _).then <| (checkRange_runs h1).then <| (checkRange_runs h2).then <|
    (refuseIf_runs _ (by simpa using h3)).then ?_
  exact memRead_runs _ _ _ (by simp only [toU16, BitVec.toNat_ofNat]; omega)

theorem rawWrite_runs {addr value : Nat} (h1 : addr ≤ 0xFFFF) (h2 : value ≤ 0xFF) :
    Runs cfg true (rawWrite addr value) (writeScript (BitVec.ofNat 16 addr) (BitVec.ofNat 8 value)) none none () := by
  unfold rawWrite
  exact (requireConnected_runs _).then <| (checkRange_runs h1).then <| (checkRange_runs h2).then <| memWrite_runs _ _

/-! ### read_ec -/

theorem exchangeCount_map_free (bs : List Byte) : exchangeCount (bs.map Cue.free) = bs.length := by
  induction bs with
  | nil => rfl
  | cons b bs ih => simp [Cue.free, exchangeCount] at *; exact ih

theorem exchangeCount_map_gives (b : Byte) (bs : List Byte) : exchangeCount (bs.map (Cue.gives b)) = bs.length := by
  induction bs with
  | nil => rfl
  | cons b bs ih => simp [Cue.gives, exchangeCount] at *; exact ih

theorem exchangeCount_readScript (a : U16) (data : List Byte) : exchangeCount (readScript cfg a data) = 5 + data.length := by
  rw [readScript, exchangeCount_append, exchangeCount_map_gives]; rfl

/-- Each read of a list makes at least one exchange. -/
theorem length_le_exchangeCount_reads (a : U16) (reads : List (List Byte)) :
    reads.length ≤ exchangeCount (reads.flatMap (readScript cfg a)) := by
  induction reads with
  | nil => simp [exchangeCount]
  | cons d reads ih =>
    simp only [List.flatMap_cons, exchangeCount_append, exchangeCount_readScript, List.length_cons]; omega

/-- The reads still to come of a chunk whose last read so far is `prev`. -/
def restAgrees (cfg : Params) (prev : Option (List Byte)) (reads : List (List Byte)) : Bool :=
  match prev with
  | none => agreesAtEnd cfg reads
  | some p => agreesAtEnd cfg (p :: reads)

/-- A chunk whose reads agree at the last is accepted (R173, R177). -/
theorem ecAttempts_runs (reads : List (List Byte)) :
    ∀ (fuel : Nat) (r : EcRegs), reads.length ≤ fuel → reads ≠ [] → restAgrees cfg r.prev reads = true →
    withinLimit r.limit (r.reads + reads.length) = true → (∀ d ∈ reads, d.length = r.len) → r.len ≤ 0x800 →
    RunsTo cfg conn (ecAttempts fuel r) (reads.flatMap (readScript cfg (BitVec.ofNat 16 r.chunkAddr))) none none
      (fun r' => r'.base = r.base ∧ r'.size = r.size ∧ r'.limit = r.limit ∧ r'.off = r.off + r.len ∧
        r'.out = r.out ++ reads.getLastD []) := by
  induction reads with
  | nil => intro fuel r _ h; exact absurd rfl h
  | cons d reads ih =>
    intro fuel r hf _ hag hlim hlen hle
    obtain ⟨fuel, rfl⟩ : ∃ n, fuel = n + 1 := ⟨fuel - 1, by simp only [List.length_cons] at hf; omega⟩
    simp only [ecAttempts, List.flatMap_cons]
    have hd := hlen d (by simp)
    refine (memRead_runs (cfg := cfg) (conn := conn) (BitVec.ofNat 16 r.chunkAddr) d (toU16 r.len)
      (by rw [hd]; simp only [toU16, BitVec.toNat_ofNat]; omega)).seqTo ?_
    refine (setEc_runs _).thenTo (RunsTo.get fun s hs => ?_)
    rw [hs]
    cases reads with
    | nil =>
      have hacc : ecAgrees cfg.chunkHash r.prev d = true := by
        cases hp : r.prev with
        | none => rw [hp] at hag; simp [restAgrees, agreesAtEnd] at hag
        | some p => rw [hp] at hag; simpa [restAgrees, agreesAtEnd, readsAgree, ecAgrees] using hag
      rw [if_pos hacc]
      exact (setEc_runs _).thenTo ((Runs.pure _).to ⟨rfl, rfl, rfl, rfl, rfl⟩)
    | cons e reads =>
      have hrej : ecAgrees cfg.chunkHash r.prev d = false ∧ restAgrees cfg (some d) (e :: reads) = true := by
        cases hp : r.prev with
        | none => rw [hp] at hag; exact ⟨rfl, by simpa [restAgrees] using hag⟩
        | some p =>
          rw [hp] at hag
          simp only [restAgrees, agreesAtEnd, readsAgree, Bool.and_eq_true, Bool.not_eq_true'] at hag
          exact ⟨by simpa [ecAgrees] using hag.1, by simpa [restAgrees] using hag.2⟩
      have hnl : ecLimitReached { r with reads := r.reads + 1 } = false := by
        simp only [ecLimitReached, withinLimit, List.length_cons] at hlim ⊢
        cases hl : r.limit with
        | none => rfl
        | some l => rw [hl] at hlim; simp at hlim ⊢; omega
      rw [if_neg (by simp [hrej.1]), if_neg (by simp [hnl])]
      refine (setEc_runs _).thenTo ?_
      have hi := ih fuel { r with reads := r.reads + 1, prev := some d } (by simp only [List.length_cons] at hf ⊢; omega)
        (by simp) hrej.2 (by simpa [Nat.add_assoc, Nat.add_comm 1] using hlim) (fun x hx => hlen x (by simp [hx])) hle
      simpa [EcRegs.chunkAddr, List.getLastD_cons] using hi

/-- A chunk of which no two consecutive reads agree fails at read `L + 2` (R174, R177). -/
theorem ecAttempts_raises (reads : List (List Byte)) :
    ∀ (fuel : Nat) (r : EcRegs) (l : Nat), reads.length ≤ fuel → reads ≠ [] →
    (match r.prev with | none => neverAgrees cfg reads | some p => neverAgrees cfg (p :: reads)) = true →
    r.limit = some l → r.reads + reads.length = l + 2 → (∀ d ∈ reads, d.length = r.len) → r.len ≤ 0x800 →
    Raises cfg conn (ecAttempts fuel r) (reads.flatMap (readScript cfg (BitVec.ofNat 16 r.chunkAddr))) none none
      .readUnstable (.chunk r.chunkAddr (l + 2)) := by
  induction reads with
  | nil => intro fuel r l _ h; exact absurd rfl h
  | cons d reads ih =>
    intro fuel r l hf _ hag hlim hcount hlen hle
    obtain ⟨fuel, rfl⟩ : ∃ n, fuel = n + 1 := ⟨fuel - 1, by simp only [List.length_cons] at hf; omega⟩
    simp only [ecAttempts, List.flatMap_cons]
    have hd := hlen d (by simp)
    refine Raises.seq (memRead_runs (cfg := cfg) (conn := conn) (BitVec.ofNat 16 r.chunkAddr) d (toU16 r.len)
      (by rw [hd]; simp only [toU16, BitVec.toNat_ofNat]; omega)) ?_
    refine Raises.then (setEc_runs _) (Raises.get fun s hs => ?_)
    rw [hs]
    have hrej : ecAgrees cfg.chunkHash r.prev d = false ∧ neverAgrees cfg (d :: reads) = true := by
      cases hp : r.prev with
      | none => rw [hp] at hag; exact ⟨rfl, hag⟩
      | some p =>
        rw [hp] at hag
        simp only [neverAgrees, readsAgree, Bool.and_eq_true, Bool.not_eq_true'] at hag
        exact ⟨by simpa [ecAgrees] using hag.1, hag.2⟩
    rw [if_neg (by simp [hrej.1])]
    cases reads with
    | nil =>
      have : r.reads + 1 = l + 2 := by simpa using hcount
      rw [if_pos (by simp [ecLimitReached, hlim, this])]
      simpa [this, EcRegs.chunkAddr] using Raises.raise (cfg := cfg) (conn := conn) (α := EcRegs) .readUnstable (.chunk r.chunkAddr (r.reads + 1))
    | cons e reads =>
      have hc : r.reads + 1 + (e :: reads).length = l + 2 := by simp only [List.length_cons] at hcount ⊢; omega
      rw [if_neg (by simp only [ecLimitReached, hlim, List.length_cons] at hc ⊢; simp; omega)]
      refine Raises.then (setEc_runs _) ?_
      have hi := ih fuel { r with reads := r.reads + 1, prev := some d } l (by simp only [List.length_cons] at hf ⊢; omega)
        (by simp) hrej.2 hlim hc (fun x hx => hlen x (by simp [hx])) hle
      simpa [EcRegs.chunkAddr] using hi

theorem length_le_of_ecFits {limit : Option Nat} : ∀ (chunks : EcReads) (size : Nat), ecFits cfg limit size chunks = true →
    chunks.length ≤ size / 0x800 + 1 := by
  intro chunks
  induction chunks with
  | nil => intro size _; simp
  | cons reads rest ih =>
    intro size h
    simp only [ecFits, Bool.and_eq_true, decide_eq_true_eq] at h
    have := ih _ h.2
    simp only [List.length_cons]
    by_cases hs : size ≤ 0x800
    · rw [Nat.min_eq_right hs, Nat.sub_self] at h
      cases rest with
      | nil => simp
      | cons r rs => simp [ecFits] at h
    · rw [Nat.min_eq_left (by omega)] at this
      omega

/-- The chunks of a `read_ec`, one after the other (R171). -/
theorem ecChunks_runs (chunks : EcReads) : ∀ (fuel : Nat) (r : EcRegs), chunks.length ≤ fuel → r.off ≤ r.size →
    ecFits cfg r.limit (r.size - r.off) chunks = true →
    Runs cfg conn (ecChunks fuel r) (ecScript cfg r.chunkAddr chunks) none none (r.out ++ ecBytes chunks) := by
  induction chunks with
  | nil =>
    intro fuel r _ hle h
    have h0 : r.size - r.off = 0 := by simpa [ecFits] using h
    have : ecChunks fuel r = Pure.pure r.out := by
      cases fuel with
      | zero => rfl
      | succ n => simp only [ecChunks, if_neg (by omega : ¬ r.off < r.size)]
    rw [this]
    simpa [ecScript, ecBytes] using Runs.pure (cfg := cfg) (conn := conn) r.out
  | cons reads rest ih =>
    intro fuel r hf hle h
    obtain ⟨fuel, rfl⟩ : ∃ n, fuel = n + 1 := ⟨fuel - 1, by simp only [List.length_cons] at hf; omega⟩
    simp only [ecFits, Bool.and_eq_true, decide_eq_true_eq, List.all_eq_true] at h
    obtain ⟨⟨⟨⟨hpos, hlen⟩, hag⟩, hlim⟩, hrest⟩ := h
    have hne : reads ≠ [] := by rintro rfl; simp [agreesAtEnd] at hag
    simp only [ecChunks, if_pos (by omega : r.off < r.size), ecScript]
    refine (setEc_runs _).then ?_
    have hu : RunsTo cfg conn (unbounded fun rounds => ecAttempts rounds
        { r with len := min Config.ecChunk (r.size - r.off), prev := none, reads := 0 })
        (reads.flatMap (readScript cfg (BitVec.ofNat 16 r.chunkAddr))) none none
        (fun r' => r'.base = r.base ∧ r'.size = r.size ∧ r'.limit = r.limit ∧ r'.off = r.off + min 0x800 (r.size - r.off) ∧
          r'.out = r.out ++ reads.getLastD []) := by
      intro s hc hn hs
      exact ecAttempts_runs reads (s.link.length + 1)
        { r with len := min Config.ecChunk (r.size - r.off), prev := none, reads := 0 }
        (Nat.le_succ_of_le (Nat.le_trans (length_le_exchangeCount_reads _ _) (exchangeCount_le_of_answers _ _ hs.2))) hne
        (by simpa [restAgrees] using hag) (by simpa using hlim) (by simpa [Config.ecChunk] using hlen)
        (by simp only [Config.ecChunk]; omega) s hc hn hs
    have h2 := hu.bind (g := fun r => ecChunks fuel r) (ds := ecScript cfg (r.chunkAddr + 0x800) rest) (r' := none) (m' := none)
      (b := r.out ++ reads.getLastD [] ++ ecBytes rest) (by
        rintro r' ⟨hb, hsz, hl, ho, hout⟩
        have hi := ih fuel r' (by simp only [List.length_cons] at hf; omega) (by rw [hsz, ho]; omega)
          (by rw [hl, hsz, ho]; convert hrest using 2; omega)
        rw [hout] at hi
        cases rest with
        | nil => simpa [ecScript] using hi
        | cons c cs =>
          have hbig : ¬ (r.size - r.off ≤ 0x800) := by
            intro hs
            simp [ecFits, Nat.min_eq_right hs] at hrest
          have : r'.chunkAddr = r.chunkAddr + 0x800 := by
            simp only [EcRegs.chunkAddr, hb, ho]; omega
          rw [this] at hi
          exact hi)
    simpa [ecBytes] using h2

/-- `read_ec` whose every chunk is accepted (R170 to R174). -/
theorem readEc_runs {addr size : Nat} {limit : Option Nat} {chunks : EcReads} (h1 : addr ≤ 0xFFFF) (h2 : addr + size ≤ 0x10000)
    (h : ecFits cfg limit size chunks = true) :
    Runs cfg true (readEc addr size limit) (ecScript cfg addr chunks) none none (ecBytes chunks) := by
  unfold readEc
  refine (requireConnected_runs _).then <| (checkRange_runs h1).then <| (checkRange_runs (by omega)).then <|
    (refuseIf_runs _ (by simpa using h2)).then <| (setEc_runs _).then ?_
  have := ecChunks_runs (cfg := cfg) (conn := true) chunks (size / Config.ecChunk + 1)
    { base := toU16 addr, size := size, off := 0, len := 0, prev := none, reads := 0, limit := limit, out := [] }
    (length_le_of_ecFits chunks size h) (Nat.zero_le _) h
  have e : (BitVec.toNat (toU16 addr)) + 0 = addr := by simp only [toU16, BitVec.toNat_ofNat]; omega
  simpa [EcRegs.chunkAddr, e] using this

/-- The whole chunks before one that fails, and the failing chunk's reads. -/
theorem ecChunks_raises (bad : List (List Byte)) (l : Nat) (hn : neverAgrees cfg bad = true) (hb : bad.length = l + 2)
    (chunks : EcReads) : ∀ (fuel : Nat) (r : EcRegs) (left : Nat), chunks.length < fuel → r.limit = some l →
    r.size - r.off = 0x800 * chunks.length + left → 0 < left →
    (∀ reads ∈ chunks, agreesAtEnd cfg reads = true ∧ withinLimit (some l) reads.length = true ∧ ∀ d ∈ reads, d.length = 0x800) →
    (∀ d ∈ bad, d.length = min 0x800 left) →
    Raises cfg conn (ecChunks fuel r)
      (ecScript cfg r.chunkAddr chunks ++
        bad.flatMap (readScript cfg (BitVec.ofNat 16 (r.chunkAddr + 0x800 * chunks.length)))) none none
      .readUnstable (.chunk (r.chunkAddr + 0x800 * chunks.length) (l + 2)) := by
  induction chunks with
  | nil =>
    intro fuel r left hf hl hsz hpos _ hlen
    obtain ⟨fuel, rfl⟩ : ∃ n, fuel = n + 1 := ⟨fuel - 1, by simp only [List.length_nil] at hf; omega⟩
    have hne : bad ≠ [] := by rintro rfl; simp at hb
    have hlt : r.off < r.size := by simp at hsz; omega
    simp only [ecChunks, if_pos hlt, ecScript, List.nil_append, List.length_nil, Nat.mul_zero, Nat.add_zero]
    refine Raises.then (setEc_runs _) (Raises.first ?_)
    intro s hc hcn hs
    have hx : r.size - r.off = left := by simpa using hsz
    have := ecAttempts_raises (cfg := cfg) (conn := conn) bad (s.link.length + 1)
      { r with len := min Config.ecChunk (r.size - r.off), prev := none, reads := 0 } l
      (Nat.le_succ_of_le (Nat.le_trans (length_le_exchangeCount_reads _ _) (exchangeCount_le_of_answers _ _ hs.2))) hne
      hn hl (by simpa using hb) (by simpa [Config.ecChunk, hx] using hlen) (by simp only [Config.ecChunk]; omega)
    exact this s hc hcn hs
  | cons reads rest ih =>
    intro fuel r left hf hl hsz hpos hall hlen
    obtain ⟨fuel, rfl⟩ : ∃ n, fuel = n + 1 := ⟨fuel - 1, by simp only [List.length_cons] at hf; omega⟩
    obtain ⟨hag, hlim, hd⟩ := hall reads (by simp)
    have hne : reads ≠ [] := by rintro rfl; simp [agreesAtEnd] at hag
    simp only [List.length_cons] at hsz
    have hmin : min Config.ecChunk (r.size - r.off) = 0x800 := by simp only [Config.ecChunk]; omega
    simp only [ecChunks, if_pos (by omega : r.off < r.size), ecScript, List.append_assoc]
    refine Raises.then (setEc_runs _) ?_
    have hu : RunsTo cfg conn (unbounded fun rounds => ecAttempts rounds
        { r with len := min Config.ecChunk (r.size - r.off), prev := none, reads := 0 })
        (reads.flatMap (readScript cfg (BitVec.ofNat 16 r.chunkAddr))) none none
        (fun r' => r'.base = r.base ∧ r'.size = r.size ∧ r'.limit = r.limit ∧ r'.off = r.off + 0x800 ∧
          r'.out = r.out ++ reads.getLastD []) := by
      intro s hc hcn hs
      rw [hmin]
      exact ecAttempts_runs (cfg := cfg) (conn := conn) reads (s.link.length + 1)
        { r with len := 0x800, prev := none, reads := 0 }
        (Nat.le_succ_of_le (Nat.le_trans (length_le_exchangeCount_reads _ _) (exchangeCount_le_of_answers _ _ hs.2))) hne
        (by simpa [restAgrees] using hag) (by simpa [hl] using hlim) hd (Nat.le_refl _) s hc hcn hs
    have h2 := hu.bindRaises (g := fun r => ecChunks fuel r)
      (ds := ecScript cfg (r.chunkAddr + 0x800) rest ++
        bad.flatMap (readScript cfg (BitVec.ofNat 16 (r.chunkAddr + 0x800 * (rest.length + 1))))) (r' := none) (m' := none)
      (k := .readUnstable) (i := .chunk (r.chunkAddr + 0x800 * (rest.length + 1)) (l + 2)) (by
        rintro r' ⟨hb', hsz', hl', ho, hout⟩
        have hi := ih fuel r' left (by simp only [List.length_cons] at hf; omega) (by rw [hl', hl])
          (by rw [hsz', ho]; omega) hpos (fun x hx => hall x (by simp [hx])) hlen
        have : r'.chunkAddr = r.chunkAddr + 0x800 := by simp only [EcRegs.chunkAddr, hb', ho]; omega
        rw [this] at hi
        have e : r.chunkAddr + 0x800 + 0x800 * rest.length = r.chunkAddr + 0x800 * (rest.length + 1) := by omega
        rw [e] at hi
        exact hi)
    simpa using h2

/-- A one-byte `read_ec`. -/
theorem readEc1_runs {addr : Nat} {limit : Option Nat} {reads : List Byte} (h1 : addr ≤ 0xFFFF)
    (h : byteFits cfg limit reads = true) :
    Runs cfg true (readEc1 addr limit) (byteScript cfg addr reads) none none (byteOf reads) := by
  unfold readEc1
  have hr := (readEc_runs (cfg := cfg) h1 (by omega) h).map (fun d => d.headD 0)
  have e : (ecBytes (byteReads reads)).headD 0 = byteOf reads := by
    simp only [ecBytes, byteReads, List.flatMap_cons, List.flatMap_nil, List.append_nil, byteOf]
    cases reads using List.reverseRecOn <;> simp
  rw [e] at hr
  exact hr

/-! ### write_ec -/

theorem exchangeCount_writeScript (a : U16) (v : Byte) : exchangeCount (writeScript a v) = 4 := rfl

theorem length_le_exchangeCount_we (addr : Nat) (v : Byte) (reads : List Byte) :
    reads.length ≤ exchangeCount (weScript cfg addr v reads) := by
  induction reads with
  | nil => simp [weScript, exchangeCount]
  | cons r reads ih =>
    simp only [weScript, List.flatMap_cons, exchangeCount_append, exchangeCount_writeScript, List.length_cons] at *
    omega

theorem weRounds_runs (m v : Byte) (addr : Nat) (reads : List Byte) : ∀ (fuel : Nat) (n : Nat), reads.length ≤ fuel →
    endsAt (fun r => decide (r &&& m = v &&& m)) reads = true →
    withinRounds cfg.writeEcLimit (n + reads.length) = true →
    Runs cfg conn (weRounds m fuel ⟨BitVec.ofNat 16 addr, v, n⟩) (weScript cfg addr v reads) none none () := by
  induction reads with
  | nil => intro fuel n _ h; simp [endsAt] at h
  | cons r reads ih =>
    intro fuel n hf he hlim
    obtain ⟨fuel, rfl⟩ : ∃ n, fuel = n + 1 := ⟨fuel - 1, by simp only [List.length_cons] at hf; omega⟩
    simp only [weRounds, weScript, List.flatMap_cons, List.append_assoc]
    refine Runs.get fun s hs => ?_
    have hn : weLimitReached s.cfg.writeEcLimit n = false := by
      rw [hs]
      cases hk : cfg.writeEcLimit with
      | none => rfl
      | some k => rw [hk] at hlim; simp [weLimitReached, withinRounds] at hlim ⊢; omega
    rw [if_neg (by simp [hn])]
    have h1 := (memWrite_runs (cfg := cfg) (conn := conn) (BitVec.ofNat 16 addr) v)
    have h2 := (memRead1_runs (cfg := cfg) (conn := conn) (BitVec.ofNat 16 addr) r)
    refine Runs.seq h1 (Runs.seq h2
      ((setWe_runs _).then ?_))
    cases reads with
    | nil =>
      have : r &&& m = v &&& m := by simpa [endsAt] using he
      rw [if_pos this]
      exact Runs.pure ()
    | cons e reads =>
      simp only [endsAt, Bool.and_eq_true, Bool.not_eq_true', decide_eq_false_iff_not] at he
      rw [if_neg he.1]
      exact ih fuel (n + 1) (by simp only [List.length_cons] at hf ⊢; omega) he.2
        (by rw [← hlim]; simp only [List.length_cons]; congr 1; omega)

/-- `write_ec` that ends (R180 to R182). -/
theorem writeEc_runs {addr : Nat} {value : Nat} {m : Byte} {reads : List Byte} (h1 : addr ≤ 0xFFFF) (h2 : value ≤ 0xFF)
    (h : weFits cfg m (BitVec.ofNat 8 value) reads = true) :
    Runs cfg true (writeEc addr value m) (weScript cfg addr (BitVec.ofNat 8 value) reads) none none () := by
  unfold writeEc
  refine (requireConnected_runs _).then <| (checkRange_runs h1).then <| (checkRange_runs h2).then <| (setWe_runs _).then ?_
  simp only [weFits, Bool.and_eq_true] at h
  refine unbounded_runs fun fuel hf => ?_
  exact weRounds_runs m _ addr reads fuel 0 (Nat.le_of_lt (Nat.lt_of_le_of_lt (length_le_exchangeCount_we _ _ _) hf)) h.1
    (by simpa using h.2)

theorem weRounds_raises (m v : Byte) (addr : Nat) (k : Nat) (hk : cfg.writeEcLimit = some k) (reads : List Byte) :
    ∀ (fuel : Nat) (n : Nat), reads.length < fuel → n + reads.length = k → (∀ r ∈ reads, r &&& m ≠ v &&& m) →
    Raises cfg conn (weRounds m fuel ⟨BitVec.ofNat 16 addr, v, n⟩) (weScript cfg addr v reads) none none
      .deviceTimeout (.addr .writeEc (BitVec.ofNat 16 addr)) := by
  induction reads with
  | nil =>
    intro fuel n hf hn _
    obtain ⟨fuel, rfl⟩ : ∃ n, fuel = n + 1 := ⟨fuel - 1, by simp only [List.length_nil] at hf; omega⟩
    simp only [weRounds]
    refine Raises.get fun s hs => ?_
    rw [hs, hk, if_pos (by simpa [weLimitReached] using hn)]
    exact Raises.raise _ _
  | cons r reads ih =>
    intro fuel n hf hn he
    obtain ⟨fuel, rfl⟩ : ∃ n, fuel = n + 1 := ⟨fuel - 1, by simp only [List.length_cons] at hf; omega⟩
    simp only [weRounds, weScript, List.flatMap_cons, List.append_assoc]
    refine Raises.get fun s hs => ?_
    simp only [List.length_cons] at hn
    rw [hs, hk, if_neg (by simp [weLimitReached]; omega)]
    refine Raises.seq (memWrite_runs (BitVec.ofNat 16 addr) v)
      (Raises.seq (memRead1_runs (BitVec.ofNat 16 addr) r)
      (Raises.then (setWe_runs _) ?_))
    rw [if_neg (he r (by simp))]
    exact ih fuel (n + 1) (by simp only [List.length_cons] at hf; omega) (by omega) (fun x hx => he x (by simp [hx]))

end Sys2Proof.Machine
end

