-- ==== Sys2Proof/Laws/Connect.lean ====
section
/-!
SUPPORT. `connect`: the handshake and the header phase against their scripts, to a result and to an error, and what `connect` does
whatever the link answers.
-/

namespace Sys2Proof.Machine

variable {cfg : Params} {conn : Bool}

/-! ### The handshake (R151, R153) -/

theorem probe_runs (r : Byte) : Runs cfg conn probe [Cue.gives 0x9A r] none none r :=
  beginFrame_runs.then (xfer_gives _ _)

theorem handshakeLoop_runs (ph : HsPhase) (n : Nat) (magic : Byte) (replies : List Byte) : ∀ left attempts,
    replies.length ≤ left → endsAt (fun r => decide (r = magic)) replies = true →
    Runs cfg conn (handshakeLoop ph n magic left attempts) (probesScript replies) none none (attempts + replies.length) := by
  induction replies with
  | nil => intro left attempts _ h; simp [endsAt] at h
  | cons r rs ih =>
    intro left attempts hl he
    obtain ⟨left, rfl⟩ : ∃ m, left = m + 1 := ⟨left - 1, by simp only [List.length_cons] at hl; omega⟩
    simp only [handshakeLoop, probesScript, List.map_cons]
    refine Runs.seq (cs := [Cue.gives 0x9A r]) (probe_runs r) ((setHs_runs _).then ?_)
    cases rs with
    | nil =>
      have : r = magic := by simpa [endsAt] using he
      rw [if_pos this]; exact Runs.pure _
    | cons e rs =>
      simp only [endsAt, Bool.and_eq_true, Bool.not_eq_true', decide_eq_false_iff_not] at he
      rw [if_neg he.1]
      have := ih left (attempts + 1) (by simp only [List.length_cons] at hl ⊢; omega) he.2
      have e2 : attempts + 1 + (e :: rs).length = attempts + (r :: e :: rs).length := by simp only [List.length_cons]; omega
      rw [e2] at this
      exact this

theorem handshakeLoop_raises (ph : HsPhase) (n : Nat) (magic : Byte) (replies : List Byte) : ∀ left attempts,
    replies.length = left → (∀ r ∈ replies, r ≠ magic) →
    Raises cfg conn (handshakeLoop ph n magic left attempts) (probesScript replies) none none .notConnected (.phase n) := by
  induction replies with
  | nil => rintro left attempts rfl _; exact Raises.raise _ _
  | cons r rs ih =>
    rintro left attempts rfl he
    simp only [List.length_cons, handshakeLoop, probesScript, List.map_cons]
    refine Raises.seq (cs := [Cue.gives 0x9A r]) (probe_runs r) (Raises.then (setHs_runs _) ?_)
    rw [if_neg (he r (by simp))]
    exact ih _ _ rfl (fun x hx => he x (by simp [hx]))

theorem handshake_runs (ph : HsPhase) (n : Nat) (magic : Byte) {replies : List Byte} (hl : replies.length ≤ 100)
    (he : endsAt (fun r => decide (r = magic)) replies = true) :
    Runs cfg conn (handshake ph n magic) (probesScript replies) none none replies.length := by
  have := handshakeLoop_runs (cfg := cfg) (conn := conn) ph n magic replies Config.hsLimit 0 hl he
  rw [Nat.zero_add] at this
  exact (setHs_runs _).then this

theorem handshake_raises (ph : HsPhase) (n : Nat) (magic : Byte) {replies : List Byte} (hl : replies.length = 100)
    (he : ∀ r ∈ replies, r ≠ magic) :
    Raises cfg conn (handshake ph n magic) (probesScript replies) none none .notConnected (.phase n) :=
  Raises.then (setHs_runs _) (handshakeLoop_raises ph n magic replies _ 0 hl he)

/-! ### The header phase (R154 to R156) -/

theorem headerIn_runs {bytes : List Byte} (h : bytes.length = 23) :
    Runs cfg conn headerIn (bytes.map (Cue.gives cfg.fillByte)) none none bytes := by
  refine beginFrame_runs.then (Runs.get fun s hs => ?_)
  have := xferBlock_gives (cfg := cfg) (conn := conn) cfg.fillByte bytes
  rw [h] at this
  rw [hs]; exact this

/-- The terminator check and the header that it commits (R155, R156). -/
def checkHeader (bytes : List Byte) : Proc Header :=
  if bytes.getD Config.hdrLen 0 = Config.hdrTerm0 ∧ bytes.getD (Config.hdrLen + 1) 0 = Config.hdrTerm1 then
    pure (parseHeader (bytes.take Config.hdrLen))
  else raise .protocolError (.terminator (bytes.getD Config.hdrLen 0) (bytes.getD (Config.hdrLen + 1) 0))

theorem readHeader_eq (attempts : Nat) : readHeader attempts = (do
    setHs { phase := .hdr, attempts := attempts, bytes := [] }
    let bytes ← headerIn
    setHs { phase := .hdr, attempts := attempts, bytes := bytes }
    checkHeader bytes) := rfl

theorem checkHeader_built {P : Params} {rom ram : Bool} {K : ErrKind → Prop} (hk : K .protocolError) (bytes : List Byte) :
    Built P conn rom ram K (checkHeader bytes) := .ite (fun _ => .pure _) fun _ => .raise _ _ hk

theorem terminators {hdr : List Byte} {t0 t1 : Byte} (h : hdr.length = 21) :
    (hdr ++ [t0, t1]).getD Config.hdrLen 0 = t0 ∧ (hdr ++ [t0, t1]).getD (Config.hdrLen + 1) 0 = t1 ∧
      (hdr ++ [t0, t1]).take Config.hdrLen = hdr := by
  refine ⟨?_, ?_, ?_⟩
  · simp [Config.hdrLen, List.getD, h]
  · simp [Config.hdrLen, List.getD, h]
  · rw [show Config.hdrLen = hdr.length from h.symm]; simp

theorem readHeader_runs (attempts : Nat) {hdr : List Byte} (h : hdr.length = 21) :
    Runs cfg conn (readHeader attempts) ((hdr ++ [0x00, 0xFF]).map (Cue.gives cfg.fillByte)) none none (parseHeader hdr) := by
  have hd : Runs cfg conn (checkHeader (hdr ++ [0x00, 0xFF])) [] none none (parseHeader hdr) := by
    obtain ⟨e1, e2, e3⟩ := terminators (t0 := 0x00) (t1 := 0xFF) h
    unfold checkHeader
    rw [e1, e2, e3, if_pos ⟨rfl, rfl⟩]
    exact Runs.pure _
  rw [readHeader_eq]
  refine (setHs_runs _).then ?_
  have := Runs.seqL (headerIn_runs (cfg := cfg) (conn := conn) (bytes := hdr ++ [0x00, 0xFF]) (by simp [h]))
    (g := fun bytes => do setHs { phase := .hdr, attempts := attempts, bytes := bytes }; checkHeader bytes) ((setHs_runs _).then hd)
  simpa using this

theorem readHeader_raises (attempts : Nat) {hdr : List Byte} {t0 t1 : Byte} (h : hdr.length = 21) (ht : ¬ (t0 = 0x00 ∧ t1 = 0xFF)) :
    Raises cfg conn (readHeader attempts) ((hdr ++ [t0, t1]).map (Cue.gives cfg.fillByte)) none none .protocolError (.terminator t0 t1) := by
  have hd : Raises cfg conn (checkHeader (hdr ++ [t0, t1])) [] none none .protocolError (.terminator t0 t1) := by
    obtain ⟨e1, e2, e3⟩ := terminators (t0 := t0) (t1 := t1) h
    unfold checkHeader
    rw [e1, e2, if_neg (by exact ht)]
    exact Raises.raise _ _
  rw [readHeader_eq]
  refine Raises.then (setHs_runs _) ?_
  have := Raises.seq (headerIn_runs (cfg := cfg) (conn := conn) (bytes := hdr ++ [t0, t1]) (by simp [h]))
    (g := fun bytes => do setHs { phase := .hdr, attempts := attempts, bytes := bytes }; checkHeader bytes)
    (Raises.then (setHs_runs _) hd)
  simpa using this

/-! ### connect -/

/-- `connect` up to the header that it commits. -/
def connectRead : Proc Header := do
  let _ ← handshake .one 1 Config.hsMagic1
  settle
  let attempts ← handshake .two 2 Config.hsMagic2
  readHeader attempts

/-- The commit of the header. -/
def connectCommit (h : Header) : Proc Value := do
  modify fun s => { s with header := some h, connected := true }
  pure .unit

theorem connectBody_eq : connectBody = connectRead >>= connectCommit := by
  simp only [connectBody, connectRead, bind_assoc]
  rfl

/-- The commit of a successful `connect`. -/
theorem connect_ok {s t : State} {h : Header} (hc : s.connected = false) (e : connectRead s = .ok h t) :
    connect s = .ok .unit { t with header := some h, connected := true } := by
  have : connectBody s = .ok .unit { t with header := some h, connected := true } := by
    rw [connectBody_eq, bind_ok e]; rfl
  simp [connect, hc, disconnectOnError, this]

theorem connect_raised {s t : State} {k : ErrKind} {i : Info} (hc : s.connected = false) (e : connectRead s = .error (.raised k i) t) :
    connect s = .error (.raised k i) { t with connected := false, header := none } := by
  have : connectBody s = .error (.raised k i) t := by rw [connectBody_eq, bind_error e]
  simp [connect, hc, disconnectOnError, this]

theorem connect_cancelled {s t : State} (hc : s.connected = false) (e : connectRead s = .error .cancelled t) :
    connect s = .error .cancelled { t with connected := false, header := none } := by
  have : connectBody s = .error .cancelled t := by rw [connectBody_eq, bind_error e]
  simp [connect, hc, disconnectOnError, this]

theorem connect_waiting {s t : State} (hc : s.connected = false) (e : connectRead s = .error .waiting t) :
    connect s = .error .waiting t := by
  have : connectBody s = .error .waiting t := by rw [connectBody_eq, bind_error e]
  simp [connect, hc, disconnectOnError, this]

/-- The errors of `connect` (R420). -/
def connectKinds (k : ErrKind) : Prop := k = .notConnected ∨ k = .protocolError

theorem setHs_ends (K : ErrKind → Prop) (rom ram : Bool) (r : HsRegs) (s : State) : Ends K rom ram s (setHs r s) :=
  (Built.ends (P := s.cfg) (conn := s.connected) (.setHs r)) s rfl rfl

theorem checkHeader_ends (rom ram : Bool) (bytes : List Byte) (s : State) : Ends connectKinds rom ram s (checkHeader bytes s) :=
  (checkHeader_built (P := s.cfg) (conn := s.connected) (.inr rfl) bytes).ends s rfl rfl

theorem readHeader_ends (attempts : Nat) (s : State) : Ends connectKinds false false s (readHeader attempts s) :=
  Ends.bind (setHs_ends _ _ _ _ s) fun _ t _ => Ends.bind (headerIn_ends _ _ _ t) fun bytes u _ =>
    Ends.bind (setHs_ends _ _ _ _ u) fun _ v _ => checkHeader_ends _ _ bytes v

theorem connectRead_ends (s : State) : Ends connectKinds false false s (connectRead s) := by
  have hs : ∀ (ph : HsPhase) (n : Nat) (m : Byte) (s : State), Ends connectKinds false false s (handshake ph n m s) := fun ph n m s =>
    (Built.ends (P := s.cfg) (conn := s.connected) (handshake_built ph n m (.inl rfl))) s rfl rfl
  exact Ends.bind (hs _ _ _ s) fun _ t _ => Ends.bind (Ends.of_ok (Within.refl _ _ _)) fun _ u _ =>
    Ends.bind (hs _ _ _ u) fun a v _ => readHeader_ends a v

theorem connectRead_alike {C : Option Controller → Option Controller → Prop}
    (hrom : ∀ c d n, C c d → C (c.map fun x => { x with romShadow := some n }) (d.map fun x => { x with romShadow := some n }))
    (hram : ∀ c d n, C c d → C (c.map fun x => { x with ramShadow := some n }) (d.map fun x => { x with ramShadow := some n }))
    {s t : State} (h : Alike C s t) : AlikeEnds C (connectRead s) (connectRead t) := by
  have hs : ∀ (ph : HsPhase) (n : Nat) (m : Byte) {s t : State}, Alike C s t → AlikeEnds C (handshake ph n m s) (handshake ph n m t) :=
    fun ph n m s t h => (Built.alike (P := s.cfg) (conn := s.connected) (rom := true) (ram := true) (K := fun _ => True)
      (handshake_built ph n m trivial) hrom hram) s t rfl rfl h
  refine (hs _ _ _ h).bind fun _ s1 t1 _ h1 => AlikeEnds.bind (.ok () h1) fun _ s2 t2 _ h2 => (hs _ _ _ h2).bind fun a s3 t3 _ h3 => ?_
  exact AlikeEnds.bind (.ok () { h3 with hs := rfl }) fun _ s4 t4 _ h4 => (headerIn_alike h4).bind fun bytes s5 t5 _ h5 =>
    AlikeEnds.bind (.ok () { h5 with hs := rfl }) fun _ s6 t6 _ h6 =>
      (checkHeader_built (P := s6.cfg) (conn := s6.connected) (rom := true) (ram := true) (K := fun _ => True) trivial bytes).alike
        hrom hram s6 t6 rfl rfl h6

theorem connectRead_goesOn (ins : List LinkIn) (s : State) : GoesOn ins (connectRead s) (connectRead (s.supplyReplies ins)) := by
  have hs : ∀ (ph : HsPhase) (n : Nat) (m : Byte) (s : State), GoesOn ins (handshake ph n m s) (handshake ph n m (s.supplyReplies ins)) :=
    fun ph n m s => (Built.goesOn (P := s.cfg) (conn := s.connected) (rom := true) (ram := true) (K := fun _ => True)
      (handshake_built ph n m trivial) ins) s rfl rfl
  have ends : ∀ (ph : HsPhase) (n : Nat) (m : Byte) (s : State), Ends connectKinds false false s (handshake ph n m s) := fun ph n m s =>
    (Built.ends (P := s.cfg) (conn := s.connected) (handshake_built ph n m (.inl rfl))) s rfl rfl
  have tail : ∀ (a : Nat) (s : State), GoesOn ins (readHeader a s) (readHeader a (s.supplyReplies ins)) := by
    intro a s
    refine GoesOn.bind (p := setHs _) .of_ok (fun _ t _ => GoesOn.bind (headerIn_goesOn ins t) (fun bytes u _ =>
      GoesOn.bind (p := setHs _) .of_ok (fun _ v _ =>
        (checkHeader_built (P := v.cfg) (conn := v.connected) (rom := true) (ram := true) (K := fun _ => True) trivial bytes).goesOn ins v rfl rfl)
        (fun _ v _ => ?_)) (fun bytes u _ => ?_)) (fun _ t _ => ?_)
    · exact (checkHeader_ends true true bytes v).within.trace.imp fun _ h => h.1
    · exact (Ends.bind (setHs_ends connectKinds true true _ u) fun _ v _ => checkHeader_ends true true bytes v).within.trace.imp
        fun _ h => h.1
    · exact (Ends.bind (headerIn_ends connectKinds true true t) fun bytes u _ =>
        Ends.bind (setHs_ends connectKinds true true _ u) fun _ v _ => checkHeader_ends true true bytes v).within.trace.imp fun _ h => h.1
  refine (hs _ _ _ s).bind (fun _ t _ => GoesOn.bind (p := settle) .of_ok (fun _ u _ => (hs _ _ _ u).bind (fun a v _ => tail a v)
    (fun a v _ => (readHeader_ends a v).within.trace.imp fun _ h => h.1)) (fun _ u _ => ?_)) (fun _ t _ => ?_)
  · exact (Ends.bind (ends _ _ _ u) fun a v _ => readHeader_ends a v).within.trace.imp fun _ h => h.1
  · exact (Ends.bind (p := settle) (Ends.of_ok (Within.refl _ _ _)) fun _ u _ =>
      Ends.bind (ends _ _ _ u) fun a v _ => readHeader_ends a v).within.trace.imp fun _ h => h.1

end Sys2Proof.Machine
end

