-- ==== Sys2Proof/Laws/Protocol.lean ====
section
/-!
SUPPORT. The controller procedures against their scripts: TAMA5 registers, bank selection, RAM enable, EEPROM, clock, camera.
-/

namespace Sys2Proof.Machine

variable {cfg : Params} {conn : Bool}

/-! ### TAMA5 -/

theorem toByte_bits4 (x : BitVec 4) : toByte x.toNat = x.setWidth 8 := by
  simp [toByte]

theorem tama5WriteReg_runs {r nib : Nat} (h1 : r ≤ 15) (h2 : nib ≤ 15) :
    Runs cfg conn (tama5WriteReg r nib) (tama5WriteScript cfg (BitVec.ofNat 8 r) (BitVec.ofNat 8 nib)) none none () := by
  unfold tama5WriteReg
  refine (refuseIf_runs _ (by simp; omega)).then (Runs.get fun s hs => ?_)
  rw [hs]
  exact Runs.seq (memWrite_runs _ _) (memWrite_runs _ _)

theorem tama5WriteReg_runs4 (r : BitVec 4) {nib : Nat} (h2 : nib ≤ 15) :
    Runs cfg conn (tama5WriteReg r.toNat nib) (tama5WriteScript cfg (r.setWidth 8) (BitVec.ofNat 8 nib)) none none () := by
  have h := tama5WriteReg_runs (cfg := cfg) (conn := conn) (r := r.toNat) (nib := nib) (by omega) h2
  have e : BitVec.ofNat 8 r.toNat = r.setWidth 8 := toByte_bits4 r
  rwa [e] at h

theorem tama5ReadReg_runs {r : Nat} {limit : Option Nat} {reads : List Byte} (h1 : r ≤ 15) (h : byteFits cfg limit reads = true) :
    Runs cfg true (tama5ReadReg r limit) (tama5ReadScript cfg (BitVec.ofNat 8 r) reads) none none (byteOf reads &&& 0x0F) := by
  unfold tama5ReadReg
  refine (checkRange_runs h1).then (Runs.get fun s hs => ?_)
  rw [hs]
  exact Runs.seq (memWrite_runs _ _) ((readEc1_runs (by omega) h).map (fun d => d &&& 0x0F))

theorem tama5UnlockLoop_runs {limit : Option Nat} (polls : List (List Byte)) : ∀ left n : Nat, polls.length ≤ left →
    polls.all (byteFits cfg limit) = true → endsAt saysUnlocked polls = true →
    Runs cfg true (tama5UnlockLoop limit left n) (unlockScript cfg polls) none none () := by
  induction polls with
  | nil => intro left n _ _ h; simp [endsAt] at h
  | cons reads polls ih =>
    intro left n hl ha he
    obtain ⟨left, rfl⟩ : ∃ m, left = m + 1 := ⟨left - 1, by simp only [List.length_cons] at hl; omega⟩
    simp only [List.all_cons, Bool.and_eq_true] at ha
    simp only [tama5UnlockLoop, unlockScript, List.flatMap_cons, tama5ReadScript, List.append_assoc]
    refine Runs.get fun s hs => ?_
    rw [hs, toByte_bits4]
    refine Runs.seq (memWrite_runs _ _) (Runs.seq (readEc1_runs (by omega) ha.1) ((setPoll_runs _).then ?_))
    cases polls with
    | nil =>
      have : byteOf reads &&& 0x0F = 0x01 := by simpa [endsAt, saysUnlocked] using he
      rw [if_pos this]
      exact Runs.pure ()
    | cons e rest =>
      simp only [endsAt, saysUnlocked, Bool.and_eq_true, Bool.not_eq_true', decide_eq_false_iff_not] at he
      rw [if_neg he.1]
      exact ih left (n + 1) (by simp only [List.length_cons] at hl ⊢; omega) ha.2 he.2

theorem tama5Unlock_runs {limit : Option Nat} {polls : List (List Byte)} (h : unlockFits cfg limit polls = true) :
    Runs cfg true (tama5Unlock limit) (unlockScript cfg polls) none none () := by
  simp only [unlockFits, Bool.and_eq_true, decide_eq_true_eq] at h
  unfold tama5Unlock
  exact (setPoll_runs _).then (tama5UnlockLoop_runs polls _ _ (by simpa [Config.tama5UnlockLimit] using h.1.1) h.1.2 h.2)

theorem tama5UnlockLoop_raises {limit : Option Nat} (polls : List (List Byte)) : ∀ left n : Nat, polls.length = left →
    polls.all (byteFits cfg limit) = true → (∀ p ∈ polls, saysUnlocked p = false) →
    Raises cfg true (tama5UnlockLoop limit left n) (unlockScript cfg polls) none none .deviceTimeout
      (.polls .tama5Unlock (n + left)) := by
  induction polls with
  | nil => rintro left n rfl _ _; exact Raises.raise _ _
  | cons reads polls ih =>
    intro left n hl ha he
    obtain ⟨left, rfl⟩ : ∃ m, left = m + 1 := ⟨left - 1, by simp only [List.length_cons] at hl; omega⟩
    simp only [List.all_cons, Bool.and_eq_true] at ha
    simp only [tama5UnlockLoop, unlockScript, List.flatMap_cons, tama5ReadScript, List.append_assoc]
    refine Raises.get fun s hs => ?_
    rw [hs, toByte_bits4]
    refine Raises.seq (memWrite_runs _ _) (Raises.seq (readEc1_runs (by omega) ha.1) (Raises.then (setPoll_runs _) ?_))
    have h1 := he reads (by simp)
    rw [if_neg (by simpa [saysUnlocked] using h1)]
    have := ih left (n + 1) (by simpa using hl) ha.2 (fun p hp => he p (by simp [hp]))
    rwa [show n + 1 + left = n + (left + 1) by omega] at this

theorem tama5Cmd_eq (cmd : BitVec 3) {ta : Nat} (h : ta ≤ 31) : tama5Cmd cmd ta = 2 * cmd.toNat + ta / 16 := by
  have h1 : ta >>> 4 < 2 := by rw [Nat.shiftRight_eq_div_pow]; omega
  rw [tama5Cmd, ← Nat.shiftLeft_add_eq_or_of_lt (b := ta >>> 4) (i := 1) h1, Nat.shiftLeft_eq, Nat.shiftRight_eq_div_pow]
  omega

theorem and15 (n : Nat) : n &&& 0x0F = n % 16 := Nat.and_two_pow_sub_one_eq_mod n 4

theorem tama5RamRead_runs {ta : Nat} {limit : Option Nat} {lo hi : List Byte} (h : ta ≤ 31) (h1 : byteFits cfg limit lo = true)
    (h2 : byteFits cfg limit hi = true) :
    Runs cfg true (tama5RamRead ta limit) (tama5RamReadScript cfg ta lo hi) none none (nibbleByte lo hi) := by
  unfold tama5RamRead
  refine (checkRange_runs h).then (Runs.get fun s hs => ?_)
  rw [hs, tama5Cmd_eq _ h, and15]
  simp only [tama5RamReadScript, List.append_assoc]
  have hr : ∀ r : BitVec 4, BitVec.ofNat 8 r.toNat = r.setWidth 8 := toByte_bits4
  have e1 := tama5ReadReg_runs (cfg := cfg) (r := cfg.tama5RegRdLo.toNat) (by omega) h1
  have e2 := tama5ReadReg_runs (cfg := cfg) (r := cfg.tama5RegRdHi.toNat) (by omega) h2
  rw [hr] at e1 e2
  refine Runs.seq (tama5WriteReg_runs4 _ (by omega)) (Runs.seq (tama5WriteReg_runs4 _ (by omega)) (Runs.seq e1 ?_))
  exact e2.map (fun x => joinNibbles x (byteOf lo &&& 0x0F))

theorem toByte_nibbles (v : Byte) : BitVec.ofNat 8 (v.toNat &&& 0x0F) = v &&& 0x0F ∧ BitVec.ofNat 8 (v.toNat >>> 4) = v >>> 4 := by
  constructor
  · apply BitVec.eq_of_toNat_eq; simp
  · apply BitVec.eq_of_toNat_eq; simp; exact Nat.lt_of_le_of_lt (Nat.shiftRight_le _ _) v.isLt

theorem tama5RamWrite_runs {ta : Nat} (v : Byte) (h : ta ≤ 31) :
    Runs cfg conn (tama5RamWrite ta v.toNat) (tama5RamWriteScript cfg ta v) none none () := by
  unfold tama5RamWrite
  refine (refuseIf_runs _ (by simp; omega)).then (Runs.get fun s hs => ?_)
  rw [hs, tama5Cmd_eq _ h, and15 ta]
  simp only [tama5RamWriteScript, List.append_assoc]
  have h1 := tama5WriteReg_runs4 (cfg := cfg) (conn := conn) cfg.tama5RegWrLo (nib := v.toNat &&& 0x0F) (by rw [and15]; omega)
  have h2 := tama5WriteReg_runs4 (cfg := cfg) (conn := conn) cfg.tama5RegWrHi (nib := v.toNat >>> 4)
    (by rw [Nat.shiftRight_eq_div_pow]; omega)
  rw [(toByte_nibbles v).1] at h1
  rw [(toByte_nibbles v).2] at h2
  exact Runs.seq h1 (Runs.seq h2 (Runs.seq (tama5WriteReg_runs4 _ (by omega)) (tama5WriteReg_runs4 _ (by omega))))

theorem selectRomTama5_runs {n : Nat} {polls : List (List Byte)} (h : n ≤ 0xFF) (hu : unlockFits cfg none polls = true) :
    Runs cfg true (selectRomTama5 n) (romSelectScript cfg .tama5 polls n) (some n) none () := by
  unfold selectRomTama5
  simp only [romSelectScript]
  refine (checkRange_runs h).then ?_
  have e : n >>> 4 = n / 16 := Nat.shiftRight_eq_div_pow n 4
  rw [List.append_assoc]
  refine Runs.seq (tama5Unlock_runs hu) (Runs.get fun s hs => ?_)
  rw [hs, and15, and15, e, Nat.mod_eq_of_lt (a := n / 16) (by omega)]
  refine Runs.seq (tama5WriteReg_runs4 _ (by omega)) ?_
  have := Runs.seq (tama5WriteReg_runs4 (cfg := cfg) (conn := true) cfg.tama5RegRomHi (nib := n / 16) (by omega))
    (g := fun _ => setRomShadow n) (setRomShadow_runs n)
  simpa using this

/-! ### Bank selection (R118) -/

/-- The largest bank number of the variant's ROM select is within the check of its procedure. -/
theorem selectRomBank_runs {v : Variant} {n : Nat} {polls : List (List Byte)} (h : n ≤ maxRomBank v)
    (hu : v = .tama5 → unlockFits cfg none polls = true) :
    Runs cfg true (selectRomBank v n) (romSelectScript cfg v polls n) (some n) (romSelectRam v n) () := by
  have last : ∀ (a : U16) (b : Byte), Runs cfg true (do memWrite a b; setRomShadow n) (writeScript a b) (some n) none () := by
    intro a b
    simpa using Runs.seq (memWrite_runs (cfg := cfg) (conn := true) a b) (g := fun _ => setRomShadow n) (setRomShadow_runs n)
  cases v with
  | base => exact (checkRange_runs h).then (setRomShadow_runs n)
  | mbc1 =>
    simp only [maxRomBank] at h
    have e1 : n &&& 0x1F = n % 32 := Nat.and_two_pow_sub_one_eq_mod n 5
    have e2 : n >>> 5 = n / 32 := Nat.shiftRight_eq_div_pow n 5
    have e3 : (n / 32) &&& 0xFF = n / 32 := by
      rw [show (0xFF : Nat) = 2 ^ 8 - 1 from rfl, Nat.and_two_pow_sub_one_eq_mod]; exact Nat.mod_eq_of_lt (by omega)
    refine (checkRange_runs h).then (Runs.get fun s hs => ?_)
    rw [hs]
    simp only [low5, high5, toByte, e1, e2, e3, romSelectScript, List.append_assoc]
    refine Runs.seq (memWrite_runs _ _) (Runs.seq (memWrite_runs _ _) ?_)
    have hsh := (setRomShadow_runs (cfg := cfg) (conn := true) n).bind (g := fun _ => setRamShadow (n / 32)) (setRamShadow_runs (n / 32))
    simpa [romSelectRam] using Runs.seq (memWrite_runs (cfg := cfg) (conn := true) 0x6000 cfg.mbc1ModeValue)
      (g := fun _ => do setRomShadow n; setRamShadow (n / 32)) hsh
  | mbc2 => exact (checkRange_runs h).then (last _ _)
  | mbc3 => exact (checkRange_runs h).then (last _ _)
  | mbc5 =>
    simp only [maxRomBank] at h
    have e1 : n &&& 0xFF = n % 256 := Nat.and_two_pow_sub_one_eq_mod n 8
    have e2 : n >>> 8 = n / 256 := Nat.shiftRight_eq_div_pow n 8
    have e3 : (n / 256) &&& 0x01 = n / 256 := by
      rw [show (0x01 : Nat) = 2 ^ 1 - 1 from rfl, Nat.and_two_pow_sub_one_eq_mod]; exact Nat.mod_eq_of_lt (by omega)
    refine (checkRange_runs h).then ?_
    simp only [toByte, e1, e2, e3, romSelectScript]
    exact Runs.seq (memWrite_runs _ _) (last _ _)
  | mbc6 =>
    refine (checkRange_runs h).then (Runs.get fun s hs => ?_)
    rw [hs]
    exact last _ _
  | mbc7 => exact (checkRange_runs h).then (last _ _)
  | camera => exact (checkRange_runs h).then (last _ _)
  | tama5 => exact selectRomTama5_runs h (hu rfl)

theorem selectRamBank_runs {v : Variant} {n : Nat} (h : n ≤ 0xFF) :
    Runs cfg conn (selectRamBank v n) (ramSelectScript cfg v n) none (some n) () := by
  have last : ∀ (a : U16) (b : Byte), Runs cfg conn (do memWrite a b; setRamShadow n) (writeScript a b) none (some n) () := by
    intro a b
    simpa using Runs.seq (memWrite_runs (cfg := cfg) (conn := conn) a b) (g := fun _ => setRamShadow n) (setRamShadow_runs n)
  cases v with
  | base => exact (checkRange_runs h).then (last _ _)
  | mbc1 =>
    refine (checkRange_runs h).then (Runs.get fun s hs => ?_)
    rw [hs]
    exact Runs.seq (memWrite_runs _ _) (last _ _)
  | mbc2 => exact (checkRange_runs h).then (setRamShadow_runs n)
  | mbc3 => exact (checkRange_runs h).then (last _ _)
  | mbc5 => exact (checkRange_runs h).then (last _ _)
  | mbc6 =>
    refine (checkRange_runs h).then (Runs.get fun s hs => ?_)
    rw [hs]
    exact last _ _
  | mbc7 => exact (checkRange_runs h).then (last _ _)
  | camera => exact (checkRange_runs h).then (last _ _)
  | tama5 => exact (checkRange_runs h).then (setRamShadow_runs n)

theorem enableRam_runs (v : Variant) : Runs cfg conn (enableRam v) (enableScript cfg v) none (enableRamShadow v) () := by
  unfold enableRam
  refine Runs.get fun s hs => ?_
  rw [hs]
  by_cases hv : v = .mbc7
  · subst hv
    simpa [enableRamShadow, enableScript] using
      Runs.seq (ctrlWrites_runs (cfg := cfg) (conn := conn) (ramEnableSeq cfg.ramEnableSeq .mbc7))
        (g := fun _ => setRamShadow 0x40) (setRamShadow_runs 0x40)
  · simp only [if_neg hv, enableRamShadow]
    simpa [enableScript] using
      Runs.seq (ctrlWrites_runs (cfg := cfg) (conn := conn) (ramEnableSeq cfg.ramEnableSeq v))
        (g := fun _ => pure ()) (Runs.pure ())

/-! ### EEPROM -/

theorem eePortValue_low (b : Bool) : eePortValue cfg false b = cfg.eeCs ||| (if b then cfg.eeDi else 0) := by
  simp [eePortValue]

theorem eeShiftIn_runs (b : Bool) : Runs cfg conn (eeShiftIn b) (eeBitScript cfg b) none none () := by
  unfold eeShiftIn
  refine Runs.get fun s hs => ?_
  rw [hs, eePortValue_low]
  exact Runs.seq (memWrite_runs _ _) (memWrite_runs _ _)

/-- The response bit of R331, whatever the other bits of the reply are. -/
theorem eeResponse_runs (b : Bool) :
    Runs cfg conn (do let r ← memRead1 cfg.eeReg; pure (decide (r &&& cfg.eeDo ≠ 0)))
      [Cue.free 0x59, Cue.free (hi8 cfg.eeReg), Cue.free (lo8 cfg.eeReg), Cue.free 0x00, Cue.free 0x01,
        .ask cfg.fillByte cfg.eeDo 0 (!b)] none none b := by
  have hx : RunsTo cfg conn (dataIn 1) [.ask cfg.fillByte cfg.eeDo 0 (!b)] none none
      (fun d => decide (d.headD 0 &&& cfg.eeDo ≠ 0) = b) := by
    unfold dataIn
    refine RunsTo.get fun s hs => ?_
    rw [hs]
    intro s hc hn hs
    obtain ⟨r, hr, hx⟩ := xfer_runs _ _ _ _ s hs
    refine ⟨[r], _, ?_, (bind_ok hx).trans rfl, by simp⟩
    simp only [cueFits] at hr
    have e : (0 : Byte) &&& cfg.eeDo = 0 := by simp
    rw [e] at hr
    simp only [List.headD_cons, ne_eq]
    cases b
    · simp at hr
      exact decide_eq_false (fun h => h hr)
    · simp at hr
      exact decide_eq_true hr
  have hm : RunsTo cfg conn (memRead cfg.eeReg 1) ([Cue.free 0x59, Cue.free (hi8 cfg.eeReg), Cue.free (lo8 cfg.eeReg),
      Cue.free 0x00, Cue.free 0x01] ++ [.ask cfg.fillByte cfg.eeDo 0 (!b)]) none none
      (fun d => decide (d.headD 0 &&& cfg.eeDo ≠ 0) = b) := by
    unfold memRead
    refine beginFrame_runs.thenTo ?_
    have h3 := (xferBlock_free (cfg := cfg) (conn := conn) (readFrameBytes cfg.eeReg 1)).seqTo (g := fun _ => dataIn 1)
      (fun _ _ => hx)
    exact h3
  have h1 : RunsTo cfg conn (memRead1 cfg.eeReg) ([Cue.free 0x59, Cue.free (hi8 cfg.eeReg), Cue.free (lo8 cfg.eeReg),
      Cue.free 0x00, Cue.free 0x01] ++ [.ask cfg.fillByte cfg.eeDo 0 (!b)]) none none
      (fun x => decide (x &&& cfg.eeDo ≠ 0) = b) := by
    unfold memRead1
    have := hm.seqTo (g := fun d => pure (d.headD 0)) (R := fun x => decide (x &&& cfg.eeDo ≠ 0) = b)
      (fun a ha => (Runs.pure _).to ha)
    simpa using this
  have := h1.seq (g := fun r => pure (decide (r &&& cfg.eeDo ≠ 0))) (b := b) (fun a ha => by rw [ha]; exact Runs.pure b)
  simpa using this

theorem eeShiftInout_runs (out b : Bool) : Runs cfg conn (eeShiftInout out) (eeInoutScript cfg out b) none none b := by
  unfold eeShiftInout
  refine Runs.seq (eeShiftIn_runs out) (Runs.get fun s hs => ?_)
  rw [hs]
  exact eeResponse_runs b

theorem msbFirst_eq (value count : Nat) : msbFirst value count = bitsDown value count := by
  induction count with
  | zero => rfl
  | succ n ih =>
    rw [msbFirst, ih, bitsDown, bitsDown, List.range_succ_eq_map, List.map_cons, List.map_map]
    congr 1
    apply List.map_congr_left
    intro i hi
    simp only [Function.comp_def, Nat.add_sub_cancel, Nat.succ_eq_add_one]
    congr 1; omega

theorem eeSendLoop_runs (w : U16) (bs : List Bool) : ∀ n : Nat, Runs cfg conn (eeSendLoop w bs n) (eeBitsScript cfg bs) none none () := by
  induction bs with
  | nil => intro n; exact Runs.pure ()
  | cons b bs ih =>
    intro n
    simp only [eeSendLoop, eeBitsScript, List.flatMap_cons]
    exact Runs.seq (eeShiftIn_runs b) ((setEe_runs _).then (ih (n + 1)))

theorem eeSendBits_runs (value count : Nat) :
    Runs cfg conn (eeSendBits value count) (eeBitsScript cfg (bitsDown value count)) none none () := by
  unfold eeSendBits
  rw [msbFirst_eq]
  exact (setEe_runs _).then (eeSendLoop_runs _ _ _)

/-- The word whose bits were received so far, then the bits still to come. -/
theorem eeRecvLoop_runs (w : U16) (count : Nat) : ∀ r : EeRegs, count ≤ 16 → r.word = w >>> count →
    Runs cfg conn (eeRecvLoop count r) ((bitsDown w.toNat count).flatMap (eeInoutScript cfg false)) none none w := by
  induction count with
  | zero =>
    intro r _ hr
    simp only [eeRecvLoop]
    have : r.word = w := by simpa using hr
    rw [this]
    exact Runs.pure w
  | succ n ih =>
    intro r hn hr
    have e : bitsDown w.toNat (n + 1) = w.toNat.testBit n :: bitsDown w.toNat n := by
      rw [← msbFirst_eq, ← msbFirst_eq]; rfl
    rw [e, List.flatMap_cons]
    simp only [eeRecvLoop]
    refine Runs.seq (eeShiftInout_runs false _) ((setEe_runs _).then ?_)
    refine ih _ (by omega) ?_
    show (r.word <<< 1) ||| (if w.toNat.testBit n then 1 else 0) = w >>> n
    rw [hr]
    apply BitVec.eq_of_getLsbD_eq
    intro i hi
    simp only [BitVec.getLsbD_or, BitVec.getLsbD_shiftLeft, BitVec.getLsbD_ushiftRight, hi, decide_true, Bool.true_and]
    rcases Nat.eq_zero_or_pos i with rfl | hp
    · simp only [Nat.lt_one_iff, decide_true, Bool.not_true, Bool.false_and, Bool.false_or, Nat.add_zero]
      rw [← BitVec.testBit_toNat]
      cases hb : w.toNat.testBit n <;> (simp [← BitVec.testBit_toNat, hb])
    · have : decide (i < 1) = false := by simp; omega
      rw [this]
      have h2 : (if w.toNat.testBit n = true then (1 : U16) else 0).getLsbD i = false := by
        cases w.toNat.testBit n <;> simp <;> omega
      rw [h2]
      simp only [Bool.not_false, Bool.true_and, Bool.or_false]
      congr 1; omega

theorem eeRecvBits_runs (w : U16) :
    Runs cfg conn (eeRecvBits 16) ((bitsDown w.toNat 16).flatMap (eeInoutScript cfg false)) none none w := by
  unfold eeRecvBits
  refine (setEe_runs _).then (eeRecvLoop_runs w 16 _ (by omega) ?_)
  show (0 : U16) = w >>> 16
  apply BitVec.eq_of_toNat_eq
  simp [BitVec.toNat_ushiftRight, Nat.shiftRight_eq_div_pow]
  omega

theorem eeInitSteps_runs (steps : List EeInitStep) :
    Runs cfg conn (eeInitSteps steps) (steps.flatMap (eeStepScript cfg)) none none () := by
  induction steps with
  | nil => exact Runs.pure ()
  | cons st steps ih =>
    cases st with
    | write w => exact Runs.seq (memWrite_runs _ _) ih
    | shift b => exact Runs.seq (eeShiftIn_runs b) ih

theorem eeCommand_runs (cls : BitVec 2) (field : Byte) :
    Runs cfg conn (eeCommand cls field) (eeCommandScript cfg cls field) none none () := by
  unfold eeCommand eeCommandScript eeInitScript
  rw [List.append_assoc]
  have hstart : Runs cfg conn eeStart (cfg.eeInit.flatMap (eeStepScript cfg)) none none () :=
    Runs.get fun s hs => by rw [hs]; exact eeInitSteps_runs _
  exact Runs.seq hstart (Runs.seq (eeSendBits_runs _ _) (eeSendBits_runs _ _))

theorem eeSubField_eq (sub : BitVec 2) : eeSubField sub = sub ++ (0 : BitVec 6) := by
  revert sub; decide

theorem eeSub_runs (sub : BitVec 2) : Runs cfg conn (eeCommand 0b00 (eeSubField sub)) (eeSubScript cfg sub) none none () := by
  rw [eeSubField_eq]; exact eeCommand_runs _ _

theorem eepromWaitLoop_runs (zeros : Nat) : ∀ left n : Nat, zeros < left →
    Runs cfg conn (eepromWaitLoop left n) ((List.replicate zeros (eeInoutScript cfg false false)).flatten ++
      eeInoutScript cfg false true) none none () := by
  induction zeros with
  | zero =>
    intro left n hl
    obtain ⟨left, rfl⟩ : ∃ m, left = m + 1 := ⟨left - 1, by omega⟩
    simp only [eepromWaitLoop, List.replicate_zero, List.flatten_nil, List.nil_append]
    have := Runs.seq (eeShiftInout_runs (cfg := cfg) (conn := conn) false true) (g := fun b => do
      setPoll (n + 1); if b = true then pure () else eepromWaitLoop left (n + 1)) ((setPoll_runs _).then (Runs.pure ()))
    simpa using this
  | succ z ih =>
    intro left n hl
    obtain ⟨left, rfl⟩ : ∃ m, left = m + 1 := ⟨left - 1, by omega⟩
    simp only [eepromWaitLoop, List.replicate_succ, List.flatten_cons, List.append_assoc]
    refine Runs.seq (eeShiftInout_runs false false) ((setPoll_runs _).then ?_)
    simpa using ih left (n + 1) (by omega)

theorem eepromWait_runs {zeros : Nat} (h : zeros < cfg.eepromWaitLimit) :
    Runs cfg conn eepromWait (eeWaitScript cfg zeros) none none () := by
  unfold eepromWait eeWaitScript
  refine Runs.get fun s hs => ?_
  rw [hs, List.append_assoc]
  exact Runs.seq (ctrlWrites_runs _) ((setPoll_runs _).then (eepromWaitLoop_runs zeros _ _ h))

theorem eepromWaitLoop_raises : ∀ left n : Nat,
    Raises cfg conn (eepromWaitLoop left n) (List.replicate left (eeInoutScript cfg false false)).flatten none none
      .deviceTimeout (.polls .eepromWait (n + left)) := by
  intro left
  induction left with
  | zero => intro n; exact Raises.raise _ _
  | succ left ih =>
    intro n
    simp only [eepromWaitLoop, List.replicate_succ, List.flatten_cons]
    refine Raises.seq (eeShiftInout_runs false false) (Raises.then (setPoll_runs _) ?_)
    have := ih (n + 1)
    rw [show n + 1 + left = n + (left + 1) by omega] at this
    simpa using this

theorem eepromWait_raises :
    Raises cfg conn eepromWait (eeWaitFailScript cfg) none none .deviceTimeout (.polls .eepromWait cfg.eepromWaitLimit) := by
  unfold eepromWait eeWaitFailScript
  refine Raises.get fun s hs => ?_
  rw [hs]
  have := eepromWaitLoop_raises (cfg := cfg) (conn := conn) cfg.eepromWaitLimit 0
  rw [Nat.zero_add] at this
  exact Raises.seq (ctrlWrites_runs _) (Raises.then (setPoll_runs _) this)

theorem eepromRead_runs {a : Nat} (w : U16) (h : a ≤ 127) :
    Runs cfg conn (eepromRead a) (eeReadScript cfg a w) none none w := by
  unfold eepromRead eeReadScript
  refine (checkRange_runs h).then (Runs.get fun s hs => ?_)
  rw [hs]
  exact Runs.seq (eeCommand_runs _ _) (eeRecvBits_runs w)

theorem eepromWrite_runs {a zeros : Nat} (w : U16) (h : a ≤ 127) (hz : zeros < cfg.eepromWaitLimit) :
    Runs cfg conn (eepromWrite a w.toNat) (eeWriteScript cfg a w zeros) none none () := by
  unfold eepromWrite eeWriteScript
  refine (refuseIf_runs _ (by simp; omega)).then (Runs.get fun s hs => ?_)
  rw [hs, List.append_assoc]
  exact Runs.seq (eeCommand_runs _ _) (Runs.seq (eeSendBits_runs _ _) (eepromWait_runs hz))

theorem eepromErase_runs {a zeros : Nat} (h : a ≤ 127) (hz : zeros < cfg.eepromWaitLimit) :
    Runs cfg conn (eepromErase a) (eeEraseScript cfg a zeros) none none () := by
  unfold eepromErase eeEraseScript
  refine (checkRange_runs h).then (Runs.get fun s hs => ?_)
  rw [hs]
  exact Runs.seq (eeCommand_runs _ _) (eepromWait_runs hz)

theorem eepromEwen_runs : Runs cfg conn eepromEwen (eeSubScript cfg cfg.eeSubEwen) none none () :=
  Runs.get fun s hs => by rw [hs]; exact eeSub_runs _

theorem eepromEwds_runs : Runs cfg conn eepromEwds (eeSubScript cfg cfg.eeSubEwds) none none () :=
  Runs.get fun s hs => by rw [hs]; exact eeSub_runs _

theorem eepromEral_runs {zeros : Nat} (hz : zeros < cfg.eepromWaitLimit) :
    Runs cfg conn eepromEral (eeEralScript cfg zeros) none none () :=
  Runs.get fun s hs => by rw [hs]; exact Runs.seq (eeSub_runs _) (eepromWait_runs hz)

theorem eepromWral_runs {zeros : Nat} (w : U16) (hz : zeros < cfg.eepromWaitLimit) :
    Runs cfg conn (eepromWral w.toNat) (eeWralScript cfg w zeros) none none () := by
  unfold eepromWral eeWralScript
  refine (checkRange_runs (by omega)).then (Runs.get fun s hs => ?_)
  rw [hs, List.append_assoc]
  exact Runs.seq (eeSub_runs _) (Runs.seq (eeSendBits_runs _ _) (eepromWait_runs hz))

/-! ### Clock and camera -/

theorem cameraPollLoop_runs {limit : Option Nat} (polls : List (List Byte)) : ∀ left n : Nat, polls.length ≤ left →
    polls.all (byteFits cfg limit) = true → endsAt (fun p => decide (byteOf p &&& 0x01 = 0)) polls = true →
    Runs cfg true (cameraPollLoop limit left n) (polls.flatMap (byteScript cfg 0xA000)) none none () := by
  induction polls with
  | nil => intro left n _ _ h; simp [endsAt] at h
  | cons reads polls ih =>
    intro left n hl ha he
    obtain ⟨left, rfl⟩ : ∃ m, left = m + 1 := ⟨left - 1, by simp only [List.length_cons] at hl; omega⟩
    simp only [List.all_cons, Bool.and_eq_true] at ha
    simp only [cameraPollLoop, List.flatMap_cons]
    refine Runs.seq (readEc1_runs (by decide) ha.1) ((setPoll_runs _).then ?_)
    cases polls with
    | nil =>
      have : byteOf reads &&& 0x01 = 0 := by simpa [endsAt] using he
      rw [if_pos this]
      exact Runs.pure ()
    | cons e rest =>
      simp only [endsAt, Bool.and_eq_true, Bool.not_eq_true', decide_eq_false_iff_not] at he
      rw [if_neg he.1]
      exact ih left (n + 1) (by simp only [List.length_cons] at hl ⊢; omega) ha.2 he.2

theorem cameraPollLoop_raises {limit : Option Nat} (polls : List (List Byte)) : ∀ left n : Nat, polls.length = left →
    polls.all (byteFits cfg limit) = true → (∀ p ∈ polls, byteOf p &&& 0x01 ≠ 0) →
    Raises cfg true (cameraPollLoop limit left n) (polls.flatMap (byteScript cfg 0xA000)) none none .deviceTimeout
      (.polls .takePhoto (n + left)) := by
  induction polls with
  | nil => rintro left n rfl _ _; exact Raises.raise _ _
  | cons reads polls ih =>
    intro left n hl ha he
    obtain ⟨left, rfl⟩ : ∃ m, left = m + 1 := ⟨left - 1, by simp only [List.length_cons] at hl; omega⟩
    simp only [List.all_cons, Bool.and_eq_true] at ha
    simp only [cameraPollLoop, List.flatMap_cons]
    refine Raises.seq (readEc1_runs (by decide) ha.1) (Raises.then (setPoll_runs _) ?_)
    rw [if_neg (he reads (by simp))]
    have := ih left (n + 1) (by simpa using hl) ha.2 (fun p hp => he p (by simp [hp]))
    rwa [show n + 1 + left = n + (left + 1) by omega] at this

end Sys2Proof.Machine
end

