-- ==== Sys2Proof/Laws/Image.lean ====
section
/-!
SUPPORT. The dumps and restores against their scripts.
-/

namespace Sys2Proof.Machine

variable {cfg : Params} {conn : Bool}

/-! ### dump_rom -/

theorem emitProgress_runs (progress : Bool) (k : Nat) (b : List Byte) :
    Runs cfg conn (emitProgress progress k b) (reportScript progress k b) none none () := by
  cases progress with
  | false => exact Runs.pure ()
  | true => exact fun s _ _ _ => ⟨_, rfl, by simp [reportScript, State.plays]⟩

/-- The last bank that a dump selects. -/
def lastBank (k n : Nat) : Option Nat := if n = 0 then none else some (k + n - 1)

/-- The MBC1 RAM shadow after a dump. -/
def lastRam (v : Variant) (k n : Nat) : Option Nat := if n = 0 then none else romSelectRam v (k + n - 1)

theorem romSelectRam_or (v : Variant) (a b : Nat) : (romSelectRam v a).or (romSelectRam v b) = romSelectRam v a := by
  simp only [romSelectRam]; split <;> simp

theorem lastBank_or (k n : Nat) : (lastBank (k + 1) n).or (some k) = lastBank k (n + 1) := by
  cases n <;> simp [lastBank]; omega

theorem lastRam_or (v : Variant) (k n : Nat) : (lastRam v (k + 1) n).or (romSelectRam v k) = lastRam v k (n + 1) := by
  cases n with
  | zero => simp [lastRam]
  | succ n =>
    simp only [lastRam, Nat.add_eq_zero_iff, one_ne_zero, and_false, if_false, romSelectRam_or]
    congr 1; omega

theorem dumpBanks_runs {v : Variant} {select : Nat → Proc Unit} {window : Nat → Nat} {size : Nat} {progress : Bool}
    {limit : Option Nat} {polls : List (List Byte)} (banks : List EcReads) : ∀ k : Nat,
    (∀ n, k ≤ n → n < k + banks.length → Runs cfg true (select n) (romSelectScript cfg v polls n) (some n) (romSelectRam v n) ()) →
    (∀ n, k ≤ n → n < k + banks.length → window n = romWindow v n) → size ≤ 0x8000 →
    (∀ b ∈ banks, ecFits cfg limit size b = true) →
    Runs cfg true (dumpBanks select window size progress limit (List.range' k banks.length))
      (banksScript cfg v polls progress k banks) (lastBank k banks.length) (lastRam v k banks.length) (banksBytes banks) := by
  induction banks with
  | nil => intro k _ _ _ _; exact Runs.pure []
  | cons b banks ih =>
    intro k hsel hwin hsz hfit
    simp only [List.length_cons, List.range'_succ, dumpBanks, banksScript, List.append_assoc]
    have hw : romWindow v k ≤ 0x4000 := by simp only [romWindow]; split <;> omega
    have hread := readEc_runs (cfg := cfg) (limit := limit) (addr := romWindow v k) (size := size) (chunks := b) (by omega) (by omega)
      (hfit b (by simp))
    rw [← hwin k (Nat.le_refl _) (by simp)] at hread ⊢
    have hrest := ih (k + 1) (fun n h1 h2 => hsel n (by omega) (by simp only [List.length_cons]; omega))
      (fun n h1 h2 => hwin n (by omega) (by simp only [List.length_cons]; omega)) hsz (fun x hx => hfit x (by simp [hx]))
    have h := (hsel k (Nat.le_refl _) (by simp)).bind (g := fun _ => do
        let b ← readEc (window k) size limit
        emitProgress progress k b
        let rest ← dumpBanks select window size progress limit (List.range' (k + 1) banks.length)
        pure (b ++ rest))
      (Runs.seq hread (Runs.seq (emitProgress_runs progress k (ecBytes b)) (hrest.map (fun rest => ecBytes b ++ rest))))
    rw [lastBank_or, lastRam_or] at h
    simpa [banksBytes] using h

theorem dumpRom_runs {v : Variant} {window : Nat → Nat} {progress : Bool} {limit : Option Nat} {polls : List (List Byte)}
    {count : Nat} {bank0 : EcReads} {banks : List EcReads} (hcount : count = banks.length + 1) (hmax : banks.length ≤ maxRomBank v)
    (hwin : ∀ n, 1 ≤ n → n < 1 + banks.length → window n = romWindow v n)
    (hu : v = .tama5 → banks ≠ [] → unlockFits cfg none polls = true) (h0 : ecFits cfg limit 0x4000 bank0 = true)
    (hb : ∀ b ∈ banks, ecFits cfg limit 0x4000 b = true) :
    Runs cfg true (dumpRom v window count progress limit) (dumpRomScript cfg v polls progress bank0 banks)
      (lastBank 1 banks.length) (lastRam v 1 banks.length) (banksBytes (bank0 :: banks)) := by
  unfold dumpRom dumpRomScript
  subst hcount
  rw [Nat.add_sub_cancel, List.append_assoc]
  have hrest := dumpBanks_runs (cfg := cfg) (v := v) (select := selectRomBank v) (window := window) (size := Config.romBankSize)
    (progress := progress) (limit := limit) (polls := polls) banks 1
    (fun n h1 h2 => selectRomBank_runs (by omega) (fun hv => hu hv (by rintro rfl; simp at h2; omega))) hwin (by decide)
    (by simpa [Config.romBankSize] using hb)
  have h := Runs.seq (readEc_runs (cfg := cfg) (addr := Config.romWin0) (size := Config.romBankSize) (by decide) (by decide) h0)
    (g := fun b => do
      emitProgress progress 0 b
      let rest ← dumpBanks (selectRomBank v) window Config.romBankSize progress limit (List.range' 1 banks.length)
      pure (b ++ rest))
    (Runs.seq (emitProgress_runs progress 0 (ecBytes bank0)) (hrest.map (fun rest => ecBytes bank0 ++ rest)))
  simpa [banksBytes, Config.romWin0] using h

theorem dumpRomMbc6_runs {progress : Bool} {limit : Option Nat} {count : Nat} {blocks : List EcReads}
    (hcount : 2 * count = blocks.length) (hmax : blocks.length ≤ 0x100) (hsz : cfg.mbc6RomBlock ≤ 0x8000)
    (hb : ∀ b ∈ blocks, ecFits cfg limit cfg.mbc6RomBlock b = true) :
    Runs cfg true (dumpRomMbc6 count progress limit) (banksScript cfg .mbc6 [] progress 0 blocks)
      (lastBank 0 blocks.length) none (banksBytes blocks) := by
  unfold dumpRomMbc6
  refine Runs.get fun s hs => ?_
  rw [hs, hcount, List.range_eq_range']
  have h := dumpBanks_runs (cfg := cfg) (v := .mbc6) (select := selectRomMbc6) (window := stdWindow) (size := cfg.mbc6RomBlock)
    (progress := progress) (limit := limit) (polls := []) blocks 0
    (fun n h1 h2 => selectRomBank_runs (cfg := cfg) (v := .mbc6) (n := n) (polls := []) (by simp only [maxRomBank]; omega) (by simp))
    (fun n _ _ => by simp [stdWindow, romWindow, Config.romWinX]) hsz hb
  have e : lastRam .mbc6 0 blocks.length = none := by simp [lastRam, romSelectRam]
  rwa [e] at h

/-! ### dump_ram -/

/-- The last RAM bank selected for windows `i` to `i + n − 1`. -/
def lastRamBank (per i : Nat) : Nat → Option Nat
  | 0 => none
  | n + 1 => (lastRamBank per (i + 1) n).or (if i % per = 0 then some (i / per) else none)

/-- The last RAM bank selected is the one of the last window. -/
theorem lastRamBank_eq {per : Nat} (hp : 0 < per) (n : Nat) : ∀ i : Nat, i % per = 0 →
    lastRamBank per i (n + 1) = some ((i + n) / per) := by
  have key : ∀ n i : Nat, (lastRamBank per i n).or (some ((i - 1) / per)) = some ((i + n - 1) / per) ∨ i = 0 := by
    intro n
    induction n with
    | zero => intro i; left; simp [lastRamBank]
    | succ n ih =>
      intro i
      rcases Nat.eq_zero_or_pos i with h | h
      · exact Or.inr h
      · left
        rcases ih (i + 1) with h1 | h1
        · simp only [lastRamBank]
          by_cases hm : i % per = 0
          · rw [if_pos hm, Option.or_assoc]
            simp only [Nat.add_sub_cancel] at h1
            show (lastRamBank per (i + 1) n).or (some (i / per)) = _
            rw [h1]
            congr 2; omega
          · rw [if_neg hm, Option.or_none]
            have hd : (i - 1) / per = i / per := by
              have h3 := Nat.div_add_mod i per
              have h4 := Nat.mod_lt i hp
              have h5 : i - 1 = per * (i / per) + (i % per - 1) := by omega
              have h6 : (i % per - 1) / per = 0 := Nat.div_eq_of_lt (by omega)
              rw [h5, Nat.mul_add_div hp, h6, Nat.add_zero]
            simp only [Nat.add_sub_cancel] at h1
            rw [hd, h1]
            congr 2; omega
        · omega
  intro i hi
  simp only [lastRamBank, if_pos hi]
  rcases key n (i + 1) with h | h
  · simp only [Nat.add_sub_cancel] at h
    rw [h]; congr 2; omega
  · omega

theorem selectRamForWindow_runs {v : Variant} {per i : Nat} (h : i / per ≤ 0xFF) :
    Runs cfg conn (selectRamForWindow v per i) (if i % per = 0 then ramSelectScript cfg v (i / per) else []) none
      (if i % per = 0 then some (i / per) else none) () := by
  unfold selectRamForWindow
  split
  · exact selectRamBank_runs h
  · exact Runs.pure ()

theorem dumpWindows_runs {v : Variant} {per : Nat} {limit : Option Nat} (hp : 0 < per) (hp' : per ≤ 4) (windows : List EcReads) : ∀ i : Nat,
    (i + windows.length) / per ≤ 0xFF → (∀ w ∈ windows, ecFits cfg limit 0x800 w = true) →
    Runs cfg true (dumpWindows v per limit (List.range' i windows.length)) (windowsScript cfg v per i windows) none
      (lastRamBank per i windows.length) (banksBytes windows) := by
  induction windows with
  | nil => intro i _ _; exact Runs.pure []
  | cons w ws ih =>
    intro i hi hfit
    simp only [List.length_cons, List.range'_succ, dumpWindows, windowsScript, List.append_assoc, lastRamBank]
    have hm : i % per < 4 := Nat.lt_of_lt_of_le (Nat.mod_lt _ hp) hp'
    have hd : i / per ≤ 0xFF := Nat.le_trans (Nat.div_le_div_right (Nat.le_add_right _ _)) hi
    have hread := readEc_runs (cfg := cfg) (limit := limit) (addr := ramWindowAddr per i) (size := Config.ramDumpWindow) (chunks := w)
      (by simp only [ramWindowAddr, Config.ramWin, Config.ramDumpWindow]; omega)
      (by simp only [ramWindowAddr, Config.ramWin, Config.ramDumpWindow]; omega) (hfit w (by simp))
    have hrest := ih (i + 1) (by simp only [List.length_cons] at hi; rwa [show i + 1 + ws.length = i + (ws.length + 1) by omega])
      (fun x hx => hfit x (by simp [hx]))
    have h := (selectRamForWindow_runs (cfg := cfg) (conn := true) (v := v) hd).bind (g := fun _ => do
        let w ← readEc (ramWindowAddr per i) Config.ramDumpWindow limit
        let rest ← dumpWindows v per limit (List.range' (i + 1) ws.length)
        pure (w ++ rest))
      (Runs.seq hread (hrest.map (fun rest => ecBytes w ++ rest)))
    simpa [banksBytes, ramWindowAddr, Config.ramWin, Config.ramDumpWindow] using h

theorem ramPer_eq (v : Variant) : ramPer cfg v = windowsPerBank cfg v := by
  cases v <;> simp [ramPer, ramGran, windowsPerBank, Config.ramBankSize, Config.ramDumpWindow]

theorem dumpRamStd_runs {v : Variant} {size : Nat} {limit : Option Nat} {windows : List EcReads} (hv : v ≠ .mbc7)
    (hp : 0 < windowsPerBank cfg v) (hp' : windowsPerBank cfg v ≤ 4) (hsz : size = 0x800 * windows.length) (hne : windows ≠ [])
    (hmax : windows.length / windowsPerBank cfg v ≤ 0xFF) (hfit : ∀ w ∈ windows, ecFits cfg limit 0x800 w = true) :
    Runs cfg true (dumpRamStd v size limit) (enableScript cfg v ++ windowsScript cfg v (windowsPerBank cfg v) 0 windows) none
      (lastRamBank (windowsPerBank cfg v) 0 windows.length) (banksBytes windows) := by
  unfold dumpRamStd
  have hpos : size ≠ 0 := by
    have : windows.length ≠ 0 := by simpa using hne
    omega
  rw [if_neg hpos]
  have he := enableRam_runs (cfg := cfg) (conn := true) v
  rw [show enableRamShadow v = none from if_neg hv] at he
  refine Runs.seq he (Runs.get fun s hs => ?_)
  rw [hs, ramPer_eq, show size / Config.ramDumpWindow = windows.length by simp only [Config.ramDumpWindow]; omega, List.range_eq_range']
  exact dumpWindows_runs hp hp' windows 0 (by simpa using hmax) hfit

theorem dumpRamMbc2_runs {limit : Option Nat} {cells : EcReads} (h : ecFits cfg limit 0x200 cells = true) :
    Runs cfg true (dumpRamMbc2 limit) (enableScript cfg .mbc2 ++ ecScript cfg 0xA000 cells) none none (packNibbles (ecBytes cells)) := by
  unfold dumpRamMbc2
  exact Runs.seq (enableRam_runs _) ((readEc_runs (by decide) (by decide) h).map packNibbles)

theorem dumpWords_runs (ws : List U16) : ∀ a : Nat, a + ws.length ≤ 128 →
    Runs cfg conn (dumpWords (List.range' a ws.length)) (wordsScript cfg a ws) none none (wordsBytes ws) := by
  induction ws with
  | nil => intro a _; exact Runs.pure []
  | cons w ws ih =>
    intro a ha
    simp only [List.length_cons] at ha
    simp only [List.length_cons, List.range'_succ, dumpWords, wordsScript]
    have h := Runs.seq (eepromRead_runs (cfg := cfg) (conn := conn) (a := a) w (by omega)) (g := fun w => do
        let rest ← dumpWords (List.range' (a + 1) ws.length)
        pure (wordBytes w ++ rest)) ((ih (a + 1) (by omega)).map (fun rest => wordBytes w ++ rest))
    simpa [wordsBytes, wordBytes] using h

theorem dumpRamMbc7_runs {ws : List U16} (h : ws.length = 128) :
    Runs cfg conn dumpRamMbc7 (enableScript cfg .mbc7 ++ wordsScript cfg 0 ws) none (some 0x40) (wordsBytes ws) := by
  unfold dumpRamMbc7
  have he := enableRam_runs (cfg := cfg) (conn := conn) .mbc7
  have := dumpWords_runs (cfg := cfg) (conn := conn) ws 0 (by omega)
  rw [h] at this
  rw [List.range_eq_range']
  exact Runs.seqL he this

theorem dumpNibbles_runs {limit : Option Nat} (bs : List (List Byte × List Byte)) : ∀ a : Nat, a + bs.length ≤ 32 →
    (∀ b ∈ bs, byteFits cfg limit b.1 = true ∧ byteFits cfg limit b.2 = true) →
    Runs cfg true (dumpNibbles limit (List.range' a bs.length)) (nibblesScript cfg a bs) none none
      (bs.map fun b => nibbleByte b.1 b.2) := by
  induction bs with
  | nil => intro a _ _; exact Runs.pure []
  | cons b bs ih =>
    intro a ha hfit
    simp only [List.length_cons] at ha
    obtain ⟨h1, h2⟩ := hfit b (by simp)
    simp only [List.length_cons, List.range'_succ, dumpNibbles, nibblesScript]
    have h := Runs.seq (tama5RamRead_runs (cfg := cfg) (limit := limit) (ta := a) (by omega) h1 h2) (g := fun x => do
        let rest ← dumpNibbles limit (List.range' (a + 1) bs.length)
        pure (x :: rest)) ((ih (a + 1) (by omega) (fun x hx => hfit x (by simp [hx]))).map (fun rest => nibbleByte b.1 b.2 :: rest))
    simpa using h

theorem dumpRamTama5_runs {limit : Option Nat} {polls : List (List Byte)} {bs : List (List Byte × List Byte)}
    (hu : unlockFits cfg limit polls = true) (hl : bs.length = 32)
    (hfit : ∀ b ∈ bs, byteFits cfg limit b.1 = true ∧ byteFits cfg limit b.2 = true) :
    Runs cfg true (dumpRamTama5 limit) (enableScript cfg .tama5 ++ unlockScript cfg polls ++ nibblesScript cfg 0 bs) none none
      (bs.map fun b => nibbleByte b.1 b.2) := by
  unfold dumpRamTama5
  have := dumpNibbles_runs (cfg := cfg) (limit := limit) bs 0 (by omega) hfit
  rw [hl] at this
  rw [List.append_assoc, List.range_eq_range']
  exact Runs.seq (enableRam_runs _) (Runs.seq (tama5Unlock_runs hu) this)

/-! ### restore_ram -/

theorem toNat_ofNat8 (b : Byte) : BitVec.ofNat 8 b.toNat = b := by simp

theorem restoreBytes_runs (bs : List (Byte × List Byte)) : ∀ addr : Nat, addr + bs.length ≤ 0x10000 →
    (∀ b ∈ bs, weFits cfg 0xFF b.1 b.2 = true) →
    Runs cfg true (restoreBytes addr (bs.map (·.1))) (bytesScript cfg addr bs) none none () := by
  induction bs with
  | nil => intro addr _ _; exact Runs.pure ()
  | cons b bs ih =>
    intro addr ha hfit
    obtain ⟨v, reads⟩ := b
    simp only [List.length_cons] at ha
    simp only [List.map_cons, restoreBytes, bytesScript]
    have hw := writeEc_runs (cfg := cfg) (addr := addr) (value := v.toNat) (m := 0xFF) (reads := reads) (by omega)
      (by have := v.isLt; omega) (by rw [toNat_ofNat8]; exact hfit (v, reads) (by simp))
    rw [toNat_ofNat8] at hw
    exact Runs.seq hw (ih (addr + 1) (by omega) (fun x hx => hfit x (by simp [hx])))

/-- The window `i` of an image whose windows are the lists `ws`. -/
theorem imageWindow_flatten (ws : List (List Byte)) (h : ∀ w ∈ ws, w.length = 0x800) (i : Nat) (hi : i < ws.length) :
    imageWindow ws.flatten i = ws[i] := by
  induction ws generalizing i with
  | nil => simp at hi
  | cons w ws ih =>
    have hw := h w (by simp)
    cases i with
    | zero => simp [imageWindow, Config.ramDumpWindow, ← hw]
    | succ n =>
      have := ih (fun x hx => h x (by simp [hx])) n (by simpa using hi)
      simp only [imageWindow, Config.ramDumpWindow, List.flatten_cons, List.getElem_cons_succ] at this ⊢
      rw [List.drop_append, List.drop_of_length_le (by omega), List.nil_append,
        show (n + 1) * 0x800 - w.length = n * 0x800 by omega]
      exact this

theorem restoreWindows_runs {v : Variant} {per : Nat} (hp : 0 < per) (hp' : per ≤ 4) (image : List Byte)
    (ws : List (List (Byte × List Byte))) : ∀ i : Nat, (i + ws.length) / per ≤ 0xFF →
    (∀ j (h : j < ws.length), imageWindow image (i + j) = ws[j].map (·.1)) → (∀ w ∈ ws, w.length = 0x800) →
    (∀ w ∈ ws, ∀ b ∈ w, weFits cfg 0xFF b.1 b.2 = true) →
    Runs cfg true (restoreWindows v per image (List.range' i ws.length)) (restoreScript cfg v per i ws) none
      (lastRamBank per i ws.length) () := by
  induction ws with
  | nil => intro i _ _ _ _; exact Runs.pure ()
  | cons w ws ih =>
    intro i hi himg hlen hfit
    simp only [List.length_cons, List.range'_succ, restoreWindows, restoreScript, List.append_assoc, lastRamBank]
    have hm : i % per < 4 := Nat.lt_of_lt_of_le (Nat.mod_lt _ hp) hp'
    have hd : i / per ≤ 0xFF := Nat.le_trans (Nat.div_le_div_right (Nat.le_add_right _ _)) hi
    have himg0 : imageWindow image i = w.map (·.1) := himg 0 (Nat.zero_lt_succ _)
    rw [himg0]
    have hwl := hlen w (by simp)
    have hbytes := restoreBytes_runs (cfg := cfg) w (ramWindowAddr per i)
      (by simp only [ramWindowAddr, Config.ramWin, Config.ramDumpWindow]; omega) (hfit w (by simp))
    have hrest := ih (i + 1) (by simp only [List.length_cons] at hi; rwa [show i + 1 + ws.length = i + (ws.length + 1) by omega])
      (fun j hj => by
        have := himg (j + 1) (by simpa using hj)
        rw [show i + 1 + j = i + (j + 1) by omega]; simpa using this)
      (fun x hx => hlen x (by simp [hx])) (fun x hx => hfit x (by simp [hx]))
    have h := (selectRamForWindow_runs (cfg := cfg) (conn := true) (v := v) hd).bind (g := fun _ => do
        restoreBytes (ramWindowAddr per i) (w.map (·.1))
        restoreWindows v per image (List.range' (i + 1) ws.length))
      (Runs.seq hbytes hrest)
    simpa [ramWindowAddr, Config.ramWin, Config.ramDumpWindow] using h

/-- The image that the windows of a restore write. -/
def windowsImage (ws : List (List (Byte × List Byte))) : List Byte := ws.flatMap fun w => w.map (·.1)

theorem windowsImage_length (ws : List (List (Byte × List Byte))) (h : ∀ w ∈ ws, w.length = 0x800) :
    (windowsImage ws).length = 0x800 * ws.length := by
  induction ws with
  | nil => rfl
  | cons w ws ih =>
    simp only [windowsImage, List.flatMap_cons, List.length_append, List.length_map, List.length_cons] at ih ⊢
    rw [ih (fun x hx => h x (by simp [hx])), h w (by simp)]; omega

theorem restoreRamStd_runs {v : Variant} {size : Nat} {ws : List (List (Byte × List Byte))} (hv : v ≠ .mbc7)
    (hp : 0 < windowsPerBank cfg v) (hp' : windowsPerBank cfg v ≤ 4) (hsz : size = 0x800 * ws.length) (hne : ws ≠ [])
    (hmax : ws.length / windowsPerBank cfg v ≤ 0xFF) (hlen : ∀ w ∈ ws, w.length = 0x800)
    (hfit : ∀ w ∈ ws, ∀ b ∈ w, weFits cfg 0xFF b.1 b.2 = true) :
    Runs cfg true (restoreRamStd v size (windowsImage ws))
      (enableScript cfg v ++ restoreScript cfg v (windowsPerBank cfg v) 0 ws) none
      (lastRamBank (windowsPerBank cfg v) 0 ws.length) () := by
  unfold restoreRamStd
  refine (refuseIf_runs _ (by simp [windowsImage_length ws hlen, hsz])).then ?_
  have hpos : size ≠ 0 := by
    have : ws.length ≠ 0 := by simpa using hne
    omega
  rw [if_neg hpos]
  have he := enableRam_runs (cfg := cfg) (conn := true) v
  rw [show enableRamShadow v = none from if_neg hv] at he
  refine Runs.seq he (Runs.get fun s hs => ?_)
  rw [hs, ramPer_eq, show size / Config.ramDumpWindow = ws.length by simp only [Config.ramDumpWindow]; omega, List.range_eq_range']
  refine restoreWindows_runs hp hp' _ ws 0 (by simpa using hmax) (fun j hj => ?_) hlen hfit
  have := imageWindow_flatten (ws.map fun w => w.map (·.1)) (by simpa using hlen) j (by simpa using hj)
  simpa [windowsImage, List.flatMap_def] using this

theorem restoreCells_runs (cs : List (Byte × List Byte × List Byte)) : ∀ addr : Nat, addr + 2 * cs.length ≤ 0x10000 →
    (∀ b ∈ mbc2Cells cs, weFits cfg 0x0F b.1 b.2 = true) →
    Runs cfg true (restoreCells addr (cs.map (·.1))) (bytesScript cfg addr (mbc2Cells cs)) none none () := by
  induction cs with
  | nil => intro addr _ _; exact Runs.pure ()
  | cons c cs ih =>
    intro addr ha hfit
    obtain ⟨b, even, odd⟩ := c
    simp only [List.length_cons] at ha
    have hcells : mbc2Cells ((b, even, odd) :: cs) = (b >>> (4 : Nat), even) :: (b &&& 0x0F, odd) :: mbc2Cells cs := rfl
    rw [hcells] at hfit ⊢
    simp only [List.map_cons, restoreCells, bytesScript]
    have h1 := writeEc_runs (cfg := cfg) (addr := addr) (value := (b >>> (4 : Nat)).toNat) (m := 0x0F) (reads := even) (by omega)
      (by have := (b >>> (4 : Nat)).isLt; omega) (by rw [toNat_ofNat8]; exact hfit (_, even) (by simp))
    have h2 := writeEc_runs (cfg := cfg) (addr := addr + 1) (value := (b &&& 0x0F).toNat) (m := 0x0F) (reads := odd) (by omega)
      (by have := (b &&& 0x0F).isLt; omega) (by rw [toNat_ofNat8]; exact hfit (_, odd) (by simp))
    rw [toNat_ofNat8] at h1 h2
    exact Runs.seq h1 (Runs.seq h2 (ih (addr + 2) (by omega) (fun x hx => hfit x (by simp [hx]))))

theorem restoreRamMbc2_runs {cs : List (Byte × List Byte × List Byte)} (h : cs.length = 256)
    (hfit : ∀ b ∈ mbc2Cells cs, weFits cfg 0x0F b.1 b.2 = true) :
    Runs cfg true (restoreRamMbc2 (cs.map (·.1))) (enableScript cfg .mbc2 ++ bytesScript cfg 0xA000 (mbc2Cells cs)) none none () := by
  unfold restoreRamMbc2
  refine (refuseIf_runs _ (by simp [h, Config.mbc2RamImage])).then ?_
  exact Runs.seq (enableRam_runs _) (restoreCells_runs cs _ (by rw [h]; decide) hfit)

/-- The rounds of a verified unit: the first that lands is the last. -/
theorem verifyRounds_runs {ρ : Type} {cell : Nat} {put : Proc Unit} {check : Proc Bool} {script : ρ → Script} {ok : ρ → Bool}
    (rounds : List ρ)
    (hround : ∀ r ∈ rounds, Runs cfg true (do put; check) (script r) none none (ok r)) :
    ∀ (fuel : Nat) (w : WeRegs), rounds.length ≤ fuel → endsAt ok rounds = true →
    withinRounds cfg.writeEcLimit (w.rounds + rounds.length) = true →
    Runs cfg true (verifyRounds cell put check fuel w) (rounds.flatMap script) none none () := by
  induction rounds with
  | nil => intro fuel w _ h; simp [endsAt] at h
  | cons r rounds ih =>
    intro fuel w hf he hlim
    obtain ⟨fuel, rfl⟩ : ∃ n, fuel = n + 1 := ⟨fuel - 1, by simp only [List.length_cons] at hf; omega⟩
    simp only [verifyRounds, List.flatMap_cons]
    refine Runs.get fun s hs => ?_
    have hn : weLimitReached s.cfg.writeEcLimit w.rounds = false := by
      rw [hs]
      cases hk : cfg.writeEcLimit with
      | none => rfl
      | some k => rw [hk] at hlim; simp [weLimitReached, withinRounds] at hlim ⊢; omega
    rw [if_neg (by simp [hn])]
    have h := Runs.seq (hround r (by simp)) (g := fun landed => do
        setWe { w with rounds := w.rounds + 1 }
        if landed = true then pure () else verifyRounds cell put check fuel { w with rounds := w.rounds + 1 })
      (ds := rounds.flatMap script) (r := none) (m := none) (b := ()) (by
        refine (setWe_runs _).then ?_
        cases rounds with
        | nil =>
          have : ok r = true := by simpa [endsAt] using he
          rw [if_pos this]
          exact Runs.pure ()
        | cons e rest =>
          simp only [endsAt, Bool.and_eq_true, Bool.not_eq_true'] at he
          rw [if_neg (by simp [he.1])]
          exact ih (fun x hx => hround x (by simp [hx])) fuel { w with rounds := w.rounds + 1 }
            (by simp only [List.length_cons] at hf ⊢; omega) he.2
            (by rw [← hlim]; simp only [List.length_cons]; congr 1; omega))
    simpa using h

/-- Rounds that each make an exchange are at most as many as the exchanges. -/
theorem length_le_exchangeCount {ρ : Type} {script : ρ → Script} (rounds : List ρ) (h : ∀ r ∈ rounds, 0 < exchangeCount (script r)) :
    rounds.length ≤ exchangeCount (rounds.flatMap script) := by
  induction rounds with
  | nil => simp [exchangeCount]
  | cons r rounds ih =>
    simp only [List.flatMap_cons, exchangeCount_append, List.length_cons]
    have := h r (by simp)
    have := ih (fun x hx => h x (by simp [hx]))
    omega

theorem verifyUnit_runs {ρ : Type} {cell : Nat} {put : Proc Unit} {check : Proc Bool} {script : ρ → Script} {ok : ρ → Bool}
    (rounds : List ρ) (hround : ∀ r ∈ rounds, Runs cfg true (do put; check) (script r) none none (ok r))
    (hne : ∀ r ∈ rounds, 0 < exchangeCount (script r)) (he : endsAt ok rounds = true)
    (hlim : withinRounds cfg.writeEcLimit rounds.length = true) :
    Runs cfg true (verifyUnit cell put check) (rounds.flatMap script) none none () := by
  unfold verifyUnit
  refine (setWe_runs _).then (unbounded_runs fun fuel hf => ?_)
  exact verifyRounds_runs rounds hround fuel _ (Nat.le_of_lt (Nat.lt_of_le_of_lt (length_le_exchangeCount rounds hne) hf)) he
    (by simpa using hlim)

theorem exchangeCount_tama5Write (r n : Byte) : exchangeCount (tama5WriteScript cfg r n) = 8 := rfl

theorem exchangeCount_eeBit (b : Bool) : exchangeCount (eeBitScript cfg b) = 8 := rfl

theorem exchangeCount_wait_pos (zeros : Nat) : 0 < exchangeCount (eeWaitScript cfg zeros) := by
  simp only [eeWaitScript, exchangeCount_append, eeInoutScript, exchangeCount_eeBit]; omega

/-- The words of an image that is made of words. -/
theorem imageWord_words (ws : List U16) (i : Nat) (hi : i < ws.length) : imageWord (wordsBytes ws) i = ws[i] := by
  induction ws generalizing i with
  | nil => simp at hi
  | cons w ws ih =>
    cases i with
    | zero =>
      simp only [imageWord, wordsBytes, List.flatMap_cons, List.cons_append, List.getElem_cons_zero]
      show join16 (hi8 w) (lo8 w) = w
      exact join16_parts w
    | succ n =>
      have := ih n (by simpa using hi)
      simp only [imageWord, wordsBytes, List.flatMap_cons, List.cons_append, List.nil_append, List.getElem_cons_succ] at this ⊢
      rw [show 2 * (n + 1) = 2 * n + 2 by omega, show 2 * n + 2 + 1 = (2 * n + 1) + 2 by omega]
      simpa using this

theorem verifyWord_runs {a : Nat} {w : U16} {rounds : List (Nat × U16)} (ha : a ≤ 127) (hw : wordRoundsFit cfg w rounds = true) :
    Runs cfg true (verifyUnit a (eepromWrite a w.toNat) (do let r ← eepromRead a; pure (decide (r = w))))
      (rounds.flatMap fun r => eeWriteScript cfg a w r.1 ++ eeReadScript cfg a r.2) none none () := by
  simp only [wordRoundsFit, Bool.and_eq_true, List.all_eq_true, decide_eq_true_eq] at hw
  refine verifyUnit_runs (ok := fun r => decide (r.2 = w)) rounds (fun r hr => ?_) (fun r _ => ?_) hw.1.1 hw.2
  · exact Runs.seq (eepromWrite_runs w ha (hw.1.2 r hr)) ((eepromRead_runs r.2 ha).map (fun x => decide (x = w)))
  · simp only [eeWriteScript, exchangeCount_append]
    have := exchangeCount_wait_pos (cfg := cfg) r.1
    omega

theorem restoreWords_runs (image : List Byte) (ws : List (U16 × List (Nat × U16))) : ∀ a : Nat, a + ws.length ≤ 128 →
    (∀ j (h : j < ws.length), imageWord image (a + j) = ws[j].1) → (∀ w ∈ ws, wordRoundsFit cfg w.1 w.2 = true) →
    Runs cfg true (restoreWords image (List.range' a ws.length)) (restoreWordsScript cfg a ws) none none () := by
  induction ws with
  | nil => intro a _ _ _; exact Runs.pure ()
  | cons w ws ih =>
    intro a ha himg hfit
    obtain ⟨w, rounds⟩ := w
    simp only [List.length_cons] at ha
    simp only [List.length_cons, List.range'_succ, restoreWords, restoreWordsScript]
    have h0 : imageWord image a = w := himg 0 (Nat.zero_lt_succ _)
    rw [h0]
    refine Runs.seq (verifyWord_runs (by omega) (hfit (w, rounds) (by simp))) (ih (a + 1) (by omega) (fun j hj => ?_)
      (fun x hx => hfit x (by simp [hx])))
    have := himg (j + 1) (by simpa using hj)
    rw [show a + 1 + j = a + (j + 1) by omega]; simpa using this

theorem restoreRamMbc7_runs {ws : List (U16 × List (Nat × U16))} (h : ws.length = 128)
    (hfit : ∀ w ∈ ws, wordRoundsFit cfg w.1 w.2 = true) :
    Runs cfg true (restoreRamMbc7 (wordsBytes (ws.map (·.1))))
      (enableScript cfg .mbc7 ++ eeSubScript cfg cfg.eeSubEwen ++ restoreWordsScript cfg 0 ws ++ eeSubScript cfg cfg.eeSubEwds)
      none (some 0x40) () := by
  unfold restoreRamMbc7
  have hlen : (wordsBytes (ws.map (·.1))).length = 2 * ws.length := by
    clear h hfit
    induction ws with
    | nil => rfl
    | cons w ws ih => simp only [wordsBytes, List.map_cons, List.flatMap_cons, List.length_append, List.length_cons] at ih ⊢; rw [ih]; simp; omega
  refine (refuseIf_runs _ (by simp [hlen, h, Config.mbc7RamImage])).then ?_
  have hw := restoreWords_runs (cfg := cfg) (wordsBytes (ws.map (·.1))) ws 0 (by omega)
    (fun j hj => by
      have := imageWord_words (ws.map (·.1)) j (by simpa using hj)
      simpa using this) hfit
  rw [h] at hw
  rw [List.range_eq_range', List.append_assoc, List.append_assoc]
  exact Runs.seqL (enableRam_runs .mbc7) (Runs.seq eepromEwen_runs (Runs.seq hw eepromEwds_runs))

theorem verifyNibbles_runs {a : Nat} {v : Byte} {rounds : List (List Byte × List Byte)} (ha : a ≤ 31)
    (hw : nibbleRoundsFit cfg v rounds = true) :
    Runs cfg true (verifyUnit a (tama5RamWrite a v.toNat) (do let r ← tama5RamRead a none; pure (decide (r = v))))
      (rounds.flatMap fun r => tama5RamWriteScript cfg a v ++ tama5RamReadScript cfg a r.1 r.2) none none () := by
  simp only [nibbleRoundsFit, Bool.and_eq_true, List.all_eq_true] at hw
  refine verifyUnit_runs (script := fun r : List Byte × List Byte => tama5RamWriteScript cfg a v ++ tama5RamReadScript cfg a r.1 r.2)
    (ok := fun r : List Byte × List Byte => decide (nibbleByte r.1 r.2 = v)) rounds (fun r hr => ?_) (fun r _ => ?_) hw.1.1 hw.2
  · exact Runs.seq (tama5RamWrite_runs v ha)
      ((tama5RamRead_runs (cfg := cfg) (ta := a) ha (hw.1.2 r hr).1 (hw.1.2 r hr).2).map (fun x => decide (x = v)))
  · simp only [tama5RamWriteScript, exchangeCount_append, exchangeCount_tama5Write]
    omega

theorem restoreNibbles_runs (image : List Byte) (bs : List (Byte × List (List Byte × List Byte))) : ∀ a : Nat,
    a + bs.length ≤ 32 → (∀ j (h : j < bs.length), image.getD (a + j) 0 = bs[j].1) →
    (∀ b ∈ bs, nibbleRoundsFit cfg b.1 b.2 = true) →
    Runs cfg true (restoreNibbles image (List.range' a bs.length)) (restoreNibblesScript cfg a bs) none none () := by
  induction bs with
  | nil => intro a _ _ _; exact Runs.pure ()
  | cons b bs ih =>
    intro a ha himg hfit
    obtain ⟨v, rounds⟩ := b
    simp only [List.length_cons] at ha
    simp only [List.length_cons, List.range'_succ, restoreNibbles, restoreNibblesScript]
    have h0 : image.getD a 0 = v := himg 0 (Nat.zero_lt_succ _)
    rw [h0]
    refine Runs.seq (verifyNibbles_runs (by omega) (hfit (v, rounds) (by simp))) (ih (a + 1) (by omega) (fun j hj => ?_)
      (fun x hx => hfit x (by simp [hx])))
    have := himg (j + 1) (by simpa using hj)
    rw [show a + 1 + j = a + (j + 1) by omega]; simpa using this

theorem restoreRamTama5_runs {polls : List (List Byte)} {bs : List (Byte × List (List Byte × List Byte))} (h : bs.length = 32)
    (hu : unlockFits cfg none polls = true) (hfit : ∀ b ∈ bs, nibbleRoundsFit cfg b.1 b.2 = true) :
    Runs cfg true (restoreRamTama5 (bs.map (·.1)))
      (enableScript cfg .tama5 ++ unlockScript cfg polls ++ restoreNibblesScript cfg 0 bs) none none () := by
  unfold restoreRamTama5
  refine (refuseIf_runs _ (by simp [h, Config.tama5RamImage])).then ?_
  have hb := restoreNibbles_runs (cfg := cfg) (bs.map (·.1)) bs 0 (by omega) (fun j hj => by simp [hj]) hfit
  rw [h] at hb
  rw [List.range_eq_range', List.append_assoc]
  exact Runs.seq (enableRam_runs _) (Runs.seq (tama5Unlock_runs hu) hb)

end Sys2Proof.Machine
end

