-- ==== Sys2Proof/Laws/Devices.lean ====
section
/-!
SUPPORT. The remaining operations against their scripts, and the two ways in which an operation of a variant ends on a session that
drives it.
-/

namespace Sys2Proof.Machine

variable {cfg : Params} {conn : Bool}

/-! ### Operations of a variant -/

theorem State.Drives.controller {s : State} {v : Variant} (h : s.Drives v) :
    ∃ c, s.ctrl = some c ∧ c.variant = v ∧ s.connected = true := by
  obtain ⟨h1, h2⟩ := h
  cases hc : s.ctrl with
  | none => simp [hc] at h2
  | some c => exact ⟨c, rfl, by simpa [hc] using h2, h1⟩

theorem runOp_drives {i : Instr} {v : Variant} {op : OpName} {body : Controller → Proc Value} {s : State} {cs : Script}
    {r m : Option Nat} {x : Value} (hd : s.Drives v) (hs : s.Answers cs)
    (h : ∀ c, s.ctrl = some c → Runs s.cfg true (body c) cs r m x) :
    runOp i (withController v op body) s = .next (s.completes i cs r m x) := by
  obtain ⟨c, h1, h2, h3⟩ := hd.controller
  have hb := h c h1
  rw [← h3] at hb
  rw [runOp_controller h1 h2 h3]
  exact runOp_completes hb hs

theorem runOp_drives_fails {i : Instr} {v : Variant} {op : OpName} {body : Controller → Proc Value} {s : State} {cs : Script}
    {r m : Option Nat} {k : ErrKind} {info : Info} (hd : s.Drives v) (hs : s.Answers cs)
    (h : ∀ c, s.ctrl = some c → Raises s.cfg true (body c) cs r m k info) :
    runOp i (withController v op body) s = .next (s.fails i cs r m k info) := by
  obtain ⟨c, h1, h2, h3⟩ := hd.controller
  have hb := h c h1
  rw [← h3] at hb
  rw [runOp_controller h1 h2 h3]
  exact runOp_fails hb hs

/-- A check that refuses before the operation has done anything (R430). -/
theorem runOp_refuses {i : Instr} {body : Proc Value} {reason : RefuseReason} {s : State}
    (h : body s.idle = .error (.refused reason) s.idle) : runOp i body s = .next (s.takeRefusal reason) := by
  simp only [runOp, h]; rfl

/-- A check that raises before the operation has done anything (R421). -/
theorem runOp_raises {i : Instr} {body : Proc Value} {k : ErrKind} {info : Info} {s : State}
    (h : body s.idle = .error (.raised k info) s.idle) : runOp i body s = .next (s.raiseError i.opId k info) := by
  simp only [runOp, h]; rfl

/-- A procedure whose operation returns nothing. -/
theorem Runs.unit {p : Proc Unit} {cs : Script} {r m : Option Nat} (h : Runs cfg conn p cs r m ()) :
    Runs cfg conn (do p; Pure.pure Value.unit) cs r m .unit := h.map fun _ => Value.unit

/-! ### Clock, accelerometer, camera -/

theorem latchRtc_runs : Runs cfg conn latchRtc (writeScript 0x6000 0x00 ++ writeScript 0x6000 0x01) none none () :=
  Runs.seq (memWrite_runs _ _) (memWrite_runs _ _)

theorem readRtc_runs {reg : Nat} {limit : Option Nat} {reads : List Byte} (h1 : reg ≤ 3) (h2 : byteFits cfg limit reads = true) :
    Runs cfg true (readRtc reg limit) (writeScript 0x4000 (BitVec.ofNat 8 (8 + reg)) ++ byteScript cfg 0xA000 reads) none
      (some (8 + reg)) (byteOf reads) :=
  (checkRange_runs h1).then
    (Runs.seqL (selectRamBank_runs (v := .base) (n := 8 + reg) (by omega)) (readEc1_runs (by decide) h2))

theorem readEc1_runs16 (a : U16) {limit : Option Nat} {reads : List Byte} (h : byteFits cfg limit reads = true) :
    Runs cfg true (readEc1 a.toNat limit) (byteScript cfg a.toNat reads) none none (byteOf reads) :=
  readEc1_runs (by have := a.isLt; omega) h

theorem sampleAccel_runs {limit : Option Nat} {xl xh yl yh : List Byte} (h1 : byteFits cfg limit xl = true)
    (h2 : byteFits cfg limit xh = true) (h3 : byteFits cfg limit yl = true) (h4 : byteFits cfg limit yh = true) :
    Runs cfg true (sampleAccel limit) (writeScript cfg.accelLatch1.addr cfg.accelLatch1.value ++
      writeScript cfg.accelLatch2.addr cfg.accelLatch2.value ++ byteScript cfg cfg.accelXl.toNat xl ++
      byteScript cfg cfg.accelXh.toNat xh ++ byteScript cfg cfg.accelYl.toNat yl ++ byteScript cfg cfg.accelYh.toNat yh) none none
      (join16 (byteOf xh) (byteOf xl), join16 (byteOf yh) (byteOf yl)) := by
  refine Runs.get fun u hu => ?_
  rw [hu]
  simp only [List.append_assoc]
  exact Runs.seq (memWrite_runs _ _) (Runs.seq (memWrite_runs _ _) (Runs.seq (readEc1_runs16 _ h1) (Runs.seq (readEc1_runs16 _ h2)
    (Runs.seq (readEc1_runs16 _ h3) ((readEc1_runs16 _ h4).map
      fun yh => (join16 (byteOf xh) (byteOf xl), join16 yh (byteOf yl)))))))

theorem takePhoto_runs {limit : Option Nat} {polls : List (List Byte)} (hl : polls.length ≤ cfg.cameraPollLimit)
    (hf : polls.all (byteFits cfg limit) = true) (he : endsAt (fun p => decide (byteOf p &&& 0x01 = 0)) polls = true) :
    Runs cfg true (takePhoto limit) (writeScript 0x4000 0x10 ++ writeScript 0xA000 cfg.cameraTrigger ++
      polls.flatMap (byteScript cfg 0xA000)) none (some 0x10) () := by
  unfold takePhoto
  rw [List.append_assoc]
  refine Runs.seq (memWrite_runs _ _) ?_
  have h : Runs cfg true (do
      let s ← get
      memWrite (toU16 Config.ramWin) s.cfg.cameraTrigger
      setPoll 0
      cameraPollLoop limit s.cfg.cameraPollLimit 0 : Proc Unit)
      (writeScript 0xA000 cfg.cameraTrigger ++ polls.flatMap (byteScript cfg 0xA000)) none none () :=
    Runs.get fun u hu => by
      rw [hu]
      exact Runs.seq (memWrite_runs _ _) ((setPoll_runs 0).then (cameraPollLoop_runs polls _ 0 hl hf he))
  exact Runs.seqL (cs := []) (setRamShadow_runs _) h

theorem takePhoto_raises {limit : Option Nat} {polls : List (List Byte)} (hl : polls.length = cfg.cameraPollLimit)
    (hf : polls.all (byteFits cfg limit) = true) (he : ∀ p ∈ polls, byteOf p &&& 0x01 ≠ 0) :
    Raises cfg true (takePhoto limit) (writeScript 0x4000 0x10 ++ writeScript 0xA000 cfg.cameraTrigger ++
      polls.flatMap (byteScript cfg 0xA000)) none (some 0x10) .deviceTimeout (.polls .takePhoto cfg.cameraPollLimit) := by
  unfold takePhoto
  rw [List.append_assoc]
  refine Raises.seq (memWrite_runs _ _) ?_
  have h : Raises cfg true (do
      let s ← get
      memWrite (toU16 Config.ramWin) s.cfg.cameraTrigger
      setPoll 0
      cameraPollLoop limit s.cfg.cameraPollLimit 0 : Proc Unit)
      (writeScript 0xA000 cfg.cameraTrigger ++ polls.flatMap (byteScript cfg 0xA000)) none none .deviceTimeout
      (.polls .takePhoto cfg.cameraPollLimit) :=
    Raises.get fun u hu => by
      rw [hu]
      have h := cameraPollLoop_raises polls cfg.cameraPollLimit 0 hl hf he
      rw [Nat.zero_add] at h
      exact Raises.seq (memWrite_runs _ _) (Raises.then (setPoll_runs 0) h)
  exact Raises.seqL (cs := []) (setRamShadow_runs _) h

/-! ### Images -/

/-- The window of an MBC1 bank is the one that its script names (R272). -/
theorem mbc1Window_eq (n : Nat) : mbc1Window n = romWindow .mbc1 n := by
  have e : n &&& 0x1F = n % 32 := Nat.and_two_pow_sub_one_eq_mod n 5
  simp only [mbc1Window, romWindow, Config.romWinX, Config.romWin0, e, true_and]

/-- MBC2's packing, byte by byte (R87, R282). -/
theorem packNibbles_eq (n : Nat) : ∀ bs : List Byte, bs.length = 2 * n →
    packNibbles bs = (List.range n).map fun i => ((bs.getD (2 * i) 0 &&& 0x0F) <<< 4) ||| (bs.getD (2 * i + 1) 0 &&& 0x0F) := by
  induction n with
  | zero =>
    intro bs h
    have : bs = [] := by simpa using h
    simp [this, packNibbles]
  | succ n ih =>
    intro bs h
    match bs, h with
    | a :: b :: rest, h =>
      rw [packNibbles, ih rest (by simp only [List.length_cons] at h; omega), List.range_succ_eq_map]
      simp [Nat.mul_add]

/-- An accepted `read_ec` returns as many bytes as it was asked for (R171). -/
theorem ecBytes_length {limit : Option Nat} (chunks : EcReads) : ∀ size, ecFits cfg limit size chunks = true →
    (ecBytes chunks).length = size := by
  induction chunks with
  | nil => intro size h; simp only [ecFits, decide_eq_true_eq] at h; simp [ecBytes, h]
  | cons c cs ih =>
    intro size h
    simp only [ecFits, Bool.and_eq_true, decide_eq_true_eq, List.all_eq_true] at h
    obtain ⟨⟨⟨⟨h1, h2⟩, h3⟩, _⟩, h5⟩ := h
    have hl : (c.getLastD []).length = min 0x800 size := by
      cases hc : c.getLast? with
      | none =>
        have : c = [] := by simpa using hc
        simp [this, agreesAtEnd] at h3
      | some d => simpa [List.getLastD_eq_getLast?, hc] using h2 d (List.mem_of_getLast? hc)
    rw [show ecBytes (c :: cs) = c.getLastD [] ++ ecBytes cs from rfl, List.length_append, hl, ih _ h5]
    omega

/-- The windows of an MBC6 RAM bank of at most 0x2000 bytes (R281). -/
theorem windowsPerBank_le {v : Variant} (h : v = .mbc6 → 0x800 ≤ cfg.mbc6RamBank ∧ cfg.mbc6RamBank ≤ 0x2000) :
    0 < windowsPerBank cfg v ∧ windowsPerBank cfg v ≤ 4 := by
  unfold windowsPerBank
  split
  · obtain ⟨a, b⟩ := h ‹_›; omega
  · omega

/-- A list that ends at its first match, as a list of misses and a match. -/
theorem endsAt_append {α : Type} {p : α → Bool} {y : α} (hy : p y = true) : ∀ xs : List α, (∀ x ∈ xs, p x = false) →
    endsAt p (xs ++ [y]) = true
  | [], _ => hy
  | [x], h => by simp [endsAt, h x (by simp), hy]
  | x :: z :: zs, h => by
    simp only [List.cons_append, endsAt, h x (by simp), Bool.not_false, Bool.true_and]
    exact endsAt_append hy (z :: zs) fun a ha => h a (by simp only [List.mem_cons] at ha ⊢; tauto)

end Sys2Proof.Machine
end

