-- ==== Sys2Proof/Laws/Aborts.lean ====
section
/-!
SUPPORT. How `connect` runs to its header, and how an error inside `read_ec` ends it and the dump that called it.
-/

namespace Sys2Proof.Machine

/-- A phase whose last reply is the first magic byte. -/
theorem endsAt_magic (p : List Byte) (m : Byte) (h : ∀ r ∈ p, r ≠ m) : endsAt (fun r => decide (r = m)) (p ++ [m]) = true :=
  endsAt_append (by simp) _ (fun r hr => by simp [h r hr])

/-- The two phases and the header (R151 to R156). -/
theorem connectRead_runs {cfg conn} {p1 p2 hdr : List Byte} (l1 : p1.length < 100) (l2 : p2.length < 100)
    (h1 : ∀ r ∈ p1, r ≠ 0xB4) (h2 : ∀ r ∈ p2, r ≠ 0x1D) (hl : hdr.length = 21) :
    Runs cfg conn connectRead
      (probesScript (p1 ++ [0xB4]) ++ probesScript (p2 ++ [0x1D]) ++ (hdr ++ [0x00, 0xFF]).map (Cue.gives cfg.fillByte))
      none none (parseHeader hdr) := by
  unfold connectRead
  rw [List.append_assoc]
  refine Runs.seq (handshake_runs _ _ _ (by simp; omega) (endsAt_magic p1 0xB4 h1)) ?_
  refine (Runs.pure ()).then ?_
  exact Runs.seq (handshake_runs _ _ _ (by simp; omega) (endsAt_magic p2 0x1D h2)) (readHeader_runs _ hl)

/-- The last chunk of a `read_ec` by itself. -/
theorem ecScript_append (cfg : Params) (bad : List (List Byte)) (chunks : EcReads) : ∀ addr, ecScript cfg addr (chunks ++ [bad]) =
   ecScript cfg addr chunks ++ bad.flatMap (readScript cfg (BitVec.ofNat 16 (addr + 0x800 * chunks.length))) := by
  induction chunks with
  | nil => intro addr; simp [ecScript]
  | cons c cs ih => intro addr; simp [ecScript, ih, Nat.mul_add, Nat.add_assoc, Nat.add_comm]

/-- `read_ec` whose last chunk never agrees within the limit (R174). -/
theorem readEc_raises {cfg : Params} {addr size l : Nat} {chunks : EcReads} {bad : List (List Byte)} (h1 : addr ≤ 0xFFFF) (h2 : addr + size ≤ 0x10000)
   (h3 : 0x800 * chunks.length < size) (hg : ∀ reads ∈ chunks, agreesAtEnd cfg reads = true ∧ reads.length ≤ l + 2 ∧ ∀ d ∈ reads, d.length = 0x800)
   (hb : bad.length = l + 2) (hn : neverAgrees cfg bad = true) (hd : ∀ d ∈ bad, d.length = min 0x800 (size - 0x800 * chunks.length)) :
   Raises cfg true (readEc addr size (some l)) (ecScript cfg addr (chunks ++ [bad])) none none .readUnstable (.chunk (addr + 0x800 * chunks.length) (l + 2)) := by
  unfold readEc
  refine Raises.then (requireConnected_runs _) (Raises.then (checkRange_runs h1) (Raises.then (checkRange_runs (by omega)) (Raises.then (refuseIf_runs _ (by simp; omega)) (Raises.then (setEc_runs _) ?_))))
  have h := ecChunks_raises (cfg := cfg) (conn := true) bad l hn hb chunks (size / Config.ecChunk + 1) { base := toU16 addr, size := size, off := 0, len := 0, prev := none, reads := 0, limit := some l, out := [] }
    (size - 0x800 * chunks.length) (by simp [Config.ecChunk]; omega) rfl (by simp; omega) (by omega) (fun r hr => ⟨(hg r hr).1, by simp [withinLimit, (hg r hr).2.1], (hg r hr).2.2⟩) hd
  have e : (EcRegs.chunkAddr { base := toU16 addr, size := size, off := 0, len := 0, prev := none, reads := 0, limit := some l, out := [] }) = addr := by
    simp [EcRegs.chunkAddr, toU16]; omega
  rw [e] at h
  rw [ecScript_append]; exact h

/-- Banks `k` on, of which the last one's select or read raises: the dump ends there (R273). -/
theorem dumpBanks_raises {cfg : Params} {v : Variant} {select : Nat → Proc Unit} {window : Nat → Nat} {size : Nat} {progress : Bool}
    {limit : Option Nat} {polls : List (List Byte)} {more : Nat} {cs : Script} {r m : Option Nat} {kind : ErrKind} {info : Info}
    (banks : List EcReads) : ∀ k : Nat,
    (∀ n, k ≤ n → n < k + banks.length → Runs cfg true (select n) (romSelectScript cfg v polls n) (some n) (romSelectRam v n) ()) →
    (∀ n, window n = romWindow v n) → size ≤ 0x8000 → (∀ b ∈ banks, ecFits cfg limit size b = true) →
    (∀ g : List Byte → Proc (List Byte),
      Raises cfg true (select (k + banks.length) >>= fun _ => readEc (window (k + banks.length)) size limit >>= g) cs r m kind info) →
    Raises cfg true (dumpBanks select window size progress limit (List.range' k (banks.length + 1 + more)))
      (banksScript cfg v polls progress k banks ++ cs) (r.or (lastBank k banks.length)) (m.or (lastRam v k banks.length)) kind info := by
  induction banks with
  | nil =>
    intro k _ _ _ _ hfail
    rw [show ([] : List EcReads).length + 1 + more = more + 1 by simp; omega, List.range'_succ]
    simpa [dumpBanks, banksScript, lastBank, lastRam] using hfail fun b => do
      emitProgress progress k b
      let rest ← dumpBanks select window size progress limit (List.range' (k + 1) more)
      pure (b ++ rest)
  | cons b bs ih =>
    intro k hsel hwin hsz hf hfail
    rw [show (b :: bs).length + 1 + more = (bs.length + 1 + more) + 1 by simp; omega, List.range'_succ]
    simp only [dumpBanks, banksScript, List.append_assoc]
    have hw : romWindow v k ≤ 0x4000 := by simp only [romWindow]; split <;> omega
    have hread := readEc_runs (cfg := cfg) (limit := limit) (addr := romWindow v k) (size := size) (chunks := b) (by omega) (by omega)
      (hf b (by simp))
    rw [← hwin k] at hread ⊢
    have e3 : k + (b :: bs).length = k + 1 + bs.length := by simp; omega
    rw [e3] at hfail
    have hi := ih (k + 1) (fun n h1 h2 => hsel n (by omega) (by simp only [List.length_cons]; omega)) hwin hsz
      (fun x hx => hf x (by simp [hx])) hfail
    have h := Raises.bind (hsel k (Nat.le_refl _) (by simp)) (g := fun _ => do
        let b ← readEc (window k) size limit
        emitProgress progress k b
        let rest ← dumpBanks select window size progress limit (List.range' (k + 1) (bs.length + 1 + more))
        pure (b ++ rest)) (Raises.seq hread (Raises.seq (emitProgress_runs progress k (ecBytes b)) (Raises.first hi)))
    rw [Option.or_assoc, Option.or_assoc, lastBank_or, lastRam_or] at h
    simpa using h

/-- The select and the read of a bank one of whose chunks never agrees (R273). -/
theorem selectRead_raises {cfg : Params} {v : Variant} {select : Nat → Proc Unit} {n size l : Nat} {polls : List (List Byte)}
    {good : EcReads} {bad : List (List Byte)} {g : List Byte → Proc (List Byte)}
    (hsel : Runs cfg true (select n) (romSelectScript cfg v polls n) (some n) (romSelectRam v n) ()) (hsz : size ≤ 0x8000)
    (h3 : 0x800 * good.length < size)
    (hg : ∀ reads ∈ good, agreesAtEnd cfg reads = true ∧ reads.length ≤ l + 2 ∧ ∀ d ∈ reads, d.length = 0x800)
    (hb : bad.length = l + 2) (hn : neverAgrees cfg bad = true) (hd : ∀ d ∈ bad, d.length = min 0x800 (size - 0x800 * good.length)) :
    Raises cfg true (select n >>= fun _ => readEc (romWindow v n) size (some l) >>= g)
      (romSelectScript cfg v polls n ++ ecScript cfg (romWindow v n) (good ++ [bad])) (some n) (romSelectRam v n)
      .readUnstable (.chunk (romWindow v n + 0x800 * good.length) (l + 2)) := by
  have hw : romWindow v n ≤ 0x4000 := by simp only [romWindow]; split <;> omega
  have h := readEc_raises (cfg := cfg) (addr := romWindow v n) (size := size) (by omega) (by omega) h3 hg hb hn hd
  exact Raises.seqL hsel h.first

/-- `dump_rom` whose bank 0 has a chunk that never agrees (R273). -/
theorem dumpRom_raises_bank0 {cfg : Params} {v : Variant} {window : Nat → Nat} {count : Nat} {progress : Bool} {l : Nat}
    {good : EcReads} {bad : List (List Byte)} (h3 : good.length < 8)
    (hg : ∀ reads ∈ good, agreesAtEnd cfg reads = true ∧ reads.length ≤ l + 2 ∧ ∀ d ∈ reads, d.length = 0x800)
    (hb : bad.length = l + 2) (hn : neverAgrees cfg bad = true) (hd : ∀ d ∈ bad, d.length = 0x800) :
    Raises cfg true (dumpRom v window count progress (some l)) (ecScript cfg 0x0000 (good ++ [bad])) none none
      .readUnstable (.chunk (0x800 * good.length) (l + 2)) := by
  have h := readEc_raises (cfg := cfg) (addr := 0x0000) (size := 0x4000) (by omega) (by omega) (by omega) hg hb hn
    (fun d h => by rw [hd d h]; omega)
  rw [Nat.zero_add] at h
  exact h.first

/-- `dump_rom` that ends in a bank `k ≥ 1` (R273). -/
theorem dumpRom_raises {cfg : Params} {v : Variant} {window : Nat → Nat} {count : Nat} {progress : Bool} {limit : Option Nat}
    {polls : List (List Byte)} {bank0 : EcReads} {banks : List EcReads} {cs : Script} {r m : Option Nat} {kind : ErrKind} {info : Info}
    (hcount : banks.length + 1 < count) (hmax : banks.length ≤ maxRomBank v) (hwin : ∀ n, window n = romWindow v n)
    (hu : v = .tama5 → banks ≠ [] → unlockFits cfg none polls = true) (hf : ∀ b ∈ bank0 :: banks, ecFits cfg limit 0x4000 b = true)
    (hfail : ∀ g : List Byte → Proc (List Byte), Raises cfg true
      (selectRomBank v (banks.length + 1) >>= fun _ => readEc (window (banks.length + 1)) 0x4000 limit >>= g) cs r m kind info) :
    Raises cfg true (dumpRom v window count progress limit) (dumpRomScript cfg v polls progress bank0 banks ++ cs)
      (r.or (lastBank 1 banks.length)) (m.or (lastRam v 1 banks.length)) kind info := by
  obtain ⟨more, rfl⟩ : ∃ more, count = banks.length + 1 + more + 1 := ⟨count - (banks.length + 2), by omega⟩
  unfold dumpRom dumpRomScript
  rw [Nat.add_sub_cancel]
  simp only [List.append_assoc]
  rw [Nat.add_comm banks.length 1] at hfail
  have hrest := dumpBanks_raises (cfg := cfg) (v := v) (select := selectRomBank v) (size := 0x4000) (progress := progress)
    (polls := polls) (more := more) banks 1
    (fun n h1 h2 => selectRomBank_runs (by omega) (fun hv => hu hv (by rintro rfl; simp at h2; omega))) hwin (by decide)
    (fun b hb => hf b (by simp [hb])) hfail
  have hread := readEc_runs (cfg := cfg) (limit := limit) (addr := 0x0000) (size := 0x4000) (chunks := bank0) (by omega) (by omega)
    (hf bank0 (by simp))
  have h := Raises.seq hread (g := fun b => do
      emitProgress progress 0 b
      let rest ← dumpBanks (selectRomBank v) window 0x4000 progress limit (List.range' 1 (banks.length + 1 + more))
      pure (b ++ rest)) (Raises.seq (emitProgress_runs progress 0 (ecBytes bank0)) (Raises.first hrest))
  exact h

/-- `dump_rom` of MBC6 that ends in a block (R273, R274). -/
theorem dumpRomMbc6_raises {cfg : Params} {count : Nat} {progress : Bool} {l : Nat} {blocks : List EcReads} {good : EcReads}
    {bad : List (List Byte)} (hcount : blocks.length < 2 * count) (hmax : blocks.length ≤ 0xFF) (hsz : cfg.mbc6RomBlock ≤ 0x8000)
    (hf : ∀ b ∈ blocks, ecFits cfg (some l) cfg.mbc6RomBlock b = true) (h3 : 0x800 * good.length < cfg.mbc6RomBlock)
    (hg : ∀ reads ∈ good, agreesAtEnd cfg reads = true ∧ reads.length ≤ l + 2 ∧ ∀ d ∈ reads, d.length = 0x800)
    (hb : bad.length = l + 2) (hn : neverAgrees cfg bad = true)
    (hd : ∀ d ∈ bad, d.length = min 0x800 (cfg.mbc6RomBlock - 0x800 * good.length)) :
    Raises cfg true (dumpRomMbc6 count progress (some l))
      (banksScript cfg .mbc6 [] progress 0 blocks ++ romSelectScript cfg .mbc6 [] blocks.length ++ ecScript cfg 0x4000 (good ++ [bad]))
      (some blocks.length) none .readUnstable (.chunk (0x4000 + 0x800 * good.length) (l + 2)) := by
  obtain ⟨more, hm⟩ : ∃ more, 2 * count = blocks.length + 1 + more := ⟨2 * count - (blocks.length + 1), by omega⟩
  have hsel : ∀ n, n ≤ 0xFF → Runs cfg true (selectRomMbc6 n) (romSelectScript cfg .mbc6 [] n) (some n) (romSelectRam .mbc6 n) () :=
    fun n h => selectRomBank_runs (cfg := cfg) (v := .mbc6) (n := n) (polls := []) h (by simp)
  unfold dumpRomMbc6
  refine Raises.get fun s hs => ?_
  rw [hs, hm, List.range_eq_range', List.append_assoc]
  have h := dumpBanks_raises (cfg := cfg) (v := .mbc6) (select := selectRomMbc6) (window := stdWindow) (size := cfg.mbc6RomBlock)
    (progress := progress) (limit := some l) (polls := []) (more := more) blocks 0 (fun n _ _ => hsel n (by omega))
    (fun n => by simp [stdWindow, romWindow, Config.romWinX]) hsz hf
    (fun g => selectRead_raises (v := .mbc6) (n := 0 + blocks.length) (hsel _ (by omega)) hsz h3 hg hb hn hd)
  simpa [romWindow, romSelectRam, lastRam] using h

end Sys2Proof.Machine
end

