-- ==== Sys2Proof/Laws/Answering.lean ====
section
/-!
SUPPORT. Replies that fit a script, so that the premises of the statements can be met by concrete states of any size without
running them: a link that answers a given script, and the reads of a device that answers every chunk the same way.
-/

namespace Sys2Proof.Machine

/-- A reply that fits an exchange of a script. -/
def fittingReply (mask value : Byte) (equal : Bool) : Byte := if equal then value else value ^^^ mask

/-- Replies that fit a script, in order, with no cancellation request. -/
def linkFor : Script → List LinkIn
  | [] => []
  | .report _ _ :: cs => linkFor cs
  | .ask _ mask value equal :: cs => { reply := fittingReply mask value equal, cancel := false } :: linkFor cs

/-- Every exchange of the script has a reply that fits it. -/
def playable (cs : Script) : Bool :=
  cs.all fun c => match c with
    | .report _ _ => true
    | .ask _ mask _ equal => equal || mask != 0

theorem fits_fittingReply {mask value : Byte} {equal : Bool} (h : (equal || mask != 0) = true) :
    cueFits mask value equal (fittingReply mask value equal) = true := by
  cases equal with
  | true => simp [cueFits, fittingReply]
  | false =>
    have hm : mask ≠ 0 := by simpa using h
    have key : (value ^^^ mask) &&& mask ≠ value &&& mask := by
      intro e
      apply hm
      apply BitVec.eq_of_getElem_eq
      intro i hi
      have := congrArg (fun x : Byte => x[i]) e
      simp only [BitVec.getElem_and, BitVec.getElem_xor] at this
      cases h1 : mask[i] <;> simp_all
    simp [cueFits, fittingReply, key]

theorem answers_linkFor (more : List LinkIn) : ∀ cs : Script, playable cs = true → answers cs (linkFor cs ++ more) = true
  | [], _ => rfl
  | .report _ _ :: cs, h => answers_linkFor more cs (by simpa [playable] using h)
  | .ask sent mask value equal :: cs, h => by
    simp only [playable, List.all_cons, Bool.and_eq_true] at h
    simp only [linkFor, List.cons_append, answers, Bool.not_false, Bool.true_and, Bool.and_eq_true]
    exact ⟨fits_fittingReply h.1, answers_linkFor more cs h.2⟩

theorem length_linkFor : ∀ cs : Script, (linkFor cs).length = exchangeCount cs
  | [] => rfl
  | .report _ _ :: cs => length_linkFor cs
  | .ask _ _ _ _ :: cs => by simp [linkFor, exchangeCount, length_linkFor cs]

/-- A state whose link answers the script. -/
def State.answering (s : State) (cs : Script) : State := { s with link := linkFor cs }

theorem State.answering_answers {s : State} {cs : Script} (hc : s.cancelReq = false) (h : playable cs = true) :
    (s.answering cs).Answers cs :=
  ⟨hc, by simpa [State.answering] using answers_linkFor [] cs h⟩

/-! ### Every script of the spec can be answered -/

@[simp] theorem playable_nil : playable [] = true := rfl
@[simp] theorem playable_free (b : Byte) (cs : Script) : playable (Cue.free b :: cs) = playable cs := rfl
@[simp] theorem playable_gives (b r : Byte) (cs : Script) : playable (Cue.gives b r :: cs) = playable cs := rfl
@[simp] theorem playable_append (cs ds : Script) : playable (cs ++ ds) = (playable cs && playable ds) := List.all_append
@[simp] theorem playable_map_free (bs : List Byte) : playable (bs.map Cue.free) = true := by
  simp [playable, Cue.free]
@[simp] theorem playable_map_gives (b : Byte) (bs : List Byte) : playable (bs.map (Cue.gives b)) = true := by
  simp [playable, Cue.gives]

theorem playable_flatMap {α : Type} {f : α → Script} {xs : List α} (h : ∀ x ∈ xs, playable (f x) = true) :
    playable (xs.flatMap f) = true := by
  induction xs with
  | nil => rfl
  | cons x xs ih => simp [List.flatMap_cons, h x (by simp), ih fun y hy => h y (by simp [hy])]

theorem playable_replicate {cs : Script} (h : playable cs = true) (n : Nat) : playable (List.replicate n cs).flatten = true := by
  induction n with
  | zero => rfl
  | succ n ih => simp [List.replicate_succ, h, ih]

variable {cfg : Params}

@[simp] theorem playable_probes (rs : List Byte) : playable (probesScript rs) = true := playable_map_gives _ _
@[simp] theorem playable_write (a : U16) (v : Byte) : playable (writeScript a v) = true := rfl
@[simp] theorem playable_read (a : U16) (data : List Byte) : playable (readScript cfg a data) = true := by
  simp [readScript]
@[simp] theorem playable_writes (ws : List CtrlWrite) : playable (writesScript ws) = true :=
  playable_flatMap fun _ _ => playable_write _ _
@[simp] theorem playable_ec (chunks : EcReads) : ∀ addr, playable (ecScript cfg addr chunks) = true := by
  induction chunks with
  | nil => intro; rfl
  | cons c cs ih =>
    intro addr
    simp [ecScript, ih, playable_flatMap (fun d (_ : d ∈ c) => playable_read (cfg := cfg) (BitVec.ofNat 16 addr) d)]
@[simp] theorem playable_byte (addr : Nat) (reads : List Byte) : playable (byteScript cfg addr reads) = true :=
  playable_ec _ _
@[simp] theorem playable_bytes (addr : Nat) (polls : List (List Byte)) : playable (polls.flatMap (byteScript cfg addr)) = true :=
  playable_flatMap fun _ _ => playable_byte _ _
@[simp] theorem playable_we (addr : Nat) (v : Byte) (reads : List Byte) : playable (weScript cfg addr v reads) = true :=
  playable_flatMap fun _ _ => by simp
@[simp] theorem playable_eeBit (b : Bool) : playable (eeBitScript cfg b) = true := rfl
@[simp] theorem playable_eeBits (bs : List Bool) : playable (eeBitsScript cfg bs) = true :=
  playable_flatMap fun _ _ => rfl
@[simp] theorem playable_eeInit : playable (eeInitScript cfg) = true :=
  playable_flatMap fun x _ => by cases x <;> rfl
@[simp] theorem playable_eeCommand (cls : BitVec 2) (f : Byte) : playable (eeCommandScript cfg cls f) = true := by
  simp [eeCommandScript]
@[simp] theorem playable_eeSub (sub : BitVec 2) : playable (eeSubScript cfg sub) = true := playable_eeCommand _ _

theorem playable_eeInout (h : cfg.eeDo ≠ 0) (out b : Bool) : playable (eeInoutScript cfg out b) = true := by
  simp [eeInoutScript, playable, Cue.free, eeBitScript, writeScript]
  exact .inr h
theorem playable_eeInouts (h : cfg.eeDo ≠ 0) (bs : List Bool) : playable (bs.flatMap (eeInoutScript cfg false)) = true :=
  playable_flatMap fun b _ => playable_eeInout h false b
theorem playable_eeWait (h : cfg.eeDo ≠ 0) (zeros : Nat) : playable (eeWaitScript cfg zeros) = true := by
  simp [eeWaitScript, playable_replicate (playable_eeInout h false false), playable_eeInout h]
theorem playable_eeWaitFail (h : cfg.eeDo ≠ 0) : playable (eeWaitFailScript cfg) = true := by
  simp [eeWaitFailScript, playable_replicate (playable_eeInout h false false)]
theorem playable_eeRead (h : cfg.eeDo ≠ 0) (a : Nat) (w : U16) : playable (eeReadScript cfg a w) = true := by
  simp [eeReadScript, playable_eeInouts h]
theorem playable_eeWrite (h : cfg.eeDo ≠ 0) (a : Nat) (w : U16) (zeros : Nat) : playable (eeWriteScript cfg a w zeros) = true := by
  simp [eeWriteScript, playable_eeWait h]

@[simp] theorem playable_tama5Write (r n : Byte) : playable (tama5WriteScript cfg r n) = true := rfl
@[simp] theorem playable_tama5Read (r : Byte) (reads : List Byte) : playable (tama5ReadScript cfg r reads) = true := by
  simp [tama5ReadScript]
@[simp] theorem playable_unlock (polls : List (List Byte)) : playable (unlockScript cfg polls) = true :=
  playable_flatMap fun _ _ => playable_tama5Read _ _
@[simp] theorem playable_tama5RamRead (ta : Nat) (lo hi : List Byte) : playable (tama5RamReadScript cfg ta lo hi) = true := by
  simp [tama5RamReadScript]
@[simp] theorem playable_tama5RamWrite (ta : Nat) (v : Byte) : playable (tama5RamWriteScript cfg ta v) = true := by
  simp [tama5RamWriteScript]
@[simp] theorem playable_romSelect (v : Variant) (polls : List (List Byte)) (n : Nat) :
    playable (romSelectScript cfg v polls n) = true := by
  cases v <;> simp [romSelectScript]
@[simp] theorem playable_ramSelect (v : Variant) (n : Nat) : playable (ramSelectScript cfg v n) = true := by
  cases v <;> simp [ramSelectScript]
@[simp] theorem playable_enable (v : Variant) : playable (enableScript cfg v) = true := playable_writes _
@[simp] theorem playable_report (progress : Bool) (k : Nat) (b : List Byte) : playable (reportScript progress k b) = true := by
  cases progress <;> rfl
@[simp] theorem playable_banks (v : Variant) (polls : List (List Byte)) (progress : Bool) (banks : List EcReads) :
    ∀ k, playable (banksScript cfg v polls progress k banks) = true := by
  induction banks with
  | nil => intro; rfl
  | cons b bs ih => intro k; simp [banksScript, ih]
@[simp] theorem playable_dumpRom (v : Variant) (polls : List (List Byte)) (progress : Bool) (bank0 : EcReads) (banks : List EcReads) :
    playable (dumpRomScript cfg v polls progress bank0 banks) = true := by
  simp [dumpRomScript]
@[simp] theorem playable_windows (v : Variant) (per : Nat) (ws : List EcReads) : ∀ i, playable (windowsScript cfg v per i ws) = true := by
  induction ws with
  | nil => intro; rfl
  | cons w ws ih => intro i; simp only [windowsScript, playable_append, ih]; split <;> simp
@[simp] theorem playable_bytesWe (bs : List (Byte × List Byte)) : ∀ addr, playable (bytesScript cfg addr bs) = true := by
  induction bs with
  | nil => intro; rfl
  | cons b bs ih => intro addr; obtain ⟨v, r⟩ := b; simp [bytesScript, ih]
@[simp] theorem playable_restore (v : Variant) (per : Nat) (ws : List (List (Byte × List Byte))) :
    ∀ i, playable (restoreScript cfg v per i ws) = true := by
  induction ws with
  | nil => intro; rfl
  | cons w ws ih => intro i; simp only [restoreScript, playable_append, ih]; split <;> simp
theorem playable_words (h : cfg.eeDo ≠ 0) (ws : List U16) : ∀ a, playable (wordsScript cfg a ws) = true := by
  induction ws with
  | nil => intro; rfl
  | cons w ws ih => intro a; simp [wordsScript, ih, playable_eeRead h]
theorem playable_restoreWords (h : cfg.eeDo ≠ 0) (ws : List (U16 × List (Nat × U16))) :
    ∀ a, playable (restoreWordsScript cfg a ws) = true := by
  induction ws with
  | nil => intro; rfl
  | cons w ws ih =>
    intro a
    obtain ⟨x, rounds⟩ := w
    simp only [restoreWordsScript, playable_append, ih, Bool.and_true]
    exact playable_flatMap fun r _ => by simp [playable_eeRead h, playable_eeWrite h]
@[simp] theorem playable_nibbles (bs : List (List Byte × List Byte)) : ∀ a, playable (nibblesScript cfg a bs) = true := by
  induction bs with
  | nil => intro; rfl
  | cons b bs ih => intro a; obtain ⟨x, y⟩ := b; simp [nibblesScript, ih]
@[simp] theorem playable_restoreNibbles (bs : List (Byte × List (List Byte × List Byte))) :
    ∀ a, playable (restoreNibblesScript cfg a bs) = true := by
  induction bs with
  | nil => intro; rfl
  | cons b bs ih =>
    intro a
    obtain ⟨x, rounds⟩ := b
    simp only [restoreNibblesScript, playable_append, ih, Bool.and_true]
    exact playable_flatMap fun r _ => by simp

/-! ### Stable reads -/

theorem cutChunks_fits {limit : Option Nat} : ∀ (n : Nat) (data : List Byte), data.length ≤ 0x800 * n →
    ecFits cfg limit data.length ((cutChunks n data).map fun c => [c, c]) = true
  | 0, data, h => by
    have : data = [] := by simpa using h
    simp [this, cutChunks, ecFits]
  | n + 1, data, h => by
    cases data with
    | nil => simp [cutChunks, ecFits]
    | cons x xs =>
      have ih := cutChunks_fits (limit := limit) n ((x :: xs).drop 0x800) (by simp only [List.length_drop]; omega)
      have hlen : (x :: xs).length - min 0x800 (x :: xs).length = ((x :: xs).drop 0x800).length := by
        simp only [List.length_drop]; omega
      have hw : withinLimit limit 2 = true := by cases limit <;> simp [withinLimit]
      rw [show cutChunks (n + 1) (x :: xs) = (x :: xs).take 0x800 :: cutChunks n ((x :: xs).drop 0x800) from rfl, List.map_cons]
      simp only [ecFits, Bool.and_eq_true, decide_eq_true_eq, List.all_eq_true]
      refine ⟨⟨⟨⟨by simp, fun d hd => ?_⟩, ?_⟩, hw⟩, ?_⟩
      · have : d = (x :: xs).take 0x800 := by simpa using hd
        rw [this, List.length_take]
      · simp [agreesAtEnd, readsAgree]
      · rw [hlen]; exact ih

/-- A device that answers every chunk the same way is read within any limit. -/
theorem stableReads_fits {limit : Option Nat} (data : List Byte) : ecFits cfg limit data.length (stableReads data) = true :=
  cutChunks_fits _ _ (by omega)

end Sys2Proof.Machine
end

