-- ==== Sys2Proof/Laws/Cancel.lean ====
section
/-!
SUPPORT. Cancellation (R441): a run beside the same run of a host that requests nothing. Until a request is honoured both do the
same, a frame begins only where no request is pending, and a request is honoured only where the other run begins a further frame.
One induction over the steps, as in View.lean and Frames.lean.
-/

namespace Sys2Proof.Machine

/-! ### Frames in order -/

theorem FramesFrom.one {i : Instr} {fill : Byte} {f : List Byte} {xs : List LinkIn} (h : FrameOf i fill f) (hl : xs.length = f.length) :
    FramesFrom i fill false f xs (xs.any (·.cancel)) := by
  simpa using FramesFrom.frame h hl (.none _)

theorem FramesFrom.append {i : Instr} {fill : Byte} {a b c : Bool} {f g : List Byte} {xs ys : List LinkIn}
    (h : FramesFrom i fill a f xs b) (k : FramesFrom i fill b g ys c) : FramesFrom i fill a (f ++ g) (xs ++ ys) c := by
  induction h with
  | none => exact k
  | frame hf hl _ ih => rw [List.append_assoc, List.append_assoc]; exact .frame hf hl (ih k)

/-- A request stays pending over frames, and adds up over their replies (R52). -/
theorem FramesFrom.left_eq {i : Instr} {fill : Byte} {a b : Bool} {f : List Byte} {xs : List LinkIn} (h : FramesFrom i fill a f xs b) :
    b = (a || xs.any (·.cancel)) := by
  induction h with
  | none => simp
  | frame _ _ _ ih => rw [ih, List.any_append, Bool.false_or]

/-- The byte of the exchange in which a procedure waits. -/
def awaits {α : Type} (r : EStateM.Result Halt State α) : List Byte :=
  match r with
  | .error .waiting t => t.awaiting.toList
  | _ => []

/-! ### The two runs -/

/-- The end of a run from `s` beside the end of the same run where nothing is requested: the same end, of whole frames or, while it
waits, with a beginning of one; or the end by a request, where the other run goes on with a further exchange. -/
inductive Asked (i : Instr) (fill : Byte) {α : Type} (s : State) :
    EStateM.Result Halt State α → EStateM.Result Halt State α → Prop where
  | ok (a : α) {t : State} (evs : List Event) (used : List LinkIn) : t.traceRev = evs ++ s.traceRev → s.link = used ++ t.link →
      FramesFrom i fill s.cancelReq (sentOf evs.reverse) used t.cancelReq → Asked i fill s (.ok a t) (.ok a t.unasked)
  | error (h : Halt) {t : State} (evs : List Event) (used : List LinkIn) : h ≠ .waiting → h ≠ .cancelled →
      t.traceRev = evs ++ s.traceRev → s.link = used ++ t.link →
      FramesFrom i fill s.cancelReq (sentOf evs.reverse) used t.cancelReq → Asked i fill s (.error h t) (.error h t.unasked)
  | waiting {t : State} (evs : List Event) (used xs : List LinkIn) (sent last more : List Byte) (b : Byte) :
      t.traceRev = evs ++ s.traceRev → s.link = used ++ xs ++ t.link → t.awaiting = some b →
      sentOf evs.reverse ++ [b] = sent ++ last → FramesFrom i fill s.cancelReq sent used false → FrameOf i fill (last ++ more) →
      t.cancelReq = xs.any (·.cancel) → Asked i fill s (.error .waiting t) (.error .waiting t.unasked)
  | cancelled {t : State} {r : EStateM.Result Halt State α} (evs : List Event) (used : List LinkIn) (more : List Event) :
      t.traceRev = evs ++ s.traceRev → s.link = used ++ t.link → FramesFrom i fill s.cancelReq (sentOf evs.reverse) used true →
      t.cancelReq = false → (endState r).traceRev = more ++ t.traceRev → sentOf more.reverse ++ awaits r ≠ [] →
      Asked i fill s (.error .cancelled t) r

variable {i : Instr} {fill : Byte} {α β : Type}

theorem Asked.of_none {s t : State} (a : α) (h1 : t.traceRev = s.traceRev) (h2 : t.link = s.link) (h3 : t.cancelReq = s.cancelReq) :
    Asked i fill s (.ok a t) (.ok a t.unasked) :=
  .ok a [] [] h1 (by simp [h2]) (by rw [h3]; exact .none _)

theorem Asked.of_error {s t : State} (h : Halt) (hw : h ≠ .waiting) (hc : h ≠ .cancelled) (h1 : t.traceRev = s.traceRev)
    (h2 : t.link = s.link) (h3 : t.cancelReq = s.cancelReq) : Asked i fill s (.error h t : EStateM.Result Halt State α) (.error h t.unasked) :=
  .error h [] [] hw hc h1 (by simp [h2]) (by rw [h3]; exact .none _)

/-- What was asked so far does not matter to what follows a result. -/
theorem Asked.after {s t : State} {r r' : EStateM.Result Halt State α} {evs : List Event} {used : List LinkIn}
    (h1 : t.traceRev = evs ++ s.traceRev) (h2 : s.link = used ++ t.link)
    (h3 : FramesFrom i fill s.cancelReq (sentOf evs.reverse) used t.cancelReq) (h : Asked i fill t r r') : Asked i fill s r r' := by
  have tr : ∀ {u : State} {ev2 : List Event}, u.traceRev = ev2 ++ t.traceRev → u.traceRev = (ev2 ++ evs) ++ s.traceRev :=
    fun h => by rw [h, h1, List.append_assoc]
  have sn : ∀ ev2 : List Event, sentOf (ev2 ++ evs).reverse = sentOf evs.reverse ++ sentOf ev2.reverse :=
    fun ev2 => by rw [List.reverse_append, sentOf_append]
  cases h with
  | ok a ev2 us2 k1 k2 k3 => exact .ok a (ev2 ++ evs) (used ++ us2) (tr k1) (by rw [h2, k2, List.append_assoc]) (sn ev2 ▸ h3.append k3)
  | error x ev2 us2 hw hc k1 k2 k3 =>
    exact .error x (ev2 ++ evs) (used ++ us2) hw hc (tr k1) (by rw [h2, k2, List.append_assoc]) (sn ev2 ▸ h3.append k3)
  | waiting ev2 us2 xs sent last more b k1 k2 k3 k4 k5 k6 k7 =>
    exact .waiting (ev2 ++ evs) (used ++ us2) xs (sentOf evs.reverse ++ sent) last more b (tr k1)
      (by rw [h2, k2]; simp only [List.append_assoc]) k3 (by rw [sn, List.append_assoc, k4, List.append_assoc]) (h3.append k5) k6 k7
  | cancelled ev2 us2 more k1 k2 k3 k4 k5 k6 =>
    exact .cancelled (ev2 ++ evs) (used ++ us2) more (tr k1) (by rw [h2, k2, List.append_assoc]) (sn ev2 ▸ h3.append k3) k4 k5 k6

theorem Asked.bind {p : Proc α} {g : α → Proc β} {s : State} (hp : Asked i fill s (p s) (p s.unasked))
    (hg : ∀ a t, p s = .ok a t → Asked i fill t (g a t) (g a t.unasked))
    (hx : ∀ a t, p s.unasked = .ok a t → ∃ evs, (endState (g a t)).traceRev = evs ++ t.traceRev) :
    Asked i fill s ((p >>= g) s) ((p >>= g) s.unasked) := by
  generalize e1 : p s = r1 at hp
  generalize e2 : p s.unasked = r2 at hp
  cases hp with
  | ok a evs used h1 h2 h3 => rw [bind_ok e1, bind_ok e2]; exact .after h1 h2 h3 (hg a _ e1)
  | error x evs used hw hc h1 h2 h3 => rw [bind_error e1, bind_error e2]; exact .error x evs used hw hc h1 h2 h3
  | waiting evs used xs sent last more b h1 h2 h3 h4 h5 h6 h7 =>
    rw [bind_error e1, bind_error e2]; exact .waiting evs used xs sent last more b h1 h2 h3 h4 h5 h6 h7
  | cancelled evs used more h1 h2 h3 h4 h5 h6 =>
    rw [bind_error e1]
    cases r2 with
    | ok a u =>
      obtain ⟨ev2, h7⟩ := hx a u e2
      rw [bind_ok e2]
      refine .cancelled evs used (ev2 ++ more) h1 h2 h3 h4 (by rw [h7, show u.traceRev = _ from h5, List.append_assoc]) fun h => ?_
      rw [List.reverse_append, sentOf_append, List.append_assoc] at h
      exact h6 (by simpa [awaits] using (List.append_eq_nil_iff.1 h).1)
    | error y u => rw [bind_error e2]; exact .cancelled evs used more h1 h2 h3 h4 h5 (by cases y <;> exact h6)

/-! ### The exchanges of a frame -/

/-- Exchanges that send these bytes, as far as they come, in both runs. -/
inductive AskedBlock {α : Type} (bs : List Byte) (s : State) : EStateM.Result Halt State α → EStateM.Result Halt State α → Prop where
  | ok (a : α) {t : State} (evs : List Event) (used : List LinkIn) : t.traceRev = evs ++ s.traceRev → s.link = used ++ t.link →
      sentOf evs.reverse = bs → used.length = bs.length → t.cancelReq = (s.cancelReq || used.any (·.cancel)) →
      AskedBlock bs s (.ok a t) (.ok a t.unasked)
  | waiting {t : State} (evs : List Event) (used : List LinkIn) (b : Byte) (more : List Byte) : t.traceRev = evs ++ s.traceRev →
      s.link = used ++ t.link → t.awaiting = some b → sentOf evs.reverse ++ b :: more = bs →
      t.cancelReq = (s.cancelReq || used.any (·.cancel)) → AskedBlock bs s (.error .waiting t) (.error .waiting t.unasked)

theorem AskedBlock.bind {p : Proc α} {g : α → Proc β} {s : State} {bs cs : List Byte} (hp : AskedBlock bs s (p s) (p s.unasked))
    (hg : ∀ a t, p s = .ok a t → AskedBlock cs t (g a t) (g a t.unasked)) :
    AskedBlock (bs ++ cs) s ((p >>= g) s) ((p >>= g) s.unasked) := by
  generalize e1 : p s = r1 at hp
  generalize e2 : p s.unasked = r2 at hp
  cases hp with
  | @ok a t evs used h1 h2 h3 h4 h5 =>
    rw [bind_ok e1, bind_ok e2]
    have hb := hg a t e1
    generalize g a t = q1 at hb
    generalize g a t.unasked = q2 at hb
    cases hb with
    | ok a ev2 us2 k1 k2 k3 k4 k5 =>
      exact .ok a (ev2 ++ evs) (used ++ us2) (by rw [k1, h1, List.append_assoc]) (by rw [h2, k2, List.append_assoc])
        (by rw [List.reverse_append, sentOf_append, h3, k3]) (by simp [h4, k4]) (by rw [k5, h5, List.any_append, Bool.or_assoc])
    | waiting ev2 us2 b more k1 k2 k3 k4 k5 =>
      exact .waiting (ev2 ++ evs) (used ++ us2) b more (by rw [k1, h1, List.append_assoc]) (by rw [h2, k2, List.append_assoc]) k3
        (by rw [List.reverse_append, sentOf_append, h3, List.append_assoc, k4]) (by rw [k5, h5, List.any_append, Bool.or_assoc])
  | waiting evs used b more h1 h2 h3 h4 h5 =>
    rw [bind_error e1, bind_error e2]
    exact .waiting evs used b (more ++ cs) h1 h2 h3 (by rw [← h4]; simp) h5

theorem askedBlock_pure (a : α) (s : State) : AskedBlock [] s ((pure a : Proc α) s) ((pure a : Proc α) s.unasked) :=
  .ok a [] [] rfl rfl rfl rfl (by simp)

theorem xfer_asked (b : Byte) (s : State) : AskedBlock [b] s (xfer b s) (xfer b s.unasked) := by
  cases h : s.link with
  | nil =>
    have e1 : xfer b s = .error .waiting { s with awaiting := some b } := by simp [xfer, h]
    have e2 : xfer b s.unasked = .error .waiting (State.unasked { s with awaiting := some b }) := by simp [xfer, State.unasked, h]
    rw [e1, e2]
    exact .waiting [] [] b [] rfl rfl rfl rfl (by simp)
  | cons x rest =>
    have e1 : xfer b s = .ok x.reply
        { s with link := rest, traceRev := .exchange b x.reply :: s.traceRev, cancelReq := s.cancelReq || x.cancel } := by simp [xfer, h]
    have e2 : xfer b s.unasked = .ok x.reply (State.unasked
        { s with link := rest, traceRev := .exchange b x.reply :: s.traceRev, cancelReq := s.cancelReq || x.cancel }) := by
      simp [xfer, State.unasked, h, LinkIn.unmarked]
    rw [e1, e2]
    exact .ok _ [_] [x] rfl h rfl rfl (by simp)

theorem xferBlock_asked (bs : List Byte) : ∀ s : State, AskedBlock bs s (xferBlock bs s) (xferBlock bs s.unasked) := by
  induction bs with
  | nil => exact askedBlock_pure []
  | cons b bs ih =>
    intro s
    refine (xfer_asked b s).bind (cs := bs) fun r t _ => ?_
    simpa using (ih t).bind (g := fun rs => pure (r :: rs)) (cs := []) fun as u _ => askedBlock_pure _ u

theorem dataIn_asked (n : Nat) (s : State) :
    AskedBlock (List.replicate n s.cfg.fillByte) s (dataIn n s) (dataIn n s.unasked) := by
  have e : ∀ s : State, dataIn n s = xferBlock (List.replicate n s.cfg.fillByte) s := fun s => bind_ok rfl
  rw [e, e]; exact xferBlock_asked _ s

/-- A frame primitive: it begins only where no request is pending; where one is, the other run sends the frame's first byte. -/
theorem beginFrame_asked {p : Proc α} {bs : List Byte} {s : State} (hf : FrameOf i fill bs) (hne : bs ≠ [])
    (h : AskedBlock bs s (p s) (p s.unasked)) (hs : Sent bs s.unasked (p s.unasked)) :
    Asked i fill s ((beginFrame >>= fun _ => p) s) ((beginFrame >>= fun _ => p) s.unasked) := by
  rw [bind_ok (a := ()) (s' := s.unasked) (show beginFrame s.unasked = _ from rfl)]
  by_cases hc : s.cancelReq = true
  · rw [bind_error (e := .cancelled) (s' := { s with cancelReq := false }) (by simp [beginFrame, hc])]
    have h0 : FramesFrom i fill s.cancelReq [] [] true := by rw [hc]; exact .none _
    rcases hs with ⟨evs, h1, h2, h3⟩ | ⟨evs, u, b, more, h1, h2, h3, h4⟩
    · refine .cancelled [] [] evs rfl rfl h0 rfl h1 fun h => hne ?_
      rw [← h3]; exact (List.append_eq_nil_iff.1 h).1
    · rw [h1]
      exact .cancelled [] [] evs rfl rfl h0 rfl h2 (by simp [awaits, h3])
  · have hc' : s.cancelReq = false := by simpa using hc
    rw [bind_ok (a := ()) (s' := s) (by simp [beginFrame, hc])]
    generalize p s = r1 at h
    generalize p s.unasked = r2 at h
    cases h with
    | ok a evs used h1 h2 h3 h4 h5 =>
      refine .ok a evs used h1 h2 ?_
      rw [h5, hc', Bool.false_or, h3]
      exact .one hf h4
    | waiting evs used b more h1 h2 h3 h4 h5 =>
      refine .waiting evs [] used [] (sentOf evs.reverse ++ [b]) more b h1 h2 h3 rfl (by rw [hc']; exact .none _) ?_
        (by rw [h5, hc', Bool.false_or])
      rw [List.append_assoc]; exact h4 ▸ hf

theorem probe_asked (s : State) : Asked i fill s (probe s) (probe s.unasked) :=
  beginFrame_asked .probe (by simp) (xfer_asked _ s) (xfer_sent _ _)

theorem memWrite_asked (a : U16) (v : Byte) (s : State) : Asked i fill s (memWrite a v s) (memWrite a v s.unasked) := by
  have h : ∀ t : State, AskedBlock [0x49, hi8 a, lo8 a, v] t ((xferBlock (writeFrameBytes a v) >>= fun _ => pure () : Proc Unit) t) _ :=
    fun t => by
      simpa [writeFrameBytes, Config.opWrite] using
        (xferBlock_asked (writeFrameBytes a v) t).bind (g := fun _ => (pure () : Proc Unit)) (cs := []) fun _ u _ => askedBlock_pure _ u
  have h2 := Sent.bind (g := fun _ => (pure () : Proc Unit)) (cs := []) (xferBlock_sent (writeFrameBytes a v) s.unasked)
    (fun h u e => xferBlock_error _ e) (fun as u _ => sent_pure _ u)
  exact beginFrame_asked (.write _ _ _) (by simp) (h s) (by simpa [writeFrameBytes, Config.opWrite] using h2)

theorem headerIn_asked (s : State) : Asked .connect s.cfg.fillByte s (headerIn s) (headerIn s.unasked) :=
  beginFrame_asked (.header rfl) (by simp) (dataIn_asked _ s) (dataIn_sent _ s.unasked)

theorem frameOf_read (a n : U16) : FrameOf i fill ([0x59, hi8 a, lo8 a, hi8 n, lo8 n] ++ List.replicate n.toNat fill) := by
  have h := FrameOf.read (i := i) (fill := fill) (hi8 a) (lo8 a) (hi8 n) (lo8 n)
  rwa [join16_parts] at h

theorem memRead_asked (a n : U16) (s : State) (hf : s.cfg.fillByte = fill) :
    Asked i fill s (memRead a n s) (memRead a n s.unasked) := by
  subst hf
  refine beginFrame_asked (frameOf_read a n) (by simp) ?_ ?_
  · refine (xferBlock_asked (readFrameBytes a n) s).bind fun as u e => ?_
    have w := (xferBlock_ends (fun _ => True) true true (readFrameBytes a n) s).within
    rw [e] at w
    have h := dataIn_asked n.toNat u
    rwa [show u.cfg = s.cfg from w.cfg] at h
  · refine Sent.bind (xferBlock_sent (readFrameBytes a n) s.unasked) (fun h u e => xferBlock_error _ e) (fun as u e => ?_)
    have w := (xferBlock_ends (fun _ => True) true true (readFrameBytes a n) s.unasked).within
    rw [e] at w
    have h := dataIn_sent n.toNat u
    rwa [show u.cfg = s.cfg from w.cfg] at h

/-! ### Every procedure -/

variable {P : Params} {conn rom ram : Bool} {K : ErrKind → Prop}

theorem Built.asked {p : Proc α} (h : Built P conn rom ram K p) : ∀ s : State, s.cfg = P → s.connected = conn →
    Asked i P.fillByte s (p s) (p s.unasked) := by
  induction h with
  | pure a => intro s _ _; exact .of_none a rfl rfl rfl
  | bind h1 h2 ih1 ih2 =>
    intro s hc hn
    refine (ih1 s hc hn).bind (fun a t e => ?_) (fun a t e => ?_)
    · have w := (h1.ends s hc hn).within
      rw [e] at w
      exact ih2 a ⟨s, t, e⟩ t (w.cfg.trans hc) (w.connected.trans hn)
    · have w := (h1.ends s.unasked hc hn).within
      rw [e] at w
      exact ((h2 a ⟨_, t, e⟩).ends t (w.cfg.trans hc) (w.connected.trans hn)).within.trace.imp fun _ h => h.1
  | raise k x _ => intro s _ _; exact .of_error _ (fun e => by cases e) (fun e => by cases e) rfl rfl rfl
  | refuse r => intro s _ _; exact .of_error _ (fun e => by cases e) (fun e => by cases e) rfl rfl rfl
  | probe => intro s _ _; exact probe_asked s
  | memRead a n => intro s hc _; exact memRead_asked a n s (by rw [hc])
  | memWrite a v => intro s _ _; exact memWrite_asked a v s
  | connected op _ =>
    intro s _ _
    unfold requireConnected
    by_cases h : s.connected = true
    · rw [if_pos h, if_pos (show s.unasked.connected = true from h)]; exact .of_none () rfl rfl rfl
    · rw [if_neg h, if_neg (show ¬ s.unasked.connected = true from h)]
      exact .of_error _ (fun e => by cases e) (fun e => by cases e) rfl rfl rfl
  | @params α g hdep _ ih =>
    intro s hc hn
    have e : (get >>= g) s.unasked = g s s.unasked := by rw [hdep s s.unasked rfl]; rfl
    rw [e]
    exact ih s hc s hc hn
  | report k bs => intro s _ _; exact .ok () [_] [] rfl rfl (.none _)
  | setEc r => intro s _ _; exact Asked.of_none (t := { s with ec := some r }) () rfl rfl rfl
  | setWe r => intro s _ _; exact Asked.of_none (t := { s with we := some r }) () rfl rfl rfl
  | setHs r => intro s _ _; exact Asked.of_none (t := { s with hs := some r }) () rfl rfl rfl
  | setPoll r => intro s _ _; exact Asked.of_none (t := { s with poll := some r }) () rfl rfl rfl
  | setEe r => intro s _ _; exact Asked.of_none (t := { s with ee := some r }) () rfl rfl rfl
  | setRom n _ =>
    intro s _ _
    exact Asked.of_none (t := { s with ctrl := s.ctrl.map fun c => { c with romShadow := some n } }) () rfl rfl rfl
  | setRam n _ =>
    intro s _ _
    exact Asked.of_none (t := { s with ctrl := s.ctrl.map fun c => { c with ramShadow := some n } }) () rfl rfl rfl
  | loop I body x hx hb hless ih =>
    intro s hc hn
    have hlen : ∀ s : State, s.unasked.link.length = s.link.length := fun s => by simp [State.unasked]
    suffices ∀ n y s, I y → s.link.length < n → s.cfg = P → s.connected = conn →
        Asked i P.fillByte s (goLoop body n y s) (goLoop body n y s.unasked) by
      have h := this (s.link.length + 1) x s hx (Nat.lt_succ_self _) hc hn
      simp only [unbounded, hlen]
      exact h
    intro n
    induction n with
    | zero => intro y s _ h; exact absurd h (Nat.not_lt_zero _)
    | succ n ihn =>
      intro y s hy hl hc hn
      refine (ih y hy s hc hn).bind (fun r t e => ?_) (fun r t e => ?_)
      · have w := ((hb y hy).ends s hc hn).within
        rw [e] at w
        cases r with
        | inl z =>
          have hz := hless y s z t hy e
          exact ihn z t hz.1 (by omega) (w.cfg.trans hc) (w.connected.trans hn)
        | inr a => exact .of_none a rfl rfl rfl
      · have w := ((hb y hy).ends s.unasked hc hn).within
        rw [e] at w
        cases r with
        | inl z =>
          have hz := hless y s.unasked z t hy e
          have := hlen s
          exact goLoop_grows hb hless n z t hz.1 (by omega) (w.cfg.trans hc) (w.connected.trans hn)
        | inr a => exact ⟨[], rfl⟩

/-! ### Every instruction -/

theorem body_asked (i : Instr) (h1 : i ≠ .connect) (h2 : i ≠ .detect) (s : State) :
    Asked i s.cfg.fillByte s (bodyOf i s) (bodyOf i s.unasked) := by
  have hs := body_shape s i h1 h2
  generalize bodyOf i = p at hs ⊢
  cases hs with
  | plain _ hb => exact hb.asked s rfl rfl
  | controller v op b _ ho _ hb =>
    unfold withController
    show Asked i _ s _ (match s.ctrl with | none => _ | some c => _)
    cases hc : s.ctrl with
    | none => exact .of_error _ (fun e => by cases e) (fun e => by cases e) rfl rfl rfl
    | some c =>
      by_cases hv : c.variant = v
      · simp only [hv, if_true]
        by_cases hn : s.connected = true
        · rw [bind_ok (a := ()) (s' := s) (by simp [requireConnected, hn]),
            bind_ok (a := ()) (s' := s.unasked) (by simp [requireConnected, State.unasked, hn])]
          exact (hb c).asked s rfl hn
        · rw [bind_error (e := .raised .notConnected (.op op)) (s' := s) (by simp [requireConnected, hn]),
            bind_error (e := .raised .notConnected (.op op)) (s' := s.unasked) (by simp [requireConnected, State.unasked, hn])]
          exact .of_error _ (fun e => by cases e) (fun e => by cases e) rfl rfl rfl
      · simp only [hv, if_false]; exact .of_error _ (fun e => by cases e) (fun e => by cases e) rfl rfl rfl

theorem connectRead_asked (s : State) : Asked .connect s.cfg.fillByte s (connectRead s) (connectRead s.unasked) := by
  have hs : ∀ (ph : HsPhase) (n : Nat) (m : Byte) (s : State) (fill : Byte), s.cfg.fillByte = fill →
      Asked .connect fill s (handshake ph n m s) (handshake ph n m s.unasked) := fun ph n m s fill hf =>
    hf ▸ (Built.asked (P := s.cfg) (conn := s.connected) (rom := true) (ram := true) (K := fun _ => True) (handshake_built ph n m trivial))
      s rfl rfl
  have ends : ∀ (ph : HsPhase) (n : Nat) (m : Byte) (s : State), Ends connectKinds false false s (handshake ph n m s) := fun ph n m s =>
    (Built.ends (P := s.cfg) (conn := s.connected) (handshake_built ph n m (.inl rfl))) s rfl rfl
  have tail : ∀ (a : Nat) (s : State) (fill : Byte), s.cfg.fillByte = fill →
      Asked .connect fill s (readHeader a s) (readHeader a s.unasked) := by
    rintro a s _ rfl
    have hset : ∀ (r : HsRegs) (s : State) (fill : Byte), Asked .connect fill s (setHs r s) (setHs r s.unasked) := fun r s fill =>
      Asked.of_none (t := { s with hs := some r }) () rfl rfl rfl
    have hcfg : ∀ {α : Type} {p : Proc α} {a : α} {s t : State}, Ends connectKinds true true s (p s) → p s = .ok a t → t.cfg = s.cfg := by
      intro α p a s t h e
      have w := h.within
      rw [e] at w
      exact w.cfg
    refine (hset _ s _).bind (fun _ t e => ?_) (fun _ t _ => ?_)
    · have ht := hcfg (setHs_ends connectKinds true true _ s) e
      rw [← ht]
      refine (headerIn_asked t).bind (fun bytes u e2 => ?_) (fun bytes u _ => ?_)
      · have hu := hcfg (headerIn_ends connectKinds true true t) e2
        rw [← hu]
        refine (hset _ u _).bind (fun _ v e3 => ?_) (fun _ v _ => (checkHeader_ends true true bytes v).within.trace.imp fun _ h => h.1)
        rw [← hcfg (setHs_ends connectKinds true true _ u) e3]
        exact (checkHeader_built (P := v.cfg) (conn := v.connected) (rom := true) (ram := true) (K := fun _ => True) trivial bytes).asked
          v rfl rfl
      · exact (Ends.bind (setHs_ends connectKinds true true _ u) fun _ v _ => checkHeader_ends true true bytes v).within.trace.imp
          fun _ h => h.1
    · exact (Ends.bind (headerIn_ends connectKinds true true t) fun bytes u _ =>
        Ends.bind (setHs_ends connectKinds true true _ u) fun _ v _ => checkHeader_ends true true bytes v).within.trace.imp fun _ h => h.1
  have hcfg : ∀ (ph : HsPhase) (n : Nat) (m : Byte) {a : Nat} {s t : State}, handshake ph n m s = .ok a t → t.cfg = s.cfg := by
    intro ph n m a s t e
    have w := (ends ph n m s).within
    rw [e] at w
    exact w.cfg
  refine (hs _ _ _ s _ rfl).bind (fun _ t e => Asked.bind (p := settle) (.of_none () rfl rfl rfl) (fun _ u e2 => ?_) (fun _ u _ => ?_))
    (fun _ t _ => ?_)
  · cases e2
    exact (hs _ _ _ t _ (by rw [hcfg _ _ _ e])).bind (fun a v e3 => tail a v _ (by rw [hcfg _ _ _ e3, hcfg _ _ _ e]))
      (fun a v _ => (readHeader_ends a v).within.trace.imp fun _ h => h.1)
  · exact (Ends.bind (ends _ _ _ u) fun a v _ => readHeader_ends a v).within.trace.imp fun _ h => h.1
  · exact (Ends.bind (p := settle) (Ends.of_ok (Within.refl _ _ _)) fun _ u _ =>
      Ends.bind (ends _ _ _ u) fun a v _ => readHeader_ends a v).within.trace.imp fun _ h => h.1

theorem connect_asked (s : State) : Asked .connect s.cfg.fillByte s (connect s) (connect s.unasked) := by
  by_cases hc : s.connected = true
  · simp only [connect, if_pos hc, if_pos (show s.unasked.connected = true from hc)]
    exact .of_error _ (fun e => by cases e) (fun e => by cases e) rfl rfl rfl
  · have hc' : s.connected = false := by simpa using hc
    have h := connectRead_asked s
    generalize e1 : connectRead s = r1 at h
    generalize e2 : connectRead s.unasked = r2 at h
    cases h with
    | ok a evs used h1 h2 h3 =>
      rw [connect_ok hc' e1, connect_ok (s := s.unasked) hc' e2]
      exact .ok _ evs used h1 h2 h3
    | error x evs used hw hx h1 h2 h3 =>
      cases x with
      | raised k info =>
        rw [connect_raised hc' e1, connect_raised (s := s.unasked) hc' e2]
        exact .error _ evs used hw hx h1 h2 h3
      | refused r =>
        have h : ∀ {s t : State}, s.connected = false → connectRead s = .error (.refused r) t → connect s = .error (.refused r) t := by
          intro s t hc e
          have : connectBody s = .error (.refused r) t := by rw [connectBody_eq, bind_error e]
          simp [connect, hc, disconnectOnError, this]
        rw [h hc' e1, h (s := s.unasked) hc' e2]
        exact .error _ evs used hw hx h1 h2 h3
      | cancelled => exact absurd rfl hx
      | waiting => exact absurd rfl hw
    | waiting evs used xs sent last more b h1 h2 h3 h4 h5 h6 h7 =>
      rw [connect_waiting hc' e1, connect_waiting (s := s.unasked) hc' e2]
      exact .waiting evs used xs sent last more b h1 h2 h3 h4 h5 h6 h7
    | cancelled evs used more h1 h2 h3 h4 h5 h6 =>
      rw [connect_cancelled hc' e1]
      have : (endState (connect s.unasked)).traceRev = (endState r2).traceRev ∧ awaits (connect s.unasked) = awaits r2 := by
        cases r2 with
        | ok a u => rw [connect_ok (s := s.unasked) hc' e2]; exact ⟨rfl, rfl⟩
        | error x u =>
          have : connectBody s.unasked = .error x u := by rw [connectBody_eq, bind_error e2]
          simp only [connect, if_neg (show ¬ s.unasked.connected = true from hc), disconnectOnError, this]
          cases x <;> exact ⟨rfl, rfl⟩
      exact .cancelled evs used more h1 h2 h3 h4 (by rw [this.1]; exact h5) (by rw [this.2]; exact h6)

theorem detect_asked (s : State) : Asked .detect s.cfg.fillByte s (detect s) (detect s.unasked) := by
  have hx : ∀ {α : Type} {k : ErrKind} {info : Info}, Asked .detect s.cfg.fillByte s (.error (.raised k info) s : EStateM.Result Halt State α)
      (.error (.raised k info) s.unasked) := .of_error _ (fun e => by cases e) (fun e => by cases e) rfl rfl rfl
  have hget : ∀ {α : Type} (g : State → Proc α) (u : State), (get >>= g) u = g u u := fun _ _ => rfl
  unfold detect
  by_cases hc : s.connected = true
  · rw [bind_ok (a := ()) (s' := s) (by simp [requireConnected, hc]),
      bind_ok (a := ()) (s' := s.unasked) (by simp [requireConnected, State.unasked, hc])]
    rw [hget, hget]
    show Asked .detect _ s _ ((match s.header with | none => _ | some h => _ : Proc Value) _)
    cases hh : s.header with
    | none => exact hx
    | some h =>
      simp only [detectFrom]
      rw [hget, hget]
      show Asked .detect _ s _ ((match cartVariant s.cfg.cartTypeMap h.cartType with | none => _ | some v => _ : Proc Value) _)
      cases cartVariant s.cfg.cartTypeMap h.cartType with
      | none => exact hx
      | some v =>
        simp only
        cases romBanks h.romSizeCode with
        | none => exact hx
        | some banks => exact Asked.of_none (t := { s with ctrl := some (newController v banks (ramSize v h.ramSizeCode)) }) _ rfl rfl rfl
  · rw [bind_error (e := .raised .notConnected (.op .detect)) (s' := s) (by simp [requireConnected, hc]),
      bind_error (e := .raised .notConnected (.op .detect)) (s' := s.unasked) (by simp [requireConnected, State.unasked, hc])]
    exact hx

/-- Every instruction, with a host that requests cancellation beside one that does not (R441). -/
theorem bodyOf_asked (i : Instr) (s : State) : Asked i s.cfg.fillByte s (bodyOf i s) (bodyOf i s.unasked) := by
  by_cases h1 : i = .connect
  · subst h1; exact connect_asked s
  · by_cases h2 : i = .detect
    · subst h2; exact detect_asked s
    · exact body_asked i h1 h2 s

end Sys2Proof.Machine
end

