-- ==== Sys2Proof/Laws/PerInstr.lean ====
section
/-!
SUPPORT. Facts about every instruction as syntax, one lemma per constructor. Family `Selector`: the selector of the spec's table
(R37, R130, R131) is the one under which the encoder writes the instruction; the ten frames have none.
-/

namespace Sys2Proof.Laws

/-- The encoder writes a host operation under the selector of R131 and a frame under none. -/
def Selector.Statement (i : Instr) : Prop :=
  match encode i with
  | .host w _ => Machine.selectorOf i = some w.toNat ∧ i.opId = .selector w
  | .wire bytes => Machine.selectorOf i = none ∧ i.opId = .wire (bytes.headD 0)
  | .ee frame _ => Machine.selectorOf i = none ∧ i.opId = .ee frame

theorem Selector.hsProbe : Selector.Statement .hsProbe := ⟨rfl, rfl⟩
theorem Selector.readFrame (addr : U16) (len : U16) : Selector.Statement (.readFrame addr len) := ⟨rfl, rfl⟩
theorem Selector.writeFrame (addr : U16) (value : Byte) : Selector.Statement (.writeFrame addr value) := ⟨rfl, rfl⟩
theorem Selector.eeRead (a : Byte) : Selector.Statement (.eeRead a) := ⟨rfl, rfl⟩
theorem Selector.eeWrite (a : Byte) (data : U16) : Selector.Statement (.eeWrite a data) := ⟨rfl, rfl⟩
theorem Selector.eeErase (a : Byte) : Selector.Statement (.eeErase a) := ⟨rfl, rfl⟩
theorem Selector.eeEwen : Selector.Statement .eeEwen := ⟨rfl, rfl⟩
theorem Selector.eeEwds : Selector.Statement .eeEwds := ⟨rfl, rfl⟩
theorem Selector.eeEral : Selector.Statement .eeEral := ⟨rfl, rfl⟩
theorem Selector.eeWral (data : U16) : Selector.Statement (.eeWral data) := ⟨rfl, rfl⟩
theorem Selector.connect : Selector.Statement .connect := ⟨rfl, rfl⟩
theorem Selector.read (addr : Nat) (length : Nat) : Selector.Statement (.read addr length) := ⟨rfl, rfl⟩
theorem Selector.write (addr : Nat) (value : Nat) : Selector.Statement (.write addr value) := ⟨rfl, rfl⟩
theorem Selector.readEc (addr : Nat) (size : Nat) (retryLimit : Option Nat) : Selector.Statement (.readEc addr size retryLimit) := ⟨rfl, rfl⟩
theorem Selector.writeEc (addr : Nat) (value : Nat) : Selector.Statement (.writeEc addr value) := ⟨rfl, rfl⟩
theorem Selector.detect : Selector.Statement .detect := ⟨rfl, rfl⟩
theorem Selector.selectRomBankBase (n : Nat) : Selector.Statement (.selectRomBankBase n) := ⟨rfl, rfl⟩
theorem Selector.selectRomBankMbc1 (n : Nat) : Selector.Statement (.selectRomBankMbc1 n) := ⟨rfl, rfl⟩
theorem Selector.selectRomBankMbc2 (n : Nat) : Selector.Statement (.selectRomBankMbc2 n) := ⟨rfl, rfl⟩
theorem Selector.selectRomBankMbc3 (n : Nat) : Selector.Statement (.selectRomBankMbc3 n) := ⟨rfl, rfl⟩
theorem Selector.selectRomBankMbc5 (n : Nat) : Selector.Statement (.selectRomBankMbc5 n) := ⟨rfl, rfl⟩
theorem Selector.selectRomBankMbc6 (n : Nat) : Selector.Statement (.selectRomBankMbc6 n) := ⟨rfl, rfl⟩
theorem Selector.selectRomBankMbc7 (n : Nat) : Selector.Statement (.selectRomBankMbc7 n) := ⟨rfl, rfl⟩
theorem Selector.selectRomBankCamera (n : Nat) : Selector.Statement (.selectRomBankCamera n) := ⟨rfl, rfl⟩
theorem Selector.selectRomBankTama5 (n : Nat) : Selector.Statement (.selectRomBankTama5 n) := ⟨rfl, rfl⟩
theorem Selector.selectRamBankBase (n : Nat) : Selector.Statement (.selectRamBankBase n) := ⟨rfl, rfl⟩
theorem Selector.selectRamBankMbc1 (n : Nat) : Selector.Statement (.selectRamBankMbc1 n) := ⟨rfl, rfl⟩
theorem Selector.selectRamBankMbc2 (n : Nat) : Selector.Statement (.selectRamBankMbc2 n) := ⟨rfl, rfl⟩
theorem Selector.selectRamBankMbc3 (n : Nat) : Selector.Statement (.selectRamBankMbc3 n) := ⟨rfl, rfl⟩
theorem Selector.selectRamBankMbc5 (n : Nat) : Selector.Statement (.selectRamBankMbc5 n) := ⟨rfl, rfl⟩
theorem Selector.selectRamBankMbc6 (n : Nat) : Selector.Statement (.selectRamBankMbc6 n) := ⟨rfl, rfl⟩
theorem Selector.selectRamBankMbc7 (n : Nat) : Selector.Statement (.selectRamBankMbc7 n) := ⟨rfl, rfl⟩
theorem Selector.selectRamBankCamera (n : Nat) : Selector.Statement (.selectRamBankCamera n) := ⟨rfl, rfl⟩
theorem Selector.selectRamBankTama5 (n : Nat) : Selector.Statement (.selectRamBankTama5 n) := ⟨rfl, rfl⟩
theorem Selector.enableRamBase : Selector.Statement .enableRamBase := ⟨rfl, rfl⟩
theorem Selector.enableRamMbc1 : Selector.Statement .enableRamMbc1 := ⟨rfl, rfl⟩
theorem Selector.enableRamMbc2 : Selector.Statement .enableRamMbc2 := ⟨rfl, rfl⟩
theorem Selector.enableRamMbc3 : Selector.Statement .enableRamMbc3 := ⟨rfl, rfl⟩
theorem Selector.enableRamMbc5 : Selector.Statement .enableRamMbc5 := ⟨rfl, rfl⟩
theorem Selector.enableRamMbc6 : Selector.Statement .enableRamMbc6 := ⟨rfl, rfl⟩
theorem Selector.enableRamMbc7 : Selector.Statement .enableRamMbc7 := ⟨rfl, rfl⟩
theorem Selector.enableRamCamera : Selector.Statement .enableRamCamera := ⟨rfl, rfl⟩
theorem Selector.enableRamTama5 : Selector.Statement .enableRamTama5 := ⟨rfl, rfl⟩
theorem Selector.dumpRomBase (progress : Bool) (retryLimit : Option Nat) : Selector.Statement (.dumpRomBase progress retryLimit) := ⟨rfl, rfl⟩
theorem Selector.dumpRomMbc1 (progress : Bool) (retryLimit : Option Nat) : Selector.Statement (.dumpRomMbc1 progress retryLimit) := ⟨rfl, rfl⟩
theorem Selector.dumpRomMbc2 (progress : Bool) (retryLimit : Option Nat) : Selector.Statement (.dumpRomMbc2 progress retryLimit) := ⟨rfl, rfl⟩
theorem Selector.dumpRomMbc3 (progress : Bool) (retryLimit : Option Nat) : Selector.Statement (.dumpRomMbc3 progress retryLimit) := ⟨rfl, rfl⟩
theorem Selector.dumpRomMbc5 (progress : Bool) (retryLimit : Option Nat) : Selector.Statement (.dumpRomMbc5 progress retryLimit) := ⟨rfl, rfl⟩
theorem Selector.dumpRomMbc6 (progress : Bool) (retryLimit : Option Nat) : Selector.Statement (.dumpRomMbc6 progress retryLimit) := ⟨rfl, rfl⟩
theorem Selector.dumpRomMbc7 (progress : Bool) (retryLimit : Option Nat) : Selector.Statement (.dumpRomMbc7 progress retryLimit) := ⟨rfl, rfl⟩
theorem Selector.dumpRomCamera (progress : Bool) (retryLimit : Option Nat) : Selector.Statement (.dumpRomCamera progress retryLimit) := ⟨rfl, rfl⟩
theorem Selector.dumpRomTama5 (progress : Bool) (retryLimit : Option Nat) : Selector.Statement (.dumpRomTama5 progress retryLimit) := ⟨rfl, rfl⟩
theorem Selector.dumpRamBase (retryLimit : Option Nat) : Selector.Statement (.dumpRamBase retryLimit) := ⟨rfl, rfl⟩
theorem Selector.dumpRamMbc1 (retryLimit : Option Nat) : Selector.Statement (.dumpRamMbc1 retryLimit) := ⟨rfl, rfl⟩
theorem Selector.dumpRamMbc2 (retryLimit : Option Nat) : Selector.Statement (.dumpRamMbc2 retryLimit) := ⟨rfl, rfl⟩
theorem Selector.dumpRamMbc3 (retryLimit : Option Nat) : Selector.Statement (.dumpRamMbc3 retryLimit) := ⟨rfl, rfl⟩
theorem Selector.dumpRamMbc5 (retryLimit : Option Nat) : Selector.Statement (.dumpRamMbc5 retryLimit) := ⟨rfl, rfl⟩
theorem Selector.dumpRamMbc6 (retryLimit : Option Nat) : Selector.Statement (.dumpRamMbc6 retryLimit) := ⟨rfl, rfl⟩
theorem Selector.dumpRamMbc7 (retryLimit : Option Nat) : Selector.Statement (.dumpRamMbc7 retryLimit) := ⟨rfl, rfl⟩
theorem Selector.dumpRamCamera (retryLimit : Option Nat) : Selector.Statement (.dumpRamCamera retryLimit) := ⟨rfl, rfl⟩
theorem Selector.dumpRamTama5 (retryLimit : Option Nat) : Selector.Statement (.dumpRamTama5 retryLimit) := ⟨rfl, rfl⟩
theorem Selector.restoreRamBase (image : List Byte) : Selector.Statement (.restoreRamBase image) := ⟨rfl, rfl⟩
theorem Selector.restoreRamMbc1 (image : List Byte) : Selector.Statement (.restoreRamMbc1 image) := ⟨rfl, rfl⟩
theorem Selector.restoreRamMbc2 (image : List Byte) : Selector.Statement (.restoreRamMbc2 image) := ⟨rfl, rfl⟩
theorem Selector.restoreRamMbc3 (image : List Byte) : Selector.Statement (.restoreRamMbc3 image) := ⟨rfl, rfl⟩
theorem Selector.restoreRamMbc5 (image : List Byte) : Selector.Statement (.restoreRamMbc5 image) := ⟨rfl, rfl⟩
theorem Selector.restoreRamMbc6 (image : List Byte) : Selector.Statement (.restoreRamMbc6 image) := ⟨rfl, rfl⟩
theorem Selector.restoreRamMbc7 (image : List Byte) : Selector.Statement (.restoreRamMbc7 image) := ⟨rfl, rfl⟩
theorem Selector.restoreRamCamera (image : List Byte) : Selector.Statement (.restoreRamCamera image) := ⟨rfl, rfl⟩
theorem Selector.restoreRamTama5 (image : List Byte) : Selector.Statement (.restoreRamTama5 image) := ⟨rfl, rfl⟩
theorem Selector.latchRtc : Selector.Statement .latchRtc := ⟨rfl, rfl⟩
theorem Selector.readRtc (reg : Nat) (retryLimit : Option Nat) : Selector.Statement (.readRtc reg retryLimit) := ⟨rfl, rfl⟩
theorem Selector.eepromShiftIn (bit : Nat) : Selector.Statement (.eepromShiftIn bit) := ⟨rfl, rfl⟩
theorem Selector.eepromShiftInout (bit : Nat) : Selector.Statement (.eepromShiftInout bit) := ⟨rfl, rfl⟩
theorem Selector.eepromRead (eeAddr : Nat) : Selector.Statement (.eepromRead eeAddr) := ⟨rfl, rfl⟩
theorem Selector.eepromWrite (eeAddr : Nat) (word : Nat) : Selector.Statement (.eepromWrite eeAddr word) := ⟨rfl, rfl⟩
theorem Selector.eepromErase (eeAddr : Nat) : Selector.Statement (.eepromErase eeAddr) := ⟨rfl, rfl⟩
theorem Selector.eepromEwen : Selector.Statement .eepromEwen := ⟨rfl, rfl⟩
theorem Selector.eepromEwds : Selector.Statement .eepromEwds := ⟨rfl, rfl⟩
theorem Selector.eepromEral : Selector.Statement .eepromEral := ⟨rfl, rfl⟩
theorem Selector.eepromWral (word : Nat) : Selector.Statement (.eepromWral word) := ⟨rfl, rfl⟩
theorem Selector.eepromWait : Selector.Statement .eepromWait := ⟨rfl, rfl⟩
theorem Selector.sampleAccel (retryLimit : Option Nat) : Selector.Statement (.sampleAccel retryLimit) := ⟨rfl, rfl⟩
theorem Selector.takePhoto (retryLimit : Option Nat) : Selector.Statement (.takePhoto retryLimit) := ⟨rfl, rfl⟩
theorem Selector.tama5Unlock (retryLimit : Option Nat) : Selector.Statement (.tama5Unlock retryLimit) := ⟨rfl, rfl⟩
theorem Selector.tama5WriteReg (r : Nat) (nib : Nat) : Selector.Statement (.tama5WriteReg r nib) := ⟨rfl, rfl⟩
theorem Selector.tama5ReadReg (r : Nat) (retryLimit : Option Nat) : Selector.Statement (.tama5ReadReg r retryLimit) := ⟨rfl, rfl⟩
theorem Selector.tama5RamRead (ta : Nat) (retryLimit : Option Nat) : Selector.Statement (.tama5RamRead ta retryLimit) := ⟨rfl, rfl⟩
theorem Selector.tama5RamWrite (ta : Nat) (value : Nat) : Selector.Statement (.tama5RamWrite ta value) := ⟨rfl, rfl⟩

end Sys2Proof.Laws
end

