-- ==== Sys2Proof/Laws/Timeouts.lean ====
section
/-!
SUPPORT. The bounded loops that run inside another operation, to the DeviceTimeout that ends it: the write-verify loops of
`restore_ram` under WRITE_EC_LIMIT (R290, R291, R361, R401), the EEPROM wait (R343) and the TAMA5 unlock (R392).
-/

namespace Sys2Proof.Machine

variable {cfg : Params} {conn : Bool}

/-! ### write_ec (R181) -/

theorem writeEc_raises {addr value k : Nat} {m : Byte} {wrong : List Byte} (hk : cfg.writeEcLimit = some k) (h1 : addr ≤ 0xFFFF)
    (h2 : value ≤ 0xFF) (hl : wrong.length = k) (hw : ∀ r ∈ wrong, r &&& m ≠ BitVec.ofNat 8 value &&& m) :
    Raises cfg true (writeEc addr value m) (weScript cfg addr (BitVec.ofNat 8 value) wrong) none none .deviceTimeout
      (.addr .writeEc (BitVec.ofNat 16 addr)) := by
  unfold writeEc
  refine Raises.then (requireConnected_runs _) (Raises.then (checkRange_runs h1) (Raises.then (checkRange_runs h2)
    (Raises.then (setWe_runs _) (unbounded_raises fun fuel hf => weRounds_raises _ _ addr k hk wrong fuel 0 ?_ (by omega) hw))))
  exact Nat.lt_of_le_of_lt (length_le_exchangeCount_we _ _ _) hf

/-- The bytes of a window, of which the one after `part` is never read back right. -/
theorem restoreBytes_raises {k : Nat} (hk : cfg.writeEcLimit = some k) {b : Byte} {wrong rest : List Byte} (hl : wrong.length = k)
    (hw : ∀ r ∈ wrong, r ≠ b) (part : List (Byte × List Byte)) : ∀ addr : Nat, addr + part.length ≤ 0xFFFF →
    (∀ x ∈ part, weFits cfg 0xFF x.1 x.2 = true) →
    Raises cfg true (restoreBytes addr (part.map (·.1) ++ b :: rest)) (bytesScript cfg addr (part ++ [(b, wrong)])) none none
      .deviceTimeout (.addr .writeEc (BitVec.ofNat 16 (addr + part.length))) := by
  have hff : ∀ x : Byte, x &&& 0xFF = x := by decide
  induction part with
  | nil =>
    intro addr ha _
    simp only [List.map_nil, List.nil_append, restoreBytes, bytesScript, List.append_nil]
    have h := writeEc_raises (cfg := cfg) (addr := addr) (value := b.toNat) (m := 0xFF) hk (by simpa using ha) (by have := b.isLt; omega) hl
      (fun r hr => by rw [toNat_ofNat8, hff, hff]; exact hw r hr)
    rw [toNat_ofNat8] at h
    exact h.first
  | cons x part ih =>
    intro addr ha hfit
    obtain ⟨v, reads⟩ := x
    simp only [List.length_cons] at ha
    simp only [List.map_cons, List.cons_append, restoreBytes, bytesScript, List.length_cons]
    have h := writeEc_runs (cfg := cfg) (addr := addr) (value := v.toNat) (m := 0xFF) (reads := reads) (by omega)
      (by have := v.isLt; omega) (by rw [toNat_ofNat8]; exact hfit (v, reads) (by simp))
    rw [toNat_ofNat8] at h
    have hi := ih (addr + 1) (by omega) (fun x hx => hfit x (by simp [hx]))
    rw [show addr + 1 + part.length = addr + (part.length + 1) by omega] at hi
    exact Raises.seq h hi

/-- The windows from number `i` on, of which the one after `done` ends in a byte that is never read back right (R290). -/
theorem restoreWindows_raises {v : Variant} {per k : Nat} (hk : cfg.writeEcLimit = some k) (hp : 0 < per) (hp' : per ≤ 4)
    {image : List Byte} {part : List (Byte × List Byte)} {b : Byte} {wrong rest : List Byte} {more : Nat} (hl : wrong.length = k)
    (hw : ∀ r ∈ wrong, r ≠ b) (hpl : part.length < 0x800) (hpf : ∀ x ∈ part, weFits cfg 0xFF x.1 x.2 = true)
    (done : List (List (Byte × List Byte))) : ∀ i : Nat, (i + done.length) / per ≤ 0xFF →
    (∀ j (h : j < done.length), imageWindow image (i + j) = done[j].map (·.1)) →
    imageWindow image (i + done.length) = part.map (·.1) ++ b :: rest → (∀ w ∈ done, w.length = 0x800) →
    (∀ w ∈ done, ∀ x ∈ w, weFits cfg 0xFF x.1 x.2 = true) →
    Raises cfg true (restoreWindows v per image (List.range' i (done.length + 1 + more)))
      (restoreScript cfg v per i (done ++ [part ++ [(b, wrong)]])) none (lastRamBank per i (done.length + 1)) .deviceTimeout
      (.addr .writeEc (BitVec.ofNat 16 (0xA000 + (i + done.length) % per * 0x800 + part.length))) := by
  induction done with
  | nil =>
    intro i hi _ himg _ _
    rw [show ([] : List (List (Byte × List Byte))).length + 1 + more = more + 1 by simp; omega, List.range'_succ]
    simp only [List.length_nil, Nat.add_zero] at hi himg
    have hm : i % per < 4 := Nat.lt_of_lt_of_le (Nat.mod_lt _ hp) hp'
    have hb := restoreBytes_raises (rest := rest) hk hl hw part (ramWindowAddr per i)
      (by simp only [ramWindowAddr, Config.ramWin, Config.ramDumpWindow]; omega) hpf
    rw [← himg] at hb
    have h := Raises.bind (selectRamForWindow_runs (cfg := cfg) (conn := true) (v := v) hi) (g := fun _ => do
      restoreBytes (ramWindowAddr per i) (imageWindow image i)
      restoreWindows v per image (List.range' (i + 1) more)) hb.first
    simpa [restoreWindows, restoreScript, lastRamBank, ramWindowAddr, Config.ramWin, Config.ramDumpWindow] using h
  | cons w ws ih =>
    intro i hi himg hlast hlen hfit
    rw [show (w :: ws).length + 1 + more = (ws.length + 1 + more) + 1 by simp; omega, List.range'_succ]
    simp only [restoreWindows, List.cons_append, restoreScript, List.append_assoc]
    have hm : i % per < 4 := Nat.lt_of_lt_of_le (Nat.mod_lt _ hp) hp'
    have hd : i / per ≤ 0xFF := Nat.le_trans (Nat.div_le_div_right (Nat.le_add_right _ _)) hi
    have himg0 : imageWindow image i = w.map (·.1) := himg 0 (Nat.zero_lt_succ _)
    rw [himg0]
    have hwl := hlen w (by simp)
    have hbytes := restoreBytes_runs (cfg := cfg) w (ramWindowAddr per i)
      (by simp only [ramWindowAddr, Config.ramWin, Config.ramDumpWindow]; omega) (hfit w (by simp))
    have e : i + (w :: ws).length = i + 1 + ws.length := by simp only [List.length_cons]; omega
    rw [e] at hi hlast ⊢
    have hrest := ih (i + 1) hi (fun j hj => by
        have := himg (j + 1) (by simpa using hj)
        rw [show i + 1 + j = i + (j + 1) by omega]; simpa using this)
      hlast (fun x hx => hlen x (by simp [hx])) (fun x hx => hfit x (by simp [hx]))
    have h := Raises.bind (selectRamForWindow_runs (cfg := cfg) (conn := true) (v := v) hd) (g := fun _ => do
        restoreBytes (ramWindowAddr per i) (w.map (·.1))
        restoreWindows v per image (List.range' (i + 1) (ws.length + 1 + more)))
      (Raises.seq hbytes hrest)
    simpa [lastRamBank, ramWindowAddr, Config.ramWin, Config.ramDumpWindow] using h

/-- The window of an image after whole windows. -/
theorem imageWindow_next (done : List (List (Byte × List Byte))) (tail : List Byte)
    (hlen : ∀ w ∈ done, w.length = 0x800) :
    (∀ j (h : j < done.length), imageWindow (windowsImage done ++ tail) j = done[j].map (·.1)) ∧
      imageWindow (windowsImage done ++ tail) done.length = tail.take 0x800 := by
  have hl := windowsImage_length done hlen
  refine ⟨fun j hj => ?_, ?_⟩
  · have := imageWindow_flatten (done.map fun w => w.map (·.1)) (by simpa using hlen) j (by simpa using hj)
    simp only [List.getElem_map] at this
    rw [← this]
    simp only [imageWindow, Config.ramDumpWindow, ← List.flatMap_def]
    rw [List.drop_append_of_le_length (by omega), List.take_append_of_le_length (by simp only [List.length_drop]; omega)]
    rfl
  · simp only [imageWindow, Config.ramDumpWindow]
    rw [List.drop_append, hl, List.drop_eq_nil_of_le (by omega)]
    simp [Nat.mul_comm]

theorem restoreRamStd_raises {v : Variant} {size k : Nat} (hk : cfg.writeEcLimit = some k) {done : List (List (Byte × List Byte))}
    {part : List (Byte × List Byte)} {b : Byte} {wrong rest : List Byte} (hv : v ≠ .mbc7) (hp : 0 < windowsPerBank cfg v)
    (hp' : windowsPerBank cfg v ≤ 4) (hsz : (windowsImage done ++ (part.map (·.1) ++ b :: rest)).length = size)
    (hroom : 0x800 * (done.length + 1) ≤ size) (hmax : done.length / windowsPerBank cfg v ≤ 0xFF) (hlen : ∀ w ∈ done, w.length = 0x800)
    (hpl : part.length < 0x800) (hfit : ∀ w ∈ done, ∀ x ∈ w, weFits cfg 0xFF x.1 x.2 = true)
    (hpf : ∀ x ∈ part, weFits cfg 0xFF x.1 x.2 = true) (hl : wrong.length = k) (hw : ∀ r ∈ wrong, r ≠ b) :
    Raises cfg true (restoreRamStd v size (windowsImage done ++ (part.map (·.1) ++ b :: rest)))
      (enableScript cfg v ++ restoreScript cfg v (windowsPerBank cfg v) 0 (done ++ [part ++ [(b, wrong)]])) none
      (some (done.length / windowsPerBank cfg v)) .deviceTimeout
      (.addr .writeEc (BitVec.ofNat 16 (0xA000 + done.length % windowsPerBank cfg v * 0x800 + part.length))) := by
  unfold restoreRamStd
  refine Raises.then (refuseIf_runs _ (by simpa using hsz)) ?_
  rw [if_neg (by omega)]
  have he := enableRam_runs (cfg := cfg) (conn := true) v
  rw [show enableRamShadow v = none from if_neg hv] at he
  refine Raises.seq he (Raises.get fun s hs => ?_)
  obtain ⟨more, hm⟩ : ∃ more, size / Config.ramDumpWindow = done.length + 1 + more :=
    ⟨size / Config.ramDumpWindow - (done.length + 1), by
      have : done.length + 1 ≤ size / Config.ramDumpWindow := by
        rw [Nat.le_div_iff_mul_le (by decide)]; simpa [Config.ramDumpWindow, Nat.mul_comm] using hroom
      omega⟩
  rw [hs, ramPer_eq, hm, List.range_eq_range']
  obtain ⟨i1, i2⟩ := imageWindow_next done (part.map (·.1) ++ b :: rest) hlen
  have hcut : (part.map (·.1) ++ b :: rest).take 0x800 = part.map (·.1) ++ b :: rest.take (0x800 - part.length - 1) := by
    rw [List.take_append, List.length_map, List.take_of_length_le (by simp; omega)]
    obtain ⟨n, hn⟩ : ∃ n, 0x800 - part.length = n + 1 := ⟨0x800 - part.length - 1, by omega⟩
    rw [hn, List.take_succ_cons, Nat.add_sub_cancel]
  have h := restoreWindows_raises (cfg := cfg) (v := v) (more := more) hk hp hp' hl hw hpl hpf done 0 (by simpa using hmax)
    (by simpa using i1) (by rw [Nat.zero_add, i2, hcut]) hlen hfit
  rw [lastRamBank_eq hp _ _ (Nat.zero_mod _), Nat.zero_add] at h
  exact h

/-! ### The cells of MBC2 (R291) -/

theorem restoreCells_raises {k : Nat} (hk : cfg.writeEcLimit = some k) {v : Byte} {wrong : List Byte} (hl : wrong.length = k)
    (hw : ∀ r ∈ wrong, r &&& 0x0F ≠ v &&& 0x0F) (image : List Byte) : ∀ (addr : Nat) (done : List (Byte × List Byte)) (rest : List Byte),
    addr + 2 * image.length ≤ 0x10000 → imageCells image = done.map (·.1) ++ v :: rest →
    (∀ x ∈ done, weFits cfg 0x0F x.1 x.2 = true) →
    Raises cfg true (restoreCells addr image) (bytesScript cfg addr (done ++ [(v, wrong)])) none none .deviceTimeout
      (.addr .writeEc (BitVec.ofNat 16 (addr + done.length))) := by
  have bad : ∀ addr : Nat, addr ≤ 0xFFFF → Raises cfg true (writeEc addr v.toNat 0x0F) (weScript cfg addr v wrong) none none
      .deviceTimeout (.addr .writeEc (BitVec.ofNat 16 addr)) := fun addr ha => by
    have h := writeEc_raises (cfg := cfg) (addr := addr) (value := v.toNat) (m := 0x0F) hk ha (by have := v.isLt; omega) hl
      (fun r hr => by rw [toNat_ofNat8]; exact hw r hr)
    rwa [toNat_ofNat8] at h
  have good : ∀ (addr : Nat) (x : Byte × List Byte), addr ≤ 0xFFFF → weFits cfg 0x0F x.1 x.2 = true →
      Runs cfg true (writeEc addr x.1.toNat 0x0F) (weScript cfg addr x.1 x.2) none none () := fun addr x ha hx => by
    have h := writeEc_runs (cfg := cfg) (addr := addr) (value := x.1.toNat) (m := 0x0F) (reads := x.2) ha (by have := x.1.isLt; omega)
      (by rw [toNat_ofNat8]; exact hx)
    rwa [toNat_ofNat8] at h
  induction image with
  | nil => intro addr done rest _ h; simp [imageCells] at h
  | cons b bs ih =>
    intro addr done rest ha himg hfit
    simp only [List.length_cons] at ha
    have hcells : imageCells (b :: bs) = b >>> (4 : Nat) :: (b &&& 0x0F) :: imageCells bs := rfl
    rw [hcells] at himg
    simp only [restoreCells]
    match done, himg, hfit with
    | [], himg, _ =>
      simp only [List.map_nil, List.nil_append, List.cons.injEq] at himg
      rw [himg.1]
      simpa [bytesScript] using (bad addr (by omega)).first
    | [x], himg, hfit =>
      simp only [List.map_cons, List.map_nil, List.cons_append, List.nil_append, List.cons.injEq] at himg
      rw [himg.1, himg.2.1]
      have h := Raises.seq (good addr x (by omega) (hfit x (by simp))) (g := fun _ => do
        writeEc (addr + 1) v.toNat 0x0F
        restoreCells (addr + 2) bs) (bad (addr + 1) (by omega)).first
      simpa [bytesScript] using h
    | x :: y :: ds, himg, hfit =>
      simp only [List.map_cons, List.cons_append, List.cons.injEq] at himg
      rw [himg.1, himg.2.1]
      have hi := ih (addr + 2) ds rest (by omega) himg.2.2 (fun z hz => hfit z (by simp [hz]))
      have h := Raises.seq (good addr x (by omega) (hfit x (by simp))) (g := fun _ => do
        writeEc (addr + 1) y.1.toNat 0x0F
        restoreCells (addr + 2) bs) (Raises.seq (good (addr + 1) y (by omega) (hfit y (by simp))) hi)
      simp only [List.cons_append, bytesScript, List.length_cons] at h ⊢
      rw [show addr + 2 + ds.length = addr + (ds.length + 1 + 1) by omega] at h
      exact h

theorem restoreRamMbc2_raises {k : Nat} (hk : cfg.writeEcLimit = some k) {image : List Byte} {done : List (Byte × List Byte)} {v : Byte}
    {wrong rest : List Byte} (h : image.length = 256) (himg : imageCells image = done.map (·.1) ++ v :: rest)
    (hfit : ∀ x ∈ done, weFits cfg 0x0F x.1 x.2 = true) (hl : wrong.length = k) (hw : ∀ r ∈ wrong, r &&& 0x0F ≠ v &&& 0x0F) :
    Raises cfg true (restoreRamMbc2 image) (enableScript cfg .mbc2 ++ bytesScript cfg 0xA000 (done ++ [(v, wrong)])) none none
      .deviceTimeout (.addr .writeEc (BitVec.ofNat 16 (0xA000 + done.length))) := by
  unfold restoreRamMbc2
  refine Raises.then (refuseIf_runs _ (by simp [h, Config.mbc2RamImage])) (Raises.seq (enableRam_runs _) ?_)
  exact restoreCells_raises hk hl hw image 0xA000 done rest (by omega) himg hfit

/-! ### The verify loops of MBC7 and TAMA5 (R361, R401) -/

/-- The rounds of a verified unit none of which lands, up to the bound, or to a round that itself raises. -/
theorem verifyRounds_raises {ρ : Type} {cell : Nat} {put : Proc Unit} {check : Proc Bool} {script : ρ → Script} {cs : Script}
    {kind : ErrKind} {info : Info} (rounds : List ρ)
    (hround : ∀ r ∈ rounds, Runs cfg true (do put; check) (script r) none none false) : ∀ (fuel : Nat) (w : WeRegs),
    rounds.length < fuel →
    (cfg.writeEcLimit = some (w.rounds + rounds.length) ∧ cs = [] ∧ kind = .deviceTimeout ∧ info = .cell .restoreRam cell ∨
      withinRounds cfg.writeEcLimit (w.rounds + rounds.length + 1) = true ∧ Raises cfg true put cs none none kind info) →
    Raises cfg true (verifyRounds cell put check fuel w) (rounds.flatMap script ++ cs) none none kind info := by
  induction rounds with
  | nil =>
    intro fuel w hf hend
    obtain ⟨fuel, rfl⟩ : ∃ n, fuel = n + 1 := ⟨fuel - 1, by simp only [List.length_nil] at hf; omega⟩
    simp only [verifyRounds, List.flatMap_nil, List.nil_append]
    refine Raises.get fun s hs => ?_
    rcases hend with ⟨hk, rfl, rfl, rfl⟩ | ⟨hk, hput⟩
    · rw [if_pos (by simp [hs, hk, weLimitReached])]
      exact Raises.raise _ _
    · have hn : weLimitReached s.cfg.writeEcLimit w.rounds = false := by
        rw [hs]
        cases hx : cfg.writeEcLimit with
        | none => rfl
        | some k => rw [hx] at hk; simp [weLimitReached, withinRounds] at hk ⊢; omega
      rw [if_neg (by simp [hn])]
      exact hput.first
  | cons r rounds ih =>
    intro fuel w hf hend
    obtain ⟨fuel, rfl⟩ : ∃ n, fuel = n + 1 := ⟨fuel - 1, by simp only [List.length_cons] at hf; omega⟩
    simp only [verifyRounds, List.flatMap_cons, List.append_assoc]
    refine Raises.get fun s hs => ?_
    have hn : weLimitReached s.cfg.writeEcLimit w.rounds = false := by
      rw [hs]
      cases hx : cfg.writeEcLimit with
      | none => rfl
      | some k =>
        simp only [hx, List.length_cons, withinRounds, decide_eq_true_eq, Option.some.injEq] at hend
        simp only [weLimitReached, decide_eq_false_iff_not]
        rcases hend with h | h <;> omega
    rw [if_neg (by simp [hn])]
    have e : w.rounds + (r :: rounds).length = w.rounds + 1 + rounds.length := by simp only [List.length_cons]; omega
    rw [e] at hend
    have h := Raises.seq (hround r (by simp)) (g := fun landed => do
        setWe { w with rounds := w.rounds + 1 }
        if landed = true then pure () else verifyRounds cell put check fuel { w with rounds := w.rounds + 1 })
      (Raises.then (setWe_runs _) (by
        rw [if_neg (by simp)]
        exact ih (fun x hx => hround x (by simp [hx])) fuel _ (by simp only [List.length_cons] at hf; omega) hend))
    simpa using h

theorem verifyUnit_raises {ρ : Type} {cell : Nat} {put : Proc Unit} {check : Proc Bool} {script : ρ → Script} {cs : Script}
    {kind : ErrKind} {info : Info} (rounds : List ρ) (hround : ∀ r ∈ rounds, Runs cfg true (do put; check) (script r) none none false)
    (hne : ∀ r ∈ rounds, 0 < exchangeCount (script r))
    (hend : cfg.writeEcLimit = some rounds.length ∧ cs = [] ∧ kind = .deviceTimeout ∧ info = .cell .restoreRam cell ∨
      withinRounds cfg.writeEcLimit (rounds.length + 1) = true ∧ Raises cfg true put cs none none kind info) :
    Raises cfg true (verifyUnit cell put check) (rounds.flatMap script ++ cs) none none kind info := by
  unfold verifyUnit
  refine Raises.then (setWe_runs _) (unbounded_raises fun fuel hf => verifyRounds_raises rounds hround fuel _ ?_ (by simpa using hend))
  refine Nat.lt_of_le_of_lt (Nat.le_trans (length_le_exchangeCount rounds hne) ?_) hf
  rw [exchangeCount_append]; omega

/-- The words of a restore: the word after `done` raises in its rounds. -/
theorem restoreWords_raises {image : List Byte} {w : U16} {rounds : List (Nat × U16)} {cs : Script} {kind : ErrKind} {info : Info}
    {more : Nat} (hr : ∀ r ∈ rounds, r.2 ≠ w ∧ r.1 < cfg.eepromWaitLimit) (done : List (U16 × List (Nat × U16))) : ∀ a : Nat,
    a + done.length < 128 → (∀ j (h : j < done.length), imageWord image (a + j) = done[j].1) → imageWord image (a + done.length) = w →
    (∀ x ∈ done, wordRoundsFit cfg x.1 x.2 = true) →
    (cfg.writeEcLimit = some rounds.length ∧ cs = [] ∧ kind = .deviceTimeout ∧ info = .cell .restoreRam (a + done.length) ∨
      withinRounds cfg.writeEcLimit (rounds.length + 1) = true ∧
        Raises cfg true (eepromWrite (a + done.length) w.toNat) cs none none kind info) →
    Raises cfg true (restoreWords image (List.range' a (done.length + 1 + more)))
      (restoreWordsScript cfg a (done ++ [(w, rounds)]) ++ cs) none none kind info := by
  induction done with
  | nil =>
    intro a ha _ himg _ hend
    rw [show ([] : List (U16 × List (Nat × U16))).length + 1 + more = more + 1 by simp; omega, List.range'_succ]
    simp only [List.length_nil, Nat.add_zero] at ha himg hend
    simp only [restoreWords, List.nil_append, restoreWordsScript, List.append_nil, himg]
    refine (verifyUnit_raises (script := fun r => eeWriteScript cfg a w r.1 ++ eeReadScript cfg a r.2) rounds (fun r h => ?_)
      (fun r _ => ?_) hend).first
    · have h2 := (eepromRead_runs (cfg := cfg) (conn := true) (a := a) r.2 (by omega)).map (fun x => decide (x = w))
      rw [show decide (r.2 = w) = false by simpa using (hr r h).1] at h2
      exact Runs.seq (eepromWrite_runs w (by omega) (hr r h).2) h2
    · simp only [eeWriteScript, exchangeCount_append]
      have := exchangeCount_wait_pos (cfg := cfg) r.1
      omega
  | cons x ws ih =>
    intro a ha himg hlast hfit hend
    obtain ⟨w0, rounds0⟩ := x
    have e : a + ((w0, rounds0) :: ws).length = a + 1 + ws.length := by simp only [List.length_cons]; omega
    rw [e] at ha hlast hend
    rw [show ((w0, rounds0) :: ws).length + 1 + more = (ws.length + 1 + more) + 1 by simp; omega, List.range'_succ]
    simp only [restoreWords, List.cons_append, restoreWordsScript, List.append_assoc]
    have h0 : imageWord image a = w0 := himg 0 (Nat.zero_lt_succ _)
    rw [h0]
    exact Raises.seq (verifyWord_runs (by omega) (hfit (w0, rounds0) (by simp))) (ih (a + 1) ha (fun j hj => by
      have := himg (j + 1) (by simpa using hj)
      rw [show a + 1 + j = a + (j + 1) by omega]; simpa using this) hlast (fun x hx => hfit x (by simp [hx])) hend)

theorem wordsBytes_length (ws : List U16) : (wordsBytes ws).length = 2 * ws.length := by
  induction ws with
  | nil => rfl
  | cons w ws ih =>
    simp only [wordsBytes, List.flatMap_cons, List.length_append, List.length_cons, List.length_nil] at ih ⊢
    rw [ih]; omega

theorem restoreRamMbc7_raises {done : List (U16 × List (Nat × U16))} {w : U16} {rounds : List (Nat × U16)} {rest : List U16}
    {cs : Script} {kind : ErrKind} {info : Info} (hlen : done.length + 1 + rest.length = 128)
    (hfit : ∀ x ∈ done, wordRoundsFit cfg x.1 x.2 = true) (hr : ∀ r ∈ rounds, r.2 ≠ w ∧ r.1 < cfg.eepromWaitLimit)
    (hend : cfg.writeEcLimit = some rounds.length ∧ cs = [] ∧ kind = .deviceTimeout ∧ info = .cell .restoreRam done.length ∨
      withinRounds cfg.writeEcLimit (rounds.length + 1) = true ∧ Raises cfg true (eepromWrite done.length w.toNat) cs none none kind info) :
    Raises cfg true (restoreRamMbc7 (wordsBytes (done.map (·.1) ++ w :: rest)))
      (enableScript cfg .mbc7 ++ eeSubScript cfg cfg.eeSubEwen ++ (restoreWordsScript cfg 0 (done ++ [(w, rounds)]) ++ cs))
      none (some 0x40) kind info := by
  unfold restoreRamMbc7
  have hl : (done.map (·.1) ++ w :: rest).length = 128 := by simp; omega
  refine Raises.then (refuseIf_runs _ (by simp [wordsBytes_length, Config.mbc7RamImage]; omega)) ?_
  have hword : ∀ j (h : j < 128), imageWord (wordsBytes (done.map (·.1) ++ w :: rest)) j = (done.map (·.1) ++ w :: rest)[j] :=
    fun j h => imageWord_words _ j (by omega)
  have h := restoreWords_raises (cfg := cfg) (image := wordsBytes (done.map (·.1) ++ w :: rest)) (more := rest.length) hr done 0
    (by omega) (fun j hj => by
      rw [Nat.zero_add, hword j (by omega), List.getElem_append_left (by simpa using hj), List.getElem_map])
    (by rw [Nat.zero_add, hword _ (by omega), List.getElem_append_right (by simp)]; simp) hfit (by simpa using hend)
  rw [hlen] at h
  rw [List.range_eq_range', List.append_assoc]
  exact Raises.seqL (enableRam_runs .mbc7) (Raises.seq eepromEwen_runs h.first)

/-- The bytes of a TAMA5 restore: the byte after `done` is never read back right (R401). -/
theorem restoreNibbles_raises {image : List Byte} {v : Byte} {rounds : List (List Byte × List Byte)} {more : Nat}
    (hr : ∀ r ∈ rounds, nibbleByte r.1 r.2 ≠ v ∧ byteFits cfg none r.1 = true ∧ byteFits cfg none r.2 = true)
    (hk : cfg.writeEcLimit = some rounds.length) (done : List (Byte × List (List Byte × List Byte))) : ∀ a : Nat,
    a + done.length < 32 → (∀ j (h : j < done.length), image.getD (a + j) 0 = done[j].1) → image.getD (a + done.length) 0 = v →
    (∀ x ∈ done, nibbleRoundsFit cfg x.1 x.2 = true) →
    Raises cfg true (restoreNibbles image (List.range' a (done.length + 1 + more)))
      (restoreNibblesScript cfg a (done ++ [(v, rounds)])) none none .deviceTimeout (.cell .restoreRam (a + done.length)) := by
  induction done with
  | nil =>
    intro a ha _ himg _
    rw [show ([] : List (Byte × List (List Byte × List Byte))).length + 1 + more = more + 1 by simp; omega, List.range'_succ]
    simp only [List.length_nil, Nat.add_zero] at ha himg ⊢
    simp only [restoreNibbles, List.nil_append, restoreNibblesScript, himg]
    refine (verifyUnit_raises (script := fun r : List Byte × List Byte => tama5RamWriteScript cfg a v ++ tama5RamReadScript cfg a r.1 r.2)
      (cs := []) rounds (fun r h => ?_) (fun r _ => ?_) (.inl ⟨hk, rfl, rfl, rfl⟩)).first
    · have h2 := (tama5RamRead_runs (cfg := cfg) (ta := a) (by omega) (hr r h).2.1 (hr r h).2.2).map (fun x => decide (x = v))
      rw [show decide (nibbleByte r.1 r.2 = v) = false by simpa using (hr r h).1] at h2
      exact Runs.seq (tama5RamWrite_runs v (by omega)) h2
    · simp only [tama5RamWriteScript, exchangeCount_append, exchangeCount_tama5Write]
      omega
  | cons x bs ih =>
    intro a ha himg hlast hfit
    obtain ⟨v0, rounds0⟩ := x
    have e : a + ((v0, rounds0) :: bs).length = a + 1 + bs.length := by simp only [List.length_cons]; omega
    rw [e] at ha hlast ⊢
    rw [show ((v0, rounds0) :: bs).length + 1 + more = (bs.length + 1 + more) + 1 by simp; omega, List.range'_succ]
    simp only [restoreNibbles, List.cons_append, restoreNibblesScript]
    have h0 : image.getD a 0 = v0 := himg 0 (Nat.zero_lt_succ _)
    rw [h0]
    exact Raises.seq (verifyNibbles_runs (by omega) (hfit (v0, rounds0) (by simp))) (ih (a + 1) ha (fun j hj => by
      have := himg (j + 1) (by simpa using hj)
      rw [show a + 1 + j = a + (j + 1) by omega]; simpa using this) hlast (fun x hx => hfit x (by simp [hx])))

theorem restoreRamTama5_raises {polls : List (List Byte)} {done : List (Byte × List (List Byte × List Byte))} {v : Byte}
    {rounds : List (List Byte × List Byte)} {rest : List Byte} (hlen : done.length + 1 + rest.length = 32)
    (hu : unlockFits cfg none polls = true) (hfit : ∀ x ∈ done, nibbleRoundsFit cfg x.1 x.2 = true)
    (hr : ∀ r ∈ rounds, nibbleByte r.1 r.2 ≠ v ∧ byteFits cfg none r.1 = true ∧ byteFits cfg none r.2 = true)
    (hk : cfg.writeEcLimit = some rounds.length) :
    Raises cfg true (restoreRamTama5 (done.map (·.1) ++ v :: rest))
      (enableScript cfg .tama5 ++ unlockScript cfg polls ++ restoreNibblesScript cfg 0 (done ++ [(v, rounds)])) none none
      .deviceTimeout (.cell .restoreRam done.length) := by
  unfold restoreRamTama5
  refine Raises.then (refuseIf_runs _ (by simp [Config.tama5RamImage]; omega)) ?_
  have h := restoreNibbles_raises (cfg := cfg) (image := done.map (·.1) ++ v :: rest) (more := rest.length) hr hk done 0 (by omega)
    (fun j hj => by simp [List.getD, List.getElem?_append_left (show j < (done.map (·.1)).length by simpa using hj), hj])
    (by simp [List.getD]) hfit
  rw [hlen, Nat.zero_add] at h
  rw [List.range_eq_range', List.append_assoc]
  exact Raises.seq (enableRam_runs _) (Raises.seq (tama5Unlock_runs hu) h)

/-! ### The EEPROM wait (R343) in the commands that end with it -/

theorem eepromWrite_raises {a : Nat} (w : U16) (h : a ≤ 127) :
    Raises cfg conn (eepromWrite a w.toNat) (eeWriteFailScript cfg a w) none none .deviceTimeout (.polls .eepromWait cfg.eepromWaitLimit) := by
  unfold eepromWrite eeWriteFailScript
  refine Raises.then (refuseIf_runs _ (by simp; omega)) (Raises.get fun s hs => ?_)
  rw [hs, List.append_assoc]
  exact Raises.seq (eeCommand_runs _ _) (Raises.seq (eeSendBits_runs _ _) eepromWait_raises)

theorem eepromErase_raises {a : Nat} (h : a ≤ 127) :
    Raises cfg conn (eepromErase a) (eeCommandScript cfg cfg.eeOpcErase (BitVec.ofNat 8 a) ++ eeWaitFailScript cfg) none none
      .deviceTimeout (.polls .eepromWait cfg.eepromWaitLimit) := by
  unfold eepromErase
  refine Raises.then (checkRange_runs h) (Raises.get fun s hs => ?_)
  rw [hs]
  exact Raises.seq (eeCommand_runs _ _) eepromWait_raises

theorem eepromEral_raises :
    Raises cfg conn eepromEral (eeSubScript cfg cfg.eeSubEral ++ eeWaitFailScript cfg) none none
      .deviceTimeout (.polls .eepromWait cfg.eepromWaitLimit) :=
  Raises.get fun s hs => by rw [hs]; exact Raises.seq (eeSub_runs _) eepromWait_raises

theorem eepromWral_raises (w : U16) :
    Raises cfg conn (eepromWral w.toNat) (eeSubScript cfg cfg.eeSubWral ++ eeBitsScript cfg (bitsDown w.toNat 16) ++ eeWaitFailScript cfg)
      none none .deviceTimeout (.polls .eepromWait cfg.eepromWaitLimit) := by
  unfold eepromWral
  refine Raises.then (checkRange_runs (by omega)) (Raises.get fun s hs => ?_)
  rw [hs, List.append_assoc]
  exact Raises.seq (eeSub_runs _) (Raises.seq (eeSendBits_runs _ _) eepromWait_raises)

/-! ### The TAMA5 unlock (R392) in the operations that begin with it -/

theorem tama5Unlock_raises {limit : Option Nat} {polls : List (List Byte)} (h : staysLocked cfg limit polls = true) :
    Raises cfg true (tama5Unlock limit) (unlockScript cfg polls) none none .deviceTimeout (.polls .tama5Unlock 200) := by
  simp only [staysLocked, Bool.and_eq_true, decide_eq_true_eq, List.all_eq_true, Bool.not_eq_true'] at h
  have h2 := tama5UnlockLoop_raises (cfg := cfg) (limit := limit) polls 200 0 h.1.1 (by simpa using h.1.2) h.2
  exact Raises.then (setPoll_runs 0) h2

theorem selectRomTama5_raises {n : Nat} {polls : List (List Byte)} (h : n ≤ 0xFF) (hu : staysLocked cfg none polls = true) :
    Raises cfg true (selectRomTama5 n) (unlockScript cfg polls) none none .deviceTimeout (.polls .tama5Unlock 200) :=
  Raises.then (checkRange_runs h) (tama5Unlock_raises hu).first

theorem dumpRamTama5_raises {limit : Option Nat} {polls : List (List Byte)} (hu : staysLocked cfg limit polls = true) :
    Raises cfg true (dumpRamTama5 limit) (enableScript cfg .tama5 ++ unlockScript cfg polls) none none .deviceTimeout
      (.polls .tama5Unlock 200) :=
  Raises.seq (enableRam_runs .tama5) (tama5Unlock_raises hu).first

theorem restoreRamTama5_locked {image : List Byte} {polls : List (List Byte)} (hl : image.length = 32)
    (hu : staysLocked cfg none polls = true) :
    Raises cfg true (restoreRamTama5 image) (enableScript cfg .tama5 ++ unlockScript cfg polls) none none .deviceTimeout
      (.polls .tama5Unlock 200) :=
  Raises.then (refuseIf_runs _ (by simp [hl, Config.tama5RamImage])) (Raises.seq (enableRam_runs .tama5) (tama5Unlock_raises hu).first)

end Sys2Proof.Machine
end

