-- ==== Sys2Proof/Tests/Slice0.lean ====
section
/-!
SUPPORT. Tests. Each operation is run for one step on a small state, and what it sends, answers and leaves is compared with
the vectors of 95_test_vectors.md (V<n>) or with words written out from the encodings of 30_encoding.md. After them, a witness
for every statement that has hypotheses: a concrete state and operands that meet all of them together.
-/

namespace Sys2Proof.Tests

set_option Elab.async false

open Sys2Proof Sys2Proof.Machine

/-! ### Helpers -/

/-- The spec's defaults, with CAMERA_POLL_LIMIT 3 and EEPROM_WAIT_LIMIT 2. -/
def cfg0 : Params := Params.default 3 2

/-- Connected with no controller: C0 of the vectors. -/
def sess : State :=
  { State.reset with
    cfg := cfg0
    connected := true
    header := some { cartType := 0x13, romSizeCode := 3, ramSizeCode := 2, checksum := 0x0100, title := List.replicate 16 0x41 } }

/-- C(v, banks, ram) of the vectors. -/
def ctl (v : Variant) (banks ram : U32) : State :=
  { sess with
    ctrl := some { variant := v, romBankCount := banks, ramSizeBytes := ram, romShadow := none, ramShadow := none } }

/-- The unconnected state U, with the parameters of the tests. -/
def raw : State := { State.reset with cfg := cfg0 }

/-- The link answers these bytes. -/
def fed (s : State) (rs : List Byte) : State := { s with link := rs.map fun r => { reply := r, cancel := false } }

/-- Replies that are ignored. -/
def junk (n : Nat) : List Byte := List.replicate n 0x77

/-- Replies to a READ frame. -/
def rd (data : List Byte) : List Byte := junk 5 ++ data

/-- The bytes of W(a, v). -/
def W (ah al v : Byte) : List Byte := [0x49, ah, al, v]

/-- The bytes of RD(a, n), for n below 256. -/
def R (ah al n : Byte) : List Byte := [0x59, ah, al, 0x00, n] ++ List.replicate n.toNat 0x00

/-- WRITE frames to the EEPROM port 0xA080. -/
def port (vs : List Byte) : List Byte := vs.flatMap fun v => [0x49, 0xA0, 0x80, v]

/-- A WRITE or READ frame of TAMA5: select a sub-register, write a nibble. -/
def S (r : Byte) : List Byte := W 0xA0 0x01 r
def D (n : Byte) : List Byte := W 0xA0 0x00 n

/-- The next state. -/
def after : Host.Outcome State Fault Refusal → Option State
  | .next t => some t
  | _ => none

/-- The bytes sent. -/
def sent (o : Host.Outcome State Fault Refusal) : List Byte :=
  match after o with
  | some t => sentOf t.trace
  | none => []

/-- The result. -/
def result (o : Host.Outcome State Fault Refusal) : Option Value :=
  match after o with
  | some t => (match t.traceRev.head? with | some (.result _ v) => some v | _ => none)
  | none => none

/-- The error. -/
def failure (o : Host.Outcome State Fault Refusal) : Option (ErrKind × Info) :=
  match after o with
  | some t => (match t.traceRev.head? with | some (.error _ k i) => some (k, i) | _ => none)
  | none => none

/-- The outcome that the program stopped with. -/
def stopOf (o : Host.Outcome State Fault Refusal) : Option Stop := (after o).bind (·.stop)

/-- The two shadows. -/
def shadows (o : Host.Outcome State Fault Refusal) : Option (Option Nat × Option Nat) :=
  ((after o).bind (·.ctrl)).map fun c => (c.romShadow, c.ramShadow)

/-- The decoder reads this instruction. -/
def reads (r : Request) (i : Instr) : Bool :=
  match decode r with
  | .ok j => decide (j = i)
  | .error _ => false

/-- The decoder rejects the request by this name. -/
def rejects (r : Request) (e : Reject) : Bool :=
  match decode r with
  | .ok _ => false
  | .error f => decide (f = e)

/-! ### WellFormed: an ill-formed term for each check (R126, R130, R432) -/

theorem test_wf_frames : Instr.wf (.eeRead 128) = false ∧ Instr.wf (.eeWrite 200 0) = false ∧ Instr.wf (.eeErase 255) = false ∧
    Instr.wf (.eeRead 127) = true := by decide

theorem test_wf_session : Instr.wf (.read 0x10000 0) = false ∧ Instr.wf (.read 0 0x10000) = false ∧
    Instr.wf (.write 0x10000 0) = false ∧ Instr.wf (.write 0 0x100) = false ∧ Instr.wf (.readEc 0x10000 0 none) = false ∧
    Instr.wf (.readEc 0 0x10001 none) = false ∧ Instr.wf (.readEc 0 0x10000 none) = true ∧
    Instr.wf (.writeEc 0x10000 0) = false ∧ Instr.wf (.writeEc 0 0x100) = false := by decide

theorem test_wf_rom_bank : ([.base, .mbc1, .mbc2, .mbc3, .mbc6, .mbc7, .camera, .tama5].all fun v =>
    !(selectRomOf v 0x100).wf && (selectRomOf v 0xFF).wf) = true ∧
    Instr.wf (.selectRomBankMbc5 0x200) = false ∧ Instr.wf (.selectRomBankMbc5 0x1FF) = true := by decide

theorem test_wf_ram_bank : ([.base, .mbc1, .mbc2, .mbc3, .mbc5, .mbc6, .mbc7, .camera, .tama5].all fun v =>
    !(selectRamOf v 0x100).wf && (selectRamOf v 0xFF).wf) = true := by decide

theorem test_wf_variant_operations : Instr.wf (.readRtc 4 none) = false ∧ Instr.wf (.eepromShiftIn 2) = false ∧
    Instr.wf (.eepromShiftInout 2) = false ∧ Instr.wf (.eepromRead 128) = false ∧ Instr.wf (.eepromWrite 128 0) = false ∧
    Instr.wf (.eepromWrite 0 0x10000) = false ∧ Instr.wf (.eepromErase 128) = false ∧ Instr.wf (.eepromWral 0x10000) = false ∧
    Instr.wf (.tama5WriteReg 16 0) = false ∧ Instr.wf (.tama5WriteReg 0 16) = false ∧ Instr.wf (.tama5ReadReg 16 none) = false ∧
    Instr.wf (.tama5RamRead 32 none) = false ∧ Instr.wf (.tama5RamWrite 32 0) = false ∧
    Instr.wf (.tama5RamWrite 0 0x100) = false := by decide

/-! ### Decoding of words written out bit by bit (R111 to R113, R125, R131) -/

theorem test_decode_wire :
    reads (.wire [0b10011010]) .hsProbe ∧
    reads (.wire [0b01011001, 0b00010010, 0b00110100, 0b00000000, 0b00000010]) (.readFrame 0x1234 0x0002) ∧
    reads (.wire [0b01001001, 0b01100000, 0b00000000, 0b00000001]) (.writeFrame 0x6000 0x01) ∧
    rejects (.wire [0b01011000, 0, 0, 0, 0]) .notAFrame ∧ rejects (.wire []) .truncatedFrame ∧
    rejects (.wire [0b01011001, 0, 0, 0]) .truncatedFrame := by decide +kernel

theorem test_decode_ee :
    reads (.ee 0b1001111111 0) (.eeRead 127) ∧ reads (.ee 0b0100000101 0x1234) (.eeWrite 5 0x1234) ∧
    reads (.ee 0b1101000000 0) (.eeErase 64) ∧ reads (.ee 0b0011000000 0) .eeEwen ∧ reads (.ee 0b0000000000 0) .eeEwds ∧
    reads (.ee 0b0010000000 0) .eeEral ∧ reads (.ee 0b0001000000 0xBEEF) (.eeWral 0xBEEF) ∧
    rejects (.ee 0b1010000000 0) .reservedEeFrame ∧ rejects (.ee 0b0011000001 0) .reservedEeFrame := by decide +kernel

theorem test_decode_session :
    reads (.host 0b0000000111111111 {}) (.connect) ∧
    reads (.host 0b0000001011111111 { addr := 0x1234, length := 0xFFFF }) (.read 0x1234 0xFFFF) ∧
    reads (.host 0b0000001111111111 { addr := 0xFFFF, value := 0x5A }) (.write 0xFFFF 0x5A) ∧
    reads (.host 0b0000010011111111 { addr := 0x4000, size := 0x10000, retryLimit := some 0 }) (.readEc 0x4000 0x10000 (some 0)) ∧
    reads (.host 0b0000010111111111 { addr := 0xA000, value := 0xFF }) (.writeEc 0xA000 0xFF) ∧
    reads (.host 0b0001000011111111 {}) (.detect) := by decide +kernel

theorem test_decode_select_rom_bank :
    reads (.host 0b0010000000000000 { n := 0x1F }) (.selectRomBankBase 0x1F) ∧
    reads (.host 0b0010000000000001 { n := 0x1F }) (.selectRomBankMbc1 0x1F) ∧
    reads (.host 0b0010000000000010 { n := 0x1F }) (.selectRomBankMbc2 0x1F) ∧
    reads (.host 0b0010000000000011 { n := 0x1F }) (.selectRomBankMbc3 0x1F) ∧
    reads (.host 0b0010000000000100 { n := 0x1F }) (.selectRomBankMbc5 0x1F) ∧
    reads (.host 0b0010000000000101 { n := 0x1F }) (.selectRomBankMbc6 0x1F) ∧
    reads (.host 0b0010000000000110 { n := 0x1F }) (.selectRomBankMbc7 0x1F) ∧
    reads (.host 0b0010000000000111 { n := 0x1F }) (.selectRomBankCamera 0x1F) ∧
    reads (.host 0b0010000000001000 { n := 0x1F }) (.selectRomBankTama5 0x1F) := by decide +kernel

theorem test_decode_select_ram_bank :
    reads (.host 0b0010000100000000 { n := 0x0F }) (.selectRamBankBase 0x0F) ∧
    reads (.host 0b0010000100000001 { n := 0x0F }) (.selectRamBankMbc1 0x0F) ∧
    reads (.host 0b0010000100000010 { n := 0x0F }) (.selectRamBankMbc2 0x0F) ∧
    reads (.host 0b0010000100000011 { n := 0x0F }) (.selectRamBankMbc3 0x0F) ∧
    reads (.host 0b0010000100000100 { n := 0x0F }) (.selectRamBankMbc5 0x0F) ∧
    reads (.host 0b0010000100000101 { n := 0x0F }) (.selectRamBankMbc6 0x0F) ∧
    reads (.host 0b0010000100000110 { n := 0x0F }) (.selectRamBankMbc7 0x0F) ∧
    reads (.host 0b0010000100000111 { n := 0x0F }) (.selectRamBankCamera 0x0F) ∧
    reads (.host 0b0010000100001000 { n := 0x0F }) (.selectRamBankTama5 0x0F) := by decide +kernel

theorem test_decode_enable_ram :
    reads (.host 0b0010001000000000 {}) (.enableRamBase) ∧
    reads (.host 0b0010001000000001 {}) (.enableRamMbc1) ∧
    reads (.host 0b0010001000000010 {}) (.enableRamMbc2) ∧
    reads (.host 0b0010001000000011 {}) (.enableRamMbc3) ∧
    reads (.host 0b0010001000000100 {}) (.enableRamMbc5) ∧
    reads (.host 0b0010001000000101 {}) (.enableRamMbc6) ∧
    reads (.host 0b0010001000000110 {}) (.enableRamMbc7) ∧
    reads (.host 0b0010001000000111 {}) (.enableRamCamera) ∧
    reads (.host 0b0010001000001000 {}) (.enableRamTama5) := by decide +kernel

theorem test_decode_dump_rom :
    reads (.host 0b0011000000000000 { progress := true, retryLimit := some 2 }) (.dumpRomBase true (some 2)) ∧
    reads (.host 0b0011000000000001 { progress := true, retryLimit := some 2 }) (.dumpRomMbc1 true (some 2)) ∧
    reads (.host 0b0011000000000010 { progress := true, retryLimit := some 2 }) (.dumpRomMbc2 true (some 2)) ∧
    reads (.host 0b0011000000000011 { progress := true, retryLimit := some 2 }) (.dumpRomMbc3 true (some 2)) ∧
    reads (.host 0b0011000000000100 { progress := true, retryLimit := some 2 }) (.dumpRomMbc5 true (some 2)) ∧
    reads (.host 0b0011000000000101 { progress := true, retryLimit := some 2 }) (.dumpRomMbc6 true (some 2)) ∧
    reads (.host 0b0011000000000110 { progress := true, retryLimit := some 2 }) (.dumpRomMbc7 true (some 2)) ∧
    reads (.host 0b0011000000000111 { progress := true, retryLimit := some 2 }) (.dumpRomCamera true (some 2)) ∧
    reads (.host 0b0011000000001000 { progress := true, retryLimit := some 2 }) (.dumpRomTama5 true (some 2)) := by decide +kernel

theorem test_decode_dump_ram :
    reads (.host 0b0011000100000000 { retryLimit := some 1 }) (.dumpRamBase (some 1)) ∧
    reads (.host 0b0011000100000001 { retryLimit := some 1 }) (.dumpRamMbc1 (some 1)) ∧
    reads (.host 0b0011000100000010 { retryLimit := some 1 }) (.dumpRamMbc2 (some 1)) ∧
    reads (.host 0b0011000100000011 { retryLimit := some 1 }) (.dumpRamMbc3 (some 1)) ∧
    reads (.host 0b0011000100000100 { retryLimit := some 1 }) (.dumpRamMbc5 (some 1)) ∧
    reads (.host 0b0011000100000101 { retryLimit := some 1 }) (.dumpRamMbc6 (some 1)) ∧
    reads (.host 0b0011000100000110 { retryLimit := some 1 }) (.dumpRamMbc7 (some 1)) ∧
    reads (.host 0b0011000100000111 { retryLimit := some 1 }) (.dumpRamCamera (some 1)) ∧
    reads (.host 0b0011000100001000 { retryLimit := some 1 }) (.dumpRamTama5 (some 1)) := by decide +kernel

theorem test_decode_restore_ram :
    reads (.host 0b0011001000000000 { image := [1, 2] }) (.restoreRamBase [1, 2]) ∧
    reads (.host 0b0011001000000001 { image := [1, 2] }) (.restoreRamMbc1 [1, 2]) ∧
    reads (.host 0b0011001000000010 { image := [1, 2] }) (.restoreRamMbc2 [1, 2]) ∧
    reads (.host 0b0011001000000011 { image := [1, 2] }) (.restoreRamMbc3 [1, 2]) ∧
    reads (.host 0b0011001000000100 { image := [1, 2] }) (.restoreRamMbc5 [1, 2]) ∧
    reads (.host 0b0011001000000101 { image := [1, 2] }) (.restoreRamMbc6 [1, 2]) ∧
    reads (.host 0b0011001000000110 { image := [1, 2] }) (.restoreRamMbc7 [1, 2]) ∧
    reads (.host 0b0011001000000111 { image := [1, 2] }) (.restoreRamCamera [1, 2]) ∧
    reads (.host 0b0011001000001000 { image := [1, 2] }) (.restoreRamTama5 [1, 2]) := by decide +kernel

theorem test_decode_rtc :
    reads (.host 0b0100000000000011 {}) (.latchRtc) ∧
    reads (.host 0b0100000100000011 { reg := 3, retryLimit := some 4 }) (.readRtc 3 (some 4)) := by decide +kernel

theorem test_decode_eeprom :
    reads (.host 0b0101000000000110 { bit := 1 }) (.eepromShiftIn 1) ∧
    reads (.host 0b0101000100000110 { bit := 1 }) (.eepromShiftInout 1) ∧
    reads (.host 0b0101001000000110 { eeAddr := 127 }) (.eepromRead 127) ∧
    reads (.host 0b0101001100000110 { eeAddr := 5, word := 0x1234 }) (.eepromWrite 5 0x1234) ∧
    reads (.host 0b0101010000000110 { eeAddr := 64 }) (.eepromErase 64) ∧
    reads (.host 0b0101010100000110 {}) (.eepromEwen) ∧
    reads (.host 0b0101011000000110 {}) (.eepromEwds) ∧
    reads (.host 0b0101011100000110 {}) (.eepromEral) ∧
    reads (.host 0b0101100000000110 { word := 0xBEEF }) (.eepromWral 0xBEEF) ∧
    reads (.host 0b0101100100000110 {}) (.eepromWait) := by decide +kernel

theorem test_decode_accel_and_camera :
    reads (.host 0b0101101000000110 { retryLimit := some 1 }) (.sampleAccel (some 1)) ∧
    reads (.host 0b0110000000000111 { retryLimit := some 1 }) (.takePhoto (some 1)) := by decide +kernel

theorem test_decode_tama5 :
    reads (.host 0b0111000000001000 { retryLimit := some 1 }) (.tama5Unlock (some 1)) ∧
    reads (.host 0b0111000100001000 { r := 6, nib := 3 }) (.tama5WriteReg 6 3) ∧
    reads (.host 0b0111001000001000 { r := 12, retryLimit := some 1 }) (.tama5ReadReg 12 (some 1)) ∧
    reads (.host 0b0111001100001000 { ta := 19, retryLimit := some 1 }) (.tama5RamRead 19 (some 1)) ∧
    reads (.host 0b0111010000001000 { ta := 5, value := 0xC3 }) (.tama5RamWrite 5 0xC3) := by decide +kernel

/-- A table word of the host's numbering: the first word in the low bits, absent operands zero (log 14). -/
theorem test_table_words : decodeTableWord 40 0x0200340159 = some (.readFrame 0x0134 0x0002) ∧
    decodeTableWord 8 0x9A = some .hsProbe ∧ decodeTableWord 10 0x205 = some (.eeRead 5) ∧
    decodeTableWord 16 0x4003 = some .latchRtc ∧ decodeTableWord 16 0x4001 = none := by decide +kernel

/-! ### Frames run by themselves (V2, V64, V65, V66) -/

theorem test_hs_probe : sent (exec .hsProbe (fed raw [0xB4])) = [0x9A] ∧
    result (exec .hsProbe (fed raw [0xB4])) = some (.byte 0xB4) := by decide +kernel

theorem test_read_frame : sent (exec (.readFrame 0x0134 2) (fed raw (rd [0x12, 0x34]))) = [0x59, 0x01, 0x34, 0x00, 0x02, 0x00, 0x00] ∧
    result (exec (.readFrame 0x0134 2) (fed raw (rd [0x12, 0x34]))) = some (.bytes [0x12, 0x34]) := by decide +kernel

theorem test_write_frame : sent (exec (.writeFrame 0x6000 1) (fed raw (junk 4))) = [0x49, 0x60, 0x00, 0x01] ∧
    result (exec (.writeFrame 0x6000 1) (fed raw (junk 4))) = some .unit := by decide +kernel

/-- The replies of the sixteen response bits of 0xBEEF, most significant bit first. -/
def beef : List Byte := [1, 0, 1, 1, 1, 1, 1, 0, 1, 1, 1, 0, 1, 1, 1, 1].flatMap fun b => junk 8 ++ rd [b]

/-- V64: the command bits of `eeprom_read(5)`. -/
def readFive : List Byte :=
  port [0x00, 0x80, 0x82, 0xC2, 0x82, 0xC2, 0x80, 0xC0, 0x80, 0xC0, 0x80, 0xC0, 0x80, 0xC0, 0x80, 0xC0, 0x80, 0xC0, 0x82, 0xC2,
    0x80, 0xC0, 0x82, 0xC2]

theorem test_ee_read : sent (exec (.eeRead 5) (fed raw (junk 96 ++ beef))) =
      readFive ++ (List.replicate 16 (port [0x80, 0xC0] ++ R 0xA0 0x80 1)).flatten ∧
    result (exec (.eeRead 5) (fed raw (junk 96 ++ beef))) = some (.word 0xBEEF) := by decide +kernel

/-- V65: the command and data bits of `eeprom_write(0x7F, 0x1234)`. -/
def write7F : List Byte :=
  port [0x00, 0x80, 0x82, 0xC2, 0x80, 0xC0, 0x82, 0xC2, 0x80, 0xC0, 0x82, 0xC2, 0x82, 0xC2, 0x82, 0xC2, 0x82, 0xC2, 0x82, 0xC2,
    0x82, 0xC2, 0x82, 0xC2] ++
  port [0x80, 0xC0, 0x80, 0xC0, 0x80, 0xC0, 0x82, 0xC2, 0x80, 0xC0, 0x80, 0xC0, 0x82, 0xC2, 0x80, 0xC0, 0x80, 0xC0, 0x80, 0xC0,
    0x82, 0xC2, 0x82, 0xC2, 0x80, 0xC0, 0x82, 0xC2, 0x80, 0xC0, 0x80, 0xC0]

/-- The wait's prelude and polls. -/
def waiting (polls : Nat) : List Byte := port [0x00, 0x80] ++ (List.replicate polls (port [0x80, 0xC0] ++ R 0xA0 0x80 1)).flatten

theorem test_ee_write : sent (exec (.eeWrite 0x7F 0x1234) (fed raw (junk 232 ++ junk 8 ++ rd [0] ++ junk 8 ++ rd [1]))) =
    write7F ++ waiting 2 := by decide +kernel

/-- V66d, V66, V66a, V66b, V66c: the bits of the other commands. -/
def bitsErase : List Byte :=
  port ([0x00, 0x80, 0x82, 0xC2, 0x82, 0xC2, 0x82, 0xC2] ++ (List.replicate 6 [0x80, 0xC0]).flatten ++ [0x82, 0xC2, 0x82, 0xC2])
def bitsEwen : List Byte :=
  port ([0x00, 0x80, 0x82, 0xC2, 0x80, 0xC0, 0x80, 0xC0, 0x82, 0xC2, 0x82, 0xC2] ++ (List.replicate 6 [0x80, 0xC0]).flatten)
def bitsEwds : List Byte := port ([0x00, 0x80, 0x82, 0xC2] ++ (List.replicate 10 [0x80, 0xC0]).flatten)
def bitsEral : List Byte :=
  port ([0x00, 0x80, 0x82, 0xC2, 0x80, 0xC0, 0x80, 0xC0, 0x82, 0xC2] ++ (List.replicate 7 [0x80, 0xC0]).flatten)
def bitsWral : List Byte :=
  port ([0x00, 0x80, 0x82, 0xC2, 0x80, 0xC0, 0x80, 0xC0, 0x80, 0xC0, 0x82, 0xC2] ++ (List.replicate 6 [0x80, 0xC0]).flatten ++
    (List.replicate 16 [0x82, 0xC2]).flatten)

theorem test_ee_erase : sent (exec (.eeErase 3) (fed raw (List.replicate 118 1))) = bitsErase ++ waiting 1 := by decide +kernel
theorem test_ee_ewen : sent (exec .eeEwen (fed raw (junk 96))) = bitsEwen := by decide +kernel
theorem test_ee_ewds : sent (exec .eeEwds (fed raw (junk 96))) = bitsEwds := by decide +kernel
theorem test_ee_eral : sent (exec .eeEral (fed raw (List.replicate 118 1))) = bitsEral ++ waiting 1 := by decide +kernel
theorem test_ee_wral : sent (exec (.eeWral 0xFFFF) (fed raw (List.replicate 246 1))) = bitsWral ++ waiting 1 := by decide +kernel

/-! ### Session operations -/

/-- V1: `connect` with the magic at the third and the first probe. -/
theorem test_connect : (after (exec .connect (fed raw ([0x00, 0x00, 0xB4, 0x1D] ++
      [0x13, 0x03, 0x02, 0x01, 0x00, 0x50, 0x4F, 0x4B, 0x45, 0x4D, 0x4F, 0x4E, 0x20, 0x52, 0x45, 0x44, 0, 0, 0, 0, 0] ++
      [0x00, 0xFF])))).map (fun t => (t.connected, t.header, (sentOf t.trace).length)) =
    some (true, some
      { cartType := 0x13, romSizeCode := 0x03, ramSizeCode := 0x02, checksum := 0x0100,
        title := [0x50, 0x4F, 0x4B, 0x45, 0x4D, 0x4F, 0x4E, 0x20, 0x52, 0x45, 0x44, 0, 0, 0, 0, 0] }, 27) := by decide +kernel

/-- V13: phase 1's magic is not phase 2's. -/
theorem test_connect_fails : failure (exec .connect (fed raw (List.replicate 300 0xB4))) = some (.notConnected, .phase 2) ∧
    (sent (exec .connect (fed raw (List.replicate 300 0xB4)))).length = 101 := by decide +kernel

/-- V17, V18. -/
theorem test_read : sent (exec (.read 0x0134 2) (fed sess (rd [0x12, 0x34]))) = [0x59, 0x01, 0x34, 0x00, 0x02, 0x00, 0x00] ∧
    result (exec (.read 0x0134 2) (fed sess (rd [0x12, 0x34]))) = some (.bytes [0x12, 0x34]) ∧
    sent (exec (.read 0x1234 0) (fed sess (junk 9))) = [0x59, 0x12, 0x34, 0x00, 0x00] := by decide +kernel

/-- V20, V80. -/
theorem test_read_range : stopOf (exec (.read 0xFFFF 2) sess) = some (.refusal .rangeOverflow) ∧
    failure (exec (.read 0xFFFF 2) raw) = some (.notConnected, .op .read) := by decide +kernel

/-- V22, V23. -/
theorem test_write : sent (exec (.write 0x6000 1) (fed sess (junk 9))) = [0x49, 0x60, 0x00, 0x01] ∧
    stopOf (exec (.write 0 0x100) sess) = some (.refusal .operandRange) := by decide +kernel

/-- V28: reads 1 and 3 are not adjacent. -/
theorem test_read_ec : result (exec (.readEc 0 2 none) (fed sess (rd [1, 2] ++ rd [3, 4] ++ rd [1, 2] ++ rd [1, 2]))) =
      some (.bytes [1, 2]) ∧
    (sent (exec (.readEc 0 2 none) (fed sess (rd [1, 2] ++ rd [3, 4] ++ rd [1, 2] ++ rd [1, 2])))).length = 28 := by decide +kernel

/-- V5 with L = 1. -/
theorem test_read_ec_unstable : failure (exec (.readEc 0 4 (some 1))
      (fed sess (rd [1, 2, 3, 4] ++ rd [5, 6, 7, 8] ++ rd [1, 2, 3, 4] ++ rd [5, 6, 7, 8]))) =
    some (.readUnstable, .chunk 0x0000 3) := by decide +kernel

/-- V6 with N = 2. -/
theorem test_write_ec : sent (exec (.writeEc 0xA000 0x5A) (fed sess (junk 4 ++ rd [0] ++ junk 4 ++ rd [0] ++ junk 4 ++ rd [0x5A]))) =
      (List.replicate 3 (W 0xA0 0x00 0x5A ++ R 0xA0 0x00 1)).flatten ∧
    result (exec (.writeEc 0xA000 0x5A) (fed sess (junk 4 ++ rd [0] ++ junk 4 ++ rd [0] ++ junk 4 ++ rd [0x5A]))) = some .unit := by
  decide +kernel

/-- V29c. -/
theorem test_write_ec_limit : failure (exec (.writeEc 0xA000 0x5A)
      (fed { sess with cfg := { cfg0 with writeEcLimit := some 2 } } (List.replicate 99 0))) =
    some (.deviceTimeout, .addr .writeEc 0xA000) := by decide +kernel

/-- A session whose header has these codes. -/
def typed (t r m : Byte) : State :=
  { sess with header := some { cartType := t, romSizeCode := r, ramSizeCode := m, checksum := 0, title := List.replicate 16 0 } }

/-- V33, V37, V38, V39, V39b. -/
theorem test_detect : ([(0x01, 0x05, 0x03), (0x19, 0x52, 0x06), (0x05, 0x00, 0x03), (0xFD, 0x02, 0x00), (0xFC, 0x05, 0x04)].map
      fun (t, r, m) => ((after (exec .detect (typed t r m))).bind (·.ctrl)).map
        fun c => (c.variant, c.romBankCount, c.ramSizeBytes)) =
    [some (.mbc1, 64, 0x8000), some (.mbc5, 72, 0), some (.mbc2, 2, 256), some (.tama5, 8, 32), some (.camera, 64, 0x20000)] := by
  decide +kernel

/-- V35, V36. -/
theorem test_detect_fails : failure (exec .detect (typed 0x07 0x08 0)) = some (.unsupportedCartridge, .cartType 0x07) ∧
    failure (exec .detect (typed 0x19 0x08 0)) = some (.unsupportedCartridge, .romSizeCode 0x08) := by decide +kernel

/-! ### Bank selection and RAM enable (V40 to V48b, V77) -/

/-- What a select sends and the shadows that it leaves. -/
def selects (v : Variant) (i : Instr) : List Byte × Option (Option Nat × Option Nat) :=
  let o := exec i (fed (ctl v 64 0x2000) (List.replicate 40 1))
  (sent o, shadows o)

/-- It sends this and leaves these shadows. -/
def selectsAs (v : Variant) (i : Instr) (bytes : List Byte) (left : Option Nat × Option Nat) : Bool :=
  decide ((selects v i).1 = bytes) && decide ((selects v i).2 = some left)

theorem test_select_rom_bank :
    selectsAs .base (.selectRomBankBase 1) [] (some 1, none) ∧
    selectsAs .mbc1 (.selectRomBankMbc1 0x21) (W 0x21 0x00 1 ++ W 0x40 0x00 1 ++ W 0x60 0x00 1) (some 0x21, some 1) ∧
    selectsAs .mbc2 (.selectRomBankMbc2 7) (W 0x21 0x00 7) (some 7, none) ∧
    selectsAs .mbc3 (.selectRomBankMbc3 0) (W 0x21 0x00 0) (some 0, none) ∧
    selectsAs .mbc5 (.selectRomBankMbc5 0x1FF) (W 0x21 0x00 0xFF ++ W 0x30 0x00 1) (some 0x1FF, none) ∧
    selectsAs .mbc6 (.selectRomBankMbc6 3) (W 0x20 0x00 3) (some 3, none) ∧
    selectsAs .mbc7 (.selectRomBankMbc7 0xFF) (W 0x21 0x00 0xFF) (some 0xFF, none) ∧
    selectsAs .camera (.selectRomBankCamera 0x80) (W 0x21 0x00 0x80) (some 0x80, none) ∧
    selectsAs .tama5 (.selectRomBankTama5 0x12) (S 0x0A ++ R 0xA0 0x00 1 ++ R 0xA0 0x00 1 ++ S 0 ++ D 2 ++ S 1 ++ D 1) (some 0x12, none) := by decide +kernel

theorem test_select_ram_bank :
    selectsAs .base (.selectRamBankBase 2) (W 0x40 0x00 2) (none, some 2) ∧
    selectsAs .mbc1 (.selectRamBankMbc1 3) (W 0x60 0x00 1 ++ W 0x40 0x00 3) (none, some 3) ∧
    selectsAs .mbc2 (.selectRamBankMbc2 0) [] (none, some 0) ∧
    selectsAs .mbc3 (.selectRamBankMbc3 2) (W 0x40 0x00 2) (none, some 2) ∧
    selectsAs .mbc5 (.selectRamBankMbc5 8) (W 0x40 0x00 8) (none, some 8) ∧
    selectsAs .mbc6 (.selectRamBankMbc6 1) (W 0x04 0x00 1) (none, some 1) ∧
    selectsAs .mbc7 (.selectRamBankMbc7 0x40) (W 0x40 0x00 0x40) (none, some 0x40) ∧
    selectsAs .camera (.selectRamBankCamera 0x10) (W 0x40 0x00 0x10) (none, some 0x10) ∧
    selectsAs .tama5 (.selectRamBankTama5 7) [] (none, some 7) := by decide +kernel

theorem test_enable_ram :
    ([.base, .mbc1, .mbc2, .mbc3, .mbc5, .mbc6, .camera].all fun v =>
      decide (selects v (enableRamOf v) = (W 0x00 0x00 0x0A, some (none, none)))) = true ∧
    selects .mbc7 .enableRamMbc7 = (W 0x00 0x00 0x0A ++ W 0x40 0x00 0x40, some (none, some 0x40)) ∧
    selects .tama5 .enableRamTama5 = ([], some (none, none)) := by decide +kernel

/-! ### Dumps and restores: the first frames, with a link that ends after them (V50 to V58, V68, V79) -/

/-- What a dump or restore sends until the link has no further reply. -/
def begins (v : Variant) (ram : U32) (i : Instr) (replies : List Byte) : List Byte := sent (exec i (fed (ctl v 2 ram) replies))

theorem test_dump_rom : ([.base, .mbc1, .mbc2, .mbc3, .mbc5, .mbc7, .camera, .tama5].all fun v =>
      decide (begins v 0 (dumpRomOf v true none) (junk 7) = [0x59, 0x00, 0x00, 0x08, 0x00, 0x00, 0x00])) = true ∧
    begins .mbc6 0 (.dumpRomMbc6 true none) (junk 9) = W 0x20 0x00 0x00 ++ [0x59, 0x40, 0x00, 0x08, 0x00] := by decide +kernel

theorem test_dump_ram : ([.base, .mbc3, .mbc5, .camera].all fun v =>
      decide (begins v 0x2000 (dumpRamOf v none) (junk 13) =
        W 0x00 0x00 0x0A ++ W 0x40 0x00 0x00 ++ [0x59, 0xA0, 0x00, 0x08, 0x00])) = true ∧
    begins .mbc1 0x2000 (.dumpRamMbc1 none) (junk 17) =
      W 0x00 0x00 0x0A ++ W 0x60 0x00 0x01 ++ W 0x40 0x00 0x00 ++ [0x59, 0xA0, 0x00, 0x08, 0x00] ∧
    begins .mbc6 0x2000 (.dumpRamMbc6 none) (junk 13) = W 0x00 0x00 0x0A ++ W 0x04 0x00 0x00 ++ [0x59, 0xA0, 0x00, 0x08, 0x00] ∧
    begins .mbc7 256 (.dumpRamMbc7 none) (junk 24) = W 0x00 0x00 0x0A ++ W 0x40 0x00 0x40 ++ port [0x00, 0x80, 0x82, 0xC2] ∧
    begins .tama5 32 (.dumpRamTama5 none) (List.replicate 32 1) =
      S 0x0A ++ R 0xA0 0x00 1 ++ R 0xA0 0x00 1 ++ S 6 ++ D 2 ++ S 7 ++ D 0 := by decide +kernel

/-- V57: four cells pack into two bytes. -/
theorem test_dump_ram_mbc2 : result (exec (.dumpRamMbc2 none) (fed (ctl .mbc2 2 256)
      (junk 4 ++ (rd ([0xF1, 0xF2, 0x0A, 0x5B] ++ List.replicate 508 0)) ++ (rd ([0xF1, 0xF2, 0x0A, 0x5B] ++ List.replicate 508 0))))) =
    some (.bytes ([0x12, 0xAB] ++ List.replicate 254 0)) := by decide +kernel

theorem test_restore_ram : ([.base, .mbc3, .mbc5, .camera].all fun v =>
      decide (begins v 0x800 (restoreRamOf v (List.replicate 0x800 0x77)) (junk 28) =
        W 0x00 0x00 0x0A ++ W 0x40 0x00 0x00 ++ W 0xA0 0x00 0x77 ++ R 0xA0 0x00 1 ++ W 0xA0 0x01 0x77 ++ R 0xA0 0x01 1)) = true ∧
    begins .mbc1 0x800 (.restoreRamMbc1 (List.replicate 0x800 0x77)) (junk 22) =
      W 0x00 0x00 0x0A ++ W 0x60 0x00 0x01 ++ W 0x40 0x00 0x00 ++ W 0xA0 0x00 0x77 ++ R 0xA0 0x00 1 ∧
    begins .mbc6 0x800 (.restoreRamMbc6 (List.replicate 0x800 0x77)) (junk 18) =
      W 0x00 0x00 0x0A ++ W 0x04 0x00 0x00 ++ W 0xA0 0x00 0x77 ++ R 0xA0 0x00 1 ∧
    begins .mbc2 256 (.restoreRamMbc2 (List.replicate 256 0xAB)) (junk 4 ++ junk 4 ++ rd [0xFA] ++ junk 4 ++ rd [0xFB]) =
      W 0x00 0x00 0x0A ++ W 0xA0 0x00 0x0A ++ R 0xA0 0x00 1 ++ W 0xA0 0x01 0x0B ++ R 0xA0 0x01 1 ∧
    begins .mbc7 256 (.restoreRamMbc7 (List.replicate 256 0)) (junk 104) = W 0x00 0x00 0x0A ++ W 0x40 0x00 0x40 ++ bitsEwen ∧
    begins .tama5 32 (.restoreRamTama5 (List.replicate 32 0xC3)) (List.replicate 48 1) =
      S 0x0A ++ R 0xA0 0x00 1 ++ R 0xA0 0x00 1 ++ S 4 ++ D 3 ++ S 5 ++ D 0xC ++ S 6 ++ D 0 ++ S 7 ++ D 0 := by decide +kernel

/-- V55, V58d: no RAM. V58, V69, V79b: an image of another length. -/
theorem test_images_without_frames :
    result (exec (.dumpRamMbc1 none) (ctl .mbc1 2 0)) = some (.bytes []) ∧
    result (exec (.restoreRamMbc3 []) (ctl .mbc3 2 0)) = some .unit ∧
    stopOf (exec (.restoreRamMbc1 (List.replicate 0x7FF 0)) (ctl .mbc1 2 0x800)) = some (.refusal .badImageLength) ∧
    stopOf (exec (.restoreRamMbc7 (List.replicate 255 0)) (ctl .mbc7 64 256)) = some (.refusal .badImageLength) ∧
    stopOf (exec (.restoreRamTama5 (List.replicate 31 0)) (ctl .tama5 8 32)) = some (.refusal .badImageLength) := by decide +kernel

/-- V58c: cells 0 to 4 stay written, cell 5 fails after three rounds. -/
theorem test_restore_ram_times_out :
    failure (exec (.restoreRamMbc3 (List.replicate 5 1 ++ List.replicate 0x7FB 2))
      (fed { ctl .mbc3 2 0x800 with cfg := { cfg0 with writeEcLimit := some 3 } } (List.replicate 100 1))) =
      some (.deviceTimeout, .addr .writeEc 0xA005) ∧
    (sent (exec (.restoreRamMbc3 (List.replicate 5 1 ++ List.replicate 0x7FB 2))
      (fed { ctl .mbc3 2 0x800 with cfg := { cfg0 with writeEcLimit := some 3 } } (List.replicate 100 1)))).length = 88 := by
  decide +kernel

/-! ### The operations of one variant -/

/-- V60. -/
theorem test_latch_rtc : selects .mbc3 .latchRtc = (W 0x60 0x00 0 ++ W 0x60 0x00 1, some (none, none)) := by decide +kernel

/-- V61a. -/
theorem test_read_rtc : selects .mbc3 (.readRtc 3 none) =
      (W 0x40 0x00 0x0B ++ R 0xA0 0x00 1 ++ R 0xA0 0x00 1, some (none, some 11)) ∧
    result (exec (.readRtc 3 none) (fed (ctl .mbc3 16 0x2000) (junk 4 ++ rd [0x05] ++ rd [0x05]))) = some (.byte 0x05) := by
  decide +kernel

/-- V61b. -/
theorem test_read_rtc_unstable : failure (exec (.readRtc 1 (some 0)) (fed (ctl .mbc3 16 0x2000) (junk 4 ++ rd [0x3B] ++ rd [0x3C]))) =
    some (.readUnstable, .chunk 0xA000 2) := by decide +kernel

/-- V62, V62a. -/
theorem test_eeprom_shift_in : sent (exec (.eepromShiftIn 0) (fed (ctl .mbc7 64 256) (junk 8))) = port [0x80, 0xC0] ∧
    sent (exec (.eepromShiftIn 1) (fed (ctl .mbc7 64 256) (junk 8))) = port [0x82, 0xC2] := by decide +kernel

/-- V63, V63a: only bit 0 counts. -/
theorem test_eeprom_shift_inout : sent (exec (.eepromShiftInout 1) (fed (ctl .mbc7 64 256) (junk 8 ++ rd [0xFF]))) =
      port [0x82, 0xC2] ++ R 0xA0 0x80 1 ∧
    result (exec (.eepromShiftInout 1) (fed (ctl .mbc7 64 256) (junk 8 ++ rd [0xFF]))) = some (.byte 1) ∧
    result (exec (.eepromShiftInout 0) (fed (ctl .mbc7 64 256) (junk 8 ++ rd [0xFE]))) = some (.byte 0) := by decide +kernel

/-- V64. -/
theorem test_eeprom_read : sent (exec (.eepromRead 5) (fed (ctl .mbc7 64 256) (junk 96 ++ beef))) =
      readFive ++ (List.replicate 16 (port [0x80, 0xC0] ++ R 0xA0 0x80 1)).flatten ∧
    result (exec (.eepromRead 5) (fed (ctl .mbc7 64 256) (junk 96 ++ beef))) = some (.word 0xBEEF) := by decide +kernel

/-- V65. -/
theorem test_eeprom_write : sent (exec (.eepromWrite 0x7F 0x1234)
    (fed (ctl .mbc7 64 256) (junk 232 ++ junk 8 ++ rd [0] ++ junk 8 ++ rd [1]))) = write7F ++ waiting 2 := by decide +kernel

/-- V66 to V66d. -/
theorem test_eeprom_erase : sent (exec (.eepromErase 3) (fed (ctl .mbc7 64 256) (List.replicate 118 1))) = bitsErase ++ waiting 1 := by
  decide +kernel
theorem test_eeprom_ewen : sent (exec .eepromEwen (fed (ctl .mbc7 64 256) (junk 96))) = bitsEwen := by decide +kernel
theorem test_eeprom_ewds : sent (exec .eepromEwds (fed (ctl .mbc7 64 256) (junk 96))) = bitsEwds := by decide +kernel
theorem test_eeprom_eral : sent (exec .eepromEral (fed (ctl .mbc7 64 256) (List.replicate 118 1))) = bitsEral ++ waiting 1 := by
  decide +kernel
theorem test_eeprom_wral : sent (exec (.eepromWral 0xFFFF) (fed (ctl .mbc7 64 256) (List.replicate 246 1))) = bitsWral ++ waiting 1 := by
  decide +kernel

/-- V67, V67a with EEPROM_WAIT_LIMIT = 2: the last allowed poll may succeed. -/
theorem test_eeprom_wait : result (exec .eepromWait (fed (ctl .mbc7 64 256) (junk 8 ++ junk 8 ++ rd [0] ++ junk 8 ++ rd [1]))) = some .unit ∧
    failure (exec .eepromWait (fed (ctl .mbc7 64 256) (List.replicate 99 0))) = some (.deviceTimeout, .polls .eepromWait 2) := by
  decide +kernel

/-- V70. -/
theorem test_sample_accel : sent (exec (.sampleAccel none) (fed (ctl .mbc7 64 256) (junk 8 ++ rd [0xD0] ++ rd [0xD0] ++ rd [0x81] ++
      rd [0x81] ++ rd [0x10] ++ rd [0x10] ++ rd [0x82] ++ rd [0x82]))) =
      W 0xA0 0x00 0x55 ++ W 0xA0 0x10 0xAA ++ R 0xA0 0x20 1 ++ R 0xA0 0x20 1 ++ R 0xA0 0x30 1 ++ R 0xA0 0x30 1 ++ R 0xA0 0x40 1 ++
        R 0xA0 0x40 1 ++ R 0xA0 0x50 1 ++ R 0xA0 0x50 1 ∧
    result (exec (.sampleAccel none) (fed (ctl .mbc7 64 256) (junk 8 ++ rd [0xD0] ++ rd [0xD0] ++ rd [0x81] ++
      rd [0x81] ++ rd [0x10] ++ rd [0x10] ++ rd [0x82] ++ rd [0x82]))) = some (.words 0x81D0 0x8210) := by decide +kernel

/-- V71. -/
theorem test_take_photo : sent (exec (.takePhoto none) (fed (ctl .camera 64 0x20000) (junk 8 ++ rd [1] ++ rd [1] ++ rd [0] ++ rd [0]))) =
      W 0x40 0x00 0x10 ++ W 0xA0 0x00 1 ++ (List.replicate 4 (R 0xA0 0x00 1)).flatten ∧
    shadows (exec (.takePhoto none) (fed (ctl .camera 64 0x20000) (junk 8 ++ rd [1] ++ rd [1] ++ rd [0] ++ rd [0]))) =
      some (none, some 0x10) := by decide +kernel

/-- V72. -/
theorem test_take_photo_times_out : failure (exec (.takePhoto none) (fed (ctl .camera 64 0x20000) (List.replicate 99 1))) =
    some (.deviceTimeout, .polls .takePhoto 3) := by decide +kernel

/-- V74. -/
theorem test_tama5_unlock : sent (exec (.tama5Unlock none)
      (fed (ctl .tama5 8 32) (junk 4 ++ rd [0xF0] ++ rd [0xF0] ++ junk 4 ++ rd [0xF1] ++ rd [0xF1]))) =
    (List.replicate 2 (S 0x0A ++ R 0xA0 0x00 1 ++ R 0xA0 0x00 1)).flatten := by decide +kernel

/-- V75. -/
theorem test_tama5_write_reg : sent (exec (.tama5WriteReg 6 3) (fed (ctl .tama5 8 32) (junk 8))) = S 6 ++ D 3 := by decide +kernel

/-- V76a: the bytes must agree, not only the nibbles. -/
theorem test_tama5_read_reg : sent (exec (.tama5ReadReg 0xC none) (fed (ctl .tama5 8 32) (junk 4 ++ rd [0x13] ++ rd [3] ++ rd [3]))) =
      S 0x0C ++ (List.replicate 3 (R 0xA0 0x00 1)).flatten ∧
    result (exec (.tama5ReadReg 0xC none) (fed (ctl .tama5 8 32) (junk 4 ++ rd [0x13] ++ rd [3] ++ rd [3]))) = some (.byte 3) := by
  decide +kernel

/-- V78. -/
theorem test_tama5_ram_read : sent (exec (.tama5RamRead 0x13 none)
      (fed (ctl .tama5 8 32) (junk 20 ++ rd [0x0A] ++ rd [0x0A] ++ junk 4 ++ rd [5] ++ rd [5]))) =
      S 6 ++ D 3 ++ S 7 ++ D 3 ++ S 0x0C ++ R 0xA0 0x00 1 ++ R 0xA0 0x00 1 ++ S 0x0D ++ R 0xA0 0x00 1 ++ R 0xA0 0x00 1 ∧
    result (exec (.tama5RamRead 0x13 none)
      (fed (ctl .tama5 8 32) (junk 20 ++ rd [0x0A] ++ rd [0x0A] ++ junk 4 ++ rd [5] ++ rd [5]))) = some (.byte 0x5A) := by decide +kernel

/-- V78a. -/
theorem test_tama5_ram_write : sent (exec (.tama5RamWrite 0x05 0xC3) (fed (ctl .tama5 8 32) (junk 32))) =
    S 4 ++ D 3 ++ S 5 ++ D 0xC ++ S 6 ++ D 0 ++ S 7 ++ D 5 := by decide +kernel

/-! ### Checks, cancellation, steps (V49 to V49b, V82 to V87) -/

/-- A program at its first request. -/
def running (s : State) (p : List Request) : State := { s with program := p }

theorem test_refused_selectors : ([0x0600, 0x2009, 0x01FE, 0x4000, 0x4001].all fun w =>
      decide (stopOf (step (running sess [.host w {}])) = some (.refusal .badSelector))) = true ∧
    stopOf (step (running (ctl .mbc3 16 0) [.host 0x2001 {}])) = some (.refusal .wrongVariant) ∧
    stopOf (step (running sess [.host 0x2003 {}])) = some (.refusal .noController) := by decide +kernel

/-- V82: no exchange, and the request is cleared. -/
theorem test_cancel : (after (exec (.writeEc 0xA000 1) { fed sess (junk 20) with cancelReq := true })).map
      (fun t => (t.cancelReq, t.stop, (sentOf t.trace).length)) =
    some (false, some (.error (.selector 0x05FF) .cancelled (.opId (.selector 0x05FF))), 0) := by decide +kernel

/-- V85: the bound check comes first, and the request stays pending. -/
theorem test_bound_before_cancel : (after (exec (.takePhoto none)
      { ctl .camera 64 0 with
        cfg := Params.default 1 1
        link := (List.replicate 15 { reply := 1, cancel := false }) ++ [{ reply := 1, cancel := true }] ++
          List.replicate 9 { reply := 1, cancel := false } })).map (fun t => (t.cancelReq, t.stop)) =
    some (true, some (.error (.selector 0x6007) .deviceTimeout (.polls .takePhoto 1))) := by decide +kernel

/-- As V83, with MBC6 blocks of one byte: a request in the last exchange of block 0 (two selects, two reads) ends the dump before the
selects of block 1; the report was made, there is no image. -/
theorem test_cancel_between_blocks : (after (exec (.dumpRomMbc6 true none)
      { ctl .mbc6 4 0 with
        cfg := { cfg0 with mbc6RomBlock := 1 }
        link := List.replicate 19 { reply := 1, cancel := false } ++ [{ reply := 1, cancel := true }, { reply := 1, cancel := false }] })).map
      (fun t => (t.cancelReq, t.stop, (sentOf t.trace).length, t.link.length, t.trace.any fun e => match e with
        | .progress _ _ => true
        | _ => false)) =
    some (false, some (.error (.selector 0x3005) .cancelled (.opId (.selector 0x3005))), 20, 1, true) := by decide +kernel

/-- V84: `detect` sends no frame, so a pending request stays pending; then `read` raises Cancelled (two requests, one step each). -/
theorem test_detect_is_not_cancelled : (after (step (running { sess with cancelReq := true } [.host 0x10FF {}, .host 0x02FF { length := 1 }]))).map
      (fun t => (t.cancelReq, t.hpc, t.stop)) = some (true, 1, none) := by decide +kernel

/-- An operation that waits for its second data byte, and how it goes on when the byte comes (log 3). -/
theorem test_waiting : (after (exec (.read 0 2) (fed sess (rd [0xAB])))).map (fun t => (t.awaiting, t.run.isSome, t.hpc)) =
      some (some 0x00, true, 0) ∧
    ((after (exec (.read 0 2) (fed sess (rd [0xAB])))).bind fun t =>
      result (step (t.supplyReplies [{ reply := 0xCD, cancel := false }]))) = some (.bytes [0xAB, 0xCD]) := by decide +kernel

/-- The very next step runs the instruction of a table word. -/
theorem test_fetch_word : (after (step (State.reset.withFetchWord 16 0x02FF))).map (·.stop) =
      some (some (.error (.selector 0x02FF) .notConnected (.op .read))) ∧
    (after (step (State.reset.withFetchWord 40 0x59))).map (·.awaiting) = some (some 0x59) := by decide +kernel

/-! ### Witnesses: for every statement with hypotheses, states and operands that meet all of them together, at the ends of the
ranges that its clauses name -/

/-- A session with a controller of this variant whose link answers the script. -/
def ready (v : Variant) (cs : Script) : State := (ctl v 2 0x2000).answering cs

theorem ready_drives (v : Variant) (cs : Script) : (ready v cs).Drives v := ⟨rfl, rfl⟩

theorem ready_answers (v : Variant) {cs : Script} (h : playable cs = true) : (ready v cs).Answers cs :=
  State.answering_answers rfl h

theorem sess_answers {cs : Script} (h : playable cs = true) : (sess.answering cs).Answers cs := State.answering_answers rfl h

theorem raw_answers {cs : Script} (h : playable cs = true) : (raw.answering cs).Answers cs := State.answering_answers rfl h

theorem eeDo0 : cfg0.eeDo ≠ 0 := by decide

/-- An outcome whose next state passes a test is a next state. -/
theorem next_where {o : Host.Outcome State Fault Refusal} (p : State → Bool) (h : (after o).any p = true) :
    ∃ t, o = .next t ∧ p t = true := by
  cases o with
  | next t => exact ⟨t, rfl, h⟩
  | fault r => cases h
  | refused r => cases h

/-- A ROM bank and a chunk, all of one byte. -/
def bank : List Byte := List.replicate 0x4000 0x5A
def chunk (b : Byte) : List Byte := List.replicate 0x800 b

theorem bank_length : bank.length = 0x4000 := List.length_replicate
theorem chunk_length (b : Byte) : (chunk b).length = 0x800 := List.length_replicate

theorem bank_fits (limit : Option Nat) : ecFits cfg0 limit 0x4000 (stableReads bank) = true := by
  have := stableReads_fits (cfg := cfg0) (limit := limit) bank
  rwa [bank_length] at this

theorem chunk_fits (limit : Option Nat) (b : Byte) : ecFits cfg0 limit 0x800 (stableReads (chunk b)) = true := by
  have := stableReads_fits (cfg := cfg0) (limit := limit) (chunk b)
  rwa [chunk_length] at this

theorem chunk_ne : chunk 1 ≠ chunk 2 := fun h => by
  have := congrArg List.head? h
  simp only [chunk, List.head?_replicate] at this
  exact absurd this (by decide)

theorem witness_ResetState : decode (.host 0x02FF { addr := 0, length := 1 }) = .ok (.read 0 1) := rfl

/-- A connected session with a controller, about to select a bank. -/
def selecting : State := running (fed (ctl .mbc3 16 0x2000) (junk 4)) [.host 0x2003 { n := 5 }]

theorem selecting_inv : selecting.Inv where
  header := rfl
  title := by intro h e; cases e; rfl
  controller := fun _ => rfl
  legal := by intro c e; cases e; exact ⟨by decide, by decide⟩
  registers := fun _ => ⟨rfl, rfl, rfl, rfl, rfl, rfl⟩
  waiting := by intro r e; cases e
  refusal := by intro r e; cases e
  counter := by decide

theorem witness_StepKeepsInv : ∃ s t : State, s.Inv ∧ step s = .next t := by
  obtain ⟨t, h, -⟩ := next_where (o := step selecting) (fun _ => true) (by decide +kernel)
  exact ⟨selecting, t, selecting_inv, h⟩

theorem witness_StepRunsTheDecodedInstruction : selecting.stop = none ∧ selecting.run = none ∧
    selecting.program[selecting.hpc]? = some (.host 0x2003 { n := 5 }) ∧
    decode (.host 0x2003 { n := 5 }) = .ok (.selectRomBankMbc3 5) := ⟨rfl, rfl, rfl, rfl⟩

theorem witness_FinishedAndStoppedPrograms :
    (∃ s : State, s.stop = none ∧ s.run = none ∧ s.program.length ≤ s.hpc) ∧ (∃ s : State, s.stop ≠ none) :=
  ⟨⟨raw, rfl, rfl, by decide⟩, ⟨{ raw with stop := some (.refusal .badSelector) }, by decide⟩⟩

theorem witness_SelectorValidity :
    (∃ i, decode (.host 0x7408 { ta := 31 }) = .ok i) ∧
    (¬ validSelector 0x2009 ∧ ∃ s : State, s.stop = none ∧ s.run = none ∧ s.program[s.hpc]? = some (.host 0x2009 {})) ∧
    (∃ (i : Instr) (s : State) (c : Controller), decode (.host 0x2001 { n := 3 }) = .ok i ∧ controllerOf i = some .mbc1 ∧
      s.ctrl = some c ∧ c.variant ≠ .mbc1) :=
  ⟨⟨_, rfl⟩, ⟨by unfold validSelector; decide, running sess [.host 0x2009 {}], rfl, rfl, rfl⟩,
    ⟨.selectRomBankMbc1 3, ctl .mbc3 16 0, _, rfl, rfl, rfl, by decide⟩⟩

theorem witness_WireFrameDecoding : ∀ bytes ∈ ([[], [0x58], [0x59, 0, 0, 0], [0x49, 0, 0]] : List (List Byte)),
    (bytes = [] ∨ (∃ b rest, bytes = b :: rest ∧ b ≠ 0x9A ∧ b ≠ 0x59 ∧ b ≠ 0x49) ∨
      (bytes.head? = some 0x59 ∧ bytes.length < 5) ∨ (bytes.head? = some 0x49 ∧ bytes.length < 4)) ∧
    ∃ s : State, s.stop = none ∧ s.run = none ∧ s.program[s.hpc]? = some (.wire bytes) := by
  intro bytes h
  refine ⟨?_, running raw [.wire bytes], rfl, rfl, rfl⟩
  simp only [List.mem_cons, List.not_mem_nil, or_false] at h
  rcases h with rfl | rfl | rfl | rfl
  · exact .inl rfl
  · exact .inr (.inl ⟨0x58, [], rfl, by decide⟩)
  · exact .inr (.inr (.inl (by decide)))
  · exact .inr (.inr (.inr (by decide)))

theorem witness_EepromFrameDecoding : ∀ f ∈ ([0b0000000001, 0b0011111111, 0b0110000000, 0b1111111111] : List (BitVec 10)),
    ((f.toNat < 256 ∧ f ≠ 0b0011000000 ∧ f ≠ 0b0000000000 ∧ f ≠ 0b0010000000 ∧ f ≠ 0b0001000000) ∨
      (256 ≤ f.toNat ∧ 128 ≤ f.toNat % 256)) ∧
    ∃ s : State, s.stop = none ∧ s.run = none ∧ s.program[s.hpc]? = some (.ee f 0) := by
  intro f h
  refine ⟨?_, running raw [.ee f 0], rfl, rfl, rfl⟩
  revert f
  decide

theorem witness_DecodeOfEncode : Instr.wf (.eeRead 127) = true ∧ Instr.wf (.readEc 0xFFFF 0x10000 (some 0)) = true ∧
    Instr.wf (.selectRomBankMbc5 0x1FF) = true ∧ Instr.wf (.tama5RamWrite 31 0xFF) = true := by decide

theorem witness_EncodeOfDecode : decode (.wire [0x49, 0x60, 0x00, 0x01, 0xEE]) = .ok (.writeFrame 0x6000 0x01) ∧
    decode (.ee 0b0001000000 0xBEEF) = .ok (.eeWral 0xBEEF) ∧
    decode (.host 0x5306 { eeAddr := 127, word := 0xFFFF }) = .ok (.eepromWrite 127 0xFFFF) := ⟨rfl, rfl, rfl⟩

theorem witness_RegistersAndTheirWriters : ∃ (i : Instr) (s t : State), exec i s = .next t ∧ i ≠ .connect ∧ i ≠ .detect ∧
    writesRomShadow i = false ∧ writesRamShadow i = false ∧ s.refused = true := by
  obtain ⟨t, h, -⟩ := next_where (o := exec .latchRtc { fed (ctl .mbc3 16 0) (junk 8) with refused := true }) (fun _ => true)
    (by decide +kernel)
  exact ⟨.latchRtc, { fed (ctl .mbc3 16 0) (junk 8) with refused := true }, t, h, by decide, by decide, rfl, rfl, rfl⟩

theorem witness_OperationRegistersAreForgotten : ∃ (i : Instr) (s t : State), exec i s = .next t ∧ t.run = none := by
  obtain ⟨t, h, p⟩ := next_where (o := exec (.readEc 0 1 none) (fed sess (rd [1] ++ rd [1]))) (fun t => decide (t.run = none))
    (by decide +kernel)
  exact ⟨_, _, t, h, by simpa using p⟩

theorem witness_ConnectedSessionStays : ∃ s t : State, s.connected = true ∧ step s = .next t := by
  obtain ⟨t, h, -⟩ := next_where (o := step selecting) (fun _ => true) (by decide +kernel)
  exact ⟨selecting, t, rfl, h⟩

theorem witness_ShadowsAreNeverRead : ∃ s s' : State, s ≠ s' ∧ s.unshadowed = s'.unshadowed :=
  ⟨(ctl .mbc1 64 0).shadows (some 3) (some 1), ctl .mbc1 64 0,
    by intro h; exact absurd (congrArg (fun s : State => s.ctrl.bind (·.romShadow)) h) (by decide), rfl⟩

theorem witness_TitleAndChecksumAreNeverRead : ∃ s s' : State, s.header ≠ s'.header ∧ s.untitled = s'.untitled :=
  ⟨typed 0x13 3 2, sess, by decide, rfl⟩

theorem witness_SentBytesAreWholeFrames :
    (∃ (i : Instr) (s t : State), i ≠ .connect ∧ exec i s = .next t ∧ t.run = none) ∧
    (∃ (i : Instr) (s t : State), i ≠ .connect ∧ exec i s = .next t ∧ t.run ≠ none) := by
  obtain ⟨t, h, p⟩ := next_where (o := exec (.read 0 1) (fed sess (rd [1]))) (fun t => decide (t.run = none)) (by decide +kernel)
  obtain ⟨u, g, q⟩ := next_where (o := exec (.read 0 1) (fed sess (junk 3))) (fun t => decide (t.run ≠ none)) (by decide +kernel)
  exact ⟨⟨_, _, t, by decide, h, by simpa using p⟩, ⟨_, _, u, by decide, g, by simpa using q⟩⟩

theorem witness_ConnectSends : ∃ s t : State, exec .connect s = .next t := by
  obtain ⟨t, h, -⟩ := next_where (o := exec .connect (fed raw [0xB4])) (fun _ => true) (by decide +kernel)
  exact ⟨_, t, h⟩

/-- The state ends with this error. -/
def endsWith (i : Instr) (k : ErrKind) (info : Info) (t : State) : Bool := decide (t.stop = some (.error i.opId k info))

/-- One instruction and state for each of the six error kinds. -/
theorem witness_ErrorsOnlyWhereNamed : ∀ k : ErrKind, ∃ (i : Instr) (s t : State) (info : Info), s.stop = none ∧
    s.connected = s.header.isSome ∧ exec i s = .next t ∧ t.stop = some (.error i.opId k info) := by
  have key : ∀ (i : Instr) (s : State) (k : ErrKind) (info : Info), s.stop = none → s.connected = s.header.isSome →
      (after (exec i s)).any (endsWith i k info) = true → ∃ (i : Instr) (s t : State) (info : Info), s.stop = none ∧
      s.connected = s.header.isSome ∧ exec i s = .next t ∧ t.stop = some (.error i.opId k info) := by
    intro i s k info h1 h2 h3
    obtain ⟨t, h, p⟩ := next_where _ h3
    exact ⟨i, s, t, info, h1, h2, h, by simpa [endsWith] using p⟩
  intro k
  cases k with
  | notConnected => exact key (.read 0 1) raw .notConnected (.op .read) rfl rfl (by decide +kernel)
  | protocolError =>
    exact key .connect (fed raw ([0xB4, 0x1D] ++ List.replicate 21 0 ++ [0xFF, 0x00])) .protocolError (.terminator 0xFF 0x00) rfl rfl
      (by decide +kernel)
  | unsupportedCartridge =>
    exact key .detect (typed 0x07 0 0) .unsupportedCartridge (.cartType 0x07) rfl rfl (by decide +kernel)
  | readUnstable =>
    exact key (.readEc 0 1 (some 0)) (fed sess (rd [1] ++ rd [2])) .readUnstable (.chunk 0 2) rfl rfl (by decide +kernel)
  | deviceTimeout =>
    exact key .eepromWait (fed (ctl .mbc7 64 256) (List.replicate 50 0)) .deviceTimeout (.polls .eepromWait 2) rfl rfl
      (by decide +kernel)
  | cancelled =>
    exact key (.write 0 0) { sess with cancelReq := true } .cancelled (.opId (.selector 0x03FF)) rfl rfl (by decide +kernel)

theorem witness_WaitingOperationsGoOn :
    (∃ (i : Instr) (s t : State), exec i s = .next t ∧ t.run = none) ∧
    (∃ (i : Instr) (s t : State), exec i s = .next t ∧ t.run ≠ none ∧ s.stop = none ∧ t.cancelReq = false) := by
  obtain ⟨t, h, p⟩ := next_where (o := exec (.read 0 1) (fed sess (rd [1]))) (fun t => decide (t.run = none)) (by decide +kernel)
  obtain ⟨u, g, q⟩ := next_where (o := exec (.read 0 1) (fed sess (junk 3)))
    (fun t => decide (t.run ≠ none ∧ t.cancelReq = false)) (by decide +kernel)
  have q := of_decide_eq_true q
  exact ⟨⟨_, _, t, h, by simpa using p⟩, ⟨_, fed sess (junk 3), u, g, q.1, rfl, q.2⟩⟩

theorem witness_WaitingWithoutReplies : ∃ (i : Instr) (s t : State), s.stop = none ∧ exec i s = .next t ∧ t.run ≠ none := by
  obtain ⟨u, g, q⟩ := next_where (o := exec (.read 0 1) (fed sess (junk 3))) (fun t => decide (t.run ≠ none)) (by decide +kernel)
  exact ⟨_, fed sess (junk 3), u, rfl, g, by simpa using q⟩

theorem witness_ControllerChecks :
    controllerOf .latchRtc = some .mbc3 ∧ operationOf .latchRtc = some .latchRtc ∧ sess.ctrl = none ∧
    (∃ c, (ctl .mbc1 4 0).ctrl = some c ∧ c.variant ≠ .mbc3) ∧
    (∃ (s : State) (c : Controller), s.ctrl = some c ∧ c.variant = .mbc3 ∧ s.connected = false) :=
  ⟨rfl, rfl, rfl, ⟨_, rfl, by decide⟩, ⟨{ ctl .mbc3 4 0 with connected := false }, _, rfl, rfl, rfl⟩⟩

theorem witness_SessionChecks :
    (controllerOf (.read 0 1) = none ∧ operationOf (.read 0 1) = some .read ∧ Instr.read 0 1 ≠ .connect ∧ raw.connected = false) ∧
    sess.connected = true := ⟨⟨rfl, rfl, by decide, rfl⟩, rfl⟩

/-- An operand one past its range, of a session operation, of a controller operation and of a frame. -/
theorem witness_OperandsOutOfRange :
    (sess.Admits (.readEc 0 0x10001 none) ∧ Instr.wf (.readEc 0 0x10001 none) = false) ∧
    ((ctl .mbc5 256 0).Admits (.selectRomBankMbc5 0x200) ∧ Instr.wf (.selectRomBankMbc5 0x200) = false) ∧
    (raw.Admits (.eeRead 128) ∧ Instr.wf (.eeRead 128) = false) :=
  ⟨⟨fun _ => ⟨fun _ => by decide, fun _ => rfl⟩, rfl⟩, ⟨⟨rfl, rfl⟩, rfl⟩, ⟨fun h => absurd rfl h, rfl⟩⟩

theorem witness_RangesPastTheEnd : sess.connected = true ∧ 0xFFFF ≤ 0xFFFF ∧ 0x10000 < 0xFFFF + 2 ∧
    (1 ≤ 0xFFFF ∧ 0x10000 ≤ 0x10000 ∧ 0x10000 < 1 + 0x10000) ∧ 0x10000 < (0xFFFF#16).toNat + (0x0002#16).toNat :=
  ⟨rfl, by decide, by decide, by decide, by decide⟩

/-- One byte too few or too many, for each of the four lengths. -/
theorem witness_ImagesOfAnotherLength : ∀ x ∈ ([(.mbc2, 255), (.mbc7, 257), (.tama5, 31), (.mbc1, 0x801), (.base, 0x7FF)] : List (Variant × Nat)),
    ∃ (s : State) (c : Controller) (image : List Byte), s.connected = true ∧ s.ctrl = some c ∧ c.variant = x.1 ∧
      image.length ≠ (match x.1 with | .mbc2 => 256 | .mbc7 => 256 | .tama5 => 32 | _ => c.ramSizeBytes.toNat) := by
  intro x h
  refine ⟨ctl x.1 2 0x800, _, List.replicate x.2 0, rfl, rfl, rfl, ?_⟩
  rw [List.length_replicate]
  revert x
  decide

/-- The first clause: a request is pending where an operation opens with a frame. -/
theorem witness_PendingCancellation :
    ∀ x ∈ ([(.base, .read 0xFFFF 1), (.base, .readEc 0xFFFF 1 none), (.mbc3, .latchRtc), (.base, .dumpRamBase none),
        (.mbc2, .restoreRamMbc2 (List.replicate 256 0)), (.mbc6, .dumpRomMbc6 true none)] : List (Variant × Instr)),
      ∃ s : State, s.cancelReq = true ∧ s.Admits x.2 ∧ x.2.wf = true ∧ s.connected = s.header.isSome ∧ opensWithFrame s x.2 := by
  intro x h
  refine ⟨{ ctl x.1 2 0x2000 with cancelReq := true }, rfl, ?_⟩
  simp only [List.mem_cons, List.not_mem_nil, or_false] at h
  rcases h with rfl | rfl | rfl | rfl | rfl | rfl
  · exact ⟨fun _ => ⟨fun _ => by decide, fun _ => rfl⟩, rfl, rfl, by show (0xFFFF + 1 : Nat) ≤ 0x10000; decide⟩
  · exact ⟨fun _ => ⟨fun _ => by decide, fun _ => rfl⟩, rfl, rfl, by show 0 < 1 ∧ (0xFFFF + 1 : Nat) ≤ 0x10000; decide⟩
  · exact ⟨⟨rfl, rfl⟩, rfl, rfl, trivial⟩
  · exact ⟨⟨rfl, rfl⟩, rfl, rfl, ⟨fun c e => by cases e; decide, by decide⟩⟩
  · exact ⟨⟨rfl, rfl⟩, rfl, rfl, ⟨by decide, List.length_replicate⟩⟩
  · exact ⟨⟨rfl, rfl⟩, rfl, rfl, fun c e => by cases e; decide⟩

/-- `latch_rtc`, two frames of four exchanges, with `n` replies of which reply `k` brings a request. -/
def latching (k n : Nat) : State :=
  { ctl .mbc3 4 0 with link := (List.range n).map fun j => { reply := 0x77, cancel := j == k } }

/-- The second clause, in each of the ways it ends: a request in the last frame stays pending; the operation waits in the frame of
a request; a request in the first frame ends it before the second. The same host without the request also reaches a next state. -/
theorem witness_PendingCancellation_during : ∀ x ∈ ([(7, 8, none, true), (1, 3, none, true), (1, 8, some .cancelled, false),
      (3, 4, some .cancelled, false)] : List (Nat × Nat × Option ErrKind × Bool)),
    ∃ t u : State, exec .latchRtc (latching x.1 x.2.1) = .next t ∧ exec .latchRtc (latching x.1 x.2.1).unasked = .next u ∧
      (x.2.2.1 = none → t.stop = none) ∧
      (∀ k, x.2.2.1 = some k → t.stop = some (.error (.selector 0x4003) k (.opId (.selector 0x4003)))) ∧
      t.cancelReq = x.2.2.2 := by
  intro x h
  have runs : (after (exec .latchRtc (latching x.1 x.2.1))).any (fun t =>
      decide (t.stop = x.2.2.1.map fun k => .error (.selector 0x4003) k (.opId (.selector 0x4003))) && (t.cancelReq == x.2.2.2)) = true ∧
      (after (exec .latchRtc (latching x.1 x.2.1).unasked)).any (fun _ => true) = true := by revert x; decide +kernel
  obtain ⟨t, ht, p⟩ := next_where _ runs.1
  obtain ⟨u, hu, -⟩ := next_where _ runs.2
  simp only [Bool.and_eq_true, decide_eq_true_eq, beq_iff_eq] at p
  exact ⟨t, u, ht, hu, fun e => by rw [p.1, e]; rfl, fun k e => by rw [p.1, e]; rfl, p.2⟩

theorem witness_FramelessSelects : 0xFF ≤ 0xFF ∧ (ctl .base 2 0).Drives .base ∧ (ctl .mbc2 2 256).Drives .mbc2 ∧
    (ctl .tama5 8 32).Drives .tama5 := ⟨by decide, ⟨rfl, rfl⟩, ⟨rfl, rfl⟩, ⟨rfl, rfl⟩⟩

theorem witness_BoundBeforeCancellation : ∃ s : State, s.cancelReq = true ∧ s.connected = true ∧ s.cfg.writeEcLimit = some 0 ∧
    0xFFFF ≤ 0xFFFF ∧ 0xFF ≤ 0xFF :=
  ⟨{ sess with cancelReq := true, cfg := { cfg0 with writeEcLimit := some 0 } }, rfl, rfl, rfl, by decide, by decide⟩

theorem witness_WireFramesComplete :
    (∃ s : State, s.Answers [Cue.gives 0x9A 0xB4]) ∧
    (∃ s : State, [(0xAA : Byte)].length = (1#16).toNat ∧ (0xFFFF#16).toNat + (1#16).toNat ≤ 0x10000 ∧
      s.Answers ([Cue.free 0x59, Cue.free (hi8 0xFFFF), Cue.free (lo8 0xFFFF), Cue.free (hi8 1), Cue.free (lo8 1)] ++
        [(0xAA : Byte)].map (Cue.gives s.cfg.fillByte))) ∧
    (∃ s : State, s.Answers [Cue.free 0x49, Cue.free (hi8 0x6000), Cue.free (lo8 0x6000), Cue.free 0x01]) :=
  ⟨⟨_, raw_answers rfl⟩, ⟨raw.answering ([Cue.free 0x59, Cue.free (hi8 0xFFFF), Cue.free (lo8 0xFFFF), Cue.free (hi8 1), Cue.free (lo8 1)] ++
        [(0xAA : Byte)].map (Cue.gives cfg0.fillByte)), rfl, by decide, raw_answers rfl⟩, ⟨_, raw_answers rfl⟩⟩

theorem witness_EepromFramesComplete :
    (∃ s : State, (127#8).toNat ≤ 127 ∧ s.Answers (eeReadScript s.cfg (127#8).toNat 0xBEEF)) ∧
    (∃ s : State, (127#8).toNat ≤ 127 ∧ 1 < s.cfg.eepromWaitLimit ∧ s.Answers (eeWriteScript s.cfg (127#8).toNat 0x1234 1)) ∧
    (∃ s : State, (127#8).toNat ≤ 127 ∧ 1 < s.cfg.eepromWaitLimit ∧ s.Answers (eeEraseScript s.cfg (127#8).toNat 1)) ∧
    (∃ s : State, s.Answers (eeSubScript s.cfg s.cfg.eeSubEwen)) ∧
    (∃ s : State, s.Answers (eeSubScript s.cfg s.cfg.eeSubEwds)) ∧
    (∃ s : State, 1 < s.cfg.eepromWaitLimit ∧ s.Answers (eeEralScript s.cfg 1)) ∧
    (∃ s : State, 1 < s.cfg.eepromWaitLimit ∧ s.Answers (eeWralScript s.cfg 0xFFFF 1)) :=
  ⟨⟨raw.answering (eeReadScript cfg0 127 0xBEEF), by decide, raw_answers (playable_eeRead eeDo0 _ _)⟩,
    ⟨raw.answering (eeWriteScript cfg0 127 0x1234 1), by decide, by decide, raw_answers (playable_eeWrite eeDo0 _ _ _)⟩,
    ⟨raw.answering (eeEraseScript cfg0 127 1), by decide, by decide, raw_answers (by simp [eeEraseScript, playable_eeWait eeDo0])⟩,
    ⟨raw.answering (eeSubScript cfg0 cfg0.eeSubEwen), raw_answers (by simp)⟩,
    ⟨raw.answering (eeSubScript cfg0 cfg0.eeSubEwds), raw_answers (by simp)⟩,
    ⟨raw.answering (eeEralScript cfg0 1), by decide, raw_answers (by simp [eeEralScript, playable_eeWait eeDo0])⟩,
    ⟨raw.answering (eeWralScript cfg0 0xFFFF 1), by decide, raw_answers (by simp [eeWralScript, playable_eeWait eeDo0])⟩⟩

/-- The magic at the hundredth probe of each phase, a title that is no text. -/
theorem witness_ConnectCompletes : ∃ s : State, s.connected = false ∧ (List.replicate 99 (0x1D : Byte)).length < 100 ∧
    (List.replicate 99 (0xB4 : Byte)).length < 100 ∧ (∀ r ∈ List.replicate 99 (0x1D : Byte), r ≠ 0xB4) ∧
    (∀ r ∈ List.replicate 99 (0xB4 : Byte), r ≠ 0x1D) ∧ (List.replicate 16 (0xFF : Byte)).length = 16 ∧
    s.Answers (probesScript (List.replicate 99 0x1D ++ [0xB4]) ++ probesScript (List.replicate 99 0xB4 ++ [0x1D]) ++
      ([0x13, 3, 2, 0xAB, 0xCD] ++ List.replicate 16 0xFF ++ [0x00, 0xFF]).map (Cue.gives s.cfg.fillByte)) :=
  ⟨raw.answering (probesScript (List.replicate 99 0x1D ++ [0xB4]) ++ probesScript (List.replicate 99 0xB4 ++ [0x1D]) ++
      ([0x13, 3, 2, 0xAB, 0xCD] ++ List.replicate 16 0xFF ++ [0x00, 0xFF]).map (Cue.gives cfg0.fillByte)),
    rfl, by decide, by decide, by decide +kernel, by decide +kernel, rfl,
    raw_answers (by rw [playable_append, playable_append, playable_probes, playable_probes, playable_map_gives]; rfl)⟩

theorem witness_ConnectFails :
    (∃ s : State, s.connected = false ∧ (List.replicate 100 (0x00 : Byte)).length = 100 ∧
      (∀ r ∈ List.replicate 100 (0x00 : Byte), r ≠ 0xB4) ∧ s.Answers (probesScript (List.replicate 100 0x00))) ∧
    (∃ s : State, s.connected = false ∧ ([] : List Byte).length < 100 ∧ (List.replicate 100 (0xB4 : Byte)).length = 100 ∧
      (∀ r ∈ List.replicate 100 (0xB4 : Byte), r ≠ 0x1D) ∧
      s.Answers (probesScript ([] ++ [0xB4]) ++ probesScript (List.replicate 100 0xB4))) ∧
    (∃ s : State, s.connected = false ∧ (List.replicate 21 (0x00 : Byte)).length = 21 ∧ ¬ ((0x00 : Byte) = 0x00 ∧ (0xFE : Byte) = 0xFF) ∧
      s.Answers (probesScript ([] ++ [0xB4]) ++ probesScript ([] ++ [0x1D]) ++
        (List.replicate 21 0x00 ++ [0x00, 0xFE]).map (Cue.gives s.cfg.fillByte))) :=
  ⟨⟨raw.answering (probesScript (List.replicate 100 0x00)), rfl, rfl, by decide +kernel, raw_answers (playable_probes _)⟩,
    ⟨raw.answering (probesScript ([] ++ [0xB4]) ++ probesScript (List.replicate 100 0xB4)), rfl, by decide, rfl, by decide +kernel,
      raw_answers (by rw [playable_append, playable_probes, playable_probes]; rfl)⟩,
    ⟨raw.answering (probesScript ([] ++ [0xB4]) ++ probesScript ([] ++ [0x1D]) ++
        (List.replicate 21 0x00 ++ [0x00, 0xFE]).map (Cue.gives cfg0.fillByte)), rfl, rfl, by decide,
      raw_answers (by rw [playable_append, playable_append, playable_probes, playable_probes, playable_map_gives]; rfl)⟩⟩

theorem witness_ReadAndWriteComplete :
    (∃ s : State, s.connected = true ∧ 0xFFFF ≤ 0xFFFF ∧ 1 ≤ 0xFFFF ∧ 0xFFFF + 1 ≤ 0x10000 ∧ [(0xAA : Byte)].length = 1 ∧
      s.Answers (readScript s.cfg (BitVec.ofNat 16 0xFFFF) [0xAA])) ∧
    (∃ s : State, s.connected = true ∧ 0xFFFF ≤ 0xFFFF ∧ 0xFF ≤ 0xFF ∧ s.Answers (writeScript (BitVec.ofNat 16 0xFFFF) (BitVec.ofNat 8 0xFF))) :=
  ⟨⟨sess.answering (readScript cfg0 (BitVec.ofNat 16 0xFFFF) [0xAA]), rfl, by decide, by decide, by decide, rfl,
      sess_answers (playable_read _ _)⟩,
    ⟨_, rfl, by decide, by decide, sess_answers (playable_write _ _)⟩⟩

/-- One byte at the end of the space, accepted at the third read; no byte at all; two chunks within limit 0. -/
theorem witness_ReadEcCompletes : ∀ x ∈ ([(0xFFFF, 1, none, [[[1], [2], [2]]]), (0xFFFF, 0, none, [])] :
      List (Nat × Nat × Option Nat × EcReads)) ++ [(0xF7FF, 0x801, some 0, [[chunk 1, chunk 1], [[7], [7]]])],
    ∃ s : State, s.connected = true ∧ x.1 ≤ 0xFFFF ∧ x.1 + x.2.1 ≤ 0x10000 ∧ ecFits s.cfg x.2.2.1 x.2.1 x.2.2.2 = true ∧
      s.Answers (ecScript s.cfg x.1 x.2.2.2) := by
  intro x h
  refine ⟨sess.answering (ecScript cfg0 x.1 x.2.2.2), rfl, ?_, ?_, ?_, sess_answers (playable_ec _ _)⟩
  all_goals
    simp only [List.cons_append, List.nil_append, List.mem_cons, List.not_mem_nil, or_false] at h
    rcases h with rfl | rfl | rfl <;> decide +kernel

theorem witness_ReadEcUnstable : ∃ s : State, s.connected = true ∧ 0xF7FF ≤ 0xFFFF ∧ 0xF7FF + 0x801 ≤ 0x10000 ∧
    0x800 * [[chunk 1, chunk 1]].length < 0x801 ∧
    (∀ reads ∈ [[chunk 1, chunk 1]], agreesAtEnd s.cfg reads = true ∧ reads.length ≤ 0 + 2 ∧ ∀ d ∈ reads, d.length = 0x800) ∧
    [[(1 : Byte)], [2]].length = 0 + 2 ∧ neverAgrees s.cfg [[1], [2]] = true ∧
    (∀ d ∈ [[(1 : Byte)], [2]], d.length = min 0x800 (0x801 - 0x800 * [[chunk 1, chunk 1]].length)) ∧
    s.Answers (ecScript s.cfg 0xF7FF ([[chunk 1, chunk 1]] ++ [[[1], [2]]])) := by
  refine ⟨sess.answering (ecScript cfg0 0xF7FF ([[chunk 1, chunk 1]] ++ [[[1], [2]]])), rfl, by decide, by decide, by decide, ?_, rfl,
    by decide +kernel, by decide, sess_answers (playable_ec _ _)⟩
  intro reads h
  cases List.mem_singleton.mp h
  exact ⟨by decide +kernel, by decide, by decide +kernel⟩

theorem witness_ReadEcWithoutLimitGoesOn : ∃ s : State, s.connected = true ∧ 0xFFFF ≤ 0xFFFF ∧ 0xFFFF + 1 ≤ 0x10000 ∧ 0 < 1 ∧
    neverAgrees s.cfg ([[1], [2]] ++ [[1]]) = true ∧ (∀ x ∈ [[(1 : Byte)], [2]] ++ [[1]], x.length = min 0x800 1) ∧
    s.Answers (ecScript s.cfg 0xFFFF [[[1], [2]] ++ [[1]]]) ∧
    s.link.length = exchangeCount (ecScript s.cfg 0xFFFF [[[1], [2]] ++ [[1]]]) :=
  ⟨sess.answering (ecScript cfg0 0xFFFF [[[1], [2]] ++ [[1]]]), rfl, by decide, by decide, by decide, by decide +kernel, by decide,
    sess_answers (playable_ec _ _), length_linkFor _⟩

theorem witness_WriteEcCompletes : ∃ s : State, s.connected = true ∧ 0xFFFF ≤ 0xFFFF ∧ 0xFF ≤ 0xFF ∧
    (∀ r ∈ ([0x00, 0xFE] : List Byte), r.toNat ≠ 0xFF) ∧ withinRounds s.cfg.writeEcLimit (([0x00, 0xFE] : List Byte).length + 1) = true ∧
    s.Answers (weScript s.cfg 0xFFFF (BitVec.ofNat 8 0xFF) ([0x00, 0xFE] ++ [BitVec.ofNat 8 0xFF])) :=
  ⟨{ sess with cfg := { cfg0 with writeEcLimit := some 3 } }.answering
      (weScript { cfg0 with writeEcLimit := some 3 } 0xFFFF (BitVec.ofNat 8 0xFF) ([0x00, 0xFE] ++ [BitVec.ofNat 8 0xFF])),
    rfl, by decide, by decide, by decide, rfl, State.answering_answers rfl (playable_we _ _ _)⟩

/-- The largest ordinary size code and an extended one. -/
theorem witness_DetectCompletes : ∀ x ∈ ([(0x13, 0x07, 0x05, .mbc3), (0xFD, 0x54, 0x00, .tama5)] : List (Byte × Byte × Byte × Variant)),
    (typed x.1 x.2.1 x.2.2.1).connected = true ∧
    ∃ h : Header, (typed x.1 x.2.1 x.2.2.1).header = some h ∧
      ((typed x.1 x.2.1 x.2.2.1).cfg.cartTypeMap.find? fun row => row.1 == h.cartType) = some (h.cartType, x.2.2.2) ∧
      (h.romSizeCode.toNat < 8 ∨ h.romSizeCode ∈ [0x52, 0x53, 0x54]) := by
  intro x h
  simp only [List.mem_cons, List.not_mem_nil, or_false] at h
  rcases h with rfl | rfl
  · exact ⟨rfl, _, rfl, by decide, by decide⟩
  · exact ⟨rfl, _, rfl, by decide, by decide⟩

theorem witness_DetectFails :
    (∃ (s : State) (h : Header), s.connected = true ∧ s.header = some h ∧ ∀ row ∈ s.cfg.cartTypeMap, row.1 ≠ h.cartType) ∧
    (∃ (s : State) (h : Header), s.connected = true ∧ s.header = some h ∧ (∃ row ∈ s.cfg.cartTypeMap, row.1 = h.cartType) ∧
      8 ≤ h.romSizeCode.toNat ∧ h.romSizeCode ∉ [0x52, 0x53, 0x54]) :=
  ⟨⟨typed 0x07 0x08 0, _, rfl, rfl, by decide⟩, ⟨typed 0x19 0x08 0, _, rfl, rfl, by decide, by decide, by decide⟩⟩

/-- 200 polls, of which the last says unlocked, with two reads each. -/
def polls200 : List (List Byte) := List.replicate 199 [0xF0, 0xF0] ++ [[0xF1, 0xF1]]

theorem polls200_fit (limit : Option Nat) (h : withinLimit limit 2 = true) : unlockFits cfg0 limit polls200 = true := by
  cases limit with
  | none => decide +kernel
  | some l =>
    have : ∀ reads ∈ polls200, byteFits cfg0 (some l) reads = true := by
      intro reads hr
      have : reads = [0xF0, 0xF0] ∨ reads = [0xF1, 0xF1] := by
        simp only [polls200, List.mem_append, List.mem_singleton] at hr
        exact hr.imp List.eq_of_mem_replicate id
      rcases this with rfl | rfl <;>
        simp [byteFits, byteReads, ecFits, agreesAtEnd, readsAgree, withinLimit]
    have e : endsAt saysUnlocked polls200 = true := by decide +kernel
    have l200 : decide (polls200.length ≤ 200) = true := by decide +kernel
    simp only [unlockFits, l200, e, Bool.and_true, Bool.true_and, List.all_eq_true]
    exact this

/-- The largest bank number of every variant; on TAMA5 after 200 polls. -/
theorem witness_SelectRomBankCompletes : ∀ v : Variant, ∃ s : State, s.Drives v ∧
    (if v = .mbc5 then 0x1FF else 0xFF) ≤ (if v = .mbc5 then 0x1FF else 0xFF) ∧ (v = .tama5 → unlockFits s.cfg none polls200 = true) ∧
    s.Answers (romSelectScript s.cfg v polls200 (if v = .mbc5 then 0x1FF else 0xFF)) := fun v =>
  ⟨ready v (romSelectScript cfg0 v polls200 (if v = .mbc5 then 0x1FF else 0xFF)), ready_drives _ _, Nat.le_refl _,
    fun _ => polls200_fit none rfl, ready_answers _ (playable_romSelect _ _ _)⟩

theorem witness_SelectRamBankCompletes : ∀ v : Variant, ∃ s : State, s.Drives v ∧ 0xFF ≤ 0xFF ∧ s.Answers (ramSelectScript s.cfg v 0xFF) :=
  fun v => ⟨ready v (ramSelectScript cfg0 v 0xFF), ready_drives _ _, by decide, ready_answers _ (playable_ramSelect _ _)⟩

theorem witness_EnableRamCompletes : ∀ v : Variant, ∃ s : State, s.Drives v ∧ s.Answers (enableScript s.cfg v) :=
  fun v => ⟨ready v (enableScript cfg0 v), ready_drives _ _, ready_answers _ (playable_enable _)⟩

/-- A dump of `n + 1` banks, with any limit. -/
def DumpRomReady (v : Variant) (n : Nat) (limit : Option Nat) : Prop :=
    ∃ (s : State) (c : Controller) (banks : List EcReads), banks.length = n ∧ s.connected = true ∧ s.ctrl = some c ∧ c.variant = v ∧
      v ≠ .mbc6 ∧ c.romBankCount.toNat = banks.length + 1 ∧ banks.length ≤ (if v = .mbc5 then 0x1FF else 0xFF) ∧
      (v = .tama5 → banks ≠ [] → unlockFits s.cfg none polls200 = true) ∧
      (∀ b ∈ stableReads bank :: banks, ecFits s.cfg limit 0x4000 b = true) ∧
      s.Answers (dumpRomScript s.cfg v polls200 true (stableReads bank) banks)

theorem dumpRom_ready (v : Variant) (n : Nat) (limit : Option Nat) (hn : n < 0x1FFF) (h6 : v ≠ .mbc6)
    (hb : n ≤ (if v = .mbc5 then 0x1FF else 0xFF)) : DumpRomReady v n limit := by
  refine ⟨(ctl v (BitVec.ofNat 32 (n + 1)) 0).answering
      (dumpRomScript cfg0 v polls200 true (stableReads bank) (List.replicate n (stableReads bank))), _,
    List.replicate n (stableReads bank), List.length_replicate, rfl, rfl, rfl, h6, ?_, ?_, fun _ _ => polls200_fit none rfl, ?_,
    State.answering_answers rfl (playable_dumpRom _ _ _ _ _)⟩
  · rw [List.length_replicate]
    show (BitVec.ofNat 32 (n + 1)).toNat = n + 1
    rw [BitVec.toNat_ofNat, Nat.mod_eq_of_lt (by omega)]
  · rwa [List.length_replicate]
  · intro b hb
    have : b = stableReads bank := by
      rcases List.mem_cons.mp hb with h | h
      · exact h
      · exact List.eq_of_mem_replicate h
    rw [this]
    exact bank_fits limit

theorem witness_DumpRomCompletes_mbc5 : DumpRomReady .mbc5 0x1FF (some 0) := dumpRom_ready .mbc5 0x1FF (some 0) (by decide) (by decide) (by decide)
theorem witness_DumpRomCompletes_mbc1 : DumpRomReady .mbc1 0xFF none := dumpRom_ready .mbc1 0xFF none (by decide) (by decide) (by decide)
theorem witness_DumpRomCompletes_tama5 : DumpRomReady .tama5 1 none := dumpRom_ready .tama5 1 none (by decide) (by decide) (by decide)
theorem witness_DumpRomCompletes_base : DumpRomReady .base 0 none := dumpRom_ready .base 0 none (by decide) (by decide) (by decide)

def DumpRomMbc6Ready (n : Nat) : Prop :=
    ∃ (s : State) (c : Controller) (blocks : List EcReads), blocks.length = 2 * n ∧ s.connected = true ∧ s.ctrl = some c ∧ c.variant = .mbc6 ∧
      blocks.length = 2 * c.romBankCount.toNat ∧ blocks.length ≤ 0x100 ∧ s.cfg.mbc6RomBlock ≤ 0x8000 ∧
      (∀ b ∈ blocks, ecFits s.cfg (some 0) s.cfg.mbc6RomBlock b = true) ∧ s.Answers (banksScript s.cfg .mbc6 [] true 0 blocks)

theorem blockSize : cfg0.mbc6RomBlock ≤ 0x8000 := by decide

/-- A dump of `2 * n` blocks. -/
theorem dumpRomMbc6_ready (n : Nat) (hn : 2 * n ≤ 0x100) : DumpRomMbc6Ready n := by
  refine ⟨(ctl .mbc6 (BitVec.ofNat 32 n) 0).answering
      (banksScript cfg0 .mbc6 [] true 0 (List.replicate (2 * n) (stableReads (List.replicate 0x2000 1)))), _,
    List.replicate (2 * n) (stableReads (List.replicate 0x2000 1)), List.length_replicate, rfl, rfl, rfl, ?_, ?_, blockSize, ?_,
    State.answering_answers rfl (playable_banks _ _ _ _ _)⟩
  · rw [List.length_replicate]
    show 2 * n = 2 * (BitVec.ofNat 32 n).toNat
    rw [BitVec.toNat_ofNat, Nat.mod_eq_of_lt (by omega)]
  · rwa [List.length_replicate]
  · intro b hb
    rw [List.eq_of_mem_replicate hb]
    have := stableReads_fits (cfg := cfg0) (limit := some 0) (List.replicate 0x2000 1)
    rwa [List.length_replicate] at this

theorem witness_DumpRomMbc6Completes : DumpRomMbc6Ready 128 := dumpRomMbc6_ready 128 (by decide)
theorem witness_DumpRomMbc6Completes_empty : DumpRomMbc6Ready 0 := dumpRomMbc6_ready 0 (by decide)

theorem windowSize : 0x800 ≤ cfg0.mbc6RamBank ∧ cfg0.mbc6RamBank ≤ 0x2000 := by decide

/-- A dump of `n` windows. -/
def DumpRamReady (v : Variant) (n : Nat) : Prop :=
    ∃ (s : State) (c : Controller) (windows : List EcReads), windows.length = n ∧ s.connected = true ∧ s.ctrl = some c ∧ c.variant = v ∧
      hasWindows v = true ∧ windows ≠ [] ∧ c.ramSizeBytes.toNat = 0x800 * windows.length ∧
      (v = .mbc6 → 0x800 ≤ s.cfg.mbc6RamBank ∧ s.cfg.mbc6RamBank ≤ 0x2000) ∧ windows.length / windowsPerBank s.cfg v ≤ 0xFF ∧
      (∀ w ∈ windows, ecFits s.cfg (some 0) 0x800 w = true) ∧
      s.Answers (enableScript s.cfg v ++ windowsScript s.cfg v (windowsPerBank s.cfg v) 0 windows)

theorem dumpRam_ready (v : Variant) (n : Nat) (hv : hasWindows v = true) (h0 : 0 < n) (hn : n < 0x1000)
    (hw : n / windowsPerBank cfg0 v ≤ 0xFF) : DumpRamReady v n := by
  refine ⟨(ctl v 2 (BitVec.ofNat 32 (0x800 * n))).answering
      (enableScript cfg0 v ++ windowsScript cfg0 v (windowsPerBank cfg0 v) 0 (List.replicate n (stableReads (chunk 1)))), _,
    List.replicate n (stableReads (chunk 1)), List.length_replicate, rfl, rfl, rfl, hv, ?_, ?_, fun _ => windowSize, ?_, ?_,
    State.answering_answers rfl (by rw [playable_append, playable_enable, playable_windows]; rfl)⟩
  · intro h
    have := congrArg List.length h
    rw [List.length_replicate] at this
    exact absurd this (by simp; omega)
  · rw [List.length_replicate]
    show (BitVec.ofNat 32 (0x800 * n)).toNat = 0x800 * n
    rw [BitVec.toNat_ofNat, Nat.mod_eq_of_lt (by omega)]
  · rwa [List.length_replicate]
  · intro w hw
    rw [List.eq_of_mem_replicate hw]
    exact chunk_fits _ _

theorem witness_DumpRamWindowsCompletes_mbc5 : DumpRamReady .mbc5 1023 := dumpRam_ready .mbc5 1023 rfl (by decide) (by decide) (by decide)
theorem witness_DumpRamWindowsCompletes_mbc6 : DumpRamReady .mbc6 511 := dumpRam_ready .mbc6 511 rfl (by decide) (by decide) (by decide)
theorem witness_DumpRamWindowsCompletes_base : DumpRamReady .base 1 := dumpRam_ready .base 1 rfl (by decide) (by decide) (by decide)
theorem witness_DumpRamWindowsCompletes_empty : ∃ (s : State) (c : Controller), s.connected = true ∧ s.ctrl = some c ∧
    c.variant = .mbc1 ∧ hasWindows .mbc1 = true ∧ c.ramSizeBytes = 0 := ⟨ctl .mbc1 2 0, _, rfl, rfl, rfl, rfl, rfl⟩

/-- The last read of each byte agrees with the one before it. -/
theorem bytes_fit (limit : Option Nat) (b : Byte) : byteFits cfg0 limit [b, b] = true := by
  cases limit <;> simp [byteFits, byteReads, ecFits, agreesAtEnd, readsAgree, withinLimit]

theorem witness_DumpRamUnitsComplete :
    (∃ (s : State) (cells : EcReads), s.Drives .mbc2 ∧ ecFits s.cfg (some 0) 0x200 cells = true ∧
      s.Answers (enableScript s.cfg .mbc2 ++ ecScript s.cfg 0xA000 cells)) ∧
    (∃ (s : State) (words : List U16), s.Drives .mbc7 ∧ words.length = 128 ∧
      s.Answers (enableScript s.cfg .mbc7 ++ wordsScript s.cfg 0 words)) ∧
    (∃ (s : State) (bs : List (List Byte × List Byte)), s.Drives .tama5 ∧ unlockFits s.cfg (some 0) polls200 = true ∧ bs.length = 32 ∧
      (∀ b ∈ bs, byteFits s.cfg (some 0) b.1 = true ∧ byteFits s.cfg (some 0) b.2 = true) ∧
      s.Answers (enableScript s.cfg .tama5 ++ unlockScript s.cfg polls200 ++ nibblesScript s.cfg 0 bs)) := by
  refine ⟨⟨ready .mbc2 (enableScript cfg0 .mbc2 ++ ecScript cfg0 0xA000 (stableReads (List.replicate 0x200 0xF5))),
      stableReads (List.replicate 0x200 0xF5), ready_drives _ _, ?_,
      ready_answers _ (by rw [playable_append, playable_enable, playable_ec]; rfl)⟩,
    ⟨ready .mbc7 (enableScript cfg0 .mbc7 ++ wordsScript cfg0 0 (List.replicate 128 0xBEEF)), List.replicate 128 0xBEEF,
      ready_drives _ _, List.length_replicate, ready_answers _ (by rw [playable_append, playable_enable, playable_words eeDo0]; rfl)⟩,
    ⟨ready .tama5 (enableScript cfg0 .tama5 ++ unlockScript cfg0 polls200 ++ nibblesScript cfg0 0 (List.replicate 32 ([0x1A, 0x1A], [5, 5]))),
      List.replicate 32 ([0x1A, 0x1A], [5, 5]), ready_drives _ _, polls200_fit _ rfl, List.length_replicate, ?_,
      ready_answers _ (by rw [playable_append, playable_append, playable_enable, playable_unlock, playable_nibbles]; rfl)⟩⟩
  · have := stableReads_fits (cfg := cfg0) (limit := some 0) (List.replicate 0x200 0xF5)
    rwa [List.length_replicate] at this
  · intro b hb
    rw [List.eq_of_mem_replicate hb]
    exact ⟨bytes_fit _ _, bytes_fit _ _⟩

/-- A restore of `n` windows whose every byte is read back wrong once. -/
def RestoreRamReady (v : Variant) (n : Nat) : Prop :=
    ∃ (s : State) (c : Controller) (windows : List (List (Byte × List Byte))), windows.length = n ∧ s.connected = true ∧ s.ctrl = some c ∧ c.variant = v ∧
      hasWindows v = true ∧ windows ≠ [] ∧ c.ramSizeBytes.toNat = 0x800 * windows.length ∧
      (v = .mbc6 → 0x800 ≤ s.cfg.mbc6RamBank ∧ s.cfg.mbc6RamBank ≤ 0x2000) ∧ windows.length / windowsPerBank s.cfg v ≤ 0xFF ∧
      (∀ w ∈ windows, w.length = 0x800) ∧ (∀ w ∈ windows, ∀ b ∈ w, weFits s.cfg 0xFF b.1 b.2 = true) ∧
      s.Answers (enableScript s.cfg v ++ restoreScript s.cfg v (windowsPerBank s.cfg v) 0 windows)

theorem restoreRam_ready (v : Variant) (n : Nat) (hv : hasWindows v = true) (h0 : 0 < n) (hn : n < 0x1000)
    (hw : n / windowsPerBank cfg0 v ≤ 0xFF) : RestoreRamReady v n := by
  refine ⟨(ctl v 2 (BitVec.ofNat 32 (0x800 * n))).answering (enableScript cfg0 v ++
      restoreScript cfg0 v (windowsPerBank cfg0 v) 0 (List.replicate n (List.replicate 0x800 (0x5A, [0x00, 0x5A])))), _,
    List.replicate n (List.replicate 0x800 (0x5A, [0x00, 0x5A])), List.length_replicate, rfl, rfl, rfl, hv, ?_, ?_, fun _ => windowSize, ?_, ?_, ?_,
    State.answering_answers rfl (by rw [playable_append, playable_enable, playable_restore]; rfl)⟩
  · intro h
    have := congrArg List.length h
    rw [List.length_replicate] at this
    exact absurd this (by simp; omega)
  · rw [List.length_replicate]
    show (BitVec.ofNat 32 (0x800 * n)).toNat = 0x800 * n
    rw [BitVec.toNat_ofNat, Nat.mod_eq_of_lt (by omega)]
  · rwa [List.length_replicate]
  · intro w h
    rw [List.eq_of_mem_replicate h, List.length_replicate]
  · intro w h b hb
    rw [List.eq_of_mem_replicate h] at hb
    rw [List.eq_of_mem_replicate hb]
    rfl

theorem witness_RestoreRamWindowsCompletes_mbc1 : RestoreRamReady .mbc1 1023 := restoreRam_ready .mbc1 1023 rfl (by decide) (by decide) (by decide)
theorem witness_RestoreRamWindowsCompletes_mbc6 : RestoreRamReady .mbc6 511 := restoreRam_ready .mbc6 511 rfl (by decide) (by decide) (by decide)
theorem witness_RestoreRamWindowsCompletes_camera : RestoreRamReady .camera 1 := restoreRam_ready .camera 1 rfl (by decide) (by decide) (by decide)
theorem witness_RestoreRamWindowsCompletes_empty : ∃ (s : State) (c : Controller), s.connected = true ∧ s.ctrl = some c ∧
    c.variant = .mbc3 ∧ hasWindows .mbc3 = true ∧ c.ramSizeBytes = 0 := ⟨ctl .mbc3 2 0, _, rfl, rfl, rfl, rfl, rfl⟩

theorem witness_RestoreRamUnitsComplete :
    (∃ (s : State) (cells : List (Byte × List Byte × List Byte)), s.Drives .mbc2 ∧ cells.length = 256 ∧
      (∀ b ∈ mbc2Cells cells, weFits s.cfg 0x0F b.1 b.2 = true) ∧
      s.Answers (enableScript s.cfg .mbc2 ++ bytesScript s.cfg 0xA000 (mbc2Cells cells))) ∧
    (∃ (s : State) (words : List (U16 × List (Nat × U16))), s.Drives .mbc7 ∧ words.length = 128 ∧
      (∀ w ∈ words, wordRoundsFit s.cfg w.1 w.2 = true) ∧
      s.Answers (enableScript s.cfg .mbc7 ++ eeSubScript s.cfg s.cfg.eeSubEwen ++ restoreWordsScript s.cfg 0 words ++
        eeSubScript s.cfg s.cfg.eeSubEwds)) ∧
    (∃ (s : State) (bs : List (Byte × List (List Byte × List Byte))), s.Drives .tama5 ∧ unlockFits s.cfg none polls200 = true ∧
      bs.length = 32 ∧ (∀ b ∈ bs, nibbleRoundsFit s.cfg b.1 b.2 = true) ∧
      s.Answers (enableScript s.cfg .tama5 ++ unlockScript s.cfg polls200 ++ restoreNibblesScript s.cfg 0 bs)) := by
  refine ⟨⟨ready .mbc2 (enableScript cfg0 .mbc2 ++ bytesScript cfg0 0xA000 (mbc2Cells (List.replicate 256 (0xAB, [0xF1, 0xFA], [0xFB])))),
      List.replicate 256 (0xAB, [0xF1, 0xFA], [0xFB]), ready_drives _ _, List.length_replicate, ?_,
      ready_answers _ (by rw [playable_append, playable_enable, playable_bytesWe]; rfl)⟩,
    ⟨ready .mbc7 (enableScript cfg0 .mbc7 ++ eeSubScript cfg0 cfg0.eeSubEwen ++
        restoreWordsScript cfg0 0 (List.replicate 128 (0x1234, [(1, 0xFFFF), (0, 0x1234)])) ++ eeSubScript cfg0 cfg0.eeSubEwds),
      List.replicate 128 (0x1234, [(1, 0xFFFF), (0, 0x1234)]), ready_drives _ _, List.length_replicate, ?_,
      ready_answers _ (by
        rw [playable_append, playable_append, playable_append, playable_enable, playable_eeSub, playable_restoreWords eeDo0,
          playable_eeSub]; rfl)⟩,
    ⟨ready .tama5 (enableScript cfg0 .tama5 ++ unlockScript cfg0 polls200 ++
        restoreNibblesScript cfg0 0 (List.replicate 32 (0xC3, [([0, 0], [0, 0]), ([3, 3], [0xFC, 0xFC])]))),
      List.replicate 32 (0xC3, [([0, 0], [0, 0]), ([3, 3], [0xFC, 0xFC])]), ready_drives _ _, polls200_fit _ rfl,
      List.length_replicate, ?_,
      ready_answers _ (by rw [playable_append, playable_append, playable_enable, playable_unlock, playable_restoreNibbles]; rfl)⟩⟩
  · intro b hb
    obtain ⟨x, hx, hb⟩ := List.mem_flatMap.mp hb
    rw [List.eq_of_mem_replicate hx] at hb
    rcases List.mem_cons.mp hb with rfl | hb
    · rfl
    · cases List.mem_singleton.mp hb; rfl
  · intro w hw
    rw [List.eq_of_mem_replicate hw]
    rfl
  · intro b hb
    rw [List.eq_of_mem_replicate hb]
    decide +kernel

/-- The parameters of the tests with a WRITE_EC_LIMIT. -/
def cfgWe (k : Nat) : Params := { cfg0 with writeEcLimit := some k }

/-- A controller of this variant under that limit, whose link answers the script. -/
def limited (k : Nat) (v : Variant) (ram : U32) (cs : Script) : State := { ctl v 2 ram with cfg := cfgWe k }.answering cs

theorem limited_answers (k : Nat) (v : Variant) (ram : U32) {cs : Script} (h : playable cs = true) :
    (limited k v ram cs).Answers cs := State.answering_answers rfl h

/-- The first clause: `write_ec` at the last address. -/
theorem witness_WriteEcTimesOut : ∃ s : State, s.cfg.writeEcLimit = some 1 ∧ s.connected = true ∧ 0xFFFF ≤ 0xFFFF ∧ 0xFF ≤ 0xFF ∧
    [(0x00 : Byte)].length = 1 ∧ (∀ r ∈ [(0x00 : Byte)], r.toNat ≠ 0xFF) ∧ s.Answers (weScript s.cfg 0xFFFF (BitVec.ofNat 8 0xFF) [0x00]) :=
  ⟨{ sess with cfg := cfgWe 1 }.answering (weScript (cfgWe 1) 0xFFFF (BitVec.ofNat 8 0xFF) [0x00]),
    rfl, rfl, by decide, by decide, rfl, by decide, State.answering_answers rfl (playable_we _ _ _)⟩

/-- The second clause: a restore of `n + 1` windows whose last has `m` right bytes before the one that times out. -/
def RestoreTimesOut (v : Variant) (k n m : Nat) : Prop :=
    ∃ (s : State) (c : Controller) (done : List (List (Byte × List Byte))) (part : List (Byte × List Byte)) (b : Byte)
      (wrong rest image : List Byte), done.length = n ∧ part.length = m ∧ s.cfg.writeEcLimit = some k ∧ s.connected = true ∧
      s.ctrl = some c ∧ c.variant = v ∧ hasWindows v = true ∧
      image = (done.flatMap fun w => w.map (·.1)) ++ (part.map (·.1) ++ b :: rest) ∧ image.length = c.ramSizeBytes.toNat ∧
      0x800 * (done.length + 1) ≤ image.length ∧ (∀ w ∈ done, w.length = 0x800) ∧ part.length < 0x800 ∧
      (v = .mbc6 → 0x800 ≤ s.cfg.mbc6RamBank ∧ s.cfg.mbc6RamBank ≤ 0x2000) ∧ done.length / windowsPerBank s.cfg v ≤ 0xFF ∧
      (∀ w ∈ done, ∀ x ∈ w, weFits s.cfg 0xFF x.1 x.2 = true) ∧ (∀ x ∈ part, weFits s.cfg 0xFF x.1 x.2 = true) ∧
      wrong.length = k ∧ (∀ r ∈ wrong, r ≠ b) ∧
      s.Answers (enableScript s.cfg v ++ restoreScript s.cfg v (windowsPerBank s.cfg v) 0 (done ++ [part ++ [(b, wrong)]]))

/-- Bytes that match in their first round; under a limit of 0 there is none of them. -/
def right (k n : Nat) : List (Byte × List Byte) := List.replicate n (0x5A, List.replicate k 0x5A)

theorem right_fits {k n : Nat} (hk : k = 1) : ∀ x ∈ right k n, weFits (cfgWe k) 0xFF x.1 x.2 = true := by
  intro x hx
  rw [List.eq_of_mem_replicate hx, hk]
  rfl

theorem right_length (k n m : Nat) : ((List.replicate n (right k m)).flatMap fun w => w.map (·.1)).length = n * m := by
  simp [List.length_flatMap, right]

theorem restoreTimesOut (v : Variant) (k n m : Nat) (hv : hasWindows v = true) (hk : k = 1 ∨ k = 0 ∧ n = 0 ∧ m = 0)
    (hm : m < 0x800) (hn : n < 0x1000) (hw : n / windowsPerBank cfg0 v ≤ 0xFF) : RestoreTimesOut v k n m := by
  have len : ∀ w ∈ List.replicate n (right k 0x800), w.length = 0x800 := fun w h => by
    rw [List.eq_of_mem_replicate h]; exact List.length_replicate
  have size : ((List.replicate n (right k 0x800)).flatMap fun w => w.map (·.1)).length = 0x800 * n := by
    rw [right_length, Nat.mul_comm]
  have total : (((List.replicate n (right k 0x800)).flatMap fun w => w.map (·.1)) ++
      ((right k m).map (·.1) ++ (0xFF : Byte) :: List.replicate (0x7FF - m) 0)).length = 0x800 * (n + 1) := by
    rw [List.length_append, size, List.length_append, List.length_cons, List.length_map, List.length_replicate]
    simp only [right, List.length_replicate]
    omega
  refine ⟨limited k v (BitVec.ofNat 32 (0x800 * (n + 1))) (enableScript (cfgWe k) v ++
      restoreScript (cfgWe k) v (windowsPerBank (cfgWe k) v) 0
        (List.replicate n (right k 0x800) ++ [right k m ++ [(0xFF, List.replicate k 0x00)]])), _,
    List.replicate n (right k 0x800), right k m, 0xFF, List.replicate k 0x00, List.replicate (0x7FF - m) 0, _,
    List.length_replicate, List.length_replicate, rfl, rfl, rfl, rfl, hv, rfl, ?_, ?_, len, ?_, fun _ => windowSize, ?_, ?_, ?_,
    List.length_replicate, ?_, limited_answers _ _ _ (by rw [playable_append, playable_enable, playable_restore]; rfl)⟩
  · rw [total]
    show 0x800 * (n + 1) = (BitVec.ofNat 32 (0x800 * (n + 1))).toNat
    rw [BitVec.toNat_ofNat, Nat.mod_eq_of_lt (by omega)]
  · rw [total, List.length_replicate]
  · exact (List.length_replicate (n := m)).trans_lt hm
  · rw [List.length_replicate]
    exact hw
  · rcases hk with hk | ⟨-, rfl, -⟩
    · intro w h x hx
      rw [List.eq_of_mem_replicate h] at hx
      exact right_fits hk x hx
    · intro w h
      cases h
  · rcases hk with hk | ⟨-, -, rfl⟩
    · exact right_fits hk
    · intro x h
      cases h
  · intro r h
    rw [List.eq_of_mem_replicate h]
    decide

theorem witness_WriteEcTimesOut_mbc5 : RestoreTimesOut .mbc5 1 1023 0x7FF := restoreTimesOut _ _ _ _ rfl (by decide) (by decide) (by decide) (by decide)
theorem witness_WriteEcTimesOut_mbc6 : RestoreTimesOut .mbc6 1 511 0 := restoreTimesOut _ _ _ _ rfl (by decide) (by decide) (by decide) (by decide)
theorem witness_WriteEcTimesOut_base : RestoreTimesOut .base 0 0 0 := restoreTimesOut _ _ _ _ rfl (by decide) (by decide) (by decide) (by decide)

/-- The clauses of MBC2, MBC7 and TAMA5, each at its last cell. -/
theorem witness_WriteEcTimesOut_units :
    (∃ (s : State) (image : List Byte) (done : List (Byte × List Byte)) (v : Byte) (wrong rest : List Byte), done.length = 511 ∧
      s.cfg.writeEcLimit = some 1 ∧ s.Drives .mbc2 ∧ image.length = 256 ∧ imageCells image = done.map (·.1) ++ v :: rest ∧
      (∀ x ∈ done, weFits s.cfg 0x0F x.1 x.2 = true) ∧ wrong.length = 1 ∧ (∀ r ∈ wrong, r &&& 0x0F ≠ v &&& 0x0F) ∧
      s.Answers (enableScript s.cfg .mbc2 ++ bytesScript s.cfg 0xA000 (done ++ [(v, wrong)]))) ∧
    (∃ (s : State) (done : List (U16 × List (Nat × U16))) (w : U16) (rounds : List (Nat × U16)) (rest : List U16) (image : List Byte),
      done.length = 127 ∧ s.cfg.writeEcLimit = some 1 ∧ s.Drives .mbc7 ∧ done.length + 1 + rest.length = 128 ∧
      image = wordsBytes (done.map (·.1) ++ w :: rest) ∧ (∀ x ∈ done, wordRoundsFit s.cfg x.1 x.2 = true) ∧ rounds.length = 1 ∧
      (∀ r ∈ rounds, r.2 ≠ w ∧ r.1 < s.cfg.eepromWaitLimit) ∧
      s.Answers (enableScript s.cfg .mbc7 ++ eeSubScript s.cfg s.cfg.eeSubEwen ++
        restoreWordsScript s.cfg 0 (done ++ [(w, rounds)]))) ∧
    (∃ (s : State) (done : List (Byte × List (List Byte × List Byte))) (v : Byte) (rounds : List (List Byte × List Byte))
      (rest image : List Byte), done.length = 31 ∧ s.cfg.writeEcLimit = some 1 ∧ s.Drives .tama5 ∧
      unlockFits s.cfg none polls200 = true ∧ done.length + 1 + rest.length = 32 ∧ image = done.map (·.1) ++ v :: rest ∧
      (∀ x ∈ done, nibbleRoundsFit s.cfg x.1 x.2 = true) ∧ rounds.length = 1 ∧
      (∀ r ∈ rounds, nibbleByte r.1 r.2 ≠ v ∧ byteFits s.cfg none r.1 = true ∧ byteFits s.cfg none r.2 = true) ∧
      s.Answers (enableScript s.cfg .tama5 ++ unlockScript s.cfg polls200 ++ restoreNibblesScript s.cfg 0 (done ++ [(v, rounds)]))) := by
  refine ⟨⟨limited 1 .mbc2 256 (enableScript (cfgWe 1) .mbc2 ++
        bytesScript (cfgWe 1) 0xA000 (List.replicate 511 (0x0A, [0xFA]) ++ [(0x0A, [0xFB])])),
      List.replicate 256 0xAA, List.replicate 511 (0x0A, [0xFA]), 0x0A, [0xFB], [], List.length_replicate, rfl, ⟨rfl, rfl⟩,
      List.length_replicate, by decide +kernel, ?_, rfl, by decide,
      limited_answers _ _ _ (by rw [playable_append, playable_enable, playable_bytesWe]; rfl)⟩,
    ⟨limited 1 .mbc7 256 (enableScript (cfgWe 1) .mbc7 ++ eeSubScript (cfgWe 1) (cfgWe 1).eeSubEwen ++
        restoreWordsScript (cfgWe 1) 0 (List.replicate 127 (0x1234, [(1, 0x1234)]) ++ [(0xFFFF, [(1, 0x7FFF)])])),
      List.replicate 127 (0x1234, [(1, 0x1234)]), 0xFFFF, [(1, 0x7FFF)], [], _, List.length_replicate, rfl, ⟨rfl, rfl⟩, by rw [List.length_replicate]; rfl, rfl,
      ?_,
      rfl, by decide, limited_answers _ _ _ (by
        rw [playable_append, playable_append, playable_enable, playable_eeSub, playable_restoreWords (by decide)]; rfl)⟩,
    ⟨limited 1 .tama5 32 (enableScript (cfgWe 1) .tama5 ++ unlockScript (cfgWe 1) polls200 ++ restoreNibblesScript (cfgWe 1) 0
        (List.replicate 31 (0xC3, [([3, 3], [0xFC, 0xFC])]) ++ [(0xC3, [([3, 3], [0, 0])])])),
      List.replicate 31 (0xC3, [([3, 3], [0xFC, 0xFC])]), 0xC3, [([3, 3], [0, 0])], [], _, List.length_replicate, rfl, ⟨rfl, rfl⟩,
      by decide +kernel, rfl, rfl, ?_, rfl, by decide +kernel, limited_answers _ _ _ (by
        rw [playable_append, playable_append, playable_enable, playable_unlock, playable_restoreNibbles]; rfl)⟩⟩
  · intro x hx
    rw [List.eq_of_mem_replicate hx]
    rfl
  · intro x hx
    rw [List.eq_of_mem_replicate hx]
    rfl
  · intro x hx
    rw [List.eq_of_mem_replicate hx]
    decide +kernel

theorem witness_RtcOperationsComplete :
    (∃ s : State, s.Drives .mbc3 ∧ s.Answers (writeScript 0x6000 0x00 ++ writeScript 0x6000 0x01)) ∧
    (∃ s : State, s.Drives .mbc3 ∧ 3 ≤ 3 ∧ byteFits s.cfg (some 0) [0x2A, 0x2A] = true ∧
      s.Answers (writeScript 0x4000 (BitVec.ofNat 8 (8 + 3)) ++ byteScript s.cfg 0xA000 [0x2A, 0x2A])) :=
  ⟨⟨_, ready_drives _ _, ready_answers .mbc3 rfl⟩,
    ⟨ready .mbc3 (writeScript 0x4000 (BitVec.ofNat 8 (8 + 3)) ++ byteScript cfg0 0xA000 [0x2A, 0x2A]), ready_drives _ _, by decide,
      bytes_fit _ _, ready_answers _ (by simp)⟩⟩

/-- The waits at their last allowed poll (EEPROM_WAIT_LIMIT is 2). -/
theorem witness_EepromOperationsComplete :
    (∃ s : State, s.Drives .mbc7 ∧ 1 ≤ 1 ∧ s.Answers (eeBitScript s.cfg (decide (1 = 1)))) ∧
    (∃ s : State, s.Drives .mbc7 ∧ 1 ≤ 1 ∧ s.Answers (eeInoutScript s.cfg (decide (1 = 1)) true)) ∧
    (∃ s : State, s.Drives .mbc7 ∧ 127 ≤ 127 ∧ s.Answers (eeReadScript s.cfg 127 0xBEEF)) ∧
    (∃ s : State, s.Drives .mbc7 ∧ 127 ≤ 127 ∧ 1 < s.cfg.eepromWaitLimit ∧ s.Answers (eeWriteScript s.cfg 127 0xFFFF 1)) ∧
    (∃ s : State, s.Drives .mbc7 ∧ 127 ≤ 127 ∧ 1 < s.cfg.eepromWaitLimit ∧ s.Answers (eeEraseScript s.cfg 127 1)) ∧
    (∃ s : State, s.Drives .mbc7 ∧ s.Answers (eeSubScript s.cfg s.cfg.eeSubEwen)) ∧
    (∃ s : State, s.Drives .mbc7 ∧ s.Answers (eeSubScript s.cfg s.cfg.eeSubEwds)) ∧
    (∃ s : State, s.Drives .mbc7 ∧ 1 < s.cfg.eepromWaitLimit ∧ s.Answers (eeEralScript s.cfg 1)) ∧
    (∃ s : State, s.Drives .mbc7 ∧ 1 < s.cfg.eepromWaitLimit ∧ s.Answers (eeWralScript s.cfg 0xFFFF 1)) ∧
    (∃ s : State, s.Drives .mbc7 ∧ 1 < s.cfg.eepromWaitLimit ∧ s.Answers (eeWaitScript s.cfg 1)) :=
  ⟨⟨ready .mbc7 (eeBitScript cfg0 (decide (1 = 1))), ready_drives _ _, by decide, ready_answers _ (playable_eeBit _)⟩,
    ⟨ready .mbc7 (eeInoutScript cfg0 (decide (1 = 1)) true), ready_drives _ _, by decide, ready_answers _ (playable_eeInout eeDo0 _ _)⟩,
    ⟨ready .mbc7 (eeReadScript cfg0 127 0xBEEF), ready_drives _ _, by decide, ready_answers _ (playable_eeRead eeDo0 _ _)⟩,
    ⟨ready .mbc7 (eeWriteScript cfg0 127 0xFFFF 1), ready_drives _ _, by decide, by decide,
      ready_answers _ (playable_eeWrite eeDo0 _ _ _)⟩,
    ⟨ready .mbc7 (eeEraseScript cfg0 127 1), ready_drives _ _, by decide, by decide,
      ready_answers _ (by simp [eeEraseScript, playable_eeWait eeDo0])⟩,
    ⟨ready .mbc7 (eeSubScript cfg0 cfg0.eeSubEwen), ready_drives _ _, ready_answers _ (by simp)⟩,
    ⟨ready .mbc7 (eeSubScript cfg0 cfg0.eeSubEwds), ready_drives _ _, ready_answers _ (by simp)⟩,
    ⟨ready .mbc7 (eeEralScript cfg0 1), ready_drives _ _, by decide, ready_answers _ (by simp [eeEralScript, playable_eeWait eeDo0])⟩,
    ⟨ready .mbc7 (eeWralScript cfg0 0xFFFF 1), ready_drives _ _, by decide,
      ready_answers _ (by simp [eeWralScript, playable_eeWait eeDo0])⟩,
    ⟨ready .mbc7 (eeWaitScript cfg0 1), ready_drives _ _, by decide, ready_answers _ (playable_eeWait eeDo0 _)⟩⟩

theorem witness_SampleAccelCompletes : ∃ s : State, s.Drives .mbc7 ∧
    (∀ reads ∈ ([[0xD0, 0xD0], [0x81, 0x81], [0x10, 0x10], [0x82, 0x82]] : List (List Byte)), byteFits s.cfg (some 0) reads = true) ∧
    s.Answers (writeScript s.cfg.accelLatch1.addr s.cfg.accelLatch1.value ++
      writeScript s.cfg.accelLatch2.addr s.cfg.accelLatch2.value ++ byteScript s.cfg s.cfg.accelXl.toNat [0xD0, 0xD0] ++
      byteScript s.cfg s.cfg.accelXh.toNat [0x81, 0x81] ++ byteScript s.cfg s.cfg.accelYl.toNat [0x10, 0x10] ++
      byteScript s.cfg s.cfg.accelYh.toNat [0x82, 0x82]) :=
  ⟨ready .mbc7 (writeScript cfg0.accelLatch1.addr cfg0.accelLatch1.value ++
      writeScript cfg0.accelLatch2.addr cfg0.accelLatch2.value ++ byteScript cfg0 cfg0.accelXl.toNat [0xD0, 0xD0] ++
      byteScript cfg0 cfg0.accelXh.toNat [0x81, 0x81] ++ byteScript cfg0 cfg0.accelYl.toNat [0x10, 0x10] ++
      byteScript cfg0 cfg0.accelYh.toNat [0x82, 0x82]), ready_drives _ _, by decide +kernel, ready_answers _ (by simp)⟩

/-- Two busy polls, then a clear one: CAMERA_POLL_LIMIT is 3. -/
theorem witness_TakePhotoCompletes : ∃ s : State, s.Drives .camera ∧ ([[1, 1], [0xFF, 0xFF]] : List (List Byte)).length < s.cfg.cameraPollLimit ∧
    (∀ p ∈ ([[1, 1], [0xFF, 0xFF]] : List (List Byte)), byteFits s.cfg (some 0) p = true ∧ byteOf p &&& 0x01 = 1) ∧
    byteFits s.cfg (some 0) [0xFE, 0xFE] = true ∧ byteOf [0xFE, 0xFE] &&& 0x01 = 0 ∧
    s.Answers (writeScript 0x4000 0x10 ++ writeScript 0xA000 s.cfg.cameraTrigger ++
      ([[1, 1], [0xFF, 0xFF]] ++ [[0xFE, 0xFE]] : List (List Byte)).flatMap (byteScript s.cfg 0xA000)) :=
  ⟨ready .camera (writeScript 0x4000 0x10 ++ writeScript 0xA000 cfg0.cameraTrigger ++
      ([[1, 1], [0xFF, 0xFF]] ++ [[0xFE, 0xFE]] : List (List Byte)).flatMap (byteScript cfg0 0xA000)), ready_drives _ _, by decide, by decide +kernel,
    by decide +kernel, by decide, ready_answers _ (by
      rw [playable_append, playable_append, playable_write, playable_write, playable_bytes]; rfl)⟩

theorem witness_Tama5OperationsComplete :
    (∃ s : State, s.Drives .tama5 ∧ unlockFits s.cfg (some 0) polls200 = true ∧ s.Answers (unlockScript s.cfg polls200)) ∧
    (∃ s : State, s.Drives .tama5 ∧ 15 ≤ 15 ∧ 15 ≤ 15 ∧ s.Answers (tama5WriteScript s.cfg (BitVec.ofNat 8 15) (BitVec.ofNat 8 15))) ∧
    (∃ s : State, s.Drives .tama5 ∧ 15 ≤ 15 ∧ byteFits s.cfg none [0x13, 0x03, 0x03] = true ∧
      s.Answers (tama5ReadScript s.cfg (BitVec.ofNat 8 15) [0x13, 0x03, 0x03])) ∧
    (∃ s : State, s.Drives .tama5 ∧ 31 ≤ 31 ∧ byteFits s.cfg (some 0) [0x0A, 0x0A] = true ∧ byteFits s.cfg (some 0) [5, 5] = true ∧
      s.Answers (tama5RamReadScript s.cfg 31 [0x0A, 0x0A] [5, 5])) ∧
    (∃ s : State, s.Drives .tama5 ∧ 31 ≤ 31 ∧ 0xFF ≤ 0xFF ∧ s.Answers (tama5RamWriteScript s.cfg 31 (BitVec.ofNat 8 0xFF))) :=
  ⟨⟨ready .tama5 (unlockScript cfg0 polls200), ready_drives _ _, polls200_fit _ rfl, ready_answers _ (playable_unlock _)⟩,
    ⟨ready .tama5 (tama5WriteScript cfg0 (BitVec.ofNat 8 15) (BitVec.ofNat 8 15)), ready_drives _ _, by decide, by decide,
      ready_answers _ (playable_tama5Write _ _)⟩,
    ⟨ready .tama5 (tama5ReadScript cfg0 (BitVec.ofNat 8 15) [0x13, 0x03, 0x03]), ready_drives _ _, by decide, by decide +kernel,
      ready_answers _ (playable_tama5Read _ _)⟩,
    ⟨ready .tama5 (tama5RamReadScript cfg0 31 [0x0A, 0x0A] [5, 5]), ready_drives _ _, by decide, bytes_fit _ _, bytes_fit _ _,
      ready_answers _ (playable_tama5RamRead _ _ _)⟩,
    ⟨ready .tama5 (tama5RamWriteScript cfg0 31 (BitVec.ofNat 8 0xFF)), ready_drives _ _, by decide, by decide,
      ready_answers _ (playable_tama5RamWrite _ _)⟩⟩

/-- 200 polls that never say unlocked. -/
def locked200 : List (List Byte) := List.replicate 200 [0xF0, 0xF0]

theorem locked_fits (n : Nat) : ∀ p ∈ List.replicate n ([0xF0, 0xF0] : List Byte),
    byteFits cfg0 (some 0) p = true ∧ byteOf p &&& 0x0F ≠ 0x01 := by
  intro p hp
  rw [List.eq_of_mem_replicate hp]
  exact ⟨bytes_fit _ _, by decide⟩

theorem locked_stay (limit : Option Nat) : staysLocked cfg0 limit locked200 = true := by
  have fit : locked200.all (byteFits cfg0 limit) = true := by
    rw [List.all_eq_true]
    intro p hp
    rw [List.eq_of_mem_replicate hp]
    exact bytes_fit _ _
  have l200 : decide (locked200.length = 200) = true := by decide +kernel
  have never : locked200.all (fun p => !saysUnlocked p) = true := by decide +kernel
  simp only [staysLocked, fit, l200, never, Bool.and_self]

theorem playable_eeWriteFail (a : Nat) (w : U16) : playable (eeWriteFailScript cfg0 a w) = true := by
  simp [eeWriteFailScript, playable_eeWaitFail eeDo0]

/-- The first clause: three busy polls, CAMERA_POLL_LIMIT. -/
theorem witness_PollsTimeOut : ∃ s : State, s.Drives .camera ∧
    ([[1, 1], [1, 1], [0xFF, 0xFF]] : List (List Byte)).length = s.cfg.cameraPollLimit ∧
    (∀ p ∈ ([[1, 1], [1, 1], [0xFF, 0xFF]] : List (List Byte)), byteFits s.cfg (some 0) p = true ∧ byteOf p &&& 0x01 = 1) ∧
    s.Answers (writeScript 0x4000 0x10 ++ writeScript 0xA000 s.cfg.cameraTrigger ++
      ([[1, 1], [1, 1], [0xFF, 0xFF]] : List (List Byte)).flatMap (byteScript s.cfg 0xA000)) :=
  ⟨ready .camera (writeScript 0x4000 0x10 ++ writeScript 0xA000 cfg0.cameraTrigger ++
      ([[1, 1], [1, 1], [0xFF, 0xFF]] : List (List Byte)).flatMap (byteScript cfg0 0xA000)), ready_drives _ _, by decide,
    by decide +kernel, ready_answers _ (by
      rw [playable_append, playable_append, playable_write, playable_write, playable_bytes]; rfl)⟩

/-- The second clause: every operation and every frame of the EEPROM that waits, with the script of its failure. -/
theorem witness_PollsTimeOut_eeprom : ∀ x ∈ ([(.eepromWait, eeWaitFailScript cfg0),
      (.eepromWrite 127 0xFFFF, eeWriteFailScript cfg0 127 0xFFFF), (.eeWrite 127 0xFFFF, eeWriteFailScript cfg0 127 0xFFFF),
      (.eepromErase 127, eeCommandScript cfg0 cfg0.eeOpcErase 127 ++ eeWaitFailScript cfg0),
      (.eeErase 127, eeCommandScript cfg0 cfg0.eeOpcErase 127 ++ eeWaitFailScript cfg0),
      (.eepromEral, eeSubScript cfg0 cfg0.eeSubEral ++ eeWaitFailScript cfg0),
      (.eeEral, eeSubScript cfg0 cfg0.eeSubEral ++ eeWaitFailScript cfg0),
      (.eepromWral 0xFFFF, eeSubScript cfg0 cfg0.eeSubWral ++ eeBitsScript cfg0 (bitsDown 0xFFFF 16) ++ eeWaitFailScript cfg0),
      (.eeWral 0xFFFF, eeSubScript cfg0 cfg0.eeSubWral ++ eeBitsScript cfg0 (bitsDown 0xFFFF 16) ++ eeWaitFailScript cfg0)] :
      List (Instr × Script)),
    ∃ s : State, (controllerOf x.1 = some .mbc7 → s.Drives .mbc7) ∧
      (x.1 = .eepromWait ∧ x.2 = eeWaitFailScript s.cfg ∨
        (∃ (a : Byte) (w : U16), a.toNat ≤ 127 ∧ (x.1 = .eepromWrite a.toNat w.toNat ∨ x.1 = .eeWrite a w) ∧
          x.2 = eeWriteFailScript s.cfg a.toNat w) ∨
        (∃ a : Byte, a.toNat ≤ 127 ∧ (x.1 = .eepromErase a.toNat ∨ x.1 = .eeErase a) ∧
          x.2 = eeCommandScript s.cfg s.cfg.eeOpcErase a ++ eeWaitFailScript s.cfg) ∨
        ((x.1 = .eepromEral ∨ x.1 = .eeEral) ∧ x.2 = eeSubScript s.cfg s.cfg.eeSubEral ++ eeWaitFailScript s.cfg) ∨
        (∃ w : U16, (x.1 = .eepromWral w.toNat ∨ x.1 = .eeWral w) ∧
          x.2 = eeSubScript s.cfg s.cfg.eeSubWral ++ eeBitsScript s.cfg (bitsDown w.toNat 16) ++ eeWaitFailScript s.cfg)) ∧
      s.Answers x.2 := by
  intro x h
  refine ⟨(if controllerOf x.1 = none then raw else ctl .mbc7 2 256).answering x.2, ?_⟩
  simp only [List.mem_cons, List.not_mem_nil, or_false] at h
  rcases h with rfl | rfl | rfl | rfl | rfl | rfl | rfl | rfl | rfl
  · exact ⟨fun _ => ⟨rfl, rfl⟩, .inl ⟨rfl, rfl⟩, State.answering_answers rfl (playable_eeWaitFail eeDo0)⟩
  · exact ⟨fun _ => ⟨rfl, rfl⟩, .inr (.inl ⟨127, 0xFFFF, by decide, .inl rfl, rfl⟩),
      State.answering_answers rfl (playable_eeWriteFail _ _)⟩
  · exact ⟨fun e => absurd e (by decide), .inr (.inl ⟨127, 0xFFFF, by decide, .inr rfl, rfl⟩),
      State.answering_answers rfl (playable_eeWriteFail _ _)⟩
  · exact ⟨fun _ => ⟨rfl, rfl⟩, .inr (.inr (.inl ⟨127, by decide, .inl rfl, rfl⟩)),
      State.answering_answers rfl (by simp [playable_eeWaitFail eeDo0])⟩
  · exact ⟨fun e => absurd e (by decide), .inr (.inr (.inl ⟨127, by decide, .inr rfl, rfl⟩)),
      State.answering_answers rfl (by simp [playable_eeWaitFail eeDo0])⟩
  · exact ⟨fun _ => ⟨rfl, rfl⟩, .inr (.inr (.inr (.inl ⟨.inl rfl, rfl⟩))),
      State.answering_answers rfl (by simp [playable_eeWaitFail eeDo0])⟩
  · exact ⟨fun e => absurd e (by decide), .inr (.inr (.inr (.inl ⟨.inr rfl, rfl⟩))),
      State.answering_answers rfl (by simp [playable_eeWaitFail eeDo0])⟩
  · exact ⟨fun _ => ⟨rfl, rfl⟩, .inr (.inr (.inr (.inr ⟨0xFFFF, .inl rfl, rfl⟩))),
      State.answering_answers rfl (by simp [playable_eeWaitFail eeDo0])⟩
  · exact ⟨fun e => absurd e (by decide), .inr (.inr (.inr (.inr ⟨0xFFFF, .inr rfl, rfl⟩))),
      State.answering_answers rfl (by simp [playable_eeWaitFail eeDo0])⟩

/-- The third clause: the wait of the last word of a restore, in its second round. -/
theorem witness_PollsTimeOut_restore : ∃ (s : State) (done : List (U16 × List (Nat × U16))) (w : U16) (rounds : List (Nat × U16))
      (rest : List U16) (image : List Byte), done.length = 127 ∧ s.Drives .mbc7 ∧ done.length + 1 + rest.length = 128 ∧
      image = wordsBytes (done.map (·.1) ++ w :: rest) ∧ (∀ x ∈ done, wordRoundsFit s.cfg x.1 x.2 = true) ∧
      withinRounds s.cfg.writeEcLimit (rounds.length + 1) = true ∧ (∀ r ∈ rounds, r.2 ≠ w ∧ r.1 < s.cfg.eepromWaitLimit) ∧
      s.Answers (enableScript s.cfg .mbc7 ++ eeSubScript s.cfg s.cfg.eeSubEwen ++
        (restoreWordsScript s.cfg 0 (done ++ [(w, rounds)]) ++ eeWriteFailScript s.cfg done.length w)) := by
  refine ⟨ready .mbc7 (enableScript cfg0 .mbc7 ++ eeSubScript cfg0 cfg0.eeSubEwen ++
      (restoreWordsScript cfg0 0 (List.replicate 127 (0x1234, [(1, 0xFFFF), (0, 0x1234)]) ++ [(0xFFFF, [(1, 0x7FFF)])]) ++
        eeWriteFailScript cfg0 (List.replicate 127 ((0x1234 : U16), [(1, (0xFFFF : U16)), (0, 0x1234)])).length 0xFFFF)),
    List.replicate 127 (0x1234, [(1, 0xFFFF), (0, 0x1234)]), 0xFFFF, [(1, 0x7FFF)], [], _, List.length_replicate,
    ready_drives _ _, by rw [List.length_replicate]; rfl, rfl, ?_, rfl, by decide, ready_answers _ (by
      rw [playable_append, playable_append, playable_append, playable_enable, playable_eeSub, playable_restoreWords eeDo0,
        playable_eeWriteFail]; rfl)⟩
  intro x hx
  rw [List.eq_of_mem_replicate hx]
  rfl

/-- The fourth clause, and the first two parts of the fifth, whose limit is none. -/
theorem witness_PollsTimeOut_tama5 : ∀ limit ∈ [none, some 0], 0xFF ≤ 0xFF ∧ (List.replicate 32 (0 : Byte)).length = 32 ∧
    (∃ s : State, s.Drives .tama5 ∧ staysLocked s.cfg limit locked200 = true ∧ s.Answers (unlockScript s.cfg locked200)) ∧
    (∃ s : State, s.Drives .tama5 ∧ staysLocked s.cfg limit locked200 = true ∧
      s.Answers (enableScript s.cfg .tama5 ++ unlockScript s.cfg locked200)) := fun limit _ =>
  ⟨by decide, rfl,
    ⟨ready .tama5 (unlockScript cfg0 locked200), ready_drives _ _, locked_stay limit, ready_answers _ (playable_unlock _)⟩,
    ⟨ready .tama5 (enableScript cfg0 .tama5 ++ unlockScript cfg0 locked200), ready_drives _ _, locked_stay limit,
      ready_answers _ (by rw [playable_append, playable_enable, playable_unlock]; rfl)⟩⟩

/-- The last part of the fifth clause: the unlock before bank `n + 1` of a dump. -/
def DumpRomLocked (n : Nat) : Prop :=
    ∃ (s : State) (c : Controller) (banks : List EcReads), banks.length = n ∧ s.Drives .tama5 ∧
      staysLocked s.cfg none locked200 = true ∧ s.ctrl = some c ∧ banks.length + 1 < c.romBankCount.toNat ∧ banks.length + 1 ≤ 0xFF ∧
      (banks ≠ [] → unlockFits s.cfg none polls200 = true) ∧ (∀ b ∈ stableReads bank :: banks, ecFits s.cfg (some 0) 0x4000 b = true) ∧
      s.Answers (dumpRomScript s.cfg .tama5 polls200 true (stableReads bank) banks ++ unlockScript s.cfg locked200)

/-- Every bank of this list is the test's. -/
theorem banks_fit (limit : Option Nat) (n : Nat) :
    ∀ b ∈ stableReads bank :: List.replicate n (stableReads bank), ecFits cfg0 limit 0x4000 b = true := by
  intro b hb
  have : b = stableReads bank := by
    rcases List.mem_cons.mp hb with h | h
    · exact h
    · exact List.eq_of_mem_replicate h
  rw [this]
  exact bank_fits _

theorem toNat_count {n m : Nat} (h : m < n) (hn : n < 0x2001) : m < (BitVec.ofNat 32 n).toNat := by
  rw [BitVec.toNat_ofNat, Nat.mod_eq_of_lt (by omega)]
  exact h

theorem dumpRomLocked (n : Nat) (hn : n + 1 ≤ 0xFF) : DumpRomLocked n := by
  refine ⟨(ctl .tama5 (BitVec.ofNat 32 (n + 2)) 0).answering
      (dumpRomScript cfg0 .tama5 polls200 true (stableReads bank) (List.replicate n (stableReads bank)) ++ unlockScript cfg0 locked200), _,
    List.replicate n (stableReads bank), List.length_replicate, ⟨rfl, rfl⟩, locked_stay none, rfl, ?_, ?_, fun _ => polls200_fit none rfl,
    banks_fit _ _, State.answering_answers rfl (by rw [playable_append, playable_dumpRom, playable_unlock]; rfl)⟩
  · rw [List.length_replicate]
    exact toNat_count (by omega) (by omega)
  · rwa [List.length_replicate]

theorem witness_PollsTimeOut_dump_first : DumpRomLocked 0 := dumpRomLocked 0 (by decide)
theorem witness_PollsTimeOut_dump_last : DumpRomLocked 0xFE := dumpRomLocked 0xFE (by decide)

/-- The premises that the clauses of DumpRomAborts share: `m` good chunks of two reads each, then one whose two reads differ. -/
def AbortChunks (cfg : Params) (good : EcReads) (bad : List (List Byte)) : Prop :=
    (∀ reads ∈ good, agreesAtEnd cfg reads = true ∧ reads.length ≤ 0 + 2 ∧ ∀ d ∈ reads, d.length = 0x800) ∧ bad.length = 0 + 2 ∧
      neverAgrees cfg bad = true ∧ ∀ d ∈ bad, d.length = 0x800

theorem abortChunks (m : Nat) : AbortChunks cfg0 (List.replicate m [chunk 0, chunk 0]) [chunk 1, chunk 2] := by
  refine ⟨?_, rfl, ?_, ?_⟩
  · intro reads h
    rw [List.eq_of_mem_replicate h]
    refine ⟨?_, Nat.le_refl _, ?_⟩
    · simp [agreesAtEnd, readsAgree]
    · intro d hd
      rcases List.mem_cons.mp hd with rfl | hd
      · exact chunk_length 0
      · cases List.mem_singleton.mp hd; exact chunk_length 0
  · show (!readsAgree cfg0 (chunk 1) (chunk 2) && true) = true
    have : readsAgree cfg0 (chunk 1) (chunk 2) = false := decide_eq_false chunk_ne
    rw [this]
    rfl
  · intro d hd
    rcases List.mem_cons.mp hd with rfl | hd
    · exact chunk_length 1
    · cases List.mem_singleton.mp hd; exact chunk_length 2

/-- The first clause: bank 0, with `m` good chunks before the bad one. -/
def Bank0Aborts (v : Variant) (m : Nat) : Prop :=
    ∃ (s : State) (c : Controller) (good : EcReads) (bad : List (List Byte)), good.length = m ∧ s.connected = true ∧ s.ctrl = some c ∧
      AbortChunks s.cfg good bad ∧ c.variant = v ∧ v ≠ .mbc6 ∧ good.length < 8 ∧ s.Answers (ecScript s.cfg 0x0000 (good ++ [bad]))

theorem bank0Aborts (v : Variant) (m : Nat) (h6 : v ≠ .mbc6) (hm : m < 8) : Bank0Aborts v m :=
  ⟨ready v (ecScript cfg0 0x0000 (List.replicate m [chunk 0, chunk 0] ++ [[chunk 1, chunk 2]])), _,
    List.replicate m [chunk 0, chunk 0], [chunk 1, chunk 2], List.length_replicate, rfl, rfl, abortChunks m, rfl, h6,
    by rwa [List.length_replicate], ready_answers _ (playable_ec _ _)⟩

theorem witness_DumpRomAborts_base_first : Bank0Aborts .base 0 := bank0Aborts _ _ (by decide) (by decide)
theorem witness_DumpRomAborts_tama5_last : Bank0Aborts .tama5 7 := bank0Aborts _ _ (by decide) (by decide)

/-- The second clause: bank `k = n + 1`, with `m` good chunks before the bad one. -/
def BankAborts (v : Variant) (n m : Nat) : Prop :=
    ∃ (s : State) (c : Controller) (good : EcReads) (bad : List (List Byte)) (k : Nat) (banks : List EcReads), good.length = m ∧
      k = n + 1 ∧ s.connected = true ∧ s.ctrl = some c ∧ AbortChunks s.cfg good bad ∧ c.variant = v ∧ v ≠ .mbc6 ∧ good.length < 8 ∧
      k = banks.length + 1 ∧ k < c.romBankCount.toNat ∧ k ≤ (if v = .mbc5 then 0x1FF else 0xFF) ∧
      (v = .tama5 → unlockFits s.cfg none polls200 = true) ∧
      (∀ b ∈ stableReads bank :: banks, ecFits s.cfg (some 0) 0x4000 b = true) ∧
      s.Answers (dumpRomScript s.cfg v polls200 true (stableReads bank) banks ++
        (romSelectScript s.cfg v polls200 k ++ ecScript s.cfg (romWindow v k) (good ++ [bad])))

theorem bankAborts (v : Variant) (n m : Nat) (h6 : v ≠ .mbc6) (hm : m < 8) (hn : n + 1 ≤ (if v = .mbc5 then 0x1FF else 0xFF)) :
    BankAborts v n m := by
  have hn' : n + 1 ≤ 0x1FF := by split at hn <;> omega
  refine ⟨(ctl v (BitVec.ofNat 32 (n + 2)) 0).answering
      (dumpRomScript cfg0 v polls200 true (stableReads bank) (List.replicate n (stableReads bank)) ++
        (romSelectScript cfg0 v polls200 (n + 1) ++
          ecScript cfg0 (romWindow v (n + 1)) (List.replicate m [chunk 0, chunk 0] ++ [[chunk 1, chunk 2]]))), _,
    List.replicate m [chunk 0, chunk 0], [chunk 1, chunk 2], n + 1, List.replicate n (stableReads bank), List.length_replicate, rfl,
    rfl, rfl, abortChunks m, rfl, h6, by rwa [List.length_replicate], by rw [List.length_replicate],
    toNat_count (by omega) (by omega), hn, fun _ => polls200_fit none rfl, banks_fit _ _, State.answering_answers rfl (by
      rw [playable_append, playable_append, playable_dumpRom, playable_romSelect, playable_ec]; rfl)⟩

theorem witness_DumpRomAborts_mbc5 : BankAborts .mbc5 0x1FE 0 := bankAborts _ _ _ (by decide) (by decide) (by decide)
theorem witness_DumpRomAborts_mbc1_low : BankAborts .mbc1 0x1F 7 := bankAborts _ _ _ (by decide) (by decide) (by decide)
theorem witness_DumpRomAborts_mbc1_high : BankAborts .mbc1 0xFE 7 := bankAborts _ _ _ (by decide) (by decide) (by decide)
theorem witness_DumpRomAborts_tama5 : BankAborts .tama5 1 3 := bankAborts _ _ _ (by decide) (by decide) (by decide)
theorem witness_DumpRomAborts_base : BankAborts .base 0 0 := bankAborts _ _ _ (by decide) (by decide) (by decide)

/-- The third clause: block `n` of MBC6, with `m` good chunks before the bad one. -/
def BlockAborts (n m : Nat) : Prop :=
    ∃ (s : State) (c : Controller) (good : EcReads) (bad : List (List Byte)) (blocks : List EcReads), good.length = m ∧
      blocks.length = n ∧ s.connected = true ∧ s.ctrl = some c ∧
      ((∀ reads ∈ good, agreesAtEnd s.cfg reads = true ∧ reads.length ≤ 0 + 2 ∧ ∀ d ∈ reads, d.length = 0x800) ∧
        bad.length = 0 + 2 ∧ neverAgrees s.cfg bad = true) ∧ c.variant = .mbc6 ∧ blocks.length < 2 * c.romBankCount.toNat ∧
      blocks.length ≤ 0xFF ∧ s.cfg.mbc6RomBlock ≤ 0x8000 ∧ (∀ b ∈ blocks, ecFits s.cfg (some 0) s.cfg.mbc6RomBlock b = true) ∧
      0x800 * good.length < s.cfg.mbc6RomBlock ∧
      (∀ d ∈ bad, d.length = min 0x800 (s.cfg.mbc6RomBlock - 0x800 * good.length)) ∧
      s.Answers (banksScript s.cfg .mbc6 [] true 0 blocks ++ romSelectScript s.cfg .mbc6 [] blocks.length ++
        ecScript s.cfg 0x4000 (good ++ [bad]))

theorem blockAborts (n m : Nat) (hn : n ≤ 0xFF) (hm : m < 4) : BlockAborts n m := by
  have size : cfg0.mbc6RomBlock = 0x2000 := rfl
  obtain ⟨hg, hl, ha, hb⟩ := abortChunks m
  refine ⟨(ctl .mbc6 128 0).answering
      (banksScript cfg0 .mbc6 [] true 0 (List.replicate n (stableReads (List.replicate 0x2000 1))) ++
        romSelectScript cfg0 .mbc6 [] (List.replicate n (stableReads (List.replicate 0x2000 (1 : Byte)))).length ++
        ecScript cfg0 0x4000 (List.replicate m [chunk 0, chunk 0] ++ [[chunk 1, chunk 2]])), _,
    List.replicate m [chunk 0, chunk 0], [chunk 1, chunk 2], List.replicate n (stableReads (List.replicate 0x2000 1)),
    List.length_replicate, List.length_replicate, rfl, rfl, ⟨hg, hl, ha⟩, rfl, ?_, ?_, blockSize, ?_, ?_, ?_,
    State.answering_answers rfl (by rw [playable_append, playable_append, playable_banks, playable_romSelect, playable_ec]; rfl)⟩
  · rw [List.length_replicate]
    show n < 256
    omega
  · rwa [List.length_replicate]
  · intro b h
    rw [List.eq_of_mem_replicate h]
    have := stableReads_fits (cfg := cfg0) (limit := some 0) (List.replicate 0x2000 1)
    rwa [List.length_replicate] at this
  · have e : (List.replicate m [chunk 0, chunk 0]).length = m := List.length_replicate
    rw [e]
    show 0x800 * m < 0x2000
    omega
  · intro d h
    have e : (List.replicate m [chunk 0, chunk 0]).length = m := List.length_replicate
    rw [hb d h, e]
    show 0x800 = min 0x800 (0x2000 - 0x800 * m)
    omega

theorem witness_DumpRomAborts_mbc6_first : BlockAborts 0 0 := blockAborts _ _ (by decide) (by decide)
theorem witness_DumpRomAborts_mbc6_last : BlockAborts 0xFF 3 := blockAborts _ _ (by decide) (by decide)

theorem witness_OperationRegistersWhileWaiting :
    (∃ s : State, s.connected = false ∧ (List.replicate 99 (0x00 : Byte)).length < 100 ∧
      (∀ r ∈ List.replicate 99 (0x00 : Byte), r ≠ 0xB4) ∧ s.Answers (probesScript (List.replicate 99 0x00)) ∧
      s.link.length = (List.replicate 99 (0x00 : Byte)).length) ∧
    (∃ s : State, s.connected = true ∧ 0xFFFF ≤ 0xFFFF ∧ 0xFF ≤ 0xFF ∧ s.cfg.writeEcLimit = none ∧ (∀ r ∈ [(0x00 : Byte)], r.toNat ≠ 0xFF) ∧
      s.Answers (weScript s.cfg 0xFFFF (BitVec.ofNat 8 0xFF) [0x00]) ∧
      s.link.length = exchangeCount (weScript s.cfg 0xFFFF (BitVec.ofNat 8 0xFF) [0x00])) ∧
    (∃ s : State, s.Drives .tama5 ∧ (List.replicate 199 ([0xF0, 0xF0] : List Byte)).length < 200 ∧
      (∀ p ∈ List.replicate 199 ([0xF0, 0xF0] : List Byte), byteFits s.cfg (some 0) p = true ∧ byteOf p &&& 0x0F ≠ 0x01) ∧
      s.Answers (unlockScript s.cfg (List.replicate 199 [0xF0, 0xF0])) ∧
      s.link.length = exchangeCount (unlockScript s.cfg (List.replicate 199 [0xF0, 0xF0]))) ∧
    (∃ s : State, s.Drives .mbc7 ∧ 127 ≤ 127 ∧ 15 < 16 ∧
      s.Answers (eeCommandScript s.cfg s.cfg.eeOpcRead (BitVec.ofNat 8 127) ++
        ((bitsDown (0xBEEF#16).toNat 16).take 15).flatMap (eeInoutScript s.cfg false)) ∧
      s.link.length = exchangeCount (eeCommandScript s.cfg s.cfg.eeOpcRead (BitVec.ofNat 8 127) ++
        ((bitsDown (0xBEEF#16).toNat 16).take 15).flatMap (eeInoutScript s.cfg false))) :=
  ⟨⟨raw.answering (probesScript (List.replicate 99 0x00)), rfl, by decide, by decide +kernel, raw_answers (playable_probes _),
      (length_linkFor _).trans (by decide +kernel)⟩,
    ⟨sess.answering (weScript cfg0 0xFFFF (BitVec.ofNat 8 0xFF) [0x00]), rfl, by decide, by decide, rfl, by decide,
      sess_answers (playable_we _ _ _), length_linkFor _⟩,
    ⟨ready .tama5 (unlockScript cfg0 (List.replicate 199 [0xF0, 0xF0])), ready_drives _ _, by decide +kernel, locked_fits 199,
      ready_answers _ (playable_unlock _), length_linkFor _⟩,
    ⟨ready .mbc7 (eeCommandScript cfg0 cfg0.eeOpcRead (BitVec.ofNat 8 127) ++
        ((bitsDown (0xBEEF#16).toNat 16).take 15).flatMap (eeInoutScript cfg0 false)), ready_drives _ _, by decide, by decide,
      ready_answers _ (by rw [playable_append, playable_eeCommand, playable_eeInouts eeDo0]; rfl), length_linkFor _⟩⟩

theorem modeBit : cfg0.mbc1ModeValue &&& 0x01 = 1 := by decide

/-- A reference device with `n + 1` banks. -/
def RomDumpReady (v : Variant) (n : Nat) : Prop :=
    ∃ (s : State) (c : Controller) (banks : List (List Byte)), banks.length = n ∧ s.connected = true ∧ s.ctrl = some c ∧ c.variant = v ∧
      s.cancelReq = false ∧ s.cfg.mbc1ModeValue &&& 0x01 = 1 ∧ c.romBankCount.toNat = banks.length + 1 ∧
      (∀ b ∈ bank :: banks, b.length = 0x4000) ∧
      (v = .base ∧ banks.length = 1 ∨ v = .mbc1 ∧ banks.length ≤ 127 ∨ v = .mbc2 ∧ banks.length ≤ 15 ∨
        v = .mbc3 ∧ banks.length ≤ 255 ∨ v = .mbc5 ∧ banks.length ≤ 255) ∧
      s.link = (({ RefDev.start v (bank :: banks).flatten [] [] with phase := .command } : RefDev).replies
          (askedOf (dumpRomScript s.cfg v [] false (stableReads bank) (banks.map stableReads)))).map
        (fun b => { reply := b, cancel := false }) ++ []

theorem romDump_ready (v : Variant) (n : Nat) (hn : n < 0x1000)
    (hv : v = .base ∧ n = 1 ∨ v = .mbc1 ∧ n ≤ 127 ∨ v = .mbc2 ∧ n ≤ 15 ∨ v = .mbc3 ∧ n ≤ 255 ∨ v = .mbc5 ∧ n ≤ 255) : RomDumpReady v n := by
  refine ⟨{ ctl v (BitVec.ofNat 32 (n + 1)) 0 with
      link := (({ RefDev.start v (bank :: List.replicate n bank).flatten [] [] with phase := .command } : RefDev).replies
          (askedOf (dumpRomScript cfg0 v [] false (stableReads bank) ((List.replicate n bank).map stableReads)))).map
        (fun b => { reply := b, cancel := false }) ++ [] }, _, List.replicate n bank, List.length_replicate, rfl, rfl, rfl, rfl, modeBit, ?_, ?_, ?_, rfl⟩
  · rw [List.length_replicate]
    show (BitVec.ofNat 32 (n + 1)).toNat = n + 1
    rw [BitVec.toNat_ofNat, Nat.mod_eq_of_lt (by omega)]
  · intro b hb
    have : b = bank := by
      rcases List.mem_cons.mp hb with h | h
      · exact h
      · exact List.eq_of_mem_replicate h
    rw [this]
    exact bank_length
  · rw [List.length_replicate]
    exact hv

theorem witness_RomDumpIsTheRom_base : RomDumpReady .base 1 := romDump_ready .base 1 (by decide) (by decide)
theorem witness_RomDumpIsTheRom_mbc1 : RomDumpReady .mbc1 127 := romDump_ready .mbc1 127 (by decide) (by decide)
theorem witness_RomDumpIsTheRom_mbc2 : RomDumpReady .mbc2 15 := romDump_ready .mbc2 15 (by decide) (by decide)
theorem witness_RomDumpIsTheRom_mbc3 : RomDumpReady .mbc3 255 := romDump_ready .mbc3 255 (by decide) (by decide)
theorem witness_RomDumpIsTheRom_mbc5 : RomDumpReady .mbc5 255 := romDump_ready .mbc5 255 (by decide) (by decide)

end Sys2Proof.Tests
end

/-!
PROOFS of the statements of 00_scope.md. An instruction's next state is `finish` of its body's result (`exec_eq`), so a statement about
every instruction is one about the bodies' results: `BodyEnds` for what every body leaves alone, `GoesOn` for more replies.
-/

namespace Sys2Proof.Machine

variable {α : Type}

/-! ### The end of an instruction as a function of its body's result -/

/-- The next state that `runOp` makes of the result of a body started in `s` (R430, R435, R442; log 3). -/
def finish (i : Instr) (s : State) : EStateM.Result Halt State Value → State
  | .ok v t => t.endResult i.opId v
  | .error (.raised kind info) t => t.raiseError i.opId kind info
  | .error .cancelled t => t.raiseError i.opId .cancelled (.opId i.opId)
  | .error (.refused reason) t => t.takeRefusal reason
  | .error .waiting t => State.suspend i s t

theorem runOp_eq (i : Instr) (body : Proc Value) (s : State) : runOp i body s = .next (finish i s (body s.idle)) := by
  unfold runOp
  split <;> rename_i e <;> rw [e] <;> rfl

theorem exec_eq (i : Instr) (s : State) : exec i s = .next (finish i s (bodyOf i s.idle)) :=
  (exec_body i s).trans (runOp_eq i _ s)

/-- Only the wait of log 3 leaves an operation to run. -/
theorem waiting_of_finish_run {i : Instr} {s : State} {r : EStateM.Result Halt State Value} (h : (finish i s r).run ≠ none) :
    ∃ t, r = .error .waiting t := by
  match r with
  | .ok _ _ | .error (.raised _ _) _ | .error .cancelled _ | .error (.refused _) _ => exact absurd rfl h
  | .error .waiting t => exact ⟨t, rfl⟩

/-- An instruction reads no operation register of the state it starts in. -/
theorem exec_of_idle {i : Instr} {s t : State} (h : s.idle = t.idle) : exec i s = exec i t := by
  have key : ∀ (u : State) r, finish i u r = finish i u.idle r := by
    intro u r
    match r with
    | .ok _ _ | .error (.raised _ _) _ | .error .cancelled _ | .error (.refused _) _ | .error .waiting _ => rfl
  rw [exec_eq, exec_eq, key s, key t, h]

/-! ### `detect` -/

/-- What `detect` finds in the session registers: the controller, or the error of the first check of R202 that fails. -/
def detectFinds (cfg : Params) (connected : Bool) (header : Option Header) : Except (ErrKind × Info) Controller :=
  match connected, header with
  | true, some h =>
    match cartVariant cfg.cartTypeMap h.cartType, romBanks h.romSizeCode with
    | none, _ => .error (.unsupportedCartridge, .cartType h.cartType)
    | some _, none => .error (.unsupportedCartridge, .romSizeCode h.romSizeCode)
    | some v, some banks => .ok (newController v banks (ramSize v h.ramSizeCode))
  | _, _ => .error (.notConnected, .op .detect)

/-- The result of `detect` in `s`, given what it finds. -/
def detectEnd (s : State) : Except (ErrKind × Info) Controller → EStateM.Result Halt State Value
  | .ok c => .ok (.variant c.variant) { s with ctrl := some c }
  | .error (kind, info) => .error (.raised kind info) s

theorem detect_eq (s : State) : detect s = detectEnd s (detectFinds s.cfg s.connected s.header) := by
  have get_bind : ∀ {γ : Type} (g : State → Proc γ), (get >>= g) s = g s s := fun _ => rfl
  unfold detect
  cases hc : s.connected with
  | false => exact bind_error (by simp [requireConnected, hc])
  | true =>
    rw [bind_ok (a := ()) (s' := s) (by simp [requireConnected, hc]), get_bind]
    cases hh : s.header with
    | none => rfl
    | some h =>
      simp only [detectFrom, detectFinds]
      rw [get_bind]
      cases cartVariant s.cfg.cartTypeMap h.cartType with
      | none => rfl
      | some v => cases romBanks h.romSizeCode <;> rfl

/-! ### `connect` -/

/-- The result of `connect` on an unconnected session, given that of its reading (R31, R60). -/
def connectEnd : EStateM.Result Halt State Header → EStateM.Result Halt State Value
  | .ok h t => .ok .unit { t with header := some h, connected := true }
  | .error (.raised kind info) t => .error (.raised kind info) { t with connected := false, header := none }
  | .error .cancelled t => .error .cancelled { t with connected := false, header := none }
  | .error (.refused reason) t => .error (.refused reason) t
  | .error .waiting t => .error .waiting t

theorem connect_eq {s : State} (hc : s.connected = false) : connect s = connectEnd (connectRead s) := by
  match e : connectRead s with
  | .ok _ _ => exact connect_ok hc e
  | .error (.raised _ _) _ => exact connect_raised hc e
  | .error .cancelled _ => exact connect_cancelled hc e
  | .error .waiting _ => exact connect_waiting hc e
  | .error (.refused r) t =>
    have : connectBody s = .error (.refused r) t := by rw [connectBody_eq, bind_error e]
    simp [connect, hc, disconnectOnError, this, connectEnd]

theorem connect_of_connected {s : State} (hc : s.connected = true) : connect s = .error (.refused .alreadyConnected) s :=
  if_pos hc

@[simp] theorem endState_connectEnd_traceRev (r : EStateM.Result Halt State Header) :
    (endState (connectEnd r)).traceRev = (endState r).traceRev := by
  match r with
  | .ok _ _ | .error (.raised _ _) _ | .error .cancelled _ | .error (.refused _) _ | .error .waiting _ => rfl

/-! ### What no body touches -/

/-- What the body of every instruction leaves alone, those of `connect` and `detect` included; one that waits has written no
session register, so that it can go on from where it was started (log 3). -/
structure BodyEnds {α : Type} (s : State) (r : EStateM.Result Halt State α) : Prop where
  hpc : (endState r).hpc = s.hpc
  stop : (endState r).stop = s.stop
  refused : (endState r).refused = s.refused
  trace : ∃ evs, (endState r).traceRev = evs ++ s.traceRev ∧ ∀ e ∈ evs, e.inner = true
  waiting : ∀ t, r = .error .waiting t → (∃ rom ram, Within rom ram s t) ∧ t.link = [] ∧ t.awaiting ≠ none

theorem Ends.bodyEnds {K : ErrKind → Prop} {rom ram : Bool} {s : State} {r : EStateM.Result Halt State α}
    (h : Ends K rom ram s r) : BodyEnds s r where
  hpc := h.within.hpc
  stop := h.within.stop
  refused := h.within.refused
  trace := h.within.trace
  waiting t e := ⟨⟨rom, ram, by simpa [e] using h.within⟩, h.waiting t e⟩

/-- A body that ends at once, with the trace as it was. -/
theorem BodyEnds.of_same {s t : State} {r : EStateM.Result Halt State α} (hr : endState r = t)
    (hw : ∀ u, r ≠ .error .waiting u) (h1 : t.hpc = s.hpc) (h2 : t.stop = s.stop) (h3 : t.refused = s.refused)
    (h4 : t.traceRev = s.traceRev) : BodyEnds s r :=
  ⟨hr ▸ h1, hr ▸ h2, hr ▸ h3, ⟨[], hr ▸ h4, by simp⟩, fun u e => absurd e (hw u)⟩

theorem BodyEnds.connectEnd {s : State} {r : EStateM.Result Halt State Header} (h : BodyEnds s r) : BodyEnds s (connectEnd r) := by
  obtain ⟨h1, h2, h3, h4, h5⟩ := h
  match r with
  | .ok _ _ | .error (.raised _ _) _ | .error .cancelled _ | .error (.refused _) _ =>
    exact ⟨h1, h2, h3, h4, fun u e => nomatch e⟩
  | .error .waiting t => exact ⟨h1, h2, h3, h4, fun u e => h5 u (by cases e; rfl)⟩

theorem connect_bodyEnds (s : State) : BodyEnds s (connect s) := by
  cases hc : s.connected with
  | true => rw [connect_of_connected hc]; exact .of_same rfl (fun _ => nofun) rfl rfl rfl rfl
  | false => rw [connect_eq hc]; exact (connectRead_ends s).bodyEnds.connectEnd

theorem detect_bodyEnds (s : State) : BodyEnds s (detect s) := by
  rw [detect_eq]
  cases detectFinds s.cfg s.connected s.header with
  | ok c => exact .of_same rfl (fun _ => nofun) rfl rfl rfl rfl
  | error e => exact .of_same rfl (fun _ => nofun) rfl rfl rfl rfl

theorem bodyOf_bodyEnds (i : Instr) (s : State) : BodyEnds s (bodyOf i s) := by
  by_cases h1 : i = .connect
  · subst h1; exact connect_bodyEnds s
  · by_cases h2 : i = .detect
    · subst h2; exact detect_bodyEnds s
    · exact (body_ends i h1 h2 s).bodyEnds

/-! ### The four ends of an operation (R16) -/

/-- An operation whose body waits, waits. -/
theorem finish_waits {i : Instr} {s t : State} (h : BodyEnds s.idle (.error .waiting t : EStateM.Result Halt State Value)) :
    Waits i s (State.suspend i s t) :=
  have ⟨_, hl, ha⟩ := h.waiting t rfl
  ⟨⟨_, rfl, rfl⟩, ha, hl, h.hpc, h.stop, h.refused⟩

theorem finish_cases {i : Instr} {s : State} {r : EStateM.Result Halt State Value} (h : BodyEnds s.idle r) :
    EndsInResult i s (finish i s r) ∨ EndsInError i s (finish i s r) ∨ EndsInRefusal s (finish i s r) ∨ Waits i s (finish i s r) := by
  match r with
  | .ok v t => exact .inl ⟨⟨v, rfl⟩, congrArg (· + 1) h.hpc, h.stop, h.refused, rfl⟩
  | .error (.raised kind info) t => exact .inr (.inl ⟨kind, info, rfl, rfl, h.hpc, h.refused, rfl⟩)
  | .error .cancelled t => exact .inr (.inl ⟨.cancelled, .opId i.opId, rfl, rfl, h.hpc, h.refused, rfl⟩)
  | .error (.refused reason) t => exact .inr (.inr (.inl ⟨reason, rfl, rfl, h.hpc, rfl, h.trace⟩))
  | .error .waiting t => exact .inr (.inr (.inr (finish_waits h)))

/-- Settles O12: `exec` is the end of a body's result, and each of the five results of a body is one of the four ends. -/
theorem everyOperationEnds : Obligations.EveryOperationEnds :=
  fun i s => ⟨_, exec_eq i s, finish_cases (bodyOf_bodyEnds i s.idle)⟩

/-! ### Replies that come later -/

theorem GoesOn.connectEnd {ins : List LinkIn} {r r' : EStateM.Result Halt State Header} (h : GoesOn ins r r') :
    GoesOn ins (connectEnd r) (connectEnd r') := by
  match r with
  | .ok a t => rw [h.ok a t rfl]; exact .of_ok
  | .error (.raised k info) t => rw [h.error _ t rfl nofun]; exact .of_error nofun
  | .error .cancelled t => rw [h.error _ t rfl nofun]; exact .of_error nofun
  | .error (.refused reason) t => rw [h.error _ t rfl nofun]; exact .of_error nofun
  | .error .waiting t =>
    refine ⟨fun _ _ => nofun, fun _ _ e hn => ?_, fun u e => ?_⟩
    · cases e; exact absurd rfl hn
    · cases e; rw [endState_connectEnd_traceRev]; exact h.waiting _ rfl

theorem connect_goesOn (ins : List LinkIn) (s : State) : GoesOn ins (connect s) (connect (s.supplyReplies ins)) := by
  cases hc : s.connected with
  | true => rw [connect_of_connected hc, connect_of_connected (s := s.supplyReplies ins) hc]; exact .of_error nofun
  | false => rw [connect_eq hc, connect_eq (s := s.supplyReplies ins) hc]; exact (connectRead_goesOn ins s).connectEnd

theorem detect_goesOn (ins : List LinkIn) (s : State) : GoesOn ins (detect s) (detect (s.supplyReplies ins)) := by
  rw [detect_eq, detect_eq]
  show GoesOn ins _ (detectEnd _ (detectFinds s.cfg s.connected s.header))
  cases detectFinds s.cfg s.connected s.header with
  | ok c => exact .of_ok
  | error e => exact .of_error nofun

theorem bodyOf_goesOn (i : Instr) (ins : List LinkIn) (s : State) : GoesOn ins (bodyOf i s) (bodyOf i (s.supplyReplies ins)) := by
  by_cases h1 : i = .connect
  · subst h1; exact connect_goesOn ins s
  · by_cases h2 : i = .detect
    · subst h2; exact detect_goesOn ins s
    · exact body_goesOn i h1 h2 ins s

/-- An operation that has ended ends the same way on more replies, and leaves them. -/
theorem finish_supplyReplies {i : Instr} {s : State} {ins : List LinkIn} {r r' : EStateM.Result Halt State Value}
    (h : GoesOn ins r r') (hr : (finish i s r).run = none) :
    finish i (s.supplyReplies ins) r' = (finish i s r).supplyReplies ins := by
  match r with
  | .ok v t => rw [h.ok v t rfl]; rfl
  | .error (.raised kind info) t => rw [h.error _ t rfl nofun]; rfl
  | .error .cancelled t => rw [h.error _ t rfl nofun]; rfl
  | .error (.refused reason) t => rw [h.error _ t rfl nofun]; rfl
  | .error .waiting t => cases hr

theorem exec_supplyReplies {i : Instr} {s t : State} (h : exec i s = .next t) (ht : t.run = none) (more : List LinkIn) :
    exec i (s.supplyReplies more) = .next (t.supplyReplies more) := by
  rw [exec_eq] at h ⊢
  cases h
  exact congrArg _ (finish_supplyReplies (bodyOf_goesOn i more s.idle) ht)

/-- The state of an operation that waits: where its body stands, the session registers as they were and no reply left. -/
theorem exec_waiting {i : Instr} {s t : State} (h : exec i s = .next t) (ht : t.run ≠ none) :
    ∃ u rom ram, t = State.suspend i s u ∧ Within rom ram s.idle u ∧ u.link = [] := by
  rw [exec_eq] at h
  cases h
  obtain ⟨u, e⟩ := waiting_of_finish_run ht
  obtain ⟨⟨rom, ram, hw⟩, hl, _⟩ := (bodyOf_bodyEnds i s.idle).waiting u e
  exact ⟨u, rom, ram, by rw [e]; rfl, hw, hl⟩

theorem step_eq_resumeStep {t : State} {r : Running} (hs : t.stop = none) (hr : t.run = some r) : step t = resumeStep r t := by
  simp only [step, hs, hr]

/-- Taken back to its start, a waiting operation stands as it stood there, with the replies that have come since at the end of
its queue, the first of them marked where the host has asked meanwhile (log 3, log 5). -/
theorem rewind_suspend_idle {i : Instr} {s u : State} {rom ram : Bool} (hw : Within rom ram s.idle u) (asked : Bool) (a : LinkIn)
    (more queue : List LinkIn) :
    (State.rewind ⟨i, s.link, s.ctrl, s.cancelReq, s.traceRev⟩ a more
      { State.suspend i s u with link := queue, cancelReq := asked }).idle =
      (s.supplyReplies ({ a with cancel := a.cancel || asked } :: more)).idle := by
  simp only [State.rewind, State.suspend, State.supplyReplies, State.idle, hw.connected, hw.header, hw.cfg, hw.program, hw.hpc,
    hw.stop, hw.refused]

/-- An operation that waits goes on, once a reply has come, as the run from its start on the longer queue. -/
theorem step_suspend {i : Instr} {s u : State} {rom ram : Bool} (hw : Within rom ram s.idle u) (hs : s.stop = none) (asked : Bool)
    (a : LinkIn) (more : List LinkIn) :
    step { State.suspend i s u with link := a :: more, cancelReq := asked } =
      exec i (s.supplyReplies ({ a with cancel := a.cancel || asked } :: more)) := by
  rw [← exec_of_idle (rewind_suspend_idle hw asked a more (a :: more))]
  exact step_eq_resumeStep (t := { State.suspend i s u with link := a :: more, cancelReq := asked }) (hw.stop.trans hs) rfl

/-- Settles O21: a run that ended ends alike on more replies (`GoesOn`), and one that waits goes on as the run from its start on the
longer queue, since nothing but that start and the replies counts (`exec_of_idle`). -/
theorem waitingOperationsGoOn : Obligations.WaitingOperationsGoOn := by
  intro i s t h
  refine ⟨fun ht more => exec_supplyReplies h ht more, fun ht hs a more => ?_⟩
  obtain ⟨u, rom, ram, rfl, hw, hl⟩ := exec_waiting h ht
  constructor
  · intro hc
    have e : (State.suspend i s u).supplyReplies (a :: more) = { State.suspend i s u with link := a :: more, cancelReq := false } := by
      simp only [State.supplyReplies, State.suspend_link, hl, List.nil_append, ← hc]
    rw [e, step_suspend hw hs, Bool.or_false]
  · have e : (State.suspend i s u).requestCancel.supplyReplies (a :: more) =
        { State.suspend i s u with link := a :: more, cancelReq := true } := by
      simp only [State.supplyReplies, State.requestCancel, State.suspend_link, hl, List.nil_append]
    rw [e, step_suspend hw hs, Bool.or_true]

/-- Settles O22: a step of a waiting operation on an empty queue leaves the state. -/
theorem waitingWithoutReplies : Obligations.WaitingWithoutReplies := by
  intro i s t hs h ht
  obtain ⟨u, rom, ram, rfl, hw, hl⟩ := exec_waiting h ht
  rw [step_eq_resumeStep (t := State.suspend i s u) (hw.stop.trans hs) rfl]
  simp only [resumeStep, State.suspend_link, hl]

/-! ### The wire frames by themselves (R111 to R113) -/

/-- The script of a READ frame with its length field as the request gives it (R112). -/
theorem readScript_of_length {cfg : Params} {addr len : U16} {data : List Byte} (h : data.length = len.toNat) :
    readScript cfg addr data =
      [Cue.free 0x59, Cue.free (hi8 addr), Cue.free (lo8 addr), Cue.free (hi8 len), Cue.free (lo8 len)] ++
        data.map (Cue.gives cfg.fillByte) := by
  rw [readScript, h, BitVec.ofNat_toNat, BitVec.setWidth_eq]

/-- Settles O31: each frame's body runs its script (`probe_runs`, `memRead_runs`, `memWrite_runs`). -/
theorem wireFramesComplete : Obligations.WireFramesComplete := by
  intro s
  refine ⟨fun r hs => ?_, fun addr len data hl hr hs => ?_, fun addr value hs => ?_⟩
  · exact runOp_completes ((probe_runs r).map Value.byte) hs
  · rw [← readScript_of_length hl] at hs ⊢
    exact runOp_completes ((refuseIf_runs _ (by simpa using hr)).then ((memRead_runs addr data len hl.symm).map Value.bytes)) hs
  · exact runOp_completes (memWrite_runs addr value).unit hs

end Sys2Proof.Machine

namespace Sys2Proof.Machine

variable {α β : Type} {cfg : Params} {conn : Bool}

/-! ### A procedure that uses up the replies and waits (log 3) -/

/-- With parameters `cfg` and the status flag at `conn`, on a queue of exactly the replies to the script, the procedure plays it and
then waits for the reply to `b`, in a state that satisfies `Q`. -/
def Stalls (cfg : Params) (conn : Bool) (p : Proc α) (cs : Script) (b : Byte) (Q : State → Prop) : Prop :=
  ∀ s : State, s.cfg = cfg → s.connected = conn → s.Answers cs → s.link.length = exchangeCount cs →
    ∃ t, p s = .error .waiting t ∧ t.awaiting = some b ∧ t.traceRev = (s.plays cs).traceRev ∧ Q t

/-- A script takes as many replies as it has exchanges. -/
theorem State.length_link_plays (cs : Script) : ∀ s : State, answers cs s.link = true →
    s.link.length = exchangeCount cs + (s.plays cs).link.length := by
  induction cs with
  | nil => intro s _; simp [exchangeCount]
  | cons c cs ih =>
    intro s h
    cases c with
    | report k bs => exact ih { s with traceRev := .progress k bs :: s.traceRev } h
    | ask b m v e =>
      cases hl : s.link with
      | nil => simp [answers, hl] at h
      | cons i rest =>
        simp only [answers, hl, Bool.and_eq_true] at h
        have := ih { s with link := rest, traceRev := .exchange b i.reply :: s.traceRev, cancelReq := s.cancelReq || i.cancel } h.2
        simp only [State.plays, hl, exchangeCount, List.length_cons] at this ⊢
        omega

theorem Stalls.seq {p : Proc α} {g : α → Proc β} {cs ds : Script} {r m : Option Nat} {a : α} {b : Byte} {Q : State → Prop}
    (hp : Runs cfg conn p cs r m a) (hg : Stalls cfg conn (g a) ds b Q) : Stalls cfg conn (p >>= g) (cs ++ ds) b Q := by
  intro s hc hn hs hl
  obtain ⟨s1, h1, e1⟩ := hp s hc hn hs.split.1
  obtain ⟨c1, d1, a1, f1⟩ := State.after_first hs e1
  have hlink : s1.link.length = exchangeCount ds := by
    have e : s1.link = (s.plays cs).link := (congrArg State.link e1 : s1.idle.link = ((s.plays cs).shadows r m).idle.link)
    have := State.length_link_plays cs s hs.split.1.2
    rw [exchangeCount_append] at hl
    rw [e]; omega
  obtain ⟨t, h2, haw, htr, hq⟩ := hg s1 (c1.trans hc) (d1.trans hn) a1 hlink
  have htrace : (s1.plays ds).traceRev = (s.plays (cs ++ ds)).traceRev :=
    (congrArg State.traceRev (f1 none none) : ((s1.plays ds).shadows none none).idle.traceRev = _)
  exact ⟨t, (bind_ok h1).trans h2, haw, htr.trans htrace, hq⟩

theorem Stalls.then {p : Proc α} {g : α → Proc β} {ds : Script} {a : α} {b : Byte} {Q : State → Prop}
    (hp : Runs cfg conn p [] none none a) (hg : Stalls cfg conn (g a) ds b Q) : Stalls cfg conn (p >>= g) ds b Q :=
  Stalls.seq hp hg

theorem Stalls.first {p : Proc α} {g : α → Proc β} {cs : Script} {b : Byte} {Q : State → Prop} (hp : Stalls cfg conn p cs b Q) :
    Stalls cfg conn (p >>= g) cs b Q := by
  intro s hc hn hs hl
  obtain ⟨t, h, rest⟩ := hp s hc hn hs hl
  exact ⟨t, bind_error h, rest⟩

theorem Stalls.get {g : State → Proc α} {cs : Script} {b : Byte} {Q : State → Prop}
    (h : ∀ s : State, s.cfg = cfg → Stalls cfg conn (g s) cs b Q) : Stalls cfg conn (get >>= g) cs b Q :=
  fun s hc hn hs hl => h s hc s hc hn hs hl

/-- A loop with a bound it cannot reach, after a step that takes no reply (log 4). -/
theorem Stalls.unbounded {p : Proc α} {loop : Nat → Proc β} {cs : Script} {b : Byte} {Q : State → Prop}
    (hp : ∀ s, ∃ a t, p s = .ok a t ∧ t.link = s.link)
    (h : ∀ fuel, exchangeCount cs < fuel → Stalls cfg conn (p >>= fun _ => loop fuel) cs b Q) :
    Stalls cfg conn (p >>= fun _ => unbounded loop) cs b Q := by
  intro s hc hn hs hl
  obtain ⟨a, t, hpt, hlink⟩ := hp s
  obtain ⟨u, hu, rest⟩ := h (s.link.length + 1) (by omega) s hc hn hs hl
  refine ⟨u, ?_, rest⟩
  rw [bind_ok hpt] at hu ⊢
  rw [← hu, ← hlink]
  rfl

/-- An instruction whose body stalls waits (log 3). -/
theorem exec_waits_of_stalls {i : Instr} {cs : Script} {b : Byte} {Q : State → Prop} {s : State}
    (h : Stalls s.cfg s.connected (bodyOf i) cs b Q) (hs : s.Answers cs) (hl : s.link.length = exchangeCount cs) :
    ∃ u, exec i s = .next (State.suspend i s u) ∧ Waits i s (State.suspend i s u) ∧ u.awaiting = some b ∧
      u.traceRev = (s.plays cs).traceRev ∧ Q u := by
  obtain ⟨u, hb, haw, htr, hq⟩ := h s.idle rfl rfl hs hl
  refine ⟨u, by rw [exec_eq, hb]; rfl, finish_waits (hb ▸ bodyOf_bodyEnds i s.idle), haw, ?_, hq⟩
  rw [htr, ← State.plays_idle]; rfl

/-! ### `read_ec` whose reads never agree (R175) -/

theorem memRead_of_no_reply {s : State} (addr len : U16) (hc : s.cancelReq = false) (hl : s.link = []) :
    memRead addr len s = .error .waiting { s with awaiting := some 0x59 } := by
  have hx : xferBlock (readFrameBytes addr len) s = .error .waiting { s with awaiting := some 0x59 } :=
    bind_error (by simp [xfer, hl, Config.opRead])
  exact (bind_ok (a := ()) (s' := s) (by simp [beginFrame, hc])).trans (bind_error hx)

/-- The `read_ec` registers after further reads of the chunk, none of which agreed with the one before it (R45, R173). -/
def EcRegs.afterReads (r : EcRegs) (reads : List (List Byte)) : EcRegs :=
  { r with prev := reads.getLast?.or r.prev, reads := r.reads + reads.length }

theorem EcRegs.afterReads_cons (r : EcRegs) (d : List Byte) (reads : List (List Byte)) :
    r.afterReads (d :: reads) = EcRegs.afterReads { r with reads := r.reads + 1, prev := some d } reads := by
  simp [EcRegs.afterReads, List.getLast?_cons, Nat.add_assoc, Nat.add_comm 1]

/-- The first of further reads that never agree is rejected, and the others never agree after it (R173). -/
theorem ecAgrees_of_neverAgrees {prev : Option (List Byte)} {d : List Byte} {reads : List (List Byte)}
    (h : neverAgrees cfg (prev.toList ++ d :: reads) = true) :
    ecAgrees cfg.chunkHash prev d = false ∧ neverAgrees cfg (d :: reads) = true := by
  cases prev with
  | none => exact ⟨rfl, h⟩
  | some p => simpa [neverAgrees, readsAgree, ecAgrees] using h

/-- With no limit, reads that never agree leave the loop of R177 at its next READ frame, its registers as they were last written. -/
theorem ecAttempts_stalls (reads : List (List Byte)) : ∀ (fuel : Nat) (r : EcRegs), reads.length < fuel →
    neverAgrees cfg (r.prev.toList ++ reads) = true → r.limit = none → (∀ d ∈ reads, d.length = r.len) → r.len ≤ 0x800 →
    Stalls cfg conn (do setEc r; ecAttempts fuel r) (reads.flatMap (readScript cfg (BitVec.ofNat 16 r.chunkAddr))) 0x59
      (fun t => t.ec = some (r.afterReads reads)) := by
  induction reads with
  | nil =>
    intro fuel r hf _ _ _ _ s hc hn hs hl
    obtain ⟨fuel, rfl⟩ : ∃ n, fuel = n + 1 := ⟨fuel - 1, by simp only [List.length_nil] at hf; omega⟩
    have hm := memRead_of_no_reply (s := { s with ec := some r }) (toU16 r.chunkAddr) (toU16 r.len) hs.1
      (List.eq_nil_of_length_eq_zero hl)
    refine ⟨{ s with ec := some r, awaiting := some 0x59 }, ?_, rfl, ?_, ?_⟩
    · show ecAttempts (fuel + 1) r { s with ec := some r } = _
      exact bind_error hm
    · simp
    · simp [EcRegs.afterReads]
  | cons d reads ih =>
    intro fuel r hf hag hlim hlen hle
    obtain ⟨fuel, rfl⟩ : ∃ n, fuel = n + 1 := ⟨fuel - 1, by simp only [List.length_cons] at hf; omega⟩
    have hd : (toU16 r.len).toNat = d.length := by
      rw [hlen d (by simp)]; simp only [toU16, BitVec.toNat_ofNat]; omega
    obtain ⟨hrej, hag⟩ := ecAgrees_of_neverAgrees hag
    have hnext := ih fuel { r with reads := r.reads + 1, prev := some d } (by simpa using hf) hag hlim
      (fun x hx => hlen x (by simp [hx])) hle
    rw [List.flatMap_cons, EcRegs.afterReads_cons]
    refine Stalls.then (setEc_runs _) (Stalls.seq (memRead_runs _ d _ hd) (Stalls.then (setEc_runs _) (Stalls.get fun s hs => ?_)))
    rw [hs, if_neg (by simp [hrej]), if_neg (by simp [ecLimitReached, hlim])]
    exact hnext

/-- With no limit, a chunk whose reads never agree is not left (R175, R177). -/
theorem ecChunks_stalls {fuel : Nat} {r : EcRegs} {reads : List (List Byte)} (hr : r.off < r.size) (hlim : r.limit = none)
    (hag : neverAgrees cfg reads = true) (hlen : ∀ d ∈ reads, d.length = min Config.ecChunk (r.size - r.off)) :
    Stalls cfg conn (ecChunks (fuel + 1) r) (reads.flatMap (readScript cfg (BitVec.ofNat 16 r.chunkAddr))) 0x59
      (fun t => t.ec = some
        (EcRegs.afterReads { r with len := min Config.ecChunk (r.size - r.off), prev := none, reads := 0 } reads)) := by
  simp only [ecChunks, if_pos hr]
  rw [← bind_assoc]
  refine Stalls.first (Stalls.unbounded (fun s => ⟨(), _, rfl, rfl⟩) fun rounds hrounds => ?_)
  exact ecAttempts_stalls reads rounds _ (Nat.lt_of_le_of_lt (length_le_exchangeCount_reads _ _) hrounds) hag hlim hlen
    (Nat.min_le_left _ _)

/-- The first chunk of an unlimited `read_ec` whose reads never agree. -/
theorem readEc_stalls {addr size : Nat} {reads : List (List Byte)} (h1 : addr ≤ 0xFFFF) (h2 : addr + size ≤ 0x10000) (h3 : 0 < size)
    (hag : neverAgrees cfg reads = true) (hlen : ∀ d ∈ reads, d.length = min 0x800 size) :
    Stalls cfg true (readEc addr size none) (ecScript cfg addr [reads]) 0x59
      (fun t => t.ec = some { base := toU16 addr, size := size, off := 0, len := min 0x800 size, prev := reads.getLast?,
                              reads := reads.length, limit := none, out := [] }) := by
  have haddr : (toU16 addr).toNat = addr := by simp only [toU16, BitVec.toNat_ofNat]; omega
  unfold readEc
  refine Stalls.then (requireConnected_runs _) <| Stalls.then (checkRange_runs h1) <| Stalls.then (checkRange_runs (by omega)) <|
    Stalls.then (refuseIf_runs _ (by simpa using h2)) <| Stalls.then (setEc_runs _) ?_
  have h := ecChunks_stalls (cfg := cfg) (conn := true) (fuel := size / Config.ecChunk) (reads := reads)
    (r := { base := toU16 addr, size := size, off := 0, len := 0, prev := none, reads := 0, limit := none, out := [] }) h3 rfl hag hlen
  simpa [EcRegs.afterReads, EcRegs.chunkAddr, haddr, ecScript, Config.ecChunk] using h

/-- Settles O38: after every read that does not agree the loop of `read_ec` stands at its next READ frame (`ecAttempts_stalls`), and an
instruction whose body stands at an exchange waits. -/
theorem readEcWithoutLimitGoesOn : Obligations.ReadEcWithoutLimitGoesOn := by
  intro s addr size reads d hn h1 h2 h3 hag hlen hs hl
  have hbody : Stalls s.cfg s.connected (bodyOf (.readEc addr size none)) (ecScript s.cfg addr [reads ++ [d]]) 0x59 _ :=
    Stalls.first (hn ▸ readEc_stalls h1 h2 h3 hag hlen)
  obtain ⟨u, hu, hw, haw, htr, hec⟩ := exec_waits_of_stalls hbody hs hl
  exact ⟨_, hu, hw, haw, htr, hec.trans (by simp [toU16])⟩

end Sys2Proof.Machine

/-!
PROOFS of the statements of 10_state.md. What an instruction does to the registers is read off the result of its body (`exec_eq`):
`finish_sameRegisters` for the end, `bodyOf_frame` for the body. A step is `exec` from the state itself or from a rewound one
(`step_next`). Non-interference in a part of the state is one lemma about views (`exec_upTo`), cancellation one about bodies that
open with a frame (`bodyOf_cancels`).
-/

namespace Sys2Proof.Machine

/-! ### One step (R53) -/

/-- What a step that answers a next state has done: a waiting operation waits on or goes on, an instruction runs, or a request is
refused. -/
inductive StepsTo (s : State) : State → Prop where
  | waitsOn : s.link = [] → StepsTo s s
  | goesOn {t : State} (r : Running) (a : LinkIn) (rest : List LinkIn) : s.run = some r → s.link = a :: rest →
      exec r.instr (s.rewind r a rest) = .next t → StepsTo s t
  | runs {t : State} (i : Instr) : s.run = none → s.hpc < s.program.length → exec i s = .next t → StepsTo s t
  | rejects : s.run = none → StepsTo s (s.takeRefusal .badSelector)

theorem rejectRequest_next {r : Reject} {s t : State} (h : rejectRequest r s = .next t) : t = s.takeRefusal .badSelector := by
  cases r <;> cases h
  rfl

theorem step_next {s t : State} (h : step s = .next t) : s.stop = none ∧ StepsTo s t := by
  unfold step at h
  split at h
  · cases h
  rename_i hstop
  refine ⟨hstop, ?_⟩
  split at h
  · rename_i r hrun
    unfold resumeStep at h
    split at h
    · rename_i hl; cases h; exact .waitsOn hl
    · rename_i a rest hl; exact .goesOn r a rest hrun hl h
  · rename_i hrun
    unfold fetchStep at h
    split at h
    · cases h
    · rename_i req hreq
      have hlt : s.hpc < s.program.length := (List.getElem?_eq_some_iff.1 hreq).1
      split at h
      · exact .runs _ hrun hlt h
      · rw [rejectRequest_next h]; exact .rejects hrun

/-- Settles O4: nothing waits and nothing has stopped, so `step` fetches. -/
theorem stepRunsTheDecodedInstruction : Obligations.StepRunsTheDecodedInstruction := by
  intro s req i hstop hrun hreq hdec
  simp only [step, hstop, hrun, fetchStep, hreq, hdec]

/-- Settles O5: past its last request there is nothing to fetch, and a stopped program is not looked at. -/
theorem finishedAndStoppedPrograms : Obligations.FinishedAndStoppedPrograms := by
  refine ⟨fun s hstop hrun hlen => ?_, fun s hstop => ?_⟩
  · simp only [step, hstop, hrun, fetchStep, List.getElem?_eq_none hlen]
  · obtain ⟨x, hx⟩ := Option.ne_none_iff_exists'.1 hstop
    simp only [step, hx]

/-- Settles O1: the registers by the definition of the reset state, the first step by O4. -/
theorem resetState : Obligations.ResetState :=
  ⟨rfl, rfl, rfl, rfl, rfl, rfl, rfl, rfl, rfl, rfl, rfl, rfl,
    fun req rest i hdec => stepRunsTheDecodedInstruction { State.reset with program := req :: rest } req i rfl rfl rfl hdec⟩

/-! ### What the end of an operation leaves as its body did -/

/-- Two states agree in the registers that the end of an operation does not write (R435, R442). -/
structure SameRegisters (t u : State) : Prop where
  connected : t.connected = u.connected
  header : t.header = u.header
  ctrl : t.ctrl = u.ctrl
  cfg : t.cfg = u.cfg
  program : t.program = u.program
  link : t.link = u.link
  cancelReq : t.cancelReq = u.cancelReq

theorem finish_sameRegisters (i : Instr) (s : State) (r : EStateM.Result Halt State Value) :
    SameRegisters (finish i s r) (endState r) := by
  match r with
  | .ok _ _ | .error (.raised _ _) _ | .error .cancelled _ | .error (.refused _) _ | .error .waiting _ =>
    exact ⟨rfl, rfl, rfl, rfl, rfl, rfl, rfl⟩

theorem finish_trace (i : Instr) (s : State) (r : EStateM.Result Halt State Value) :
    ∃ evs, (finish i s r).traceRev = evs ++ (endState r).traceRev := by
  match r with
  | .ok _ _ | .error (.raised _ _) _ | .error .cancelled _ => exact ⟨[_], rfl⟩
  | .error (.refused _) _ | .error .waiting _ => exact ⟨[], rfl⟩

/-- Settles O14: every end but a wait empties the operation registers (`State.idle`). -/
theorem operationRegistersAreForgotten : Obligations.OperationRegistersAreForgotten := by
  intro i s t h ht
  rw [exec_eq] at h
  cases h
  generalize bodyOf i s.idle = r at ht
  match r with
  | .ok _ _ | .error (.raised _ _) _ | .error .cancelled _ | .error (.refused _) _ => exact ⟨rfl, rfl, rfl, rfl, rfl, rfl⟩
  | .error .waiting _ => cases ht

/-! ### What a body leaves alone -/

/-- `connect` on an unconnected session writes the session registers after all else (R31, R60). -/
theorem connectEnd_sets (r : EStateM.Result Halt State Header) :
    ∃ connected header, endState (connectEnd r) = { endState r with connected := connected, header := header } := by
  match r with
  | .ok _ _ | .error (.raised _ _) _ | .error .cancelled _ | .error (.refused _) _ | .error .waiting _ => exact ⟨_, _, rfl⟩

theorem connect_sets (s : State) : ∃ u connected header, Within false false s u ∧
    endState (connect s) = { u with connected := connected, header := header } := by
  cases hc : s.connected with
  | true => rw [connect_of_connected hc]; exact ⟨s, _, _, .refl _ _ s, rfl⟩
  | false =>
    obtain ⟨connected, header, e⟩ := connectEnd_sets (connectRead s)
    exact ⟨_, connected, header, (connectRead_ends s).within, by rw [connect_eq hc, e]⟩

/-- `detect` writes the controller only (R200). -/
theorem detect_sets (s : State) : ∃ ctrl, endState (detect s) = { s with ctrl := ctrl } := by
  rw [detect_eq]
  cases detectFinds s.cfg s.connected s.header <;> exact ⟨_, rfl⟩

/-- Which instruction writes which session or controller register (R31, R32, R38, R44). -/
structure BodyFrame (i : Instr) (s u : State) : Prop where
  session : i ≠ .connect → u.connected = s.connected ∧ u.header = s.header
  bare : i ≠ .detect → u.ctrl.map Controller.bare = s.ctrl.map Controller.bare
  rom : i ≠ .detect → writesRomShadow i = false → u.ctrl.map (·.romShadow) = s.ctrl.map (·.romShadow)
  ram : i ≠ .detect → writesRamShadow i = false → u.ctrl.map (·.ramShadow) = s.ctrl.map (·.ramShadow)
  cfg : u.cfg = s.cfg
  program : u.program = s.program

theorem bodyOf_frame (i : Instr) (s : State) : BodyFrame i s (endState (bodyOf i s)) := by
  by_cases h1 : i = .connect
  · subst h1
    obtain ⟨u, connected, header, w, e⟩ := connect_sets s
    show BodyFrame _ s (endState (connect s))
    rw [e]
    exact ⟨fun h => absurd rfl h, fun _ => w.bare, fun _ _ => w.romShadow rfl, fun _ _ => w.ramShadow rfl, w.cfg, w.program⟩
  · by_cases h2 : i = .detect
    · subst h2
      obtain ⟨ctrl, e⟩ := detect_sets s
      show BodyFrame _ s (endState (detect s))
      rw [e]
      exact ⟨fun _ => ⟨rfl, rfl⟩, fun h => absurd rfl h, fun h => absurd rfl h, fun h => absurd rfl h, rfl, rfl⟩
    · have w := (body_ends i h1 h2 s).within
      exact ⟨fun _ => ⟨w.connected, w.header⟩, fun _ => w.bare, fun _ => w.romShadow, fun _ => w.ramShadow, w.cfg, w.program⟩

/-- Replies are taken in order, and a cancellation request that was pending or came with one stays, but where it is honoured (R52). -/
theorem bodyOf_link (i : Instr) (s : State) : ∃ used, s.link = used ++ (endState (bodyOf i s)).link ∧
    ((endState (bodyOf i s)).cancelReq = (s.cancelReq || used.any (·.cancel)) ∨
      ∃ t, bodyOf i s = .error .cancelled t ∧ t.cancelReq = false) := by
  have h := bodyOf_asked i s
  generalize bodyOf i s = r at h
  generalize bodyOf i s.unasked = r' at h
  cases h with
  | ok a evs used _ hl hf => exact ⟨used, hl, .inl hf.left_eq⟩
  | error x evs used _ _ _ hl hf => exact ⟨used, hl, .inl hf.left_eq⟩
  | waiting evs used xs sent last more b _ hl _ _ hf _ hx =>
    refine ⟨used ++ xs, hl, .inl ?_⟩
    rw [List.any_append, ← Bool.or_assoc, ← hf.left_eq, Bool.false_or]
    exact hx
  | cancelled evs used more _ hl _ hc _ _ => exact ⟨used, hl, .inr ⟨_, rfl, hc⟩⟩

theorem exec_ends {i : Instr} {s t : State} (h : exec i s = .next t) :
    EndsInResult i s t ∨ EndsInError i s t ∨ EndsInRefusal s t ∨ Waits i s t := by
  rw [exec_eq] at h
  cases h
  exact finish_cases (bodyOf_bodyEnds i s.idle)

/-- The counter moves on at a result only (R53). -/
theorem exec_hpc {i : Instr} {s t : State} (h : exec i s = .next t) : t.hpc = s.hpc ∨ t.hpc = s.hpc + 1 := by
  rcases exec_ends h with ⟨_, hpc, _⟩ | ⟨_, _, _, _, hpc, _⟩ | ⟨_, _, _, hpc, _⟩ | ⟨_, _, _, hpc, _⟩
  · exact .inr hpc
  · exact .inl hpc
  · exact .inl hpc
  · exact .inl hpc

/-- A refusal mark stays (R51). -/
theorem exec_refused {i : Instr} {s t : State} (h : exec i s = .next t) : t.refused = true ∨ t.refused = s.refused := by
  rcases exec_ends h with ⟨_, _, _, hr, _⟩ | ⟨_, _, _, _, _, hr, _⟩ | ⟨_, _, hr, _⟩ | ⟨_, _, _, _, _, hr⟩
  · exact .inr hr
  · exact .inr hr
  · exact .inl hr
  · exact .inr hr

theorem exec_frame {i : Instr} {s t : State} (h : exec i s = .next t) : BodyFrame i s t := by
  rw [exec_eq] at h
  cases h
  have e := finish_sameRegisters i s (bodyOf i s.idle)
  have f := bodyOf_frame i s.idle
  constructor
  · rw [e.connected, e.header]; exact f.session
  · rw [e.ctrl]; exact f.bare
  · rw [e.ctrl]; exact f.rom
  · rw [e.ctrl]; exact f.ram
  · rw [e.cfg]; exact f.cfg
  · rw [e.program]; exact f.program

theorem exec_trace {i : Instr} {s t : State} (h : exec i s = .next t) : ∃ evs, t.traceRev = evs ++ s.traceRev := by
  rw [exec_eq] at h
  cases h
  obtain ⟨last, h1⟩ := finish_trace i s (bodyOf i s.idle)
  obtain ⟨evs, h2, _⟩ := (bodyOf_bodyEnds i s.idle).trace
  exact ⟨last ++ evs, by rw [h1, h2, List.append_assoc]; rfl⟩

theorem exec_link {i : Instr} {s t : State} (h : exec i s = .next t) : ∃ used, s.link = used ++ t.link ∧
    (t.cancelReq = (s.cancelReq || used.any (·.cancel)) ∨
      t.cancelReq = false ∧ t.stop = some (.error i.opId .cancelled (.opId i.opId))) := by
  rw [exec_eq] at h
  cases h
  have e := finish_sameRegisters i s (bodyOf i s.idle)
  obtain ⟨used, hl, hc | ⟨u, hu, hc⟩⟩ := bodyOf_link i s.idle
  · exact ⟨used, by rw [e.link]; exact hl, .inl (by rw [e.cancelReq]; exact hc)⟩
  · exact ⟨used, by rw [e.link]; exact hl, .inr (by rw [hu]; exact ⟨hc, rfl⟩)⟩

/-- Settles O13: the frame of the body (`exec_frame`), the counter and the refusal mark by how an operation ends, the replies and the
cancellation request beside the run of a host that asks nothing (`bodyOf_link`). -/
theorem registersAndTheirWriters : Obligations.RegistersAndTheirWriters := by
  intro i s t h
  have f := exec_frame h
  refine ⟨f.session, f.bare, f.rom, f.ram, f.cfg, f.program, exec_hpc h, fun hr => ?_, exec_trace h, exec_link h⟩
  rcases exec_refused h with h | h
  · exact h
  · exact h.trans hr

/-! ### A connected session (R33, R450) -/

theorem exec_connected_stays {i : Instr} {s t : State} (hs : s.connected = true) (h : exec i s = .next t) :
    t.connected = true ∧ t.header = s.header := by
  by_cases hi : i = .connect
  · subst hi
    have e : bodyOf .connect s.idle = .error (.refused .alreadyConnected) s.idle := connect_of_connected hs
    rw [exec_eq, e] at h
    cases h
    exact ⟨hs, rfl⟩
  · obtain ⟨hc, hh⟩ := (exec_frame h).session hi
    exact ⟨hc.trans hs, hh⟩

/-- Settles O15: `connect` is refused on a connected session, and no other instruction writes the two registers. -/
theorem connectedSessionStays : Obligations.ConnectedSessionStays := by
  intro s t hs h
  cases (step_next h).2 with
  | waitsOn _ => exact ⟨hs, rfl⟩
  | goesOn r a rest _ _ h => exact exec_connected_stays (s := s.rewind r a rest) hs h
  | runs i _ _ h => exact exec_connected_stays hs h
  | rejects _ => exact ⟨hs, rfl⟩

end Sys2Proof.Machine

namespace Sys2Proof.Machine

/-! ### The header that `connect` reads (R34, R155) -/

theorem xferBlock_length (bs : List Byte) : ∀ {s t : State} {rs : List Byte}, xferBlock bs s = .ok rs t → rs.length = bs.length := by
  induction bs with
  | nil => intro s t rs e; cases e; rfl
  | cons b bs ih =>
    intro s t rs e
    obtain ⟨r, u, _, e⟩ := bind_ok_split e
    obtain ⟨rest, v, h, e⟩ := bind_ok_split e
    cases e
    simp [ih h]

theorem headerIn_length {s t : State} {bytes : List Byte} (e : headerIn s = .ok bytes t) : bytes.length = 23 := by
  obtain ⟨_, u, _, e⟩ := bind_ok_split e
  obtain ⟨v, w, _, e⟩ := bind_ok_split e
  simpa [Config.hdrLen] using xferBlock_length _ e

theorem checkHeader_title {bytes : List Byte} {s t : State} {h : Header} (hl : bytes.length = 23)
    (e : checkHeader bytes s = .ok h t) : h.title.length = 16 := by
  unfold checkHeader at e
  split at e <;> cases e
  simp [parseHeader, hl, Config.hdrLen]

theorem readHeader_title {attempts : Nat} {s t : State} {h : Header} (e : readHeader attempts s = .ok h t) :
    h.title.length = 16 := by
  obtain ⟨_, _, _, e⟩ := bind_ok_split e
  obtain ⟨bytes, _, hb, e⟩ := bind_ok_split e
  obtain ⟨_, _, _, e⟩ := bind_ok_split e
  exact checkHeader_title (headerIn_length hb) e

theorem connectRead_title {s t : State} {h : Header} (e : connectRead s = .ok h t) : h.title.length = 16 := by
  obtain ⟨_, _, _, e⟩ := bind_ok_split e
  obtain ⟨_, _, _, e⟩ := bind_ok_split e
  obtain ⟨attempts, _, _, e⟩ := bind_ok_split e
  exact readHeader_title e

/-! ### The controller that `detect` makes (R205 to R212) -/

theorem romBanks_legal {code : Byte} {banks : Nat} (h : romBanks code = some banks) : banks ∈ legalBanks := by
  unfold romBanks at h
  split at h
  · rename_i hlt
    cases h
    generalize code.toNat = n at hlt
    revert n
    decide
  · split at h
    · cases h; decide
    · split at h
      · cases h; decide
      · split at h <;> cases h
        decide

theorem ramSizeTable_mem (code : Byte) : ramSizeTable code ∈ [0, 0x800, 0x2000, 0x8000, 0x20000, 0x10000] := by
  unfold ramSizeTable
  split_ifs <;> decide

theorem ramSize_legal (v : Variant) (code : Byte) : ramSize v code ∈ legalRam v := by
  cases v with
  | mbc2 | mbc7 | tama5 => exact List.mem_singleton.2 rfl
  | base | mbc1 | mbc3 | mbc5 | mbc6 | camera => exact ramSizeTable_mem code

theorem legalBanks_lt {n : Nat} (h : n ∈ legalBanks) : n < 2 ^ 32 := by
  revert n
  decide

theorem legalRam_lt {v : Variant} {n : Nat} (h : n ∈ legalRam v) : n < 2 ^ 32 := by
  revert n
  cases v <;> decide

theorem newController_legal {v : Variant} {banks ram : Nat} (hb : banks ∈ legalBanks) (hr : ram ∈ legalRam v) :
    (newController v banks ram).Legal := by
  refine ⟨?_, ?_⟩
  · show (BitVec.ofNat 32 banks).toNat ∈ legalBanks
    rwa [BitVec.toNat_ofNat, Nat.mod_eq_of_lt (legalBanks_lt hb)]
  · show (BitVec.ofNat 32 ram).toNat ∈ legalRam v
    rwa [BitVec.toNat_ofNat, Nat.mod_eq_of_lt (legalRam_lt hr)]

theorem detectFinds_legal {cfg : Params} {connected : Bool} {header : Option Header} {c : Controller}
    (h : detectFinds cfg connected header = .ok c) : c.Legal ∧ connected = true := by
  unfold detectFinds at h
  split at h
  · split at h
    · cases h
    · cases h
    · rename_i hb; cases h; exact ⟨newController_legal (romBanks_legal hb) (ramSize_legal _ _), rfl⟩
  · cases h

/-- The shadows do not count (R38). -/
theorem Controller.Legal.of_bare {c d : Controller} (h : c.bare = d.bare) (hd : d.Legal) : c.Legal := by
  obtain ⟨hb, hr, hv⟩ := bare_counts h
  unfold Controller.Legal
  rwa [hb, hr, hv]

/-! ### The session part of the invariant -/

/-- The part of `State.Inv` that the session and controller registers are in: what a body keeps. -/
structure State.SessionInv (s : State) : Prop where
  header : s.connected = s.header.isSome
  title : ∀ h, s.header = some h → h.title.length = 16
  controller : s.ctrl ≠ none → s.connected = true
  legal : ∀ c, s.ctrl = some c → c.Legal

theorem State.Inv.session {s : State} (h : s.Inv) : s.SessionInv := ⟨h.header, h.title, h.controller, h.legal⟩

theorem State.SessionInv.of_bare {s t : State} (h : s.SessionInv) (hc : t.connected = s.connected) (hh : t.header = s.header)
    (hb : t.ctrl.map Controller.bare = s.ctrl.map Controller.bare) : t.SessionInv where
  header := by rw [hc, hh]; exact h.header
  title := by rw [hh]; exact h.title
  controller ht := by
    rw [hc]
    refine h.controller fun hs => ht ?_
    rw [hs] at hb
    exact Option.map_eq_none_iff.1 hb
  legal c hcs := by
    rw [hcs] at hb
    obtain ⟨d, hd, hbd⟩ := Option.map_eq_some_iff.1 hb.symm
    exact (h.legal d hd).of_bare hbd.symm

/-- A session with no controller, whatever `connect` has written. -/
theorem State.SessionInv.of_ctrl_none {s : State} (hctrl : s.ctrl = none) (hheader : s.connected = s.header.isSome)
    (htitle : ∀ h, s.header = some h → h.title.length = 16) : s.SessionInv :=
  ⟨hheader, htitle, fun h => absurd hctrl h, fun _ h => nomatch hctrl.symm.trans h⟩

theorem connect_sessionInv {s : State} (h : s.SessionInv) : (endState (connect s)).SessionInv := by
  cases hc : s.connected with
  | true => rw [connect_of_connected hc]; exact h
  | false =>
    have w := (connectRead_ends s).within
    have hctrl : s.ctrl = none := not_not.1 fun hn => by simp [h.controller hn] at hc
    have ht : (endState (connectRead s)).ctrl = none := Option.map_eq_none_iff.1 (w.bare.trans (by rw [hctrl]; rfl))
    have hsame := h.of_bare w.connected w.header w.bare
    rw [connect_eq hc]
    match e : connectRead s with
    | .ok x t =>
      rw [e] at ht
      exact .of_ctrl_none ht rfl fun y hy => by cases hy; exact connectRead_title e
    | .error (.raised _ _) t | .error .cancelled t =>
      rw [e] at ht
      exact .of_ctrl_none ht rfl nofun
    | .error (.refused _) t | .error .waiting t =>
      rw [e] at hsame
      exact hsame

theorem detect_sessionInv {s : State} (h : s.SessionInv) : (endState (detect s)).SessionInv := by
  rw [detect_eq]
  cases e : detectFinds s.cfg s.connected s.header with
  | error _ => exact h
  | ok c =>
    obtain ⟨hl, hc⟩ := detectFinds_legal e
    exact ⟨h.header, h.title, fun _ => hc, fun d hd => by cases hd; exact hl⟩

theorem bodyOf_sessionInv (i : Instr) {s : State} (h : s.SessionInv) : (endState (bodyOf i s)).SessionInv := by
  by_cases h1 : i = .connect
  · subst h1; exact connect_sessionInv h
  · by_cases h2 : i = .detect
    · subst h2; exact detect_sessionInv h
    · have f := bodyOf_frame i s
      obtain ⟨hc, hh⟩ := f.session h1
      exact h.of_bare hc hh (f.bare h2)

/-! ### The invariant of the machine -/

theorem exec_sessionInv {i : Instr} {s t : State} (hs : s.SessionInv) (h : exec i s = .next t) : t.SessionInv := by
  rw [exec_eq] at h
  cases h
  have e := finish_sameRegisters i s (bodyOf i s.idle)
  have hb := bodyOf_sessionInv i (s := s.idle) (hs.of_bare rfl rfl rfl)
  exact hb.of_bare e.connected e.header (by rw [e.ctrl])

/-- An instruction that runs at `hpc` keeps the invariant (R30 to R53). -/
theorem exec_inv {i : Instr} {s t : State} (hs : s.SessionInv) (hstop : s.stop = none) (hpc : s.hpc < s.program.length)
    (h : exec i s = .next t) : t.Inv := by
  obtain ⟨hheader, htitle, hcontroller, hlegal⟩ := exec_sessionInv hs h
  have hprog : t.program = s.program := (exec_frame h).program
  refine ⟨hheader, htitle, hcontroller, hlegal, operationRegistersAreForgotten i s t h, fun r hr => ?_, fun r hr => ?_, ?_⟩
  · obtain ⟨u, rom, ram, rfl, w, _⟩ := exec_waiting h (by simp [hr])
    cases hr
    exact ⟨by rw [State.suspend_hpc, w.hpc, hprog]; exact hpc, w.stop.trans hstop, w.bare.symm⟩
  · rcases exec_ends h with ⟨_, _, e, _⟩ | ⟨_, _, _, e, _⟩ | ⟨_, _, e, _⟩ | ⟨_, _, _, _, e, _⟩
    · simp [hr, hstop] at e
    · simp [hr] at e
    · exact e
    · simp [hr, hstop] at e
  · rw [hprog]
    rcases exec_hpc h with e | e <;> omega

/-- The state that a waiting operation goes on from is one in which its instruction may run. -/
theorem State.Inv.rewind {s : State} (h : s.Inv) {r : Running} (hr : s.run = some r) (a : LinkIn) (rest : List LinkIn) :
    (s.rewind r a rest).SessionInv :=
  h.session.of_bare rfl rfl (h.waiting r hr).2.2

theorem State.Inv.takeRefusal {s : State} (h : s.Inv) (reason : RefuseReason) : (s.takeRefusal reason).Inv where
  header := h.header
  title := h.title
  controller := h.controller
  legal := h.legal
  registers _ := ⟨rfl, rfl, rfl, rfl, rfl, rfl⟩
  waiting _ hr := nomatch hr
  refusal _ _ := rfl
  counter := h.counter

/-- Settles O3: by what the step has done. An instruction keeps the session registers in order (`bodyOf_sessionInv`) and ends in one
of four ways (`exec_ends`); a waiting operation goes on from a state whose session registers are those of the state it waits in. -/
theorem stepKeepsInv : Obligations.StepKeepsInv := by
  intro s t hs h
  obtain ⟨hstop, h⟩ := step_next h
  cases h with
  | waitsOn _ => exact hs
  | goesOn r a rest hr _ h =>
    obtain ⟨hpc, _, _⟩ := hs.waiting r hr
    exact exec_inv (hs.rewind hr a rest) hstop hpc h
  | runs i _ hpc h => exact exec_inv hs.session hstop hpc h
  | rejects _ => exact hs.takeRefusal _

/-- Settles O2: at reset there is no header, no controller, no value in an operation register and no stop. -/
theorem resetMeetsInv : Obligations.ResetMeetsInv where
  header := rfl
  title _ h := nomatch h
  controller h := absurd rfl h
  legal _ h := nomatch h
  registers _ := ⟨rfl, rfl, rfl, rfl, rfl, rfl⟩
  waiting _ h := nomatch h
  refusal _ h := nomatch h
  counter := Nat.zero_le _

end Sys2Proof.Machine

namespace Sys2Proof.Machine

/-! ### Non-interference: what no operation sees -/

/-- A result up to a view of its state. -/
def resultUpTo {α : Type} (view : State → State) : EStateM.Result Halt State α → EStateM.Result Halt State α
  | .ok a t => .ok a (view t)
  | .error h t => .error h (view t)

/-- The registers that every view here shows as they are. -/
def State.core (s : State) : State := { s with header := none, ctrl := none, run := none }

theorem State.eq_of_core {s t : State} (h : s.core = t.core) (hheader : s.header = t.header) (hctrl : s.ctrl = t.ctrl)
    (hrun : s.run = t.run) : s = t := by
  have e : ∀ u : State, u = { u.core with header := u.header, ctrl := u.ctrl, run := u.run } := fun _ => rfl
  rw [e s, e t, h, hheader, hctrl, hrun]

theorem Alike.of_core {C : Option Controller → Option Controller → Prop} {s t : State} (h : s.core = t.core) (hc : C s.ctrl t.ctrl) :
    Alike C s t := by
  simp only [State.core, State.mk.injEq, true_and] at h
  obtain ⟨connected, ec, we, hs, poll, ee, traceRev, _, cancelReq, _, _, cfg, link, awaiting, _⟩ := h
  exact ⟨connected, cfg, ec, we, hs, poll, ee, traceRev, cancelReq, link, awaiting, hc⟩

/-- What a procedure does not touch is as it was, and the rest of two ends that are alike is the same. -/
theorem Alike.core_eq {C : Option Controller → Option Controller → Prop} {rom ram : Bool} {s s' t t' : State}
    (h : s.core = s'.core) (w : Within rom ram s t) (w' : Within rom ram s' t') (k : Alike C t t') : t.core = t'.core := by
  simp only [State.core, State.mk.injEq, true_and] at h ⊢
  obtain ⟨_, _, _, _, _, _, _, refused, _, hpc, program, _, _, _, stop⟩ := h
  exact ⟨k.connected, k.ec, k.we, k.hs, k.poll, k.ee, k.traceRev, w.refused.trans (refused.trans w'.refused.symm), k.cancelReq,
    w.hpc.trans (hpc.trans w'.hpc.symm), w.program.trans (program.trans w'.program.symm), k.cfg, k.link, k.awaiting,
    w.stop.trans (stop.trans w'.stop.symm)⟩

/-- A view of the state is blind to what no operation reads, with `C` as the relation of two controllers that look alike: states
that look alike are alike to every procedure, the ends of operations do not look behind the view, and neither do `connect` and
`detect`, which read and write the session registers. -/
structure Blind (view : State → State) (C : Option Controller → Option Controller → Prop) : Prop where
  finish : ∀ i s r, view (finish i s r) = Machine.finish i (view s) (resultUpTo view r)
  idle : ∀ s, view s.idle = (view s).idle
  alike : ∀ {s s' : State}, view s = view s' → Alike C s s'
  view_eq : ∀ {rom ram : Bool} {s s' t t' : State}, view s = view s' → Within rom ram s t → Within rom ram s' t' →
    Alike C t t' → view t = view t'
  bare : ∀ c d, C c d → c.map Controller.bare = d.map Controller.bare
  romShadow : ∀ c d n, C c d → C (c.map fun x => { x with romShadow := some n }) (d.map fun x => { x with romShadow := some n })
  ramShadow : ∀ c d n, C c d → C (c.map fun x => { x with ramShadow := some n }) (d.map fun x => { x with ramShadow := some n })
  session : ∀ connected header {t t' : State}, view t = view t' →
    view { t with connected := connected, header := header } = view { t' with connected := connected, header := header }
  finds : ∀ {s s' : State}, view s = view s' →
    detectFinds s.cfg s.connected s.header = detectFinds s'.cfg s'.connected s'.header
  controller : ∀ ctrl {t t' : State}, view t = view t' → view { t with ctrl := ctrl } = view { t' with ctrl := ctrl }

section

variable {view : State → State} {C : Option Controller → Option Controller → Prop} {s s' : State}

theorem Blind.connect_upTo (b : Blind view C) (h : view s = view s') : resultUpTo view (connect s) = resultUpTo view (connect s') := by
  have hc' := (b.alike h).connected
  cases hc : s.connected with
  | true => rw [connect_of_connected hc, connect_of_connected (hc'.symm.trans hc)]; exact congrArg (EStateM.Result.error _) h
  | false =>
    rw [connect_eq hc, connect_eq (hc'.symm.trans hc)]
    have hr := connectRead_alike b.romShadow b.ramShadow (b.alike h)
    have w := (connectRead_ends s).within
    have w' := (connectRead_ends s').within
    generalize connectRead s = r at hr w
    generalize connectRead s' = r' at hr w'
    cases hr with
    | ok x ht => exact congrArg (EStateM.Result.ok _) (b.session _ _ (b.view_eq h w w' ht))
    | error x ht =>
      have hv := b.view_eq h w w' ht
      cases x with
      | raised kind info => exact congrArg (EStateM.Result.error _) (b.session _ _ hv)
      | cancelled => exact congrArg (EStateM.Result.error _) (b.session _ _ hv)
      | refused reason => exact congrArg (EStateM.Result.error _) hv
      | waiting => exact congrArg (EStateM.Result.error _) hv

theorem Blind.detect_upTo (b : Blind view C) (h : view s = view s') : resultUpTo view (detect s) = resultUpTo view (detect s') := by
  rw [detect_eq, detect_eq, ← b.finds h]
  cases detectFinds s.cfg s.connected s.header with
  | error e => exact congrArg (EStateM.Result.error _) h
  | ok c => exact congrArg (EStateM.Result.ok _) (b.controller _ h)

theorem Blind.bodyOf_upTo (b : Blind view C) (i : Instr) (h : view s = view s') :
    resultUpTo view (bodyOf i s) = resultUpTo view (bodyOf i s') := by
  by_cases h1 : i = .connect
  · subst h1; exact b.connect_upTo h
  · by_cases h2 : i = .detect
    · subst h2; exact b.detect_upTo h
    · have hr := body_alike i h1 h2 b.bare b.romShadow b.ramShadow (b.alike h)
      have w := (body_ends i h1 h2 s).within
      have w' := (body_ends i h1 h2 s').within
      generalize bodyOf i s = r at hr w
      generalize bodyOf i s' = r' at hr w'
      cases hr with
      | ok a ht => exact congrArg (EStateM.Result.ok a) (b.view_eq h w w' ht)
      | error x ht => exact congrArg (EStateM.Result.error x) (b.view_eq h w w' ht)

/-- States that look alike are stepped to states that look alike. -/
theorem Blind.exec_upTo (b : Blind view C) (i : Instr) (h : view s = view s') :
    outcomeUpTo view (exec i s) = outcomeUpTo view (exec i s') := by
  have hidle : view s.idle = view s'.idle := by rw [b.idle, b.idle, h]
  rw [exec_eq, exec_eq]
  simp only [outcomeUpTo, b.finish, h, b.bodyOf_upTo i hidle]

end

/-- Two controllers that differ in their shadows at most. -/
def SameBare (c d : Option Controller) : Prop := c.map Controller.bare = d.map Controller.bare

theorem unshadowed_blind : Blind State.unshadowed SameBare where
  finish i s r := by
    match r with
    | .ok _ _ | .error (.raised _ _) _ | .error .cancelled _ | .error (.refused _) _ | .error .waiting _ => rfl
  idle _ := rfl
  alike h := .of_core (congrArg State.core h :) (congrArg State.ctrl h :)
  view_eq {_ _ s s' t t'} h w w' k := by
    have hs : s.core = s'.core := (congrArg State.core h :)
    have ht : t.core = t'.core := k.core_eq hs w w'
    refine State.eq_of_core ht ?_ k.ctrl ?_
    · exact w.header.trans ((congrArg State.header h :).trans w'.header.symm)
    · show Option.map _ _ = Option.map _ _
      rw [w.run, w'.run]
      exact (congrArg State.run h :)
  bare _ _ h := h
  romShadow c d n h := by
    have e : ∀ x : Option Controller, (x.map fun y => { y with romShadow := some n }).map Controller.bare = x.map Controller.bare :=
      fun x => by rw [Option.map_map]; rfl
    exact (e c).trans (h.trans (e d).symm)
  ramShadow c d n h := by
    have e : ∀ x : Option Controller, (x.map fun y => { y with ramShadow := some n }).map Controller.bare = x.map Controller.bare :=
      fun x => by rw [Option.map_map]; rfl
    exact (e c).trans (h.trans (e d).symm)
  session connected header _ _ h := congrArg (fun t : State => { t with connected := connected, header := header }) h
  finds {s s'} h := by
    have hcfg : s.cfg = s'.cfg := (congrArg State.cfg h :)
    have hconnected : s.connected = s'.connected := (congrArg State.connected h :)
    have hheader : s.header = s'.header := (congrArg State.header h :)
    rw [hcfg, hconnected, hheader]
  controller ctrl _ _ h := congrArg (fun t : State => { t with ctrl := ctrl.map Controller.bare }) h

/-- Settles O16: a view without the shadows is blind to what no operation reads. -/
theorem shadowsAreNeverRead : Obligations.ShadowsAreNeverRead := fun i _ _ h => unshadowed_blind.exec_upTo i h

/-- The header without its checksum and title (R34, R35). -/
def Header.untitled (h : Header) : Header := { h with checksum := 0, title := [] }

/-- `detect` reads the three codes of the header only (R200, R202). -/
theorem detectFinds_untitled (cfg : Params) (connected : Bool) (header : Option Header) :
    detectFinds cfg connected (header.map Header.untitled) = detectFinds cfg connected header := by
  cases connected <;> cases header <;> rfl

theorem untitled_blind : Blind State.untitled Eq where
  finish i s r := by
    match r with
    | .ok _ _ | .error (.raised _ _) _ | .error .cancelled _ | .error (.refused _) _ | .error .waiting _ => rfl
  idle _ := rfl
  alike h := .of_core (congrArg State.core h :) (congrArg State.ctrl h :)
  view_eq {_ _ s s' t t'} h w w' k := by
    have hs : s.core = s'.core := (congrArg State.core h :)
    have ht : t.core = t'.core := k.core_eq hs w w'
    refine State.eq_of_core ht ?_ k.ctrl ?_
    · show Option.map _ _ = Option.map _ _
      rw [w.header, w'.header]
      exact (congrArg State.header h :)
    · exact w.run.trans ((congrArg State.run h :).trans w'.run.symm)
  bare _ _ h := congrArg _ h
  romShadow _ _ _ h := congrArg _ h
  ramShadow _ _ _ h := congrArg _ h
  session connected header _ _ h :=
    congrArg (fun t : State => { t with connected := connected, header := header.map Header.untitled }) h
  finds {s s'} h := by
    have hcfg : s.cfg = s'.cfg := (congrArg State.cfg h :)
    have hconnected : s.connected = s'.connected := (congrArg State.connected h :)
    have hheader : s.header.map Header.untitled = s'.header.map Header.untitled := (congrArg State.header h :)
    rw [hcfg, hconnected, ← detectFinds_untitled, hheader, detectFinds_untitled]
  controller ctrl _ _ h := congrArg (fun t : State => { t with ctrl := ctrl }) h

/-- Settles O17: a view without the title and the checksum is blind to what no operation reads. -/
theorem titleAndChecksumAreNeverRead : Obligations.TitleAndChecksumAreNeverRead := fun i _ _ h => untitled_blind.exec_upTo i h

/-! ### The checks of a controller operation (R40, R132, R433) -/

theorem bodyOf_controller {i : Instr} {v : Variant} {op : OpName} (hv : controllerOf i = some v) (ho : operationOf i = some op) :
    ∃ b, bodyOf i = withController v op b := by
  have hs := body_shape State.reset i (fun h => by subst h; cases hv) (fun h => by subst h; cases hv)
  generalize bodyOf i = p at hs ⊢
  cases hs with
  | plain h _ => cases h.symm.trans hv
  | controller v' op' b hv' ho' _ _ =>
    cases hv'.symm.trans hv
    cases ho'.symm.trans ho
    exact ⟨b, rfl⟩

/-- Settles O23: the body of a controller operation stands behind the three checks of `withController`. -/
theorem controllerChecks : Obligations.ControllerChecks := by
  intro i v op s hv ho
  obtain ⟨b, hb⟩ := bodyOf_controller hv ho
  refine ⟨fun hc => ?_, fun c hc hne => ?_, fun c hc he hn => ?_⟩
  · rw [exec_body, hb]
    exact runOp_refuses (by simp [withController, hc])
  · rw [exec_body, hb]
    exact runOp_refuses (by simp [withController, hc, hne])
  · rw [exec_body, hb]
    refine runOp_raises ?_
    simp only [withController, State.idle_ctrl, hc, he, if_true]
    exact bind_error (by simp [requireConnected, hn])

/-! ### `connect` fails (R151, R153, R156) -/

theorem exec_connect_fails {s : State} {cs : Script} {k : ErrKind} {info : Info} (hc : s.connected = false) (hs : s.Answers cs)
    (h : Raises s.cfg s.connected connectRead cs none none k info) :
    exec .connect s = .next { s.fails .connect cs none none k info with connected := false, header := none } := by
  obtain ⟨t, e, ht⟩ := h s.idle rfl rfl hs
  have hb : bodyOf .connect s.idle = .error (.raised k info) { t with connected := false, header := none } := connect_raised hc e
  rw [exec_eq, hb]
  exact congrArg (fun u : State => Host.Outcome.next { u with connected := false, header := none })
    (State.raiseError_of_idle (op := Instr.connect.opId) (k := k) (i := info) ht)

section

variable {cfg : Params} {conn : Bool} {p1 p2 : List Byte}

/-- After the first magic (R151) `connect` fails as the rest of it fails. -/
theorem connectRead_raises_after_phase1 {ds : Script} {k : ErrKind} {info : Info} (l1 : p1.length < 100) (h1 : ∀ r ∈ p1, r ≠ 0xB4)
    (h : Raises cfg conn (handshake .two 2 Config.hsMagic2 >>= readHeader) ds none none k info) :
    Raises cfg conn connectRead (probesScript (p1 ++ [0xB4]) ++ ds) none none k info :=
  Raises.seq (handshake_runs _ _ _ (by simp; omega) (endsAt_magic p1 0xB4 h1)) (Raises.then (Runs.pure ()) h)

theorem connectRead_raises_phase1 (hl : p1.length = 100) (h1 : ∀ r ∈ p1, r ≠ 0xB4) :
    Raises cfg conn connectRead (probesScript p1) none none .notConnected (.phase 1) :=
  Raises.first (handshake_raises _ _ _ hl h1)

theorem connectRead_raises_phase2 (l1 : p1.length < 100) (hl : p2.length = 100) (h1 : ∀ r ∈ p1, r ≠ 0xB4)
    (h2 : ∀ r ∈ p2, r ≠ 0x1D) :
    Raises cfg conn connectRead (probesScript (p1 ++ [0xB4]) ++ probesScript p2) none none .notConnected (.phase 2) :=
  connectRead_raises_after_phase1 l1 h1 (Raises.first (handshake_raises _ _ _ hl h2))

theorem connectRead_raises_terminators {hdr : List Byte} {t0 t1 : Byte} (l1 : p1.length < 100) (l2 : p2.length < 100)
    (h1 : ∀ r ∈ p1, r ≠ 0xB4) (h2 : ∀ r ∈ p2, r ≠ 0x1D) (hl : hdr.length = 21) (ht : ¬ (t0 = 0x00 ∧ t1 = 0xFF)) :
    Raises cfg conn connectRead
      (probesScript (p1 ++ [0xB4]) ++ probesScript (p2 ++ [0x1D]) ++ (hdr ++ [t0, t1]).map (Cue.gives cfg.fillByte)) none none
      .protocolError (.terminator t0 t1) := by
  rw [List.append_assoc]
  exact connectRead_raises_after_phase1 l1 h1
    (Raises.seq (handshake_runs _ _ _ (by simp; omega) (endsAt_magic p2 0x1D h2)) (readHeader_raises _ hl ht))

end

/-- Settles O34: the reading of `connect` raises in its first phase, its second, or at the terminators, and every error of it resets the
session registers (`exec_connect_fails`). -/
theorem connectFails : Obligations.ConnectFails := by
  intro s hc
  refine ⟨fun p1 hl h1 hs => ?_, fun p1 p2 l1 hl h1 h2 hs => ?_, fun p1 p2 hdr t0 t1 l1 l2 h1 h2 hl ht hs => ?_⟩
  · exact exec_connect_fails hc hs (connectRead_raises_phase1 hl h1)
  · exact exec_connect_fails hc hs (connectRead_raises_phase2 l1 hl h1 h2)
  · exact exec_connect_fails hc hs (connectRead_raises_terminators l1 l2 h1 h2 hl ht)

end Sys2Proof.Machine

namespace Sys2Proof.Machine

/-! ### The operation registers of an operation that waits (R46 to R49; log 3) -/

section

variable {α β : Type} {cfg : Params} {conn : Bool}

/-- With no reply to take, the procedure waits at its first exchange, which sends `b`, and has written nothing. -/
def StopsAt (cfg : Params) (conn : Bool) (p : Proc α) (b : Byte) : Prop :=
  ∀ s : State, s.cfg = cfg → s.connected = conn → s.cancelReq = false → s.link = [] →
    p s = .error .waiting { s with awaiting := some b }

theorem StopsAt.first {p : Proc α} {g : α → Proc β} {b : Byte} (h : StopsAt cfg conn p b) : StopsAt cfg conn (p >>= g) b :=
  fun s hc hn hq hl => bind_error (h s hc hn hq hl)

theorem StopsAt.get {g : State → Proc α} {b : Byte} (h : ∀ s, StopsAt cfg conn (g s) b) : StopsAt cfg conn (get >>= g) b :=
  fun s hc hn hq hl => h s s hc hn hq hl

theorem xfer_stopsAt (b : Byte) : StopsAt cfg conn (xfer b) b :=
  fun s _ _ _ hl => by simp [xfer, hl]

/-- A frame primitive whose first byte is `b`. -/
theorem beginFrame_stopsAt {p : Proc α} {b : Byte} (h : StopsAt cfg conn p b) : StopsAt cfg conn (do beginFrame; p) b :=
  fun s hc hn hq hl => (bind_ok (a := ()) (s' := s) (by simp [beginFrame, hq])).trans (h s hc hn hq hl)

theorem probe_stopsAt : StopsAt cfg conn probe 0x9A := beginFrame_stopsAt (xfer_stopsAt _)

theorem memWrite_stopsAt (a : U16) (v : Byte) : StopsAt cfg conn (memWrite a v) 0x49 :=
  beginFrame_stopsAt (StopsAt.first (StopsAt.first (xfer_stopsAt _)))

theorem eeShiftInout_stopsAt (bit : Bool) : StopsAt cfg conn (eeShiftInout bit) 0x49 :=
  .first (.get fun _ => .first (memWrite_stopsAt _ _))

/-- A register is written, and the exchange after it waits. -/
theorem StopsAt.stalls {p : Proc α} {b : Byte} {f : State → State} {Q : State → Prop} (hp : StopsAt cfg conn p b)
    (hf : ∀ s, (f s).cfg = s.cfg ∧ (f s).connected = s.connected ∧ (f s).cancelReq = s.cancelReq ∧ (f s).link = s.link ∧
      (f s).traceRev = s.traceRev)
    (hQ : ∀ s, Q { f s with awaiting := some b }) : Stalls cfg conn (modify f >>= fun _ => p) [] b Q := by
  intro s hc hn hs hl
  obtain ⟨fc, fn, fq, fl, ft⟩ := hf s
  have hlink : (f s).link = [] := fl.trans (List.eq_nil_of_length_eq_zero hl)
  refine ⟨{ f s with awaiting := some b }, ?_, rfl, ?_, hQ s⟩
  · exact (bind_ok (p := modify f) (a := ()) (s' := f s) rfl).trans
      (hp (f s) (fc.trans hc) (fn.trans hn) (fq.trans hs.1) hlink)
  · rw [State.plays_nil]; exact ft

/-! #### `connect` (R47) -/

/-- Probes that get no magic leave a phase at its next probe. -/
theorem handshakeLoop_stalls (phase : HsPhase) (number : Nat) (magic : Byte) (replies : List Byte) : ∀ left attempts : Nat,
    replies.length < left → (∀ r ∈ replies, r ≠ magic) →
    Stalls cfg conn (do setHs { phase := phase, attempts := attempts, bytes := [] }; handshakeLoop phase number magic left attempts)
      (probesScript replies) 0x9A
      (fun t => t.hs = some { phase := phase, attempts := attempts + replies.length, bytes := [] }) := by
  induction replies with
  | nil =>
    intro left attempts hl _
    obtain ⟨left, rfl⟩ : ∃ n, left = n + 1 := ⟨left - 1, by simp only [List.length_nil] at hl; omega⟩
    exact StopsAt.stalls (.first probe_stopsAt) (fun _ => ⟨rfl, rfl, rfl, rfl, rfl⟩) fun _ => rfl
  | cons r replies ih =>
    intro left attempts hl hne
    obtain ⟨left, rfl⟩ : ∃ n, left = n + 1 := ⟨left - 1, by simp only [List.length_cons] at hl; omega⟩
    have hnext := ih left (attempts + 1) (by simpa using hl) fun x hx => hne x (List.mem_cons_of_mem _ hx)
    refine Stalls.then (setHs_runs _) (Stalls.seq (cs := [Cue.gives 0x9A r]) (probe_runs r) ?_)
    rw [if_neg (hne r List.mem_cons_self), List.length_cons, ← Nat.add_assoc, Nat.add_right_comm]
    exact hnext

theorem connectRead_stalls {p1 : List Byte} (hl : p1.length < 100) (hne : ∀ r ∈ p1, r ≠ 0xB4) :
    Stalls cfg conn connectRead (probesScript p1) 0x9A
      (fun t => t.hs = some { phase := .one, attempts := p1.length, bytes := [] }) := by
  have h := handshakeLoop_stalls (cfg := cfg) (conn := conn) .one 1 Config.hsMagic1 p1 Config.hsLimit 0 hl hne
  rw [Nat.zero_add] at h
  exact Stalls.first h

/-! #### `write_ec` (R46) -/

/-- With no limit, read-backs that do not match leave the rounds at the next write (R182). -/
theorem weRounds_stalls (m v : Byte) (addr : Nat) (hlim : cfg.writeEcLimit = none) (wrong : List Byte) : ∀ fuel n : Nat,
    wrong.length < fuel → (∀ r ∈ wrong, r &&& m ≠ v &&& m) →
    Stalls cfg conn (do setWe ⟨BitVec.ofNat 16 addr, v, n⟩; weRounds m fuel ⟨BitVec.ofNat 16 addr, v, n⟩)
      (weScript cfg addr v wrong) 0x49 (fun t => t.we = some ⟨BitVec.ofNat 16 addr, v, n + wrong.length⟩) := by
  have hgoes : ∀ n : Nat, ¬ weLimitReached cfg.writeEcLimit n = true := fun n => by simp [hlim, weLimitReached]
  induction wrong with
  | nil =>
    intro fuel n hf _
    obtain ⟨fuel, rfl⟩ : ∃ k, fuel = k + 1 := ⟨fuel - 1, by simp only [List.length_nil] at hf; omega⟩
    refine StopsAt.stalls (fun s hc hn hq hl => ?_) (fun _ => ⟨rfl, rfl, rfl, rfl, rfl⟩) fun _ => rfl
    show (if weLimitReached s.cfg.writeEcLimit n = true then _ else _ : Proc Unit) s = _
    rw [if_neg (hc ▸ hgoes n)]
    exact StopsAt.first (memWrite_stopsAt _ _) s hc hn hq hl
  | cons r wrong ih =>
    intro fuel n hf hne
    obtain ⟨fuel, rfl⟩ : ∃ k, fuel = k + 1 := ⟨fuel - 1, by simp only [List.length_cons] at hf; omega⟩
    have hnext := ih fuel (n + 1) (by simpa using hf) fun x hx => hne x (List.mem_cons_of_mem _ hx)
    simp only [weRounds, weScript, List.flatMap_cons, List.append_assoc]
    refine Stalls.then (setWe_runs _) (Stalls.get fun s hs => ?_)
    rw [hs, if_neg (hgoes n)]
    refine Stalls.seq (memWrite_runs _ _) (Stalls.seq (memRead1_runs _ r) ?_)
    rw [if_neg (hne r List.mem_cons_self), List.length_cons, ← Nat.add_assoc, Nat.add_right_comm]
    exact hnext

theorem writeEc_stalls {addr value : Nat} {m : Byte} {wrong : List Byte} (hlim : cfg.writeEcLimit = none) (h1 : addr ≤ 0xFFFF)
    (h2 : value ≤ 0xFF) (hne : ∀ r ∈ wrong, r &&& m ≠ BitVec.ofNat 8 value &&& m) :
    Stalls cfg true (writeEc addr value m) (weScript cfg addr (BitVec.ofNat 8 value) wrong) 0x49
      (fun t => t.we = some ⟨BitVec.ofNat 16 addr, BitVec.ofNat 8 value, wrong.length⟩) := by
  refine Stalls.then (requireConnected_runs _) <| Stalls.then (checkRange_runs h1) <| Stalls.then (checkRange_runs h2) ?_
  refine Stalls.unbounded (fun s => ⟨(), _, rfl, rfl⟩) fun fuel hf => ?_
  have h := weRounds_stalls (cfg := cfg) (conn := true) m (BitVec.ofNat 8 value) addr hlim wrong fuel 0
    (Nat.lt_of_le_of_lt (length_le_exchangeCount_we _ _ _) hf) hne
  rwa [Nat.zero_add] at h

/-- Under the full mask a byte matches a value only where it is that value (R180). -/
theorem and_full_ne {r : Byte} {value : Nat} (h : r.toNat ≠ value) (hv : value ≤ 0xFF) :
    r &&& 0xFF ≠ BitVec.ofNat 8 value &&& 0xFF := by
  have e : ∀ x : Byte, x &&& 0xFF = x := fun x => BitVec.and_allOnes (x := x)
  rw [e, e]
  intro hr
  apply h
  rw [hr, BitVec.toNat_ofNat, Nat.mod_eq_of_lt (by omega)]

/-! #### `tama5_unlock` (R48) -/

/-- Polls that do not say unlocked leave the loop at the next select (R392). -/
theorem tama5UnlockLoop_stalls {limit : Option Nat} (polls : List (List Byte)) : ∀ left n : Nat, polls.length < left →
    (∀ p ∈ polls, byteFits cfg limit p = true ∧ byteOf p &&& 0x0F ≠ 0x01) →
    Stalls cfg true (do setPoll n; tama5UnlockLoop limit left n) (unlockScript cfg polls) 0x49
      (fun t => t.poll = some (n + polls.length)) := by
  induction polls with
  | nil =>
    intro left n hl _
    obtain ⟨left, rfl⟩ : ∃ k, left = k + 1 := ⟨left - 1, by simp only [List.length_nil] at hl; omega⟩
    exact StopsAt.stalls (.get fun _ => .first (memWrite_stopsAt _ _)) (fun _ => ⟨rfl, rfl, rfl, rfl, rfl⟩) fun _ => rfl
  | cons p polls ih =>
    intro left n hl hp
    obtain ⟨left, rfl⟩ : ∃ k, left = k + 1 := ⟨left - 1, by simp only [List.length_cons] at hl; omega⟩
    obtain ⟨hfits, hlocked⟩ := hp p List.mem_cons_self
    have hnext := ih left (n + 1) (by simpa using hl) fun x hx => hp x (List.mem_cons_of_mem _ hx)
    simp only [unlockScript, List.flatMap_cons, tama5ReadScript, List.append_assoc]
    refine Stalls.then (setPoll_runs _) (Stalls.get fun s hs => ?_)
    rw [hs, toByte_bits4]
    refine Stalls.seq (memWrite_runs _ _) (Stalls.seq (readEc1_runs (by omega) hfits) ?_)
    rw [if_neg hlocked, List.length_cons, ← Nat.add_assoc, Nat.add_right_comm]
    exact hnext

/-! #### `eeprom_read` (R49) -/

/-- A word shifted in bit by bit (R332): the bits so far, then the next one. -/
theorem shiftIn_bit (w : U16) (n : Nat) :
    ((w >>> (n + 1)) <<< 1) ||| (if w.toNat.testBit n then 1 else 0) = w >>> n := by
  apply BitVec.eq_of_getLsbD_eq
  intro i hi
  cases i with
  | zero =>
    rw [BitVec.getLsbD_or, BitVec.getLsbD_ushiftRight, Nat.add_zero, ← BitVec.testBit_toNat w]
    cases w.toNat.testBit n <;> simp
  | succ i =>
    have hb : (if w.toNat.testBit n then (1 : U16) else 0).getLsbD (i + 1) = false := by
      cases w.toNat.testBit n <;> simp
    rw [BitVec.getLsbD_or, hb, Bool.or_false, BitVec.getLsbD_shiftLeft, BitVec.getLsbD_ushiftRight, BitVec.getLsbD_ushiftRight]
    have e : n + 1 + i = n + (i + 1) := by omega
    simp [hi, e]

/-- Bits received of a word leave the loop at the next bit, the register as far as the bits have come (R332; log 30). -/
theorem eeRecvLoop_stalls (w : U16) (k : Nat) : ∀ (count : Nat) (r : EeRegs), k < count → count ≤ 16 → r.word = w >>> count →
    Stalls cfg conn (do setEe r; eeRecvLoop count r) (((bitsDown w.toNat count).take k).flatMap (eeInoutScript cfg false)) 0x49
      (fun t => t.ee = some { word := w >>> (count - k), bit := r.bit + k }) := by
  induction k with
  | zero =>
    intro count r hk _ hr
    obtain ⟨count, rfl⟩ : ∃ n, count = n + 1 := ⟨count - 1, by omega⟩
    refine StopsAt.stalls (.first (eeShiftInout_stopsAt _)) (fun _ => ⟨rfl, rfl, rfl, rfl, rfl⟩) fun _ => ?_
    rw [Nat.sub_zero, ← hr]
    rfl
  | succ k ih =>
    intro count r hk hcount hr
    obtain ⟨count, rfl⟩ : ∃ n, count = n + 1 := ⟨count - 1, by omega⟩
    have hbits : bitsDown w.toNat (count + 1) = w.toNat.testBit count :: bitsDown w.toNat count := by
      rw [← msbFirst_eq, ← msbFirst_eq]; rfl
    have hnext := ih count { word := (r.word <<< 1) ||| (if w.toNat.testBit count then 1 else 0), bit := r.bit + 1 } (by omega)
      (by omega) (by rw [hr]; exact shiftIn_bit w count)
    rw [hbits, List.take_succ_cons, List.flatMap_cons, Nat.add_sub_add_right, ← Nat.add_assoc, Nat.add_right_comm]
    exact Stalls.then (setEe_runs _) (Stalls.seq (eeShiftInout_runs false _) hnext)

theorem eepromRead_stalls {a k : Nat} (w : U16) (ha : a ≤ 127) (hk : k < 16) :
    Stalls cfg conn (eepromRead a) (eeCommandScript cfg cfg.eeOpcRead (BitVec.ofNat 8 a) ++
      ((bitsDown w.toNat 16).take k).flatMap (eeInoutScript cfg false)) 0x49
      (fun t => t.ee = some { word := w >>> (16 - k), bit := k }) := by
  refine Stalls.then (checkRange_runs ha) (Stalls.get fun s hs => ?_)
  rw [hs]
  have h := eeRecvLoop_stalls (cfg := cfg) (conn := conn) w k 16 { word := 0, bit := 0 } hk (Nat.le_refl _)
    (BitVec.ushiftRight_eq_zero (x := w) (Nat.le_refl _)).symm
  rw [Nat.zero_add] at h
  exact Stalls.seq (eeCommand_runs _ _) h

end

/-- An instruction whose body waits where a procedure that stalls does. -/
theorem exec_waits_in {α : Type} {i : Instr} {p : Proc α} {cs : Script} {b : Byte} {Q : State → Prop} {s : State}
    (h : Stalls s.cfg s.connected p cs b Q) (hs : s.Answers cs) (hl : s.link.length = exchangeCount cs)
    (hb : ∀ u, p s.idle = .error .waiting u → bodyOf i s.idle = .error .waiting u) :
    ∃ u, exec i s = .next (State.suspend i s u) ∧ Waits i s (State.suspend i s u) ∧ u.awaiting = some b ∧ Q u := by
  obtain ⟨u, hp, haw, _, hq⟩ := h s.idle rfl rfl hs hl
  exact ⟨u, by rw [exec_eq, hb u hp]; rfl, finish_waits (hb u hp ▸ bodyOf_bodyEnds i s.idle), haw, hq⟩

/-- An admitted controller operation runs its body. -/
theorem withController_of_drives {s : State} {v : Variant} {c : Controller} (hc : s.ctrl = some c) (hv : c.variant = v)
    (hn : s.connected = true) (op : OpName) (b : Controller → Proc Value) : withController v op b s = b c s := by
  simp only [withController, hc, hv, if_true]
  exact bind_ok (a := ()) (by simp [requireConnected, hn])

/-- Settles O59: each of the four procedures stalls at the exchange it has come to, its registers as last written (`StopsAt.stalls`). -/
theorem operationRegistersWhileWaiting : Obligations.OperationRegistersWhileWaiting := by
  intro s
  refine ⟨fun p1 hn hl hne hs hlink => ?_, fun addr value wrong hn h1 h2 hlim hne hs hlink => ?_,
    fun limit polls hd hl hp hs hlink => ?_, fun a k w hd ha hk hs hlink => ?_⟩
  · obtain ⟨u, hu, hw, haw, hq⟩ := exec_waits_in (i := .connect) (connectRead_stalls hl hne) hs
      (hlink.trans (exchangeCount_map_gives _ _).symm) fun u e => connect_waiting hn e
    exact ⟨_, hu, hw, haw, hq⟩
  · obtain ⟨u, hu, hw, haw, hq⟩ := exec_waits_in (i := .writeEc addr value)
      (hn ▸ writeEc_stalls (m := 0xFF) hlim h1 h2 fun r hr => and_full_ne (hne r hr) h2) hs hlink fun u e => bind_error e
    exact ⟨_, hu, hw, haw, hq⟩
  · obtain ⟨c, hc, hv, hn⟩ := hd.controller
    have h := tama5UnlockLoop_stalls (cfg := s.cfg) (limit := limit) polls Config.tama5UnlockLimit 0 hl hp
    rw [Nat.zero_add] at h
    obtain ⟨u, hu, hw, haw, hq⟩ := exec_waits_in (i := .tama5Unlock limit) (hn ▸ h) hs hlink fun u e =>
      (withController_of_drives (s := s.idle) hc hv hn _ _).trans (bind_error e)
    exact ⟨_, hu, hw, haw, hq⟩
  · obtain ⟨c, hc, hv, hn⟩ := hd.controller
    obtain ⟨u, hu, hw, haw, hq⟩ := exec_waits_in (i := .eepromRead a) (eepromRead_stalls w ha hk) hs hlink fun u e =>
      (withController_of_drives (s := s.idle) hc hv hn _ _).trans (bind_error e)
    exact ⟨_, hu, hw, haw, hq⟩

end Sys2Proof.Machine

namespace Sys2Proof.Machine

/-! ### Cancellation: a run beside that of a host that requests nothing (R441) -/

theorem finish_unasked (i : Instr) (s : State) (r : EStateM.Result Halt State Value) :
    (finish i s r).unasked = finish i s.unasked (resultUpTo State.unasked r) := by
  match r with
  | .ok _ _ | .error (.raised _ _) _ | .error .cancelled _ | .error (.refused _) _ | .error .waiting _ => rfl

/-- The event of an end sends nothing. -/
theorem sentOf_cons_end {e : Event} (h : e.inner = false) (evs : List Event) : sentOf (e :: evs).reverse = sentOf evs.reverse := by
  cases e with
  | exchange _ _ | progress _ _ => cases h
  | result _ _ | error _ _ _ => simp [sentOf]

/-- What the other run does after the point where a request was honoured in this one. -/
theorem finish_goes_on {i : Instr} {s t : State} {r : EStateM.Result Halt State Value} {more : List Event}
    (h : (endState r).traceRev = more ++ t.traceRev) (hne : sentOf more.reverse ++ awaits r ≠ []) :
    ∃ evs, (finish i s r).traceRev = evs ++ t.traceRev ∧ sentOf evs.reverse ++ (finish i s r).awaiting.toList ≠ [] := by
  match r with
  | .ok v u => exact ⟨.result i.opId v :: more, congrArg (_ :: ·) h, by rw [sentOf_cons_end rfl]; exact hne⟩
  | .error (.raised k info) u => exact ⟨.error i.opId k info :: more, congrArg (_ :: ·) h, by rw [sentOf_cons_end rfl]; exact hne⟩
  | .error .cancelled u => exact ⟨.error i.opId _ _ :: more, congrArg (_ :: ·) h, by rw [sentOf_cons_end rfl]; exact hne⟩
  | .error (.refused reason) u => exact ⟨more, h, hne⟩
  | .error .waiting u => exact ⟨more, h, hne⟩

theorem exec_asked {i : Instr} {s t u : State} (ht : exec i s = .next t) (hu : exec i s.unasked = .next u) :
    ∃ (evs : List Event) (used : List LinkIn), t.traceRev = evs ++ s.traceRev ∧ s.link = used ++ t.link ∧
      ((t.run = none ∧ t.unasked = u ∧ FramesFrom i s.cfg.fillByte s.cancelReq (sentOf evs.reverse) used t.cancelReq) ∨
        (∃ b sent last more before xs, t.unasked = u ∧ t.awaiting = some b ∧ sentOf evs.reverse ++ [b] = sent ++ last ∧
          used = before ++ xs ∧ FramesFrom i s.cfg.fillByte s.cancelReq sent before false ∧
          FrameOf i s.cfg.fillByte (last ++ more) ∧ t.cancelReq = xs.any (·.cancel)) ∨
        (∃ done more, evs = .error i.opId .cancelled (.opId i.opId) :: done ∧
          t.stop = some (.error i.opId .cancelled (.opId i.opId)) ∧ t.run = none ∧ t.cancelReq = false ∧
          FramesFrom i s.cfg.fillByte s.cancelReq (sentOf evs.reverse) used true ∧
          u.traceRev = more ++ done ++ s.traceRev ∧ sentOf more.reverse ++ u.awaiting.toList ≠ [])) := by
  rw [exec_eq] at ht hu
  cases ht
  cases hu
  have h := bodyOf_asked i s.idle
  have hidle : s.unasked.idle = s.idle.unasked := rfl
  rw [hidle]
  generalize bodyOf i s.idle = r at h ⊢
  generalize bodyOf i s.idle.unasked = r' at h ⊢
  cases h with
  | ok a evs used htr hl hf =>
    exact ⟨.result i.opId a :: evs, used, congrArg (_ :: ·) htr, hl, .inl ⟨rfl, finish_unasked _ _ _, by
      rw [sentOf_cons_end rfl]; exact hf⟩⟩
  | error x evs used hw hc htr hl hf =>
    match x with
    | .raised k info =>
      exact ⟨.error i.opId k info :: evs, used, congrArg (_ :: ·) htr, hl, .inl ⟨rfl, finish_unasked _ _ _, by
        rw [sentOf_cons_end rfl]; exact hf⟩⟩
    | .refused reason => exact ⟨evs, used, htr, hl, .inl ⟨rfl, finish_unasked _ _ _, hf⟩⟩
    | .cancelled => exact absurd rfl hc
    | .waiting => exact absurd rfl hw
  | waiting evs used xs sent last more b htr hl haw hsent hf hframe hx =>
    exact ⟨evs, used ++ xs, htr, hl, .inr (.inl
      ⟨b, sent, last, more, used, xs, finish_unasked _ _ _, haw, hsent, rfl, hf, hframe, hx⟩)⟩
  | @cancelled t r evs used more htr hl hf hc hmore hne =>
    obtain ⟨more', htr', hne'⟩ := finish_goes_on (i := i) (s := s.unasked) hmore hne
    refine ⟨.error i.opId .cancelled (.opId i.opId) :: evs, used, congrArg (_ :: ·) htr, hl,
      .inr (.inr ⟨evs, more', rfl, rfl, rfl, hc, by rw [sentOf_cons_end rfl]; exact hf, ?_, hne'⟩)⟩
    rw [htr', htr, List.append_assoc]
    rfl

/-! ### Cancellation: a request that is pending where an instruction opens with a frame (R441, R434) -/

/-- With a request pending, the procedure ends with it in `s`, and nothing else has happened. -/
def CancelledAt {α : Type} (s : State) (p : Proc α) : Prop :=
  ∃ t, p s = .error .cancelled t ∧ t.idle = State.idle { s with cancelReq := false }

section

variable {α β : Type} {cfg : Params} {conn : Bool}

/-- The procedure opens with a frame: a request that is pending ends it there. -/
def Opens (cfg : Params) (conn : Bool) (p : Proc α) : Prop :=
  ∀ s : State, s.cfg = cfg → s.connected = conn → s.cancelReq = true → CancelledAt s p

/-- The procedure opens with a frame, or it makes none and returns `a`, with nothing done but in the operation registers. -/
def OpensOrPasses (cfg : Params) (conn : Bool) (p : Proc α) (a : α) : Prop :=
  ∀ s : State, s.cfg = cfg → s.connected = conn → s.cancelReq = true → CancelledAt s p ∨ ∃ t, p s = .ok a t ∧ t.idle = s.idle

theorem Opens.first {p : Proc α} {g : α → Proc β} (h : Opens cfg conn p) : Opens cfg conn (p >>= g) := by
  intro s hc hn hq
  obtain ⟨t, e, ht⟩ := h s hc hn hq
  exact ⟨t, bind_error e, ht⟩

theorem Opens.orPasses {p : Proc α} (h : Opens cfg conn p) (a : α) : OpensOrPasses cfg conn p a :=
  fun s hc hn hq => .inl (h s hc hn hq)

/-- The state after a procedure that made no frame. -/
theorem State.same_of_idle {s t : State} (h : t.idle = s.idle) :
    t.cfg = s.cfg ∧ t.connected = s.connected ∧ t.cancelReq = s.cancelReq ∧
      State.idle { t with cancelReq := false } = State.idle { s with cancelReq := false } :=
  ⟨(congrArg State.cfg h :), (congrArg State.connected h :), (congrArg State.cancelReq h :),
    congrArg (fun u : State => { u with cancelReq := false }) h⟩

theorem Opens.after {p : Proc α} {g : α → Proc β} {a : α} (hp : OpensOrPasses cfg conn p a) (hg : Opens cfg conn (g a)) :
    Opens cfg conn (p >>= g) := by
  intro s hc hn hq
  rcases hp s hc hn hq with ⟨t, e, ht⟩ | ⟨t, e, ht⟩
  · exact ⟨t, bind_error e, ht⟩
  · obtain ⟨tc, tn, tq, ti⟩ := State.same_of_idle ht
    obtain ⟨u, e2, hu⟩ := hg t (tc.trans hc) (tn.trans hn) (tq.trans hq)
    exact ⟨u, (bind_ok e).trans e2, hu.trans ti⟩

theorem OpensOrPasses.bind {p : Proc α} {g : α → Proc β} {a : α} {b : β} (hp : OpensOrPasses cfg conn p a)
    (hg : OpensOrPasses cfg conn (g a) b) : OpensOrPasses cfg conn (p >>= g) b := by
  intro s hc hn hq
  rcases hp s hc hn hq with ⟨t, e, ht⟩ | ⟨t, e, ht⟩
  · exact .inl ⟨t, bind_error e, ht⟩
  · obtain ⟨tc, tn, tq, ti⟩ := State.same_of_idle ht
    rcases hg t (tc.trans hc) (tn.trans hn) (tq.trans hq) with ⟨u, e2, hu⟩ | ⟨u, e2, hu⟩
    · exact .inl ⟨u, (bind_ok e).trans e2, hu.trans ti⟩
    · exact .inr ⟨u, (bind_ok e).trans e2, hu.trans ht⟩

theorem Opens.get {g : State → Proc α} (h : ∀ s : State, s.cfg = cfg → Opens cfg conn (g s)) : Opens cfg conn (get >>= g) :=
  fun s hc hn hq => h s hc s hc hn hq

theorem OpensOrPasses.get {g : State → Proc α} {a : α} (h : ∀ s : State, s.cfg = cfg → OpensOrPasses cfg conn (g s) a) :
    OpensOrPasses cfg conn (get >>= g) a :=
  fun s hc hn hq => h s hc s hc hn hq

theorem Opens.unbounded {loop : Nat → Proc α} (h : ∀ fuel, Opens cfg conn (loop (fuel + 1))) : Opens cfg conn (unbounded loop) :=
  fun s hc hn hq => h s.link.length s hc hn hq

/-- A procedure that makes no frame in any state. -/
theorem OpensOrPasses.of_ok {p : Proc α} {a : α} (h : ∀ s, s.connected = conn → ∃ t, p s = .ok a t ∧ t.idle = s.idle) :
    OpensOrPasses cfg conn p a :=
  fun s _ hn _ => .inr (h s hn)

/-! #### Checks and register writes make no frame -/

theorem pure_passes (a : α) : OpensOrPasses cfg conn (pure a) a := .of_ok fun s _ => ⟨s, rfl, rfl⟩

theorem refuseIf_passes {bad : Bool} (h : bad = false) (reason : RefuseReason) : OpensOrPasses cfg conn (refuseIf bad reason) () := by
  subst h
  exact pure_passes ()

theorem checkRange_passes {v max : Nat} (h : v ≤ max) : OpensOrPasses cfg conn (checkRange v max) () :=
  refuseIf_passes (by simpa using h) _

theorem requireConnected_passes (op : OpName) : OpensOrPasses cfg true (requireConnected op) () :=
  .of_ok fun s hn => ⟨s, by simp [requireConnected, hn], rfl⟩

theorem setEc_passes (r : EcRegs) : OpensOrPasses cfg conn (setEc r) () := .of_ok fun _ _ => ⟨_, rfl, rfl⟩
theorem setWe_passes (r : WeRegs) : OpensOrPasses cfg conn (setWe r) () := .of_ok fun _ _ => ⟨_, rfl, rfl⟩
theorem setHs_passes (r : HsRegs) : OpensOrPasses cfg conn (setHs r) () := .of_ok fun _ _ => ⟨_, rfl, rfl⟩
theorem setPoll_passes (n : Nat) : OpensOrPasses cfg conn (setPoll n) () := .of_ok fun _ _ => ⟨_, rfl, rfl⟩
theorem setEe_passes (r : EeRegs) : OpensOrPasses cfg conn (setEe r) () := .of_ok fun _ _ => ⟨_, rfl, rfl⟩

/-! #### Frames -/

theorem beginFrame_opens (p : Proc α) : Opens cfg conn (do beginFrame; p) :=
  fun s _ _ hq => ⟨{ s with cancelReq := false }, bind_error (by simp [beginFrame, hq]), rfl⟩

theorem probe_opens : Opens cfg conn probe := beginFrame_opens _
theorem memRead_opens (a n : U16) : Opens cfg conn (memRead a n) := beginFrame_opens _
theorem memWrite_opens (a : U16) (v : Byte) : Opens cfg conn (memWrite a v) := beginFrame_opens _

theorem ctrlWrites_opens {ws : List CtrlWrite} (h : ws ≠ []) : Opens cfg conn (ctrlWrites ws) := by
  cases ws with
  | nil => exact absurd rfl h
  | cons w ws => exact .first (memWrite_opens _ _)

theorem ctrlWrites_opensOrPasses (ws : List CtrlWrite) : OpensOrPasses cfg conn (ctrlWrites ws) () := by
  cases ws with
  | nil => exact pure_passes ()
  | cons w ws => exact (ctrlWrites_opens (List.cons_ne_nil w ws)).orPasses ()

/-! #### Session operations -/

theorem rawRead_opens {addr length : Nat} (h1 : addr ≤ 0xFFFF) (h2 : length ≤ 0xFFFF) (h3 : addr + length ≤ 0x10000) :
    Opens cfg true (rawRead addr length) :=
  .after (requireConnected_passes _) <| .after (checkRange_passes h1) <| .after (checkRange_passes h2) <|
    .after (refuseIf_passes (by simpa using h3) _) <| memRead_opens _ _

theorem rawWrite_opens {addr value : Nat} (h1 : addr ≤ 0xFFFF) (h2 : value ≤ 0xFF) : Opens cfg true (rawWrite addr value) :=
  .after (requireConnected_passes _) <| .after (checkRange_passes h1) <| .after (checkRange_passes h2) <| memWrite_opens _ _

theorem ecChunks_opens (chunks : Nat) {r : EcRegs} (h : r.off < r.size) : Opens cfg conn (ecChunks (chunks + 1) r) := by
  simp only [ecChunks, if_pos h]
  exact .after (setEc_passes _) <| .first <| .unbounded fun _ => .first (memRead_opens _ _)

theorem readEc_opens {addr size : Nat} (limit : Option Nat) (h1 : addr ≤ 0xFFFF) (h2 : addr + size ≤ 0x10000) (h3 : 0 < size) :
    Opens cfg true (readEc addr size limit) :=
  .after (requireConnected_passes _) <| .after (checkRange_passes h1) <| .after (checkRange_passes (by omega)) <|
    .after (refuseIf_passes (by simpa using h2) _) <| .after (setEc_passes _) <| ecChunks_opens _ h3

theorem readEc1_opens {addr : Nat} (limit : Option Nat) (h : addr ≤ 0xFFFF) : Opens cfg true (readEc1 addr limit) :=
  .first (readEc_opens limit h (by omega) Nat.one_pos)

theorem writeEc_opens {addr value : Nat} (m : Byte) (hlim : cfg.writeEcLimit ≠ some 0) (h1 : addr ≤ 0xFFFF) (h2 : value ≤ 0xFF) :
    Opens cfg true (writeEc addr value m) := by
  refine .after (requireConnected_passes _) <| .after (checkRange_passes h1) <| .after (checkRange_passes h2) <|
    .after (setWe_passes _) <| .unbounded fun fuel => .get fun s hs => ?_
  have hgoes : ¬ weLimitReached s.cfg.writeEcLimit 0 = true := by
    rw [hs]
    cases hk : cfg.writeEcLimit with
    | none => exact nofun
    | some k => simpa [weLimitReached, hk, eq_comm] using hlim
  rw [if_neg hgoes]
  exact .first (memWrite_opens _ _)

theorem connectRead_opens : Opens cfg conn connectRead :=
  .first (.after (setHs_passes _) (.first probe_opens))

/-! #### TAMA5 -/

theorem tama5Unlock_opens (limit : Option Nat) : Opens cfg conn (tama5Unlock limit) :=
  .after (setPoll_passes _) <| .get fun _ _ => .first (memWrite_opens _ _)

theorem tama5WriteReg_opens {r nib : Nat} (h1 : r ≤ 15) (h2 : nib ≤ 15) : Opens cfg conn (tama5WriteReg r nib) :=
  .after (refuseIf_passes (by simp; omega) _) <| .get fun _ _ => .first (memWrite_opens _ _)

theorem tama5ReadReg_opens {r : Nat} (limit : Option Nat) (h : r ≤ 15) : Opens cfg conn (tama5ReadReg r limit) :=
  .after (checkRange_passes h) <| .get fun _ _ => .first (memWrite_opens _ _)

theorem tama5RamRead_opens {ta : Nat} (limit : Option Nat) (h : ta ≤ 31) : Opens cfg conn (tama5RamRead ta limit) :=
  .after (checkRange_passes h) <| .get fun _ _ => .first <|
    tama5WriteReg_opens (by omega) (by rw [tama5Cmd_eq _ h]; omega)

theorem tama5RamWrite_opens {ta value : Nat} (h1 : ta ≤ 31) (h2 : value ≤ 0xFF) : Opens cfg conn (tama5RamWrite ta value) :=
  .after (refuseIf_passes (by simp; omega) _) <| .get fun _ _ => .first <| tama5WriteReg_opens (by omega) (by rw [and15]; omega)

/-! #### Bank selection and RAM enable -/

theorem selectRomBank_opens {v : Variant} {n : Nat} (hv : v ≠ .base) (h : n ≤ maxRomBank v) : Opens cfg conn (selectRomBank v n) := by
  cases v with
  | base => exact absurd rfl hv
  | mbc1 | mbc6 => exact .after (checkRange_passes h) <| .get fun _ _ => .first (memWrite_opens _ _)
  | mbc2 | mbc3 | mbc5 | mbc7 | camera => exact .after (checkRange_passes h) <| .first (memWrite_opens _ _)
  | tama5 => exact .after (checkRange_passes h) <| .first (tama5Unlock_opens _)

theorem selectRamBank_opens {v : Variant} {n : Nat} (h2 : v ≠ .mbc2) (h5 : v ≠ .tama5) (h : n ≤ 0xFF) :
    Opens cfg conn (selectRamBank v n) := by
  cases v with
  | mbc2 => exact absurd rfl h2
  | tama5 => exact absurd rfl h5
  | mbc1 | mbc6 => exact .after (checkRange_passes h) <| .get fun _ _ => .first (memWrite_opens _ _)
  | base | mbc3 | mbc5 | mbc7 | camera => exact .after (checkRange_passes h) <| .first (memWrite_opens _ _)

theorem enableRam_opens {v : Variant} (h : ramEnableSeq cfg.ramEnableSeq v ≠ []) : Opens cfg conn (enableRam v) :=
  .get fun s hs => .first (ctrlWrites_opens (by rwa [hs]))

theorem enableRam_opensOrPasses {v : Variant} (h : v ≠ .mbc7) : OpensOrPasses cfg conn (enableRam v) () := by
  refine .get fun s _ => .bind (ctrlWrites_opensOrPasses _) ?_
  rw [if_neg h]
  exact pure_passes ()

/-! #### EEPROM -/

theorem eeShiftIn_opens (bit : Bool) : Opens cfg conn (eeShiftIn bit) := .get fun _ _ => .first (memWrite_opens _ _)
theorem eeShiftInout_opens (bit : Bool) : Opens cfg conn (eeShiftInout bit) := .first (eeShiftIn_opens _)

theorem eeInitSteps_opensOrPasses (steps : List EeInitStep) : OpensOrPasses cfg conn (eeInitSteps steps) () := by
  match steps with
  | [] => exact pure_passes ()
  | .write w :: rest => exact (Opens.first (memWrite_opens _ _)).orPasses ()
  | .shift b :: rest => exact (Opens.first (eeShiftIn_opens _)).orPasses ()

theorem eeCommand_opens (opc : BitVec 2) (field : Byte) : Opens cfg conn (eeCommand opc field) :=
  .after (.get fun _ _ => eeInitSteps_opensOrPasses _) <| .first <| .after (setEe_passes _) <| .first (eeShiftIn_opens _)

theorem eepromWait_opens (h : 1 ≤ cfg.eepromWaitLimit) : Opens cfg conn eepromWait := by
  refine .get fun s hs => .after (ctrlWrites_opensOrPasses _) <| .after (setPoll_passes _) ?_
  obtain ⟨n, hn⟩ : ∃ n, s.cfg.eepromWaitLimit = n + 1 := ⟨s.cfg.eepromWaitLimit - 1, by rw [hs]; omega⟩
  rw [hn]
  exact .first (eeShiftInout_opens _)

theorem eepromRead_opens {a : Nat} (h : a ≤ 127) : Opens cfg conn (eepromRead a) :=
  .after (checkRange_passes h) <| .get fun _ _ => .first (eeCommand_opens _ _)

theorem eepromWrite_opens {a w : Nat} (h1 : a ≤ 127) (h2 : w ≤ 0xFFFF) : Opens cfg conn (eepromWrite a w) :=
  .after (refuseIf_passes (by simp; omega) _) <| .get fun _ _ => .first (eeCommand_opens _ _)

theorem eepromErase_opens {a : Nat} (h : a ≤ 127) : Opens cfg conn (eepromErase a) :=
  .after (checkRange_passes h) <| .get fun _ _ => .first (eeCommand_opens _ _)

theorem eepromEwen_opens : Opens cfg conn eepromEwen := .get fun _ _ => eeCommand_opens _ _
theorem eepromEwds_opens : Opens cfg conn eepromEwds := .get fun _ _ => eeCommand_opens _ _
theorem eepromEral_opens : Opens cfg conn eepromEral := .get fun _ _ => .first (eeCommand_opens _ _)

theorem eepromWral_opens {w : Nat} (h : w ≤ 0xFFFF) : Opens cfg conn (eepromWral w) :=
  .after (checkRange_passes h) <| .get fun _ _ => .first (eeCommand_opens _ _)

/-! #### Clock, accelerometer, camera -/

theorem latchRtc_opens : Opens cfg conn latchRtc := .first (memWrite_opens _ _)

theorem readRtc_opens {reg : Nat} (limit : Option Nat) (h : reg ≤ 3) : Opens cfg conn (readRtc reg limit) :=
  .after (checkRange_passes h) <| .first <|
    selectRamBank_opens (v := .mbc3) nofun nofun (show 8 + reg ≤ 0xFF by omega)

theorem sampleAccel_opens (limit : Option Nat) : Opens cfg conn (sampleAccel limit) := .get fun _ _ => .first (memWrite_opens _ _)
theorem takePhoto_opens (limit : Option Nat) : Opens cfg conn (takePhoto limit) := .first (memWrite_opens _ _)

/-! #### Images -/

theorem dumpRom_opens (v : Variant) (window : Nat → Nat) (count : Nat) (progress : Bool) (limit : Option Nat) :
    Opens cfg true (dumpRom v window count progress limit) :=
  .first (readEc_opens limit (by decide) (by decide) (by decide))

theorem dumpRomMbc6_opens {count : Nat} (progress : Bool) (limit : Option Nat) (h : count ≠ 0) :
    Opens cfg conn (dumpRomMbc6 count progress limit) := by
  refine .get fun s _ => ?_
  obtain ⟨n, hn⟩ : ∃ n, 2 * count = n + 1 := ⟨2 * count - 1, by omega⟩
  rw [hn, List.range_succ_eq_map]
  exact .first (selectRomBank_opens (v := .mbc6) nofun (Nat.zero_le _))

theorem dumpRamStd_opens {v : Variant} {size : Nat} (limit : Option Nat) (hsize : size ≠ 0)
    (h : ramEnableSeq cfg.ramEnableSeq v ≠ []) : Opens cfg conn (dumpRamStd v size limit) := by
  rw [dumpRamStd, if_neg hsize]
  exact .first (enableRam_opens h)

theorem dumpRamMbc2_opens (limit : Option Nat) : Opens cfg true (dumpRamMbc2 limit) :=
  .after (enableRam_opensOrPasses nofun) <| .first (readEc_opens limit (by decide) (by decide) (by decide))

theorem dumpRamTama5_opens (limit : Option Nat) : Opens cfg conn (dumpRamTama5 limit) :=
  .after (enableRam_opensOrPasses nofun) <| .first (tama5Unlock_opens _)

theorem restoreRamStd_opens {v : Variant} {size : Nat} {image : List Byte} (hsize : size ≠ 0) (hl : image.length = size)
    (h : ramEnableSeq cfg.ramEnableSeq v ≠ []) : Opens cfg conn (restoreRamStd v size image) := by
  refine .after (refuseIf_passes (decide_eq_false (not_not_intro hl)) _) ?_
  rw [if_neg hsize]
  exact .first (enableRam_opens h)

theorem restoreRamMbc2_opens {image : List Byte} (hl : image.length = 256) (h : ramEnableSeq cfg.ramEnableSeq .mbc2 ≠ []) :
    Opens cfg conn (restoreRamMbc2 image) :=
  .after (refuseIf_passes (decide_eq_false (not_not_intro hl)) _) <| .first (enableRam_opens h)

theorem restoreRamMbc7_opens {image : List Byte} (hl : image.length = 256) (h : ramEnableSeq cfg.ramEnableSeq .mbc7 ≠ []) :
    Opens cfg conn (restoreRamMbc7 image) :=
  .after (refuseIf_passes (decide_eq_false (not_not_intro hl)) _) <| .first (enableRam_opens h)

theorem restoreRamTama5_opens {image : List Byte} (hl : image.length = 32) : Opens cfg conn (restoreRamTama5 image) :=
  .after (refuseIf_passes (decide_eq_false (not_not_intro hl)) _) <| .after (enableRam_opensOrPasses nofun) <|
    .first (tama5Unlock_opens _)

end

/-! #### Every instruction that opens with a frame -/

theorem CancelledAt.plain {s : State} {p : Proc Value} (hq : s.cancelReq = true) (h : Opens s.cfg s.connected p) : CancelledAt s p :=
  h s rfl rfl hq

/-- A session operation other than `connect`, which a connected session admits. -/
theorem CancelledAt.session {s : State} {p : Proc Value} (hq : s.cancelReq = true) (hn : s.connected = true)
    (h : Opens s.cfg true p) : CancelledAt s p :=
  h s rfl hn hq

theorem CancelledAt.controller {s : State} {v : Variant} {op : OpName} {b : Controller → Proc Value} (hq : s.cancelReq = true)
    (hd : s.Drives v) (h : ∀ c, s.ctrl = some c → Opens s.cfg true (b c)) : CancelledAt s (withController v op b) := by
  obtain ⟨c, hc, hv, hn⟩ := hd.controller
  obtain ⟨t, e, ht⟩ := h c hc s rfl hn hq
  exact ⟨t, (withController_of_drives hc hv hn op b).trans e, ht⟩

theorem toNat_ne_zero {n : Nat} {x : BitVec n} (h : x ≠ 0) : x.toNat ≠ 0 := by
  simpa using BitVec.toNat_ne.1 h

theorem bodyOf_cancels (i : Instr) {s : State} (hq : s.cancelReq = true) (ha : s.Admits i) (hw : i.wf = true)
    (ho : opensWithFrame s i) (hi : i ≠ .connect) : CancelledAt s (bodyOf i) := by
  have hn : controllerOf i = none → operationOf i ≠ none → s.connected = true := by
    intro h1 h2
    simp only [State.Admits, h1] at ha
    exact (ha h2).2 hi
  cases i with
  | connect => exact absurd rfl hi
  | detect | selectRomBankBase _ | selectRamBankMbc2 _ | selectRamBankTama5 _ => exact ho.elim
  | hsProbe => exact .plain hq (.first probe_opens)
  | readFrame addr len => exact .plain hq (.after (refuseIf_passes (decide_eq_false (Nat.not_lt.2 ho)) _) (.first (memRead_opens _ _)))
  | writeFrame _ _ => exact .plain hq (.first (memWrite_opens _ _))
  | eeRead a => exact .plain hq (.first (eepromRead_opens (Nat.le_of_lt_succ (of_decide_eq_true hw))))
  | eeWrite a data => exact .plain hq (.first (eepromWrite_opens (Nat.le_of_lt_succ (of_decide_eq_true hw)) (by omega)))
  | eeErase a => exact .plain hq (.first (eepromErase_opens (Nat.le_of_lt_succ (of_decide_eq_true hw))))
  | eeEwen => exact .plain hq (.first eepromEwen_opens)
  | eeEwds => exact .plain hq (.first eepromEwds_opens)
  | eeEral => exact .plain hq (.first eepromEral_opens)
  | eeWral data => exact .plain hq (.first (eepromWral_opens (by omega)))
  | read addr length =>
    obtain ⟨h1, h2⟩ : addr ≤ 0xFFFF ∧ length ≤ 0xFFFF := by simpa [Instr.wf] using hw
    exact .session hq (hn rfl nofun) (.first (rawRead_opens h1 h2 ho))
  | write addr value =>
    obtain ⟨h1, h2⟩ : addr ≤ 0xFFFF ∧ value ≤ 0xFF := by simpa [Instr.wf] using hw
    exact .session hq (hn rfl nofun) (.first (rawWrite_opens h1 h2))
  | readEc addr size limit =>
    obtain ⟨h1, _⟩ : addr ≤ 0xFFFF ∧ size ≤ 0x10000 := by simpa [Instr.wf] using hw
    exact .session hq (hn rfl nofun) (.first (readEc_opens limit h1 ho.2 ho.1))
  | writeEc addr value =>
    obtain ⟨h1, h2⟩ : addr ≤ 0xFFFF ∧ value ≤ 0xFF := by simpa [Instr.wf] using hw
    exact .session hq (hn rfl nofun) (.first (writeEc_opens _ ho h1 h2))
  | selectRomBankMbc1 _ | selectRomBankMbc2 _ | selectRomBankMbc3 _ | selectRomBankMbc5 _ | selectRomBankMbc6 _
  | selectRomBankMbc7 _ | selectRomBankCamera _ | selectRomBankTama5 _ =>
    exact .controller hq ha fun _ _ => .first (selectRomBank_opens nofun (of_decide_eq_true hw))
  | selectRamBankBase _ | selectRamBankMbc1 _ | selectRamBankMbc3 _ | selectRamBankMbc5 _ | selectRamBankMbc6 _
  | selectRamBankMbc7 _ | selectRamBankCamera _ =>
    exact .controller hq ha fun _ _ => .first (selectRamBank_opens nofun nofun (of_decide_eq_true hw))
  | enableRamBase | enableRamMbc1 | enableRamMbc2 | enableRamMbc3 | enableRamMbc5 | enableRamMbc6 | enableRamMbc7
  | enableRamCamera | enableRamTama5 => exact .controller hq ha fun _ _ => .first (enableRam_opens ho)
  | dumpRomBase _ _ | dumpRomMbc1 _ _ | dumpRomMbc2 _ _ | dumpRomMbc3 _ _ | dumpRomMbc5 _ _ | dumpRomMbc7 _ _ | dumpRomCamera _ _
  | dumpRomTama5 _ _ => exact .controller hq ha fun _ _ => .first (dumpRom_opens _ _ _ _ _)
  | dumpRomMbc6 _ _ => exact .controller hq ha fun c hc => .first (dumpRomMbc6_opens _ _ (toNat_ne_zero (ho c hc)))
  | dumpRamBase _ | dumpRamMbc1 _ | dumpRamMbc3 _ | dumpRamMbc5 _ | dumpRamMbc6 _ | dumpRamCamera _ =>
    exact .controller hq ha fun c hc => .first (dumpRamStd_opens _ (toNat_ne_zero (ho.1 c hc)) ho.2)
  | dumpRamMbc2 _ => exact .controller hq ha fun _ _ => .first (dumpRamMbc2_opens _)
  | dumpRamMbc7 _ => exact .controller hq ha fun _ _ => .first (.first (enableRam_opens ho))
  | dumpRamTama5 _ => exact .controller hq ha fun _ _ => .first (dumpRamTama5_opens _)
  | restoreRamBase _ | restoreRamMbc1 _ | restoreRamMbc3 _ | restoreRamMbc5 _ | restoreRamMbc6 _ | restoreRamCamera _ =>
    obtain ⟨⟨hsize, hseq⟩, hfits⟩ := ho
    exact .controller hq ha fun c hc => .first (restoreRamStd_opens (toNat_ne_zero (hsize c hc)) (hfits c hc) hseq)
  | restoreRamMbc2 _ => exact .controller hq ha fun _ _ => .first (restoreRamMbc2_opens ho.2 ho.1)
  | restoreRamMbc7 _ => exact .controller hq ha fun _ _ => .first (restoreRamMbc7_opens ho.2 ho.1)
  | restoreRamTama5 _ => exact .controller hq ha fun _ _ => .first (restoreRamTama5_opens ho)
  | latchRtc => exact .controller hq ha fun _ _ => .first latchRtc_opens
  | readRtc _ _ => exact .controller hq ha fun _ _ => .first (readRtc_opens _ (of_decide_eq_true hw))
  | eepromShiftIn _ =>
    exact .controller hq ha fun _ _ => .after (checkRange_passes (of_decide_eq_true hw)) (.first (eeShiftIn_opens _))
  | eepromShiftInout _ =>
    exact .controller hq ha fun _ _ => .after (checkRange_passes (of_decide_eq_true hw)) (.first (eeShiftInout_opens _))
  | eepromRead _ => exact .controller hq ha fun _ _ => .first (eepromRead_opens (of_decide_eq_true hw))
  | eepromWrite a w =>
    obtain ⟨h1, h2⟩ : a ≤ 127 ∧ w ≤ 0xFFFF := by simpa [Instr.wf] using hw
    exact .controller hq ha fun _ _ => .first (eepromWrite_opens h1 h2)
  | eepromErase _ => exact .controller hq ha fun _ _ => .first (eepromErase_opens (of_decide_eq_true hw))
  | eepromEwen => exact .controller hq ha fun _ _ => .first eepromEwen_opens
  | eepromEwds => exact .controller hq ha fun _ _ => .first eepromEwds_opens
  | eepromEral => exact .controller hq ha fun _ _ => .first eepromEral_opens
  | eepromWral _ => exact .controller hq ha fun _ _ => .first (eepromWral_opens (of_decide_eq_true hw))
  | eepromWait => exact .controller hq ha fun _ _ => .first (eepromWait_opens ho)
  | sampleAccel _ => exact .controller hq ha fun _ _ => .first (sampleAccel_opens _)
  | takePhoto _ => exact .controller hq ha fun _ _ => .first (takePhoto_opens _)
  | tama5Unlock _ => exact .controller hq ha fun _ _ => .first (tama5Unlock_opens _)
  | tama5WriteReg r nib =>
    obtain ⟨h1, h2⟩ : r ≤ 15 ∧ nib ≤ 15 := by simpa [Instr.wf] using hw
    exact .controller hq ha fun _ _ => .first (tama5WriteReg_opens h1 h2)
  | tama5ReadReg _ _ => exact .controller hq ha fun _ _ => .first (tama5ReadReg_opens _ (of_decide_eq_true hw))
  | tama5RamRead _ _ => exact .controller hq ha fun _ _ => .first (tama5RamRead_opens _ (of_decide_eq_true hw))
  | tama5RamWrite ta value =>
    obtain ⟨h1, h2⟩ : ta ≤ 31 ∧ value ≤ 0xFF := by simpa [Instr.wf] using hw
    exact .controller hq ha fun _ _ => .first (tama5RamWrite_opens h1 h2)

/-- On an unconnected session the reset values that a failed `connect` leaves are the values there (R60). -/
theorem connect_cancels {s : State} (hq : s.cancelReq = true) (hn : s.connected = false) (hh : s.header = none) :
    CancelledAt s connect := by
  obtain ⟨t, e, ht⟩ := connectRead_opens s rfl rfl hq
  refine ⟨_, connect_cancelled hn e, ?_⟩
  have htn : t.connected = false := (congrArg State.connected ht :).trans hn
  have hth : t.header = none := (congrArg State.header ht :).trans hh
  rw [← ht]
  cases t
  cases htn
  cases hth
  rfl

theorem exec_cancelled {i : Instr} {s : State} (h : CancelledAt s.idle (bodyOf i)) :
    exec i s = .next ({ s with cancelReq := false }.raiseError i.opId .cancelled (.opId i.opId)) := by
  obtain ⟨t, e, ht⟩ := h
  rw [exec_eq, e]
  exact congrArg Host.Outcome.next (State.raiseError_of_idle (t := { s with cancelReq := false }) ht)

/-- Settles O28: with a request pending a body that opens with a frame ends there (`bodyOf_cancels`), and in general a run and that of
a host that requests nothing go together up to the frame at which a request is honoured (`bodyOf_asked`). -/
theorem pendingCancellation : Obligations.PendingCancellation := by
  refine ⟨fun i s hq ha hw hinv ho => exec_cancelled ?_, fun i s t u => exec_asked⟩
  by_cases hi : i = .connect
  · subst hi
    have hn : s.connected = false := by
      have : s.connected = true ↔ Instr.connect ≠ .connect := ha nofun
      simpa using this
    exact connect_cancels (s := s.idle) hq hn (by simpa [hn] using hinv)
  · exact bodyOf_cancels i (s := s.idle) hq ha hw ho hi

end Sys2Proof.Machine

namespace Sys2Proof.Machine

/-! ### What an operation sends (R110, R116) -/

/-- `detect` ends without an exchange (R200). -/
theorem detect_sends (s : State) : SendsFrames s.cfg.fillByte s (detect s) := by
  rw [detect_eq]
  cases detectFinds s.cfg s.connected s.header with
  | ok _ => exact .of_none rfl (fun _ => nofun)
  | error _ => exact .of_none rfl (fun _ => nofun)

theorem bodyOf_sends {i : Instr} (hi : i ≠ .connect) (s : State) : SendsFrames s.cfg.fillByte s (bodyOf i s) := by
  by_cases hd : i = .detect
  · subst hd; exact detect_sends s
  · exact body_sends i hi hd s

/-- The event at the end of an operation is no exchange (R435, R442), so it has sent what its body sent. -/
theorem SendsFrames.ended {fill : Byte} {i : Instr} {s : State} {r : EStateM.Result Halt State Value}
    (h : SendsFrames fill s.idle r) (hr : (finish i s r).run = none) :
    ∃ evs, (finish i s r).traceRev = evs ++ s.traceRev ∧ WholeFrames fill (sentOf evs.reverse) := by
  have ends : ∀ {e : Event}, e.inner = false → (∀ t, r ≠ .error .waiting t) →
      ∃ evs, e :: (endState r).traceRev = evs ++ s.traceRev ∧ WholeFrames fill (sentOf evs.reverse) := by
    intro e he hw
    obtain ⟨evs, htr, hf⟩ := h.done hw
    exact ⟨e :: evs, congrArg (e :: ·) htr, by rwa [sentOf_cons_end he]⟩
  match r with
  | .ok _ _ | .error (.raised _ _) _ | .error .cancelled _ => exact ends rfl (fun _ => nofun)
  | .error (.refused _) _ => exact h.done (fun _ => nofun)
  | .error .waiting _ => cases hr

/-- Settles O18: every body but that of `connect` sends whole frames, by the induction over its steps (`body_sends`), and no end of an
operation sends anything more. -/
theorem sentBytesAreWholeFrames : Obligations.SentBytesAreWholeFrames := by
  intro i s t hi h
  rw [exec_eq] at h
  cases h
  have hbody : SendsFrames s.cfg.fillByte s.idle (bodyOf i s.idle) := bodyOf_sends hi s.idle
  refine ⟨hbody.ended, fun hrun => ?_⟩
  obtain ⟨u, hu⟩ := waiting_of_finish_run hrun
  rw [hu]
  exact hbody.waits u hu

/-! ### Ranges that pass the end of the space (R83) -/

theorem requireConnected_of_connected (op : OpName) {s : State} (h : s.connected = true) : requireConnected op s = .ok () s :=
  if_pos h

theorem checkRange_of_le {v max : Nat} (h : v ≤ max) (s : State) : checkRange v max s = .ok () s := by
  simp only [checkRange, refuseIf, decide_eq_false (Nat.not_lt.2 h)]
  rfl

theorem refuseIf_of_true {bad : Bool} (h : bad = true) (reason : RefuseReason) (s : State) :
    refuseIf bad reason s = .error (.refused reason) s := by
  subst h; rfl

theorem rawRead_past_end {addr length : Nat} {s : State} (hn : s.connected = true) (h1 : addr ≤ 0xFFFF) (h2 : length ≤ 0xFFFF)
    (h3 : 0x10000 < addr + length) : rawRead addr length s = .error (.refused .rangeOverflow) s := by
  rw [rawRead, bind_ok (requireConnected_of_connected _ hn), bind_ok (checkRange_of_le h1 s), bind_ok (checkRange_of_le h2 s)]
  exact bind_error (refuseIf_of_true (decide_eq_true h3) _ s)

theorem readEc_past_end {addr size : Nat} (limit : Option Nat) {s : State} (hn : s.connected = true) (h1 : addr ≤ 0xFFFF)
    (h2 : size ≤ 0x10000) (h3 : 0x10000 < addr + size) : readEc addr size limit s = .error (.refused .rangeOverflow) s := by
  rw [readEc, bind_ok (requireConnected_of_connected _ hn), bind_ok (checkRange_of_le h1 s), bind_ok (checkRange_of_le h2 s)]
  exact bind_error (refuseIf_of_true (decide_eq_true h3) _ s)

/-- Settles O26: the range check of each body comes before its first frame, so the refusal leaves the state that the body started in. -/
theorem rangesPastTheEnd : Obligations.RangesPastTheEnd := by
  intro s
  refine ⟨fun addr length hn h1 h2 h3 => ?_, fun addr size limit hn h1 h2 h3 => ?_, fun addr len h => ?_⟩
  · exact runOp_refuses (bind_error (rawRead_past_end (s := s.idle) hn h1 h2 h3))
  · exact runOp_refuses (bind_error (readEc_past_end limit (s := s.idle) hn h1 h2 h3))
  · exact runOp_refuses (bind_error (refuseIf_of_true (decide_eq_true h) _ s.idle))

/-! ### `connect` succeeds (R150 to R156) -/

theorem exec_connect_completes {s : State} {cs : Script} {h : Header} (hc : s.connected = false) (hs : s.Answers cs)
    (hr : Runs s.cfg s.connected connectRead cs none none h) :
    exec .connect s = .next { s.completes .connect cs none none .unit with connected := true, header := some h } := by
  obtain ⟨t, e, ht⟩ := hr s.idle rfl rfl hs
  have hb : bodyOf .connect s.idle = .ok .unit { t with header := some h, connected := true } := connect_ok hc e
  rw [exec_eq, hb]
  exact congrArg (fun u : State => Host.Outcome.next { u with connected := true, header := some h })
    (State.completes_of_idle (i := .connect) (v := .unit) ht)

/-- The header fields by their places (R155, R33 to R35). -/
theorem parseHeader_bytes (ct rom ram ch cl : Byte) {title : List Byte} (ht : title.length = 16) :
    parseHeader ([ct, rom, ram, ch, cl] ++ title) =
      { cartType := ct, romSizeCode := rom, ramSizeCode := ram, checksum := ch ++ cl, title := title } := by
  have htitle : (([ct, rom, ram, ch, cl] ++ title).drop 5).take 16 = title := List.take_of_length_le (Nat.le_of_eq ht)
  rw [parseHeader, htitle]
  rfl

/-- Settles O33: the two phases and the header phase run to the header of the bytes (`connectRead_runs`), which `connect` commits. -/
theorem connectCompletes : Obligations.ConnectCompletes := by
  intro s p1 p2 ct rom ram ch cl title hc l1 l2 h1 h2 ht hs
  rw [← parseHeader_bytes ct rom ram ch cl ht]
  exact exec_connect_completes hc hs (connectRead_runs l1 l2 h1 h2 (by simp [ht]))

/-! ### `dump_ram` by units (R282, R360, R400) -/

/-- Settles O49: each body runs its script; the 512 accepted cells of MBC2 pack to the 256 bytes of R87 (`packNibbles_eq`). -/
theorem dumpRamUnitsComplete : Obligations.DumpRamUnitsComplete := by
  intro s limit
  refine ⟨fun cells hd hfit hs => ?_, fun words hd hl hs => ?_, fun polls bs hd hu hl hfit hs => ?_⟩
  · rw [← packNibbles_eq 256 (ecBytes cells) (ecBytes_length cells _ hfit)]
    exact runOp_drives hd hs fun _ _ => (dumpRamMbc2_runs hfit).map Value.bytes
  · exact runOp_drives hd hs fun _ _ => (dumpRamMbc7_runs hl).map Value.bytes
  · exact runOp_drives hd hs fun _ _ => (dumpRamTama5_runs hu hl hfit).map Value.bytes

/-! ### The register operations of TAMA5 (R392 to R397) -/

/-- `tama5_ram_write` with its value as the host gives it (R397, R432). -/
theorem tama5RamWrite_runs_nat {cfg : Params} {conn : Bool} {ta value : Nat} (h1 : ta ≤ 31) (h2 : value ≤ 0xFF) :
    Runs cfg conn (tama5RamWrite ta value) (tama5RamWriteScript cfg ta (BitVec.ofNat 8 value)) none none () := by
  have hvalue : (BitVec.ofNat 8 value).toNat = value := Nat.mod_eq_of_lt (Nat.lt_succ_of_le h2)
  have h := tama5RamWrite_runs (cfg := cfg) (conn := conn) (BitVec.ofNat 8 value) h1
  rwa [hvalue] at h

/-- Settles O56: each body runs its script, behind the checks that a driven session passes (`runOp_drives`). -/
theorem tama5OperationsComplete : Obligations.Tama5OperationsComplete := by
  intro s hd
  refine ⟨fun limit polls hu hs => ?_, fun r nib hr hnib hs => ?_, fun r limit reads hr hfit hs => ?_,
    fun ta limit lo hi hta hlo hhi hs => ?_, fun ta value hta hvalue hs => ?_⟩
  · exact runOp_drives hd hs fun _ _ => (tama5Unlock_runs hu).unit
  · exact runOp_drives hd hs fun _ _ => (tama5WriteReg_runs hr hnib).unit
  · exact runOp_drives hd hs fun _ _ => (tama5ReadReg_runs hr hfit).map Value.byte
  · exact runOp_drives hd hs fun _ _ => (tama5RamRead_runs hta hlo hhi).map Value.byte
  · exact runOp_drives hd hs fun _ _ => (tama5RamWrite_runs_nat hta hvalue).unit

end Sys2Proof.Machine

/-!
PROOFS of the statements of 30_encoding.md. What each of the three decoders reads is said once, as an inductive relation between a
request and its instruction (`WireReads`, `EeReads`) or as a row of the selector table (`decodeHost_cases`); the encoder is compared with
these.
-/

namespace Sys2Proof.Machine

/-! ### Words of two bytes (R10, R115) -/

theorem hi8_join16 (hi lo : Byte) : hi8 (join16 hi lo) = hi := BitVec.extractLsb'_append_eq_left

theorem lo8_join16 (hi lo : Byte) : lo8 (join16 hi lo) = lo := BitVec.extractLsb'_append_eq_right

theorem toNat_append_byte {n : Nat} (x : BitVec n) (b : Byte) : (x ++ b).toNat = x.toNat * 256 + b.toNat := by
  rw [BitVec.toNat_append, ← Nat.shiftLeft_add_eq_or_of_lt b.isLt, Nat.shiftLeft_eq]

theorem toNat_join16 (hi lo : Byte) : (join16 hi lo).toNat = hi.toNat * 256 + lo.toNat := toNat_append_byte hi lo

/-! ### Wire frames (R110 to R117) -/

/-- The frame that a byte list begins with, and the instruction that it is. -/
inductive WireReads : List Byte → Instr → Prop where
  | probe (rest : List Byte) : WireReads ([0x9A] ++ rest) .hsProbe
  | read (addr len : U16) (rest : List Byte) : WireReads (readFrameBytes addr len ++ rest) (.readFrame addr len)
  | write (addr : U16) (value : Byte) (rest : List Byte) : WireReads (writeFrameBytes addr value ++ rest) (.writeFrame addr value)

theorem decodeWire_probe (rest : List Byte) : decodeWire (0x9A :: rest) = .ok .hsProbe := rfl

theorem decodeWire_read (b1 b2 b3 b4 : Byte) (rest : List Byte) :
    decodeWire (0x59 :: b1 :: b2 :: b3 :: b4 :: rest) = .ok (.readFrame (join16 b1 b2) (join16 b3 b4)) := rfl

theorem decodeWire_write (b1 b2 b3 : Byte) (rest : List Byte) :
    decodeWire (0x49 :: b1 :: b2 :: b3 :: rest) = .ok (.writeFrame (join16 b1 b2) b3) := rfl

theorem decodeWire_read_short {rest : List Byte} (h : rest.length < 4) : decodeWire (0x59 :: rest) = .error .truncatedFrame := by
  match rest, h with
  | [], _ | [_], _ | [_, _], _ | [_, _, _], _ => rfl

theorem decodeWire_write_short {rest : List Byte} (h : rest.length < 3) : decodeWire (0x49 :: rest) = .error .truncatedFrame := by
  match rest, h with
  | [], _ | [_], _ | [_, _], _ => rfl

theorem decodeWire_other {b : Byte} (rest : List Byte) (h1 : b ≠ 0x9A) (h2 : b ≠ 0x59) (h3 : b ≠ 0x49) :
    decodeWire (b :: rest) = .error .notAFrame := by
  calc decodeWire (b :: rest)
    _ = _ := if_neg h1
    _ = _ := if_neg h2
    _ = _ := if_neg h3

theorem decode_of_wireReads {bytes : List Byte} {i : Instr} (h : WireReads bytes i) : decode (.wire bytes) = .ok i := by
  cases h with
  | probe rest => exact decodeWire_probe rest
  | read addr len rest => exact (decodeWire_read _ _ _ _ rest).trans (by rw [join16_parts, join16_parts])
  | write addr value rest => exact (decodeWire_write _ _ _ rest).trans (by rw [join16_parts])

/-- Wire bytes that no frame begins: an empty list, another first byte, or a frame that ends early (R116, R117). -/
def NoFrame (bytes : List Byte) : Prop :=
  bytes = [] ∨ (∃ b rest, bytes = b :: rest ∧ b ≠ 0x9A ∧ b ≠ 0x59 ∧ b ≠ 0x49) ∨
    (bytes.head? = some 0x59 ∧ bytes.length < 5) ∨ (bytes.head? = some 0x49 ∧ bytes.length < 4)

theorem decode_of_noFrame {bytes : List Byte} (h : NoFrame bytes) :
    decode (.wire bytes) = .error .notAFrame ∨ decode (.wire bytes) = .error .truncatedFrame := by
  rcases h with rfl | ⟨b, rest, rfl, h1, h2, h3⟩ | ⟨h1, h2⟩ | ⟨h1, h2⟩
  · exact .inr rfl
  · exact .inl (decodeWire_other rest h1 h2 h3)
  · obtain ⟨rest, rfl⟩ := List.head?_eq_some_iff.1 h1
    exact .inr (decodeWire_read_short (Nat.lt_of_succ_lt_succ h2))
  · obtain ⟨rest, rfl⟩ := List.head?_eq_some_iff.1 h1
    exact .inr (decodeWire_write_short (Nat.lt_of_succ_lt_succ h2))

/-- A byte list begins with a frame or it does not. -/
theorem wireReads_or_noFrame (bytes : List Byte) : (∃ i, WireReads bytes i) ∨ NoFrame bytes := by
  match bytes with
  | [] => exact .inr (.inl rfl)
  | b :: rest =>
    by_cases h1 : b = 0x9A
    · subst h1; exact .inl ⟨_, .probe rest⟩
    by_cases h2 : b = 0x59
    · subst h2
      match rest with
      | ah :: al :: lh :: ll :: rest =>
        have h := WireReads.read (join16 ah al) (join16 lh ll) rest
        rw [readFrameBytes, hi8_join16, lo8_join16, hi8_join16, lo8_join16] at h
        exact .inl ⟨_, h⟩
      | [] | [_] | [_, _] | [_, _, _] => exact .inr (.inr (.inr (.inl ⟨rfl, by simp⟩)))
    by_cases h3 : b = 0x49
    · subst h3
      match rest with
      | ah :: al :: v :: rest =>
        have h := WireReads.write (join16 ah al) v rest
        rw [writeFrameBytes, hi8_join16, lo8_join16] at h
        exact .inl ⟨_, h⟩
      | [] | [_] | [_, _] => exact .inr (.inr (.inr (.inr ⟨rfl, by simp⟩)))
    · exact .inr (.inr (.inl ⟨b, rest, rfl, h1, h2, h3⟩))

theorem wireReads_of_decode {bytes : List Byte} {i : Instr} (h : decode (.wire bytes) = .ok i) : WireReads bytes i := by
  rcases wireReads_or_noFrame bytes with ⟨j, hj⟩ | hn
  · cases (decode_of_wireReads hj).symm.trans h
    exact hj
  · rcases decode_of_noFrame hn with e | e <;> cases e.symm.trans h

/-! ### EEPROM command frames (R120, R125) -/

/-- The EEPROM frames with the data that follows them, and the commands that they are. -/
inductive EeReads (data : U16) : BitVec 10 → Instr → Prop where
  | read (a : Byte) : a.toNat ≤ 127 → EeReads data (0b10#2 ++ a) (.eeRead a)
  | write (a : Byte) : a.toNat ≤ 127 → EeReads data (0b01#2 ++ a) (.eeWrite a data)
  | erase (a : Byte) : a.toNat ≤ 127 → EeReads data (0b11#2 ++ a) (.eeErase a)
  | ewen : EeReads data 0b0011000000 .eeEwen
  | ewds : EeReads data 0b0000000000 .eeEwds
  | eral : EeReads data 0b0010000000 .eeEral
  | wral : EeReads data 0b0001000000 (.eeWral data)

/-- The decoder reads the class bits and the field (R120). -/
theorem decodeEe_parts (cls : BitVec 2) (field : Byte) (data : U16) : decodeEe (cls ++ field) data =
    if cls = 0b00 then
      if field = 0b11000000 then .ok .eeEwen
      else if field = 0b00000000 then .ok .eeEwds
      else if field = 0b10000000 then .ok .eeEral
      else if field = 0b01000000 then .ok (.eeWral data)
      else .error .reservedEeFrame
    else if field < 128 then
      if cls = 0b10 then .ok (.eeRead field)
      else if cls = 0b01 then .ok (.eeWrite field data)
      else .ok (.eeErase field)
    else .error .reservedEeFrame := by
  simp only [decodeEe, BitVec.extractLsb'_append_eq_left, BitVec.extractLsb'_append_eq_right]

theorem decode_of_eeReads {f : BitVec 10} {data : U16} {i : Instr} (h : EeReads data f i) : decode (.ee f data) = .ok i := by
  have cell : ∀ {a : Byte}, a.toNat ≤ 127 → a < 128 := fun h => Nat.lt_succ_of_le h
  show decodeEe f data = .ok i
  cases h with
  | read a ha | write a ha | erase a ha => rw [decodeEe_parts]; exact if_pos (cell ha)
  | ewen | ewds | eral | wral => rfl

theorem eeFrame_parts (f : BitVec 10) : f.extractLsb' 8 2 ++ f.extractLsb' 0 8 = f :=
  (BitVec.extractLsb'_append_extractLsb'_eq_extractLsb' (start₁ := 0) (len₁ := 8) rfl).trans BitVec.extractLsb'_eq_self

/-- A frame is a command or it is reserved (R126). -/
theorem eeReads_or_reserved (f : BitVec 10) (data : U16) :
    (∃ i, EeReads data f i) ∨ decode (.ee f data) = .error .reservedEeFrame := by
  have classes : ∀ cls : BitVec 2, cls = 0b00 ∨ cls = 0b10 ∨ cls = 0b01 ∨ cls = 0b11 := by decide
  obtain ⟨cls, field, rfl⟩ : ∃ (cls : BitVec 2) (field : Byte), cls ++ field = f := ⟨_, _, eeFrame_parts f⟩
  by_cases hc : cls = 0b00
  · subst hc
    by_cases h1 : field = 0b11000000
    · subst h1; exact .inl ⟨_, .ewen⟩
    by_cases h2 : field = 0b00000000
    · subst h2; exact .inl ⟨_, .ewds⟩
    by_cases h3 : field = 0b10000000
    · subst h3; exact .inl ⟨_, .eral⟩
    by_cases h4 : field = 0b01000000
    · subst h4; exact .inl ⟨_, .wral⟩
    · refine .inr ((decodeEe_parts _ _ _).trans ?_)
      rw [if_pos rfl, if_neg h1, if_neg h2, if_neg h3, if_neg h4]
  · by_cases ha : field < 128
    · have hcell : field.toNat ≤ 127 := Nat.le_of_lt_succ ha
      rcases classes cls with rfl | rfl | rfl | rfl
      · exact absurd rfl hc
      · exact .inl ⟨_, .read field hcell⟩
      · exact .inl ⟨_, .write field hcell⟩
      · exact .inl ⟨_, .erase field hcell⟩
    · refine .inr ((decodeEe_parts _ _ _).trans ?_)
      rw [if_neg hc, if_neg ha]

theorem eeReads_of_decode {f : BitVec 10} {data : U16} {i : Instr} (h : decode (.ee f data) = .ok i) : EeReads data f i := by
  rcases eeReads_or_reserved f data with ⟨j, hj⟩ | e
  · cases (decode_of_eeReads hj).symm.trans h
    exact hj
  · cases e.symm.trans h

theorem decode_ee_iff {f : BitVec 10} {data : U16} {i : Instr} : decode (.ee f data) = .ok i ↔ EeReads data f i :=
  ⟨eeReads_of_decode, decode_of_eeReads⟩

/-- The frames that R126 calls reserved: a class-00 field that is no row of the table, or a cell above 127. -/
def EeReserved (f : BitVec 10) : Prop :=
  (f.toNat < 256 ∧ f ≠ 0b0011000000 ∧ f ≠ 0b0000000000 ∧ f ≠ 0b0010000000 ∧ f ≠ 0b0001000000) ∨
    (256 ≤ f.toNat ∧ 128 ≤ f.toNat % 256)

theorem not_eeReserved_cell (cls : BitVec 2) {a : Byte} (hcls : cls ≠ 0b00) (ha : a.toNat ≤ 127) : ¬ EeReserved (cls ++ a) := by
  have hpos : 0 < cls.toNat := Nat.pos_of_ne_zero fun h => hcls (BitVec.eq_of_toNat_eq h)
  have hf : (cls ++ a).toNat = cls.toNat * 256 + a.toNat := toNat_append_byte cls a
  rintro (⟨h, -⟩ | ⟨-, h⟩) <;> rw [hf] at h <;> omega

theorem EeReads.not_reserved {data : U16} {f : BitVec 10} {i : Instr} (h : EeReads data f i) : ¬ EeReserved f := by
  cases h with
  | read a ha | write a ha | erase a ha => exact not_eeReserved_cell _ (by decide) ha
  | ewen | ewds | eral | wral => unfold EeReserved; decide

/-! ### Host selectors (R131, R132) -/

/-- A selector is a row of the table, which names the instruction, or it is refused (R132). -/
theorem decodeHost_cases (w : U16) (ops : Operands) :
    (∃ row ∈ hostRows, row.1 = w.toNat ∧ decode (.host w ops) = .ok (row.2 ops)) ∨
      (w.toNat ∉ hostRows.map (·.1) ∧ decode (.host w ops) = .error .badSelector) := by
  cases h : hostRows.find? (fun row => row.1 == w.toNat) with
  | some row =>
    have hw := List.find?_some h
    exact .inl ⟨row, List.mem_of_find?_eq_some h, beq_iff_eq.1 hw, by simp only [decode, decodeHost, h]⟩
  | none =>
    refine .inr ⟨fun hm => ?_, by simp only [decode, decodeHost, h]⟩
    obtain ⟨row, hrow, hw⟩ := List.mem_map.1 hm
    exact List.find?_eq_none.1 h row hrow (beq_iff_eq.2 hw)

/-- Every row of the table stands under the selector of its instruction (R131). -/
theorem selectorOf_row {row : HostRow} (h : row ∈ hostRows) (ops : Operands) : selectorOf (row.2 ops) = some row.1 := by
  have table : hostRows.map (fun row => selectorOf (row.2 ops)) = hostRows.map (fun row => some row.1) := rfl
  exact List.map_inj_left.1 table row h

theorem selectorOf_of_decode {w : U16} {ops : Operands} {i : Instr} (h : decode (.host w ops) = .ok i) :
    selectorOf i = some w.toNat := by
  rcases decodeHost_cases w ops with ⟨row, hrow, hw, e⟩ | ⟨-, e⟩
  · cases e.symm.trans h
    rw [← hw]
    exact selectorOf_row hrow ops
  · cases e.symm.trans h

theorem selector_statement (i : Instr) : Laws.Selector.Statement i := by
  cases i <;> exact ⟨rfl, rfl⟩

/-- The encoder writes an instruction that has a selector under it (R131). -/
theorem encode_of_selectorOf {i : Instr} {w : U16} (h : selectorOf i = some w.toNat) : ∃ ops, encode i = .host w ops := by
  have hi := selector_statement i
  unfold Laws.Selector.Statement at hi
  cases e : encode i with
  | host w' ops =>
    rw [e] at hi
    have hw : w'.toNat = w.toNat := Option.some.inj (hi.1.symm.trans h)
    exact ⟨ops, by rw [BitVec.eq_of_toNat_eq hw]⟩
  | wire _ | ee _ _ => rw [e] at hi; cases hi.1.symm.trans h

theorem validSelector_of_mem {w : Nat} (h : w ∈ hostRows.map (·.1)) : validSelector w := by
  revert w
  unfold validSelector
  decide

theorem mem_of_validSelector {w : Nat} (h : validSelector w) : w ∈ hostRows.map (·.1) := by
  have session : ∀ o ∈ [0x01, 0x02, 0x03, 0x04, 0x05, 0x10], 256 * o + 0xFF ∈ hostRows.map (·.1) := by decide
  have every : ∀ v < 9, ∀ o ∈ [0x20, 0x21, 0x22, 0x30, 0x31, 0x32], 256 * o + v ∈ hostRows.map (·.1) := by decide
  have clock : ∀ o ∈ [0x40, 0x41], 256 * o + 0x03 ∈ hostRows.map (·.1) := by decide
  have eeprom : ∀ o < 0x5B, 0x50 ≤ o → 256 * o + 0x06 ∈ hostRows.map (·.1) := by decide
  have camera : 256 * 0x60 + 0x07 ∈ hostRows.map (·.1) := by decide
  have tama5 : ∀ o < 0x75, 0x70 ≤ o → 256 * o + 0x08 ∈ hostRows.map (·.1) := by decide
  rw [← Nat.div_add_mod w 256]
  rcases h with ⟨hv, ho⟩ | ⟨hv, ho⟩ | ⟨hv, ho⟩ | ⟨hv, h1, h2⟩ | ⟨hv, ho⟩ | ⟨hv, h1, h2⟩
  · rw [hv]; exact session _ ho
  · exact every _ (Nat.lt_succ_of_le hv) _ ho
  · rw [hv]; exact clock _ ho
  · rw [hv]; exact eeprom _ (Nat.lt_succ_of_le h2) h1
  · rw [hv, ho]; exact camera
  · rw [hv]; exact tama5 _ (Nat.lt_succ_of_le h2) h1

theorem decode_host_ok_iff (w : U16) (ops : Operands) : (∃ i, decode (.host w ops) = .ok i) ↔ validSelector w.toNat := by
  rcases decodeHost_cases w ops with ⟨row, hrow, hw, e⟩ | ⟨hm, e⟩
  · exact ⟨fun _ => validSelector_of_mem (List.mem_map.2 ⟨row, hrow, hw⟩), fun _ => ⟨_, e⟩⟩
  · exact ⟨fun ⟨_, h⟩ => (by cases e.symm.trans h), fun h => absurd (mem_of_validSelector h) hm⟩

/-! ### The encoder and the decoder -/

/-- Settles O10: a frame is read back through `WireReads` and `EeReads`, an EEPROM cell in its range; a host operation is the first row of
the table with its selector. -/
theorem decodeOfEncode : Obligations.DecodeOfEncode := by
  intro i hw
  have cell : ∀ {a : Byte}, decide (a < 128) = true → a.toNat ≤ 127 := fun h => Nat.le_of_lt_succ (of_decide_eq_true h)
  cases i with
  | hsProbe => exact decode_of_wireReads (.probe [])
  | readFrame addr len => exact decode_of_wireReads (.read addr len [])
  | writeFrame addr value => exact decode_of_wireReads (.write addr value [])
  | eeRead a => exact decode_of_eeReads (.read a (cell hw))
  | eeWrite a data => exact decode_of_eeReads (.write a (cell hw))
  | eeErase a => exact decode_of_eeReads (.erase a (cell hw))
  | eeEwen => exact decode_of_eeReads .ewen
  | eeEwds => exact decode_of_eeReads .ewds
  | eeEral => exact decode_of_eeReads .eral
  | eeWral data => exact decode_of_eeReads .wral
  | _ => rfl

theorem WireReads.encode_frame {bytes : List Byte} {i : Instr} (h : WireReads bytes i) :
    ∃ frame rest, encode i = .wire frame ∧ bytes = frame ++ rest := by
  cases h with
  | probe rest | read _ _ rest | write _ _ rest => exact ⟨_, rest, rfl, rfl⟩

/-- Only WRITE and WRAL have data (R125), and their frames are known by the class bits. -/
theorem eeFrame_without_data {cls : BitVec 2} (a : Byte) (h0 : cls ≠ 0b00) (h1 : cls ≠ 0b01) :
    ¬ ((cls ++ a).extractLsb' 8 2 = 0b01#2 ∨ cls ++ a = 0b0001000000) := by
  have hcls : (cls ++ a).extractLsb' 8 2 = cls := BitVec.extractLsb'_append_eq_left
  rintro (h | h)
  · exact h1 (hcls.symm.trans h)
  · rw [h] at hcls
    exact h0 hcls.symm

theorem EeReads.encode_frame {data : U16} {f : BitVec 10} {i : Instr} (h : EeReads data f i) :
    encode i = .ee f (if f.extractLsb' 8 2 = 0b01#2 ∨ f = 0b0001000000 then data else 0) := by
  cases h with
  | read a _ | erase a _ => rw [if_neg (eeFrame_without_data a (by decide) (by decide))]; rfl
  | write a _ => rw [if_pos (.inl BitVec.extractLsb'_append_eq_left)]; rfl
  | ewen | ewds | eral => rfl
  | wral => rfl

/-- Settles O11: what a decoder reads is a frame of `WireReads` or `EeReads`, or stands under its selector (`selectorOf_of_decode`), and
the encoder writes just that. -/
theorem encodeOfDecode : Obligations.EncodeOfDecode := by
  intro r i h
  cases r with
  | wire bytes => exact (wireReads_of_decode h).encode_frame
  | ee f d => exact (eeReads_of_decode h).encode_frame
  | host w ops => exact encode_of_selectorOf (selectorOf_of_decode h)

/-! ### A step on a request (R53, R116, R126, R132) -/

/-- A step on a request that decodes to no instruction. -/
theorem step_rejects {s : State} {req : Request} {r : Reject} (hstop : s.stop = none) (hrun : s.run = none)
    (hreq : s.program[s.hpc]? = some req) (h : decode req = .error r) : step s = rejectRequest r s := by
  simp only [step, hstop, hrun, fetchStep, hreq, h]

/-- Settles O6: the rows of the table are the valid selectors (`decode_host_ok_iff`), each row's instruction has its selector, and an
instruction of another variant meets the second check of O23. -/
theorem selectorValidity : Obligations.SelectorValidity := by
  intro w ops
  refine ⟨decode_host_ok_iff w ops, fun i => selectorOf_of_decode, fun hw s hstop hrun hreq => ?_,
    fun i v c h hv s hc hne => ?_⟩
  · rcases decodeHost_cases w ops with ⟨_, _, _, e⟩ | ⟨-, e⟩
    · exact absurd ((decode_host_ok_iff w ops).1 ⟨_, e⟩) hw
    · exact step_rejects hstop hrun hreq e
  · obtain ⟨op, ho, -⟩ := Option.map_eq_some_iff.1 (selectorOf_of_decode h)
    exact (controllerChecks i v op s hv ho).2.1 c hc hne

/-- Settles O7: the three frames by the equations of `decodeWire`, and every other byte list is rejected as no frame
(`decode_of_noFrame`). -/
theorem wireFrameDecoding : Obligations.WireFrameDecoding := by
  refine ⟨decodeWire_probe, fun b1 b2 b3 b4 rest => ?_, fun b1 b2 b3 rest => ?_, fun bytes h s hstop hrun hreq => ?_⟩
  · exact ⟨_, _, decodeWire_read b1 b2 b3 b4 rest, toNat_join16 b1 b2, toNat_join16 b3 b4⟩
  · exact ⟨_, decodeWire_write b1 b2 b3 rest, toNat_join16 b1 b2⟩
  · rcases decode_of_noFrame h with e | e <;> exact step_rejects hstop hrun hreq e

/-- Settles O8: the frames that decode are those of `EeReads`, each of its rows one command; a reserved frame is in none of them. -/
theorem eepromFrameDecoding : Obligations.EepromFrameDecoding := by
  intro f d
  simp only [decode_ee_iff]
  refine ⟨fun a => ⟨?_, ?_⟩, fun a w => ⟨?_, ?_⟩, fun a => ⟨?_, ?_⟩, ⟨?_, ?_⟩, ⟨?_, ?_⟩, ⟨?_, ?_⟩, fun w => ⟨?_, ?_⟩,
    fun hres s hstop hrun hreq => ?_⟩
  · rintro ⟨⟩; exact ⟨rfl, ‹_›⟩
  · rintro ⟨rfl, ha⟩; exact .read a ha
  · rintro ⟨⟩; exact ⟨rfl, ‹_›, rfl⟩
  · rintro ⟨rfl, ha, rfl⟩; exact .write a ha
  · rintro ⟨⟩; exact ⟨rfl, ‹_›⟩
  · rintro ⟨rfl, ha⟩; exact .erase a ha
  · rintro ⟨⟩; rfl
  · rintro rfl; exact .ewen
  · rintro ⟨⟩; rfl
  · rintro rfl; exact .ewds
  · rintro ⟨⟩; rfl
  · rintro rfl; exact .eral
  · rintro ⟨⟩; exact ⟨rfl, rfl⟩
  · rintro ⟨rfl, rfl⟩; exact .wral
  · rcases eeReads_or_reserved f d with ⟨i, hi⟩ | e
    · exact absurd hres hi.not_reserved
    · exact step_rejects hstop hrun hreq e

/-- Settles O9: the ten words, each decoded by evaluation. -/
theorem writtenOutWords : Obligations.WrittenOutWords :=
  ⟨rfl, rfl, rfl, rfl, rfl, rfl, rfl, rfl, rfl, rfl⟩

/-! ### Operands out of range (R432) -/

/-- The procedure refuses an operand, with the state as it was. -/
def RefusesRange {α : Type} (s : State) (p : Proc α) : Prop := p s = .error (.refused .operandRange) s

section
variable {α β : Type} {s : State}

theorem RefusesRange.first {p : Proc α} {g : α → Proc β} (h : RefusesRange s p) : RefusesRange s (p >>= g) := bind_error h

theorem RefusesRange.after {p : Proc α} {g : α → Proc β} {a : α} (hp : p s = .ok a s) (hg : RefusesRange s (g a)) :
    RefusesRange s (p >>= g) := (bind_ok hp).trans hg

theorem refuseIf_refusesRange {bad : Bool} (h : bad = true) : RefusesRange s (refuseIf bad .operandRange) :=
  refuseIf_of_true h _ s

theorem checkRange_refusesRange {v max : Nat} (h : ¬ v ≤ max) : RefusesRange s (checkRange v max) :=
  refuseIf_refusesRange (decide_eq_true (Nat.lt_of_not_le h))

/-- Two checks one after the other (log 20). -/
theorem checkRanges_refusesRange {v w m n : Nat} {p : Proc α} (h : ¬ (v ≤ m ∧ w ≤ n)) :
    RefusesRange s (do checkRange v m; checkRange w n; p) := by
  by_cases hv : v ≤ m
  · exact .after (checkRange_of_le hv s) (.first (checkRange_refusesRange fun hw => h ⟨hv, hw⟩))
  · exact .first (checkRange_refusesRange hv)

/-- Two checks in one. -/
theorem refuseIf_or_refusesRange {v w m n : Nat} (h : ¬ (v ≤ m ∧ w ≤ n)) :
    RefusesRange s (refuseIf (decide (m < v) || decide (n < w)) .operandRange) :=
  refuseIf_refusesRange (by simp only [Bool.or_eq_true, decide_eq_true_eq]; omega)

/-- A session operation on a connected session checks its two operands first. -/
theorem connected_refusesRange {op : OpName} {v w m n : Nat} {p : Proc α} (hs : s.connected = true) (h : ¬ (v ≤ m ∧ w ≤ n)) :
    RefusesRange s (do requireConnected op; checkRange v m; checkRange w n; p) :=
  .after (requireConnected_of_connected op hs) (checkRanges_refusesRange h)

theorem RefusesRange.controller {v : Variant} {op : OpName} {b : Controller → Proc Value} (hd : s.Drives v)
    (h : ∀ c, RefusesRange s (b c)) : RefusesRange s (withController v op b) := by
  obtain ⟨c, hc, hv, hn⟩ := hd.controller
  exact (withController_of_drives hc hv hn op b).trans (h c)

theorem selectRomBank_refusesRange {v : Variant} {n : Nat} (h : ¬ n ≤ maxRomBank v) : RefusesRange s (selectRomBank v n) := by
  cases v <;> exact .first (checkRange_refusesRange h)

theorem selectRamBank_refusesRange {v : Variant} {n : Nat} (h : ¬ n ≤ 0xFF) : RefusesRange s (selectRamBank v n) := by
  cases v <;> exact .first (checkRange_refusesRange h)

theorem eepromRead_refusesRange {a : Nat} (h : ¬ a ≤ 127) : RefusesRange s (eepromRead a) := .first (checkRange_refusesRange h)

theorem eepromWrite_refusesRange {a w : Nat} (h : ¬ (a ≤ 127 ∧ w ≤ 0xFFFF)) : RefusesRange s (eepromWrite a w) :=
  .first (refuseIf_or_refusesRange h)

theorem eepromErase_refusesRange {a : Nat} (h : ¬ a ≤ 127) : RefusesRange s (eepromErase a) := .first (checkRange_refusesRange h)

end

theorem bodyOf_refusesRange (i : Instr) {s : State} (ha : s.Admits i) (hw : i.wf = false) : RefusesRange s (bodyOf i) := by
  have hn : controllerOf i = none → operationOf i ≠ none → i ≠ .connect → s.connected = true := by
    intro h1 h2 hi
    simp only [State.Admits, h1] at ha
    exact (ha h2).2 hi
  have out : ∀ {p : Prop} [Decidable p], decide p = false → ¬ p := fun h => of_decide_eq_false h
  have out2 : ∀ {p q : Prop} [Decidable p] [Decidable q], (decide p && decide q) = false → ¬ (p ∧ q) :=
    fun h => of_decide_eq_false ((Bool.decide_and _ _).trans h)
  have cell : ∀ {a : Byte}, decide (a < 128) = false → ¬ a.toNat ≤ 127 :=
    fun h ha => of_decide_eq_false h (Nat.lt_succ_of_le ha)
  cases i with
  | eeRead _ => exact .first (eepromRead_refusesRange (cell hw))
  | eeWrite _ _ => exact .first (eepromWrite_refusesRange fun h => cell hw h.1)
  | eeErase _ => exact .first (eepromErase_refusesRange (cell hw))
  | read _ _ | write _ _ | readEc _ _ _ | writeEc _ _ =>
    exact .first (connected_refusesRange (hn rfl nofun nofun) (out2 hw))
  | selectRomBankBase _ | selectRomBankMbc1 _ | selectRomBankMbc2 _ | selectRomBankMbc3 _ | selectRomBankMbc5 _
  | selectRomBankMbc6 _ | selectRomBankMbc7 _ | selectRomBankCamera _ | selectRomBankTama5 _ =>
    exact .controller ha fun _ => .first (selectRomBank_refusesRange (out hw))
  | selectRamBankBase _ | selectRamBankMbc1 _ | selectRamBankMbc2 _ | selectRamBankMbc3 _ | selectRamBankMbc5 _
  | selectRamBankMbc6 _ | selectRamBankMbc7 _ | selectRamBankCamera _ | selectRamBankTama5 _ =>
    exact .controller ha fun _ => .first (selectRamBank_refusesRange (out hw))
  | readRtc _ _ => exact .controller ha fun _ => .first (.first (checkRange_refusesRange (out hw)))
  | eepromShiftIn _ | eepromShiftInout _ => exact .controller ha fun _ => .first (checkRange_refusesRange (out hw))
  | eepromRead _ => exact .controller ha fun _ => .first (eepromRead_refusesRange (out hw))
  | eepromWrite _ _ => exact .controller ha fun _ => .first (eepromWrite_refusesRange (out2 hw))
  | eepromErase _ => exact .controller ha fun _ => .first (eepromErase_refusesRange (out hw))
  | eepromWral _ => exact .controller ha fun _ => .first (.first (checkRange_refusesRange (out hw)))
  | tama5WriteReg _ _ | tama5RamWrite _ _ => exact .controller ha fun _ => .first (.first (refuseIf_or_refusesRange (out2 hw)))
  | tama5ReadReg _ _ | tama5RamRead _ _ => exact .controller ha fun _ => .first (.first (checkRange_refusesRange (out hw)))
  | _ => cases hw

/-- Settles O25: past the checks of an admitted operation each body begins with the checks of its operands. -/
theorem operandsOutOfRange : Obligations.OperandsOutOfRange :=
  fun i s ha hw => (exec_body i s).trans (runOp_refuses (bodyOf_refusesRange i (s := s.idle) ha hw))

/-! ### The EEPROM commands by themselves (R125, R335 to R343) -/

/-- Settles O32: each command's body runs its script (`eepromRead_runs` and the six beside it). -/
theorem eepromFramesComplete : Obligations.EepromFramesComplete := by
  intro s
  refine ⟨fun a w ha hs => ?_, fun a w zeros ha hz hs => ?_, fun a zeros ha hz hs => ?_, fun hs => ?_, fun hs => ?_,
    fun zeros hz hs => ?_, fun w zeros hz hs => ?_⟩
  · exact runOp_completes ((eepromRead_runs w ha).map Value.word) hs
  · exact runOp_completes (eepromWrite_runs w ha hz).unit hs
  · exact runOp_completes (eepromErase_runs ha hz).unit hs
  · exact runOp_completes eepromEwen_runs.unit hs
  · exact runOp_completes eepromEwds_runs.unit hs
  · exact runOp_completes (eepromEral_runs hz).unit hs
  · exact runOp_completes (eepromWral_runs w hz).unit hs

end Sys2Proof.Machine

/-!
PROOFS of the statements of 40_session.md. A session operation ends as the run of its body on the script says
(`exec_session_completes`, `exec_session_fails`), a dump or a restore as that of the procedure its variants share (`bodyOf_dumpRom`,
`bodyOf_restoreRam`). What `connect` sends is counted along its two phases and its header (`ProbesThenFills`).
-/

namespace Sys2Proof.Machine

/-! ### The checks of a session operation (R150, R421, R433) -/

theorem requireConnected_of_unconnected (op : OpName) {s : State} (h : s.connected = false) :
    requireConnected op s = .error (.raised .notConnected (.op op)) s := by
  simp [requireConnected, h]

theorem bodyOf_unconnected {i : Instr} {op : OpName} {s : State} (hv : controllerOf i = none) (ho : operationOf i = some op)
    (hi : i ≠ .connect) (hs : s.connected = false) : bodyOf i s = .error (.raised .notConnected (.op op)) s := by
  have h := requireConnected_of_unconnected op hs
  cases i with
  | connect => exact absurd rfl hi
  | read _ _ | write _ _ | readEc _ _ _ | writeEc _ _ => cases ho; exact bind_error (bind_error h)
  | detect => cases ho; exact bind_error h
  | hsProbe | readFrame _ _ | writeFrame _ _ => cases ho
  | eeRead _ | eeWrite _ _ | eeErase _ | eeEwen | eeEwds | eeEral | eeWral _ => cases ho
  | _ => cases hv

/-- Settles O24: every session operation but `connect` begins with the check of the connection, and `connect` with that of its
absence. -/
theorem sessionChecks : Obligations.SessionChecks := by
  refine ⟨fun i op s hv ho hi hs => ?_, fun s hs => ?_⟩
  · exact (exec_body i s).trans (runOp_raises (bodyOf_unconnected (s := s.idle) hv ho hi hs))
  · exact runOp_refuses (connect_of_connected (s := s.idle) hs)

/-! ### `read`, `write`, `read_ec`, `write_ec` (R160 to R183) -/

section

variable {i : Instr} {cs : Script} {rom ram : Option Nat} {s : State}

/-- A session operation on a connected session completes where its body runs. -/
theorem exec_session_completes {v : Value} (hn : s.connected = true) (hs : s.Answers cs)
    (h : Runs s.cfg true (bodyOf i) cs rom ram v) : exec i s = .next (s.completes i cs rom ram v) := by
  rw [← hn] at h
  exact (exec_body i s).trans (runOp_completes h hs)

/-- A session operation on a connected session fails where its body raises. -/
theorem exec_session_fails {k : ErrKind} {info : Info} (hn : s.connected = true) (hs : s.Answers cs)
    (h : Raises s.cfg true (bodyOf i) cs rom ram k info) : exec i s = .next (s.fails i cs rom ram k info) := by
  rw [← hn] at h
  exact (exec_body i s).trans (runOp_fails h hs)

end

/-- Settles O35: the body of `read` runs one READ frame, that of `write` one WRITE frame. -/
theorem readAndWriteComplete : Obligations.ReadAndWriteComplete := by
  intro s hn
  refine ⟨fun addr length data h1 h2 h3 hl hs => ?_, fun addr value h1 h2 hs => ?_⟩
  · exact exec_session_completes hn hs ((rawRead_runs h1 h2 h3 hl).map Value.bytes)
  · exact exec_session_completes hn hs (rawWrite_runs h1 h2).unit

/-- Settles O36: `read_ec` runs the reads of its chunks, each to the first two that agree (`readEc_runs`). -/
theorem readEcCompletes : Obligations.ReadEcCompletes :=
  fun _ _ _ _ _ hn h1 h2 hfit hs => exec_session_completes hn hs ((readEc_runs h1 h2 hfit).map Value.bytes)

/-- Settles O37: the chunk that never agrees raises at its last read, whatever chunks came before it (`readEc_raises`). -/
theorem readEcUnstable : Obligations.ReadEcUnstable :=
  fun _ _ _ _ _ _ hn h1 h2 h3 hgood hbad hnever hlen hs =>
    exec_session_fails hn hs (readEc_raises h1 h2 h3 hgood hbad hnever hlen).first

/-- Read-backs of another value, then one of the value, are the rounds of a `write_ec` that ends (R180, R181). -/
theorem weFits_of_wrong {cfg : Params} {value : Nat} {wrong : List Byte} (hv : value ≤ 0xFF) (hw : ∀ r ∈ wrong, r.toNat ≠ value)
    (hlim : withinRounds cfg.writeEcLimit (wrong.length + 1) = true) :
    weFits cfg 0xFF (BitVec.ofNat 8 value) (wrong ++ [BitVec.ofNat 8 value]) = true := by
  rw [weFits, List.length_append, List.length_singleton, hlim, Bool.and_true]
  exact endsAt_append (p := fun r => decide (r &&& 0xFF = BitVec.ofNat 8 value &&& 0xFF)) (decide_eq_true rfl) wrong
    fun r hr => decide_eq_false (and_full_ne (hw r hr) hv)

/-- Settles O39: the rounds of `write_ec` end at the first read-back that matches (`writeEc_runs`). -/
theorem writeEcCompletes : Obligations.WriteEcCompletes :=
  fun _ _ _ _ hn h1 h2 hw hlim hs =>
    exec_session_completes hn hs (writeEc_runs h1 h2 (weFits_of_wrong h2 hw hlim)).unit

/-! ### The bound of `write_ec` before its first frame (R183, R434) -/

theorem weRounds_at_limit {s : State} {r : WeRegs} (h : weLimitReached s.cfg.writeEcLimit r.rounds = true) (m : Byte) (fuel : Nat) :
    weRounds m (fuel + 1) r s = .error (.raised .deviceTimeout (.addr .writeEc r.addr)) s :=
  congrFun (if_pos h) s

/-- With WRITE_EC_LIMIT 0 the first round is not begun, and only the registers of `write_ec` have been written. -/
theorem writeEc_at_limit_zero {s : State} {addr value : Nat} (m : Byte) (hn : s.connected = true)
    (hlim : s.cfg.writeEcLimit = some 0) (h1 : addr ≤ 0xFFFF) (h2 : value ≤ 0xFF) :
    writeEc addr value m s = .error (.raised .deviceTimeout (.addr .writeEc (toU16 addr)))
      { s with we := some ⟨toU16 addr, toByte value, 0⟩ } := by
  rw [writeEc, bind_ok (requireConnected_of_connected _ hn), bind_ok (checkRange_of_le h1 s), bind_ok (checkRange_of_le h2 s)]
  exact (bind_ok (p := setWe _) (a := ()) rfl).trans (weRounds_at_limit (by simp [weLimitReached, hlim]) m _)

/-- Settles O30: the bound comes before the frame, where a request would be looked at, so the error leaves it pending. -/
theorem boundBeforeCancellation : Obligations.BoundBeforeCancellation := by
  intro s addr value hn hlim h1 h2
  have hb : bodyOf (.writeEc addr value) s.idle = _ := bind_error (writeEc_at_limit_zero (s := s.idle) 0xFF hn hlim h1 h2)
  rw [exec_eq, hb]
  exact congrArg Host.Outcome.next (State.raiseError_of_idle rfl)

/-! ### WRITE_EC_LIMIT in `write_ec` and `restore_ram` (R181, R290, R291, R361, R401) -/

/-- The variants with RAM windows share one `restore_ram` (R290). -/
theorem bodyOf_restoreRam {v : Variant} (hv : hasWindows v = true) (image : List Byte) :
    bodyOf (restoreRamOf v image) =
      withController v .restoreRam fun c => do restoreRamStd v c.ramSizeBytes.toNat image; return .unit := by
  cases v with
  | base | mbc1 | mbc3 | mbc5 | mbc6 | camera => rfl
  | mbc2 | mbc7 | tama5 => cases hv

theorem ne_mbc7_of_hasWindows {v : Variant} (h : hasWindows v = true) : v ≠ .mbc7 := by
  rintro rfl
  cases h

theorem State.Drives.of_controller {s : State} {c : Controller} {v : Variant} (hn : s.connected = true) (hc : s.ctrl = some c)
    (hv : c.variant = v) : s.Drives v :=
  ⟨hn, by rw [hc, ← hv]; rfl⟩

/-- Settles O40: in each of the five operations the loop of the unit concerned raises at its bound, after the units before it have
run (`writeEc_raises`, `restoreRamStd_raises` and the three beside it). -/
theorem writeEcTimesOut : Obligations.WriteEcTimesOut := by
  intro s k hk
  refine ⟨fun addr value wrong hn h1 h2 hl hw hs => ?_,
    fun c v done part b wrong rest image hn hc hv hwin himg hsize hroom hlen hpart hbank hmax hfit hpfit hl hw hs => ?_,
    fun image done v wrong rest hd hlen himg hfit hl hw hs => ?_,
    fun done w rounds rest image hd hlen himg hfit hl hr hs => ?_,
    fun polls done v rounds rest image hd hu hlen himg hfit hl hr hs => ?_⟩
  · exact exec_session_fails hn hs (writeEc_raises hk h1 h2 hl fun r hr => and_full_ne (hw r hr) h2).first
  · subst himg
    obtain ⟨hpos, hfour⟩ := windowsPerBank_le hbank
    rw [exec_body, bodyOf_restoreRam hwin]
    refine runOp_drives_fails (.of_controller hn hc hv) hs fun d hd => ?_
    cases hc.symm.trans hd
    exact (restoreRamStd_raises hk (ne_mbc7_of_hasWindows hwin) hpos hfour hsize (hsize ▸ hroom) hmax hlen hpart hfit hpfit hl hw).first
  · exact runOp_drives_fails hd hs fun _ _ => (restoreRamMbc2_raises hk hlen himg hfit hl hw).first
  · subst himg hl
    have h := restoreRamMbc7_raises (cs := []) hlen hfit hr (.inl ⟨hk, rfl, rfl, rfl⟩)
    rw [List.append_nil] at h
    exact runOp_drives_fails hd hs fun _ _ => h.first
  · subst himg hl
    exact runOp_drives_fails hd hs fun _ _ => (restoreRamTama5_raises hlen hu hfit hr hk).first

/-! ### A chunk that never agrees ends `dump_rom` (R273, R274) -/

/-- The windows that `dump_rom` of a variant reads its banks from (R270, R272). -/
def dumpWindow : Variant → Nat → Nat
  | .mbc1 => mbc1Window
  | _ => stdWindow

theorem dumpWindow_eq (v : Variant) (n : Nat) : dumpWindow v n = romWindow v n := by
  cases v with
  | mbc1 => exact mbc1Window_eq n
  | _ => rfl

/-- Every variant but MBC6 shares one `dump_rom` (R270). -/
theorem bodyOf_dumpRom {v : Variant} (hv : v ≠ .mbc6) (progress : Bool) (limit : Option Nat) :
    bodyOf (dumpRomOf v progress limit) = withController v .dumpRom fun c => do
      return .bytes (← dumpRom v (dumpWindow v) c.romBankCount.toNat progress limit) := by
  cases v with
  | mbc6 => exact absurd rfl hv
  | _ => rfl

/-- `dump_rom` fails where the procedure that the variants share raises. -/
theorem exec_dumpRom_fails {s : State} {c : Controller} {v : Variant} {progress : Bool} {limit : Option Nat} {cs : Script}
    {rom ram : Option Nat} {k : ErrKind} {info : Info} (hn : s.connected = true) (hc : s.ctrl = some c) (hv : c.variant = v)
    (h6 : v ≠ .mbc6) (hs : s.Answers cs)
    (h : Raises s.cfg true (dumpRom v (dumpWindow v) c.romBankCount.toNat progress limit) cs rom ram k info) :
    exec (dumpRomOf v progress limit) s = .next (s.fails (dumpRomOf v progress limit) cs rom ram k info) := by
  rw [exec_body, bodyOf_dumpRom h6]
  refine runOp_drives_fails (.of_controller hn hc hv) hs fun d hd => ?_
  cases hc.symm.trans hd
  exact h.first

theorem maxRomBank_eq (v : Variant) : maxRomBank v = if v = .mbc5 then 0x1FF else 0xFF := by
  cases v <;> rfl

/-- The shadow that the last select writes is the last bank's, whatever banks came before it. -/
theorem romSelectRam_or_lastRam (v : Variant) (a k n : Nat) : (romSelectRam v a).or (lastRam v k n) = romSelectRam v a := by
  unfold lastRam
  split
  · exact Option.or_none
  · exact romSelectRam_or v _ _

/-- `dump_rom` whose bank `banks.length + 1` has a chunk that never agrees (R273). -/
theorem dumpRom_raises_unstable {cfg : Params} {v : Variant} {count : Nat} {progress : Bool} {l : Nat} {polls : List (List Byte)}
    {bank0 : EcReads} {banks : List EcReads} {good : EcReads} {bad : List (List Byte)} (hcount : banks.length + 1 < count)
    (hmax : banks.length + 1 ≤ maxRomBank v) (hu : v = .tama5 → unlockFits cfg none polls = true)
    (hfit : ∀ b ∈ bank0 :: banks, ecFits cfg (some l) 0x4000 b = true) (h8 : good.length < 8)
    (hgood : ∀ reads ∈ good, agreesAtEnd cfg reads = true ∧ reads.length ≤ l + 2 ∧ ∀ d ∈ reads, d.length = 0x800)
    (hbad : bad.length = l + 2) (hnever : neverAgrees cfg bad = true) (hlen : ∀ d ∈ bad, d.length = 0x800) :
    Raises cfg true (dumpRom v (dumpWindow v) count progress (some l))
      (dumpRomScript cfg v polls progress bank0 banks ++
        (romSelectScript cfg v polls (banks.length + 1) ++ ecScript cfg (romWindow v (banks.length + 1)) (good ++ [bad])))
      (some (banks.length + 1)) (romSelectRam v (banks.length + 1)) .readUnstable
      (.chunk (romWindow v (banks.length + 1) + 0x800 * good.length) (l + 2)) := by
  have h := dumpRom_raises (progress := progress) (polls := polls) hcount (Nat.le_of_succ_le hmax) (dumpWindow_eq v) (fun ht _ => hu ht)
    hfit fun g => by
      rw [dumpWindow_eq]
      exact selectRead_raises (g := g) (size := 0x4000) (selectRomBank_runs hmax hu) (by decide) (by omega) hgood hbad hnever
        fun d hd => by rw [hlen d hd]; omega
  rwa [romSelectRam_or_lastRam, Option.some_or] at h

/-- Settles O58: the chunk that never agrees raises in bank 0, in a later bank, or in a block of MBC6, after the banks before it have
been read and reported (`dumpRom_raises_bank0`, `dumpRom_raises_unstable`, `dumpRomMbc6_raises`). -/
theorem dumpRomAborts : Obligations.DumpRomAborts := by
  intro s c progress l good bad hn hc hgood hbad hnever
  refine ⟨fun v hv h6 h8 hlen hs => ?_, fun v k polls bank0 banks hv h6 h8 hlen hk hcount hmax hu hfit hs => ?_,
    fun blocks hv hcount hmax hblock hfit h8 hlen hs => ?_⟩
  · exact exec_dumpRom_fails hn hc hv h6 hs (dumpRom_raises_bank0 h8 hgood hbad hnever hlen)
  · subst hk
    rw [← maxRomBank_eq] at hmax
    exact exec_dumpRom_fails hn hc hv h6 hs (dumpRom_raises_unstable hcount hmax hu hfit h8 hgood hbad hnever hlen)
  · refine runOp_drives_fails (.of_controller hn hc hv) hs fun d hd => ?_
    cases hc.symm.trans hd
    exact (dumpRomMbc6_raises hcount hmax hblock hfit h8 hgood hbad hnever hlen).first

/-! ### What `connect` sends (R151, R153, R154) -/

/-- At most `p` probes were sent, then at most `f` fill bytes, and nothing else. -/
def ProbesThenFills (fill : Byte) (p f : Nat) {α : Type} (s : State) (r : EStateM.Result Halt State α) : Prop :=
  ∃ evs probes fills, (endState r).traceRev = evs ++ s.traceRev ∧ probes ≤ p ∧ fills ≤ f ∧
    sentOf evs.reverse = List.replicate probes 0x9A ++ List.replicate fills fill

section

variable {α β : Type} {fill : Byte} {s : State}

theorem ProbesThenFills.of_none {r : EStateM.Result Halt State α} (h : (endState r).traceRev = s.traceRev) (p f : Nat) :
    ProbesThenFills fill p f s r :=
  ⟨[], 0, 0, h, Nat.zero_le p, Nat.zero_le f, rfl⟩

theorem ProbesThenFills.mono {p p' f f' : Nat} {r : EStateM.Result Halt State α} (h : ProbesThenFills fill p f s r) (hp : p ≤ p')
    (hf : f ≤ f') : ProbesThenFills fill p' f' s r := by
  obtain ⟨evs, probes, fills, htr, h1, h2, hsent⟩ := h
  exact ⟨evs, probes, fills, htr, h1.trans hp, h2.trans hf, hsent⟩

/-- One procedure after another, of which the second sends no probe where the first has sent fill bytes. -/
theorem ProbesThenFills.bind {p p' f f' : Nat} {q : Proc α} {g : α → Proc β} (h : ProbesThenFills fill p f s (q s))
    (hg : ∀ a t, q s = .ok a t → ProbesThenFills fill p' f' t (g a t)) (hpf : f = 0 ∨ p' = 0) :
    ProbesThenFills fill (p + p') (f + f') s ((q >>= g) s) := by
  rcases bind_cases q g s with ⟨a, t, e, eq⟩ | ⟨x, t, e, eq⟩
  · obtain ⟨evs, n, m, htr, hn, hm, hsent⟩ := h
    obtain ⟨evs', n', m', htr', hn', hm', hsent'⟩ := hg a t e
    rw [e] at htr
    refine ⟨evs' ++ evs, n + n', m + m', ?_, Nat.add_le_add hn hn', Nat.add_le_add hm hm', ?_⟩
    · rw [eq, htr', show t.traceRev = _ from htr, List.append_assoc]
    · rw [List.reverse_append, sentOf_append, hsent, hsent']
      rcases hpf with rfl | rfl
      · simp [Nat.le_zero.1 hm, ← List.append_assoc]
      · simp [Nat.le_zero.1 hn']
  · rw [eq]
    rw [e] at h
    exact h.mono (Nat.le_add_right p p') (Nat.le_add_right f f')

/-- What is sent of a frame of equal bytes: all of it, a first part where the procedure waits, or nothing where it is cancelled. -/
theorem SentFrame.replicate {n : Nat} {b : Byte} {r : EStateM.Result Halt State α} (h : SentFrame (List.replicate n b) s r) :
    ∃ evs k, (endState r).traceRev = evs ++ s.traceRev ∧ k ≤ n ∧ sentOf evs.reverse = List.replicate k b := by
  rcases h with ⟨t, rfl, ht⟩ | ⟨evs, htr, -, hsent⟩ | ⟨evs, t, c, more, rfl, htr, -, hsent⟩
  · exact ⟨[], 0, ht, Nat.zero_le n, rfl⟩
  · exact ⟨evs, n, htr, Nat.le_refl n, hsent⟩
  · obtain ⟨hk, he⟩ := List.prefix_replicate_iff.1 ⟨_, hsent⟩
    exact ⟨evs, _, htr, hk, he⟩

theorem probe_probesThenFills (s : State) : ProbesThenFills fill 1 0 s (probe s) := by
  obtain ⟨evs, k, htr, hk, hsent⟩ := SentFrame.replicate (n := 1) (probe_sent s)
  exact ⟨evs, k, 0, htr, hk, Nat.le_refl 0, by rw [hsent]; exact (List.append_nil _).symm⟩

theorem headerIn_probesThenFills (s : State) : ProbesThenFills s.cfg.fillByte 0 23 s (headerIn s) := by
  obtain ⟨evs, k, htr, hk, hsent⟩ := SentFrame.replicate (beginFrame_then (dataIn_sent (Config.hdrLen + 2) s))
  exact ⟨evs, 0, k, htr, Nat.le_refl 0, hk, hsent⟩

theorem setHs_probesThenFills (r : HsRegs) (s : State) : ProbesThenFills fill 0 0 s (setHs r s) := .of_none rfl 0 0

theorem handshakeLoop_probesThenFills (phase : HsPhase) (number : Nat) (magic : Byte) (left : Nat) : ∀ (attempts : Nat) (s : State),
    ProbesThenFills fill left 0 s (handshakeLoop phase number magic left attempts s) := by
  induction left with
  | zero => exact fun _ _ => .of_none rfl 0 0
  | succ left ih =>
    intro attempts s
    refine ((probe_probesThenFills s).bind (p' := left) (f' := 0) (fun r t _ => ?_) (.inl rfl)).mono (Nat.add_comm 1 left).le le_rfl
    refine ((setHs_probesThenFills _ t).bind (p' := left) (f' := 0) (fun _ u _ => ?_) (.inl rfl)).mono (Nat.zero_add left).le le_rfl
    split
    · exact .of_none rfl left 0
    · exact ih (attempts + 1) u

/-- A handshake phase sends at most HS_LIMIT probes (R151, R153). -/
theorem handshake_probesThenFills (phase : HsPhase) (number : Nat) (magic : Byte) (s : State) :
    ProbesThenFills fill 100 0 s (handshake phase number magic s) :=
  (setHs_probesThenFills _ s).bind (fun _ t _ => handshakeLoop_probesThenFills phase number magic Config.hsLimit 0 t) (.inl rfl)

theorem checkHeader_probesThenFills (bytes : List Byte) (s : State) : ProbesThenFills fill 0 0 s (checkHeader bytes s) := by
  unfold checkHeader
  split <;> exact .of_none rfl 0 0

/-- The header phase sends at most 23 fill bytes (R154). -/
theorem readHeader_probesThenFills (attempts : Nat) (s : State) :
    ProbesThenFills s.cfg.fillByte 0 23 s (readHeader attempts s) := by
  refine ProbesThenFills.bind (p' := 0) (f' := 23) (setHs_probesThenFills _ s) (fun _ t e => ?_) (.inl rfl)
  cases e
  refine ProbesThenFills.bind (p' := 0) (f' := 0) (headerIn_probesThenFills _) (fun bytes u _ => ?_) (.inr rfl)
  exact (setHs_probesThenFills _ u).bind (fun _ v _ => checkHeader_probesThenFills bytes v) (.inl rfl)

theorem handshake_cfg {phase : HsPhase} {number : Nat} {magic : Byte} {n : Nat} {t : State}
    (e : handshake phase number magic s = .ok n t) : t.cfg = s.cfg := by
  have h := (Built.ends (P := s.cfg) (conn := s.connected) (rom := false) (ram := false) (K := fun _ => True)
    (handshake_built phase number magic trivial) s rfl rfl).within.cfg
  rwa [e] at h

theorem connectRead_probesThenFills (s : State) : ProbesThenFills s.cfg.fillByte 200 23 s (connectRead s) := by
  refine ProbesThenFills.bind (p' := 100) (f' := 23) (handshake_probesThenFills _ _ _ s) (fun _ t e1 => ?_) (.inl rfl)
  refine ProbesThenFills.bind (p := 0) (p' := 100) (f := 0) (f' := 23) (.of_none (r := settle t) rfl 0 0) (fun _ u e2 => ?_) (.inl rfl)
  cases e2
  refine ProbesThenFills.bind (p' := 0) (f' := 23) (handshake_probesThenFills _ _ _ t) (fun attempts u e2 => ?_) (.inl rfl)
  rw [← handshake_cfg e1, ← handshake_cfg e2]
  exact readHeader_probesThenFills attempts u

theorem connect_probesThenFills (s : State) : ProbesThenFills s.cfg.fillByte 200 23 s (connect s) := by
  cases hc : s.connected with
  | true => rw [connect_of_connected hc]; exact .of_none rfl 200 23
  | false =>
    unfold ProbesThenFills
    rw [connect_eq hc, endState_connectEnd_traceRev]
    exact connectRead_probesThenFills s

end

/-- The end of an operation sends nothing (R430, R435, R442). -/
theorem finish_sends_nothing (i : Instr) (s : State) (r : EStateM.Result Halt State Value) :
    ∃ evs, (finish i s r).traceRev = evs ++ (endState r).traceRev ∧ sentOf evs.reverse = [] := by
  match r with
  | .ok _ _ | .error (.raised _ _) _ | .error .cancelled _ => exact ⟨[_], rfl, rfl⟩
  | .error (.refused _) _ | .error .waiting _ => exact ⟨[], rfl, rfl⟩

/-- Settles O19: two phases of at most 100 probes each and one header of at most 23 bytes (`connectRead_probesThenFills`); the ends of
`connect` send nothing. -/
theorem connectSends : Obligations.ConnectSends := by
  intro s t h
  rw [exec_eq] at h
  cases h
  obtain ⟨evs, probes, fills, htr, hp, hf, hsent⟩ := connect_probesThenFills s.idle
  obtain ⟨last, hlast, hnone⟩ := finish_sends_nothing .connect s (bodyOf .connect s.idle)
  refine ⟨last ++ evs, probes, fills, ?_, hp, hf, ?_⟩
  · rw [hlast, List.append_assoc]
    exact congrArg (last ++ ·) htr
  · rw [List.reverse_append, sentOf_append, hnone, List.append_nil]
    exact hsent

end Sys2Proof.Machine

/-!
PROOFS of the statements of 41_registry_sizes.md. `detect` ends as what it finds in the session registers says (`detect_eq`), and what
it finds is read off the two tables of R201 and R205 (`cartVariant`, `romBanks`).
-/

namespace Sys2Proof.Machine

/-! ### The two tables (R201, R205 to R212) -/

/-- A code that no row of the table lists has no variant (R201). -/
theorem cartVariant_eq_none_iff {table : List (Byte × Variant)} {code : Byte} :
    cartVariant table code = none ↔ ∀ row ∈ table, row.1 ≠ code := by
  simp [cartVariant]

/-- R205, R206: the bank count of a listed ROM size code. -/
theorem romBanks_of_listed {code : Byte} (h : code.toNat < 8 ∨ code ∈ [0x52, 0x53, 0x54]) :
    romBanks code = some (if code = 0x52 then 72 else if code = 0x53 then 80 else if code = 0x54 then 96 else 2 * 2 ^ code.toNat) := by
  rcases h with hlt | hmem
  · have hne : ∀ c : Byte, 8 ≤ c.toNat → code ≠ c := by
      rintro _ hc rfl
      exact absurd hlt (Nat.not_lt.2 hc)
    rw [romBanks, if_pos hlt, Nat.shiftLeft_eq, if_neg (hne 0x52 (by decide)), if_neg (hne 0x53 (by decide)),
      if_neg (hne 0x54 (by decide))]
  · simp only [List.mem_cons, List.not_mem_nil, or_false] at hmem
    rcases hmem with rfl | rfl | rfl <;> rfl

/-- R207: every other code has no bank count. -/
theorem romBanks_of_unlisted {code : Byte} (h8 : 8 ≤ code.toNat) (h : code ∉ [0x52, 0x53, 0x54]) : romBanks code = none := by
  simp only [List.mem_cons, List.not_mem_nil, or_false, not_or] at h
  obtain ⟨h52, h53, h54⟩ := h
  rw [romBanks, if_neg (Nat.not_lt.2 h8), if_neg h52, if_neg h53, if_neg h54]

/-- R208 to R212: the three overrides before the table of RAM sizes. -/
theorem ramSize_eq (v : Variant) (code : Byte) :
    ramSize v code = if v = .mbc2 ∨ v = .mbc7 then 256 else if v = .tama5 then 32 else ramSizeTable code := by
  cases v <;> rfl

/-! ### What `detect` finds, and its end -/

section

variable {cfg : Params} {h : Header} {v : Variant}

theorem detectFinds_of_unknownType (hv : cartVariant cfg.cartTypeMap h.cartType = none) :
    detectFinds cfg true (some h) = .error (.unsupportedCartridge, .cartType h.cartType) := by
  simp only [detectFinds, hv]

theorem detectFinds_of_unknownSize (hv : cartVariant cfg.cartTypeMap h.cartType = some v) (hb : romBanks h.romSizeCode = none) :
    detectFinds cfg true (some h) = .error (.unsupportedCartridge, .romSizeCode h.romSizeCode) := by
  simp only [detectFinds, hv, hb]

theorem detectFinds_of_known {banks : Nat} (hv : cartVariant cfg.cartTypeMap h.cartType = some v)
    (hb : romBanks h.romSizeCode = some banks) :
    detectFinds cfg true (some h) = .ok (newController v banks (ramSize v h.ramSizeCode)) := by
  simp only [detectFinds, hv, hb]

end

/-- `detect` ends with the controller that it finds and has asked nothing of the link (R200). -/
theorem exec_detect_completes {s : State} {c : Controller} (h : detectFinds s.cfg s.connected s.header = .ok c) :
    exec .detect s = .next { s.completes .detect [] none none (.variant c.variant) with ctrl := some c } := by
  have hb : bodyOf .detect s.idle = detectEnd s.idle (.ok c) := (detect_eq s.idle).trans (congrArg (detectEnd s.idle) h)
  rw [exec_eq, hb, State.completes, State.plays_nil, State.shadows_none]
  rfl

/-- `detect` ends with the error of the first check that fails, and leaves the controller (R202, R435). -/
theorem exec_detect_raises {s : State} {k : ErrKind} {info : Info} (h : detectFinds s.cfg s.connected s.header = .error (k, info)) :
    exec .detect s = .next (s.raiseError (.selector 0x10FF) k info) :=
  (exec_body .detect s).trans (runOp_raises ((detect_eq s.idle).trans (congrArg (detectEnd s.idle) h)))

/-- Settles O41: the row that `find?` gives is the variant of `cartVariant`, and the two sizes are those of `romBanks_of_listed` and
`ramSize_eq`. -/
theorem detectCompletes : Obligations.DetectCompletes := by
  intro s h v hn hh hrow hcode
  have hv : cartVariant s.cfg.cartTypeMap h.cartType = some v := by rw [cartVariant, hrow]; rfl
  have hfinds := detectFinds_of_known hv (romBanks_of_listed hcode)
  rw [← hn, ← hh] at hfinds
  rw [exec_detect_completes hfinds, newController, ramSize_eq, ramSizeTable]
  simp only [apply_ite (BitVec.ofNat 32)]
  rfl

/-- Settles O42: the type code is looked up first (`detectFinds_of_unknownType`), the ROM size code after it
(`detectFinds_of_unknownSize`). -/
theorem detectFails : Obligations.DetectFails := by
  intro s h hn hh
  refine ⟨fun hrow => exec_detect_raises ?_, fun ⟨row, hmem, hrow⟩ h8 hlist => exec_detect_raises ?_⟩ <;> rw [hn, hh]
  · exact detectFinds_of_unknownType (cartVariant_eq_none_iff.2 hrow)
  · have hknown : cartVariant s.cfg.cartTypeMap h.cartType ≠ none := fun hnone => cartVariant_eq_none_iff.1 hnone row hmem hrow
    obtain ⟨v, hv⟩ := Option.ne_none_iff_exists'.1 hknown
    exact detectFinds_of_unknownSize hv (romBanks_of_unlisted h8 hlist)

end Sys2Proof.Machine

/-!
PROOFS of the statements of 42_bank_select.md. The nine rows of an operation share one body (`bodyOf_selectRomOf`,
`bodyOf_selectRamOf`, `bodyOf_enableRamOf`), which runs its script on a session that the variant drives (`runOp_drives`). An operation
without a frame ends in its shadow, whatever is pending (`runOp_frameless`).
-/

namespace Sys2Proof.Machine

/-! ### One body for the nine rows (R130) -/

theorem bodyOf_selectRomOf (v : Variant) (n : Nat) :
    bodyOf (selectRomOf v n) = withController v .selectRomBank fun _ => do selectRomBank v n; return .unit := by
  cases v <;> rfl

theorem bodyOf_selectRamOf (v : Variant) (n : Nat) :
    bodyOf (selectRamOf v n) = withController v .selectRamBank fun _ => do selectRamBank v n; return .unit := by
  cases v <;> rfl

theorem bodyOf_enableRamOf (v : Variant) :
    bodyOf (enableRamOf v) = withController v .enableRam fun _ => do enableRam v; return .unit := by
  cases v <;> rfl

/-! ### Bank selection and RAM enable (R230 to R251, R395) -/

/-- Settles O43: the shared body runs the variant's writes (`selectRomBank_runs`), within the bank range of its check. -/
theorem selectRomBankCompletes : Obligations.SelectRomBankCompletes := by
  intro s v n polls hd hn hu hs
  rw [← maxRomBank_eq] at hn
  rw [exec_body, bodyOf_selectRomOf]
  exact runOp_drives hd hs fun _ _ => (selectRomBank_runs hn hu).unit

/-- Settles O44: the shared body runs the variant's writes (`selectRamBank_runs`). -/
theorem selectRamBankCompletes : Obligations.SelectRamBankCompletes := by
  intro s v n hd hn hs
  rw [exec_body, bodyOf_selectRamOf]
  exact runOp_drives hd hs fun _ _ => (selectRamBank_runs hn).unit

/-- Settles O45: the shared body runs the writes of the table's row (`enableRam_runs`). -/
theorem enableRamCompletes : Obligations.EnableRamCompletes := by
  intro s v hd hs
  rw [exec_body, bodyOf_enableRamOf]
  exact runOp_drives hd hs fun _ _ => (enableRam_runs v).unit

/-! ### Selects without a frame (R230, R242, R441) -/

theorem setRomShadow_eq (n : Nat) (s : State) : setRomShadow n s = .ok () (s.shadows (some n) none) := rfl

theorem setRamShadow_eq (n : Nat) (s : State) : setRamShadow n s = .ok () (s.shadows none (some n)) := rfl

theorem selectRomBase_eq {n : Nat} (h : n ≤ 0xFF) (s : State) : selectRomBase n s = .ok () (s.shadows (some n) none) :=
  (bind_ok (checkRange_of_le h s)).trans (setRomShadow_eq n s)

theorem selectRamNone_eq {n : Nat} (h : n ≤ 0xFF) (s : State) : selectRamNone n s = .ok () (s.shadows none (some n)) :=
  (bind_ok (checkRange_of_le h s)).trans (setRamShadow_eq n s)

/-- A controller operation that only writes shadows completes in every state that its variant drives; unlike `runOp_drives`, with
nothing asked of the link or of the cancellation request. -/
theorem runOp_frameless {i : Instr} {v : Variant} {op : OpName} {p : Proc Unit} {rom ram : Option Nat} {s : State} (hd : s.Drives v)
    (h : p s.idle = .ok () (s.idle.shadows rom ram)) :
    runOp i (withController v op fun _ => do p; return .unit) s = .next (s.completes i [] rom ram .unit) := by
  obtain ⟨c, hc, hv, hn⟩ := hd.controller
  have hb : (do p; return .unit : Proc Value) s.idle = .ok .unit (s.idle.shadows rom ram) := bind_ok h
  rw [runOp_controller hc hv hn, runOp_eq, hb, State.completes, State.plays_nil, finish]

/-- Settles O29: each of the three bodies is a range check and the write of a shadow (`selectRomBase_eq`, `selectRamNone_eq`). -/
theorem framelessSelects : Obligations.FramelessSelects := fun s _ h =>
  ⟨fun hd => runOp_frameless hd (selectRomBase_eq h s.idle), fun hd => runOp_frameless hd (selectRamNone_eq h s.idle),
    fun hd => runOp_frameless hd (selectRamNone_eq h s.idle)⟩

end Sys2Proof.Machine

/-!
PROOFS of the statements of 43_dump_restore.md. A dump or a restore completes as the procedure that its variants share runs
(`runOp_controller_completes`). That `dump_rom` returns the ROM of the reference device is shown frame by frame: what the device serves
of a script (`RefDev.Serves`), which banks its windows show after a select, and so that it answers the script of the dump.
-/

namespace Sys2Proof.Machine

/-! ### How an operation on a known controller ends -/

section

variable {i : Instr} {v : Variant} {op : OpName} {body : Controller → Proc Value} {s : State} {c : Controller} {x : Value}

/-- `runOp_drives` where the body looks at the controller. -/
theorem runOp_controller_completes {cs : Script} {rom ram : Option Nat} (hn : s.connected = true) (hc : s.ctrl = some c)
    (hv : c.variant = v) (hs : s.Answers cs) (h : Runs s.cfg true (body c) cs rom ram x) :
    runOp i (withController v op body) s = .next (s.completes i cs rom ram x) := by
  refine runOp_drives (.of_controller hn hc hv) hs fun d hd => ?_
  cases hc.symm.trans hd
  exact h

/-- A body that leaves the state alone completes with nothing asked of the link or of the cancellation request. -/
theorem runOp_controller_returns (hn : s.connected = true) (hc : s.ctrl = some c) (hv : c.variant = v)
    (h : body c s.idle = .ok x s.idle) : runOp i (withController v op body) s = .next (s.completes i [] none none x) := by
  rw [runOp_controller hc hv hn, runOp_eq, h, State.completes, State.plays_nil, State.shadows_none, finish]

end

/-- Settles O27: each of the nine bodies begins with the check of the image's length. -/
theorem imagesOfAnotherLength : Obligations.ImagesOfAnotherLength := by
  intro s c v image hn hc hv hlen
  rw [exec_body]
  cases v with
  | base | mbc1 | mbc2 | mbc3 | mbc5 | mbc6 | mbc7 | camera | tama5 =>
    exact runOp_refuses ((withController_of_drives (s := s.idle) hc hv hn _ _).trans
      (bind_error (bind_error (refuseIf_of_true (decide_eq_true hlen) _ _))))

/-! ### dump_rom (R270 to R274) -/

/-- The bank that a dump of banks 1 to `n` selects last. -/
theorem lastBank_one (n : Nat) : lastBank 1 n = if n = 0 then none else some n := by
  rw [lastBank, Nat.add_sub_cancel_left]

/-- The RAM shadow that a dump of banks 1 to `n` leaves, on MBC1 only (R231). -/
theorem lastRam_one (v : Variant) (n : Nat) : lastRam v 1 n = if n = 0 ∨ v ≠ .mbc1 then none else some (n / 32) := by
  rw [lastRam, romSelectRam, Nat.add_sub_cancel_left]
  by_cases h0 : n = 0 <;> by_cases hv : v = .mbc1 <;> simp [h0, hv]

/-- Settles O46: the `dump_rom` that the variants share runs its script (`dumpRom_runs`). -/
theorem dumpRomCompletes : Obligations.DumpRomCompletes := by
  intro s c v progress limit polls bank0 banks hn hc hv h6 hcount hmax hu hfit hs
  rw [← maxRomBank_eq] at hmax
  rw [← lastBank_one, ← lastRam_one, exec_body, bodyOf_dumpRom h6]
  obtain ⟨hfit0, hfits⟩ := List.forall_mem_cons.1 hfit
  exact runOp_controller_completes hn hc hv hs
    ((dumpRom_runs hcount hmax (fun n _ _ => dumpWindow_eq v n) hu hfit0 hfits).map Value.bytes)

/-- Settles O47: the blocks of MBC6 run as banks of its own size (`dumpRomMbc6_runs`). -/
theorem dumpRomMbc6Completes : Obligations.DumpRomMbc6Completes := by
  intro s c progress limit blocks hn hc hv hcount hmax hsize hfit hs
  have h := (dumpRomMbc6_runs (progress := progress) hcount.symm hmax hsize hfit).map Value.bytes
  rw [lastBank, Nat.zero_add] at h
  exact runOp_controller_completes hn hc hv hs h

/-! ### dump_ram and restore_ram in windows (R280, R281, R290) -/

/-- The variants with RAM windows share one `dump_ram` (R280). -/
theorem bodyOf_dumpRam {v : Variant} (hv : hasWindows v = true) (limit : Option Nat) :
    bodyOf (dumpRamOf v limit) =
      withController v .dumpRam fun c => do return .bytes (← dumpRamStd v c.ramSizeBytes.toNat limit) := by
  cases v with
  | base | mbc1 | mbc3 | mbc5 | mbc6 | camera => rfl
  | mbc2 | mbc7 | tama5 => cases hv

/-- The bank that `n` windows from the first one on select last. -/
theorem lastRamBank_zero {per n : Nat} (hp : 0 < per) (hn : n ≠ 0) : lastRamBank per 0 n = some ((n - 1) / per) := by
  obtain ⟨m, rfl⟩ := Nat.exists_eq_succ_of_ne_zero hn
  rw [lastRamBank_eq hp m 0 (Nat.zero_mod per), Nat.zero_add, Nat.succ_sub_one]

/-- Settles O48: without RAM the body returns at once, else the `dump_ram` that the variants share runs its script (`dumpRamStd_runs`). -/
theorem dumpRamWindowsCompletes : Obligations.DumpRamWindowsCompletes := by
  intro s c v limit hn hc hv hwin
  rw [exec_body, bodyOf_dumpRam hwin]
  refine ⟨fun h0 => ?_, fun windows hne hsize hbank hmax hfit hs => ?_⟩
  · refine runOp_controller_returns hn hc hv ?_
    rw [h0]
    rfl
  · obtain ⟨hpos, hfour⟩ := windowsPerBank_le hbank
    rw [← lastRamBank_zero hpos (mt List.length_eq_zero_iff.1 hne)]
    exact runOp_controller_completes hn hc hv hs
      ((dumpRamStd_runs (ne_mbc7_of_hasWindows hwin) hpos hfour hsize hne hmax hfit).map Value.bytes)

/-- Settles O50: without RAM the empty image is written at once, else the `restore_ram` that the variants share runs its script
(`restoreRamStd_runs`). -/
theorem restoreRamWindowsCompletes : Obligations.RestoreRamWindowsCompletes := by
  intro s c v hn hc hv hwin
  refine ⟨fun h0 => ?_, fun windows hne hsize hbank hmax hlen hfit hs => ?_⟩
  · rw [exec_body, bodyOf_restoreRam hwin]
    refine runOp_controller_returns hn hc hv ?_
    rw [h0]
    rfl
  · obtain ⟨hpos, hfour⟩ := windowsPerBank_le hbank
    rw [exec_body, bodyOf_restoreRam hwin, ← lastRamBank_zero hpos (mt List.length_eq_zero_iff.1 hne)]
    exact runOp_controller_completes hn hc hv hs
      (restoreRamStd_runs (ne_mbc7_of_hasWindows hwin) hpos hfour hsize hne hmax hlen hfit).unit

/-! ### restore_ram by units (R291, R361, R401) -/

/-- Settles O51: each of the three bodies runs its script (`restoreRamMbc2_runs`, `restoreRamMbc7_runs`, `restoreRamTama5_runs`). -/
theorem restoreRamUnitsComplete : Obligations.RestoreRamUnitsComplete := by
  intro s
  refine ⟨fun cells hd hl hfit hs => ?_, fun words hd hl hfit hs => ?_, fun polls bs hd hu hl hfit hs => ?_⟩
  · exact runOp_drives hd hs fun _ _ => (restoreRamMbc2_runs hl hfit).unit
  · exact runOp_drives hd hs fun _ _ => (restoreRamMbc7_runs hl hfit).unit
  · exact runOp_drives hd hs fun _ _ => (restoreRamTama5_runs hl hu hfit).unit

/-! ### The reference device serves a script (R293) -/

/-- The device answers every exchange of the script with a reply that fits it, and is left as the third operand. -/
inductive RefDev.Serves : RefDev → Script → RefDev → Prop where
  | done (d : RefDev) : RefDev.Serves d [] d
  | report {d e : RefDev} {cs : Script} (k : Nat) (bs : List Byte) (h : RefDev.Serves d cs e) :
      RefDev.Serves d (.report k bs :: cs) e
  | ask {d e : RefDev} {cs : Script} {sent mask value : Byte} {equal : Bool}
      (hr : cueFits mask value equal (d.exchange sent).1 = true) (h : RefDev.Serves (d.exchange sent).2 cs e) :
      RefDev.Serves d (.ask sent mask value equal :: cs) e

namespace RefDev

variable {d e f : RefDev} {cs ds : Script}

theorem Serves.append (h : Serves d cs e) (h' : Serves e ds f) : Serves d (cs ++ ds) f := by
  induction h with
  | done => exact h'
  | report k bs _ ih => exact .report k bs (ih h')
  | ask hr _ ih => exact .ask hr (ih h')

/-- An exchange whose reply is ignored. -/
theorem Serves.free {b : Byte} (h : Serves (d.exchange b).2 cs e) : Serves d (Cue.free b :: cs) e := .ask (cueFits_free _) h

/-- The replies of a device that serves a script answer it. -/
theorem Serves.answers (h : Serves d cs e) (more : List LinkIn) :
    answers cs ((d.replies (askedOf cs)).map (fun b => { reply := b, cancel := false }) ++ more) = true := by
  induction h with
  | done => exact answers_nil _
  | report k bs _ ih => exact ih
  | ask hr _ ih => exact Bool.and_eq_true_iff.2 ⟨hr, ih⟩

theorem serves_report (d : RefDev) (progress : Bool) (k : Nat) (bs : List Byte) : Serves d (reportScript progress k bs) d := by
  cases progress with
  | false => exact .done d
  | true => exact .report k bs (.done d)

/-! ### Frames (R112, R113) -/

/-- The device where a frame may begin. -/
theorem command_eq (h : d.phase = .command) : { d with phase := .command } = d := by
  rw [← h]

/-- A write does not look at the phase. -/
theorem write_setPhase (d : RefDev) (p : RefPhase) (x : Nat) (v : Byte) :
    ({ d with phase := p } : RefDev).write x v = { d.write x v with phase := p } := by
  have hi : ({ d with phase := p } : RefDev).ramIndex x = d.ramIndex x := rfl
  rw [write, write, hi]
  cases d.ramIndex x <;> split_ifs <;> rfl

/-- The last byte of a WRITE frame applies it. -/
theorem operand_write (d : RefDev) (a : U16) (v : Byte) :
    d.operand [0x49, hi8 a, lo8 a, v] = { d.write a.toNat v with phase := .command } := by
  show { d.write (join16 (hi8 a) (lo8 a)).toNat v with phase := .command } = _
  rw [join16_parts]

/-- A WRITE frame applies its write, and leaves the device where a frame may begin. -/
theorem serves_write (h : d.phase = .command) (a : U16) (v : Byte) : Serves d (writeScript a v) (d.write a.toNat v) := by
  have h1 : (d.exchange 0x49).2 = { d with phase := .operands [0x49] } := by simp [exchange, h]
  have h4 : (({ d with phase := .operands [0x49, hi8 a, lo8 a] } : RefDev).exchange v).2 = d.write a.toNat v := by
    refine (operand_write _ a v).trans ?_
    rw [write_setPhase]
    exact (write_setPhase d .command a.toNat v).symm.trans (by rw [command_eq h])
  refine .free ?_
  rw [h1]
  refine .free (.free (.free ?_))
  exact h4 ▸ .done _

/-- The device shows the bytes from an address on. -/
def Shows (d : RefDev) (addr : Nat) (data : List Byte) : Prop := ∀ i b, data[i]? = some b → d.map (addr + i) = b

theorem Shows.tail {addr : Nat} {x : Byte} {xs : List Byte} (h : d.Shows addr (x :: xs)) : d.Shows (addr + 1) xs := by
  intro i b hb
  rw [Nat.add_right_comm]
  exact h (i + 1) b hb

theorem Shows.take {addr : Nat} {data : List Byte} (h : d.Shows addr data) (n : Nat) : d.Shows addr (data.take n) := by
  intro i b hb
  rw [List.getElem?_take] at hb
  split at hb
  · exact h i b hb
  · cases hb

theorem Shows.drop {addr : Nat} {data : List Byte} (h : d.Shows addr data) (n : Nat) : d.Shows (addr + n) (data.drop n) := by
  intro i b hb
  rw [List.getElem?_drop] at hb
  rw [Nat.add_assoc]
  exact h (n + i) b hb

/-- The device before a data phase of `n` bytes. -/
def reading (d : RefDev) (addr n : Nat) : RefDev := { d with phase := if n = 0 then .command else .data addr n }

theorem exchange_reading (d : RefDev) (addr n : Nat) (b : Byte) :
    (d.reading addr (n + 1)).exchange b = (d.map addr, d.reading (addr + 1) n) := by
  cases n <;> rfl

/-- The last operand byte of a READ frame starts its data phase, where it has one. -/
theorem operand_read (d : RefDev) (a n : U16) :
    d.operand [0x59, hi8 a, lo8 a, hi8 n, lo8 n] = d.reading a.toNat n.toNat := by
  show (if (join16 (hi8 n) (lo8 n)).toNat = 0 then { d with phase := .command }
    else { d with phase := .data (join16 (hi8 a) (lo8 a)).toNat (join16 (hi8 n) (lo8 n)).toNat }) = _
  rw [join16_parts, join16_parts, reading]
  split_ifs <;> rfl

/-- A data phase gives the bytes in order. -/
theorem serves_data (fill : Byte) (data : List Byte) : ∀ addr, d.Shows addr data →
    Serves (d.reading addr data.length) (data.map (Cue.gives fill)) { d with phase := .command } := by
  induction data with
  | nil => exact fun _ _ => .done _
  | cons x xs ih =>
    intro addr h
    have e := exchange_reading d addr xs.length fill
    have hx : d.map addr = x := h 0 x rfl
    refine .ask ?_ ?_ <;> rw [List.length_cons, e]
    · rw [hx, cueFits, decide_eq_true rfl]
      rfl
    · exact ih (addr + 1) h.tail

/-- A READ frame gives the bytes that the device shows, and leaves the device as it was. -/
theorem serves_read (h : d.phase = .command) (cfg : Params) {a : U16} {data : List Byte} (hl : data.length ≤ 0xFFFF)
    (hd : d.Shows a.toNat data) : Serves d (readScript cfg a data) d := by
  have h1 : (d.exchange 0x59).2 = { d with phase := .operands [0x59] } := by simp [exchange, h]
  have hdata := serves_data cfg.fillByte data a.toNat hd
  have hlen : (BitVec.ofNat 16 data.length).toNat = data.length := Nat.mod_eq_of_lt (Nat.lt_succ_of_le hl)
  rw [command_eq h, ← hlen] at hdata
  refine .free ?_
  rw [h1]
  refine .free (.free (.free (.free ?_)))
  have h5 : ∀ n : U16, (({ d with phase := .operands [0x59, hi8 a, lo8 a, hi8 n] } : RefDev).exchange (lo8 n)).2 =
      d.reading a.toNat n.toNat := operand_read _ a
  exact (h5 _).symm ▸ hdata

/-! ### Stable reads (R171, R173) -/

/-- Every chunk is read twice from a device that shows it. -/
theorem serves_chunks (h : d.phase = .command) (cfg : Params) : ∀ (n : Nat) (data : List Byte) (addr : Nat),
    addr + 0x800 * n ≤ 0x10000 → d.Shows addr data → Serves d (ecScript cfg addr ((cutChunks n data).map fun c => [c, c])) d
  | 0, _, _, _, _ => .done d
  | n + 1, [], _, _, _ => .done d
  | n + 1, x :: xs, addr, hend, hd => by
    have haddr : (BitVec.ofNat 16 addr).toNat = addr := Nat.mod_eq_of_lt (by omega)
    have hchunk : Serves d (readScript cfg (BitVec.ofNat 16 addr) ((x :: xs).take 0x800)) d :=
      serves_read h cfg (by rw [List.length_take]; omega) (by rw [haddr]; exact hd.take _)
    have hrest := serves_chunks h cfg n ((x :: xs).drop 0x800) (addr + 0x800) (by omega) (hd.drop _)
    exact (hchunk.append (hchunk.append (.done d))).append hrest

/-- A device that shows the data is read as `stableReads` says. -/
theorem serves_stableReads (h : d.phase = .command) (cfg : Params) {data : List Byte} {addr : Nat}
    (hend : addr + data.length ≤ 0x8000) (hd : d.Shows addr data) : Serves d (ecScript cfg addr (stableReads data)) d := by
  have hn : addr + 0x800 * (data.length / 0x800 + 1) ≤ 0x10000 := by omega
  exact serves_chunks h cfg _ data addr hn hd

/-! ### The windows of the device (R270, R272) -/

/-- The bank that a ROM window shows: the 0x0000 window or the 0x4000 window. -/
def windowBank (d : RefDev) (w : Nat) : Nat := if w = 0 then d.bank0 else d.bankX

/-- A byte of a list of banks of one length is at its place in the image. -/
theorem getElem?_flatten_of_length {n : Nat} {banks : List (List Byte)} (hlen : ∀ b ∈ banks, b.length = n) {k i : Nat} {b : List Byte}
    {x : Byte} (hb : banks[k]? = some b) (hx : b[i]? = some x) : banks.flatten[k * n + i]? = some x := by
  induction banks generalizing k with
  | nil => cases hb
  | cons a banks ih =>
    rw [List.flatten_cons]
    cases k with
    | zero =>
      cases hb
      rw [Nat.zero_mul, Nat.zero_add, List.getElem?_append_left (List.getElem?_eq_some_iff.1 hx).1, hx]
    | succ k =>
      have ha : a.length = n := hlen a List.mem_cons_self
      have hi : (k + 1) * n + i = a.length + (k * n + i) := by rw [ha, Nat.succ_mul]; omega
      rw [hi, List.getElem?_append_right (Nat.le_add_right _ _), Nat.add_sub_cancel_left]
      exact ih (fun b h => hlen b (List.mem_cons_of_mem _ h)) hb

/-- A ROM window shows the bank that its registers select. -/
theorem shows_bank {banks : List (List Byte)} (hrom : d.rom = banks.flatten) (hlen : ∀ b ∈ banks, b.length = 0x4000) {k w : Nat}
    (hw : w = 0 ∨ w = 0x4000) (hk : d.windowBank w = k) {b : List Byte} (hb : banks[k]? = some b) : d.Shows w b := by
  intro i x hx
  have hi : i < 0x4000 := hlen b (List.mem_of_getElem? hb) ▸ (List.getElem?_eq_some_iff.1 hx).1
  have hbyte := getElem?_flatten_of_length hlen hb hx
  rw [← hrom] at hbyte
  have hread : d.rom.getD ((k * 0x4000 + i) % d.rom.length) 0 = x := by
    rw [Nat.mod_eq_of_lt (List.getElem?_eq_some_iff.1 hbyte).1, List.getD_eq_getElem?_getD, hbyte, Option.getD_some]
  subst hk
  rcases hw with rfl | rfl
  · rw [map, Nat.zero_add, if_pos hi]
    exact hread
  · rw [map, if_neg (by omega), if_pos (by omega), Nat.add_sub_cancel_left]
    exact hread

/-! ### The selects of a dump (R230 to R233) -/

/-- The last bank that the device of a variant is read to (V30); the variants that D37 does not cover have none after bank 0. -/
def lastServed : Variant → Nat
  | .base => 1
  | .mbc1 => 127
  | .mbc2 => 15
  | .mbc3 => 255
  | .mbc5 => 255
  | _ => 0

/-- The device of a variant with a ROM, where a frame may begin. -/
structure Ready (d : RefDev) (v : Variant) (rom : List Byte) : Prop where
  variant : d.variant = v
  rom : d.rom = rom
  phase : d.phase = .command

section

variable {v : Variant} {rom : List Byte}

theorem Ready.registers (h : d.Ready v rom) (lo hi mode : Nat) : Ready { d with lo := lo, hi := hi, mode := mode } v rom :=
  ⟨h.variant, h.rom, h.phase⟩

/-- The low bank register (R231 to R233). -/
theorem Ready.serves_low (h : d.Ready v rom) (b : Byte) : Serves d (writeScript 0x2100 b) { d with lo := lowBank v b } :=
  h.variant ▸ serves_write h.phase 0x2100 b

/-- The high bank register of MBC1 (R231). -/
theorem Ready.serves_high_mbc1 (h : d.Ready .mbc1 rom) (b : Byte) :
    Serves d (writeScript 0x4000 b) { d with hi := b.toNat % 4 } := by
  have hw : d.write (0x4000#16).toNat b = { d with hi := b.toNat % 4 } := if_pos h.variant
  exact hw ▸ serves_write h.phase 0x4000 b

/-- The mode register of MBC1 (R231). -/
theorem Ready.serves_mode_mbc1 (h : d.Ready .mbc1 rom) (b : Byte) :
    Serves d (writeScript 0x6000 b) { d with mode := b.toNat % 2 } := by
  have hw : d.write (0x6000#16).toNat b = { d with mode := b.toNat % 2 } := if_pos h.variant
  exact hw ▸ serves_write h.phase 0x6000 b

/-- The high bank register of MBC5 (R233). -/
theorem Ready.serves_high_mbc5 (h : d.Ready .mbc5 rom) (b : Byte) :
    Serves d (writeScript 0x3000 b) { d with hi := b.toNat % 2 } := by
  have hw : d.write (0x3000#16).toNat b = { d with hi := b.toNat % 2 } := if_pos h.variant
  exact hw ▸ serves_write h.phase 0x3000 b

end

/-- A byte's low bits hold a number below their bound. -/
theorem toNat_ofNat_mod {k m : Nat} (hm : m ≤ 256) (hk : k < m) : (BitVec.ofNat 8 k).toNat % m = k := by
  rw [BitVec.toNat_ofNat, Nat.mod_eq_of_lt (Nat.lt_of_lt_of_le hk hm), Nat.mod_eq_of_lt hk]

/-- In mode 1 MBC1 shows every bank: a multiple of 0x20 in the 0x0000 window (R272), any other in the 0x4000 window. -/
theorem windowBank_mbc1 (hv : d.variant = .mbc1) (hmode : d.mode = 1) {k : Nat} (hlo : d.lo = k % 32) (hhi : d.hi = k / 32) :
    d.windowBank (romWindow .mbc1 k) = k := by
  by_cases hk : k % 32 = 0
  · have hw : d.windowBank (romWindow .mbc1 k) = k / 32 * 32 := by simp [windowBank, romWindow, bank0, hv, hmode, hhi, hk]
    omega
  · have hw : d.windowBank (romWindow .mbc1 k) = k / 32 * 32 + k % 32 := by
      simp [windowBank, romWindow, bankX, hv, hlo, hhi, hk]
    omega

/-- After the select of bank `k` its window shows it. -/
theorem serves_select {cfg : Params} (hmode : cfg.mbc1ModeValue &&& 0x01 = 1) {v : Variant} {rom : List Byte} (h : d.Ready v rom)
    {k : Nat} (h1 : 1 ≤ k) (hk : k ≤ lastServed v) :
    ∃ e, Serves d (romSelectScript cfg v [] k) e ∧ e.Ready v rom ∧ e.windowBank (romWindow v k) = k := by
  have hk0 : k ≠ 0 := Nat.ne_of_gt h1
  cases v with
  | base =>
    obtain rfl : k = 1 := Nat.le_antisymm hk h1
    exact ⟨d, .done d, h, by simp [windowBank, romWindow, bankX, h.variant]⟩
  | mbc1 =>
    have hlo : lowBank .mbc1 (BitVec.ofNat 8 (k % 32)) = k % 32 := toNat_ofNat_mod (by decide) (Nat.mod_lt k (by decide))
    have hhi : (BitVec.ofNat 8 (k / 32)).toNat % 4 = k / 32 :=
      toNat_ofNat_mod (by decide) (Nat.div_lt_of_lt_mul (Nat.lt_succ_of_le hk))
    have hodd : cfg.mbc1ModeValue.toNat % 2 = 1 := (Nat.and_one_is_mod _).symm.trans (congrArg BitVec.toNat hmode)
    have s1 := h.serves_low (BitVec.ofNat 8 (k % 32))
    have s2 := (h.registers (k % 32) d.hi d.mode).serves_high_mbc1 (BitVec.ofNat 8 (k / 32))
    have s3 := (h.registers (k % 32) (k / 32) d.mode).serves_mode_mbc1 cfg.mbc1ModeValue
    rw [hlo] at s1
    rw [hhi] at s2
    rw [hodd] at s3
    have hr := h.registers (k % 32) (k / 32) 1
    exact ⟨_, (s1.append s2).append s3, hr, windowBank_mbc1 hr.variant rfl rfl rfl⟩
  | mbc2 =>
    have hlo : lowBank .mbc2 (BitVec.ofNat 8 k) = k := toNat_ofNat_mod (by decide) (Nat.lt_succ_of_le hk)
    have s1 := h.serves_low (BitVec.ofNat 8 k)
    rw [hlo] at s1
    exact ⟨_, s1, h.registers _ _ _, by simp [windowBank, romWindow, bankX, h.variant, hk0]⟩
  | mbc3 =>
    have hlo : lowBank .mbc3 (BitVec.ofNat 8 k) = k := Nat.mod_eq_of_lt (Nat.lt_succ_of_le hk)
    have s1 := h.serves_low (BitVec.ofNat 8 k)
    rw [hlo] at s1
    exact ⟨_, s1, h.registers _ _ _, by simp [windowBank, romWindow, bankX, h.variant, hk0]⟩
  | mbc5 =>
    have hlt : k < 256 := Nat.lt_succ_of_le hk
    have hlo : lowBank .mbc5 (BitVec.ofNat 8 (k % 256)) = k := by
      rw [Nat.mod_eq_of_lt hlt]
      exact Nat.mod_eq_of_lt hlt
    have hhi : (BitVec.ofNat 8 (k / 256)).toNat % 2 = 0 := by
      rw [Nat.div_eq_of_lt hlt]
      rfl
    have s1 := h.serves_low (BitVec.ofNat 8 (k % 256))
    have s2 := (h.registers k d.hi d.mode).serves_high_mbc5 (BitVec.ofNat 8 (k / 256))
    rw [hlo] at s1
    rw [hhi] at s2
    exact ⟨_, s1.append s2, h.registers _ _ _, by simp [windowBank, romWindow, bankX, h.variant]⟩
  | mbc6 | mbc7 | camera | tama5 => exact absurd (Nat.le_trans h1 hk) (by decide)

/-! ### The banks of a dump (R270, R272) -/

/-- The banks from number `k` on are served in order. -/
theorem serves_banks {cfg : Params} (hmode : cfg.mbc1ModeValue &&& 0x01 = 1) {v : Variant} (progress : Bool) {image : List (List Byte)}
    (hlen : ∀ b ∈ image, b.length = 0x4000) (hlast : image.length ≤ lastServed v + 1) (banks : List (List Byte)) :
    ∀ (k : Nat) (d : RefDev), 1 ≤ k → image.drop k = banks → d.Ready v image.flatten →
      ∃ e, Serves d (banksScript cfg v [] progress k (banks.map stableReads)) e := by
  induction banks with
  | nil => exact fun _ d _ _ _ => ⟨d, .done d⟩
  | cons b banks ih =>
    intro k d h1 hdrop h
    have hb : image[k]? = some b := by rw [← Nat.add_zero k, ← List.getElem?_drop, hdrop]; rfl
    have hk : k < image.length := (List.getElem?_eq_some_iff.1 hb).1
    have hrest : image.drop (k + 1) = banks := by rw [← List.drop_drop, hdrop]; rfl
    obtain ⟨e, hselect, he, hwindow⟩ := serves_select hmode h h1 (by omega)
    obtain ⟨f, hf⟩ := ih (k + 1) e (Nat.le_succ_of_le h1) hrest he
    have hw : romWindow v k = 0 ∨ romWindow v k = 0x4000 := ite_eq_or_eq _ _ _
    have hread : Serves e (ecScript cfg (romWindow v k) (stableReads b)) e :=
      serves_stableReads he.phase cfg (by rw [hlen b (List.mem_of_getElem? hb)]; omega) (shows_bank he.rom hlen hw hwindow hb)
    exact ⟨f, ((hselect.append hread).append (serves_report e progress k _)).append hf⟩

/-- The device serves the dump of its ROM (V30). -/
theorem serves_dumpRom {cfg : Params} (hmode : cfg.mbc1ModeValue &&& 0x01 = 1) {v : Variant} (progress : Bool) (ram hdr : List Byte)
    {bank0 : List Byte} {banks : List (List Byte)} (hlen : ∀ b ∈ bank0 :: banks, b.length = 0x4000)
    (hlast : banks.length ≤ lastServed v) :
    ∃ e, Serves { RefDev.start v (bank0 :: banks).flatten ram hdr with phase := .command }
      (dumpRomScript cfg v [] progress (stableReads bank0) (banks.map stableReads)) e := by
  have h : Ready { RefDev.start v (bank0 :: banks).flatten ram hdr with phase := .command } v (bank0 :: banks).flatten :=
    ⟨rfl, rfl, rfl⟩
  obtain ⟨e, he⟩ := serves_banks hmode progress hlen (Nat.succ_le_succ hlast) banks 1 _ (Nat.le_refl 1) rfl h
  have hbank : windowBank { RefDev.start v (bank0 :: banks).flatten ram hdr with phase := .command } 0 = 0 := by
    simp [windowBank, RefDev.bank0, start]
  have hread := serves_stableReads h.phase cfg (addr := 0) (by rw [hlen bank0 List.mem_cons_self]; decide)
    (shows_bank h.rom hlen (.inl rfl) hbank (b := bank0) rfl)
  exact ⟨e, (hread.append (serves_report _ progress 0 _)).append he⟩

end RefDev

/-- The bytes of stable reads are the data (R173). -/
theorem ecBytes_cutChunks : ∀ (n : Nat) (data : List Byte), data.length ≤ 0x800 * n →
    ecBytes ((cutChunks n data).map fun c => [c, c]) = data
  | 0, data, h => (List.length_eq_zero_iff.1 (Nat.le_zero.1 h)).symm
  | n + 1, [], _ => rfl
  | n + 1, x :: xs, h => by
    have ih := ecBytes_cutChunks n ((x :: xs).drop 0x800) (by rw [List.length_drop]; omega)
    exact (congrArg ((x :: xs).take 0x800 ++ ·) ih).trans (List.take_append_drop _ _)

theorem ecBytes_stableReads (data : List Byte) : ecBytes (stableReads data) = data :=
  ecBytes_cutChunks _ _ (by omega)

theorem banksBytes_stableReads (banks : List (List Byte)) : banksBytes (banks.map stableReads) = banks.flatten := by
  rw [banksBytes, List.flatMap_map, List.flatMap_def, List.map_congr_left (fun b _ => ecBytes_stableReads b), List.map_id']

/-- Settles O60: the reference device serves the script of the dump (`RefDev.serves_dumpRom`), so its replies answer it, and the dump of
the stable reads is the image (`banksBytes_stableReads`). -/
theorem romDumpIsTheRom : Obligations.RomDumpIsTheRom := by
  intro s c v progress limit ram hdr bank0 banks more hn hc hv hcancel hmode hcount hlen hbanks hlink
  have hlast : banks.length ≤ RefDev.lastServed v := by
    rcases hbanks with ⟨rfl, h⟩ | ⟨rfl, h⟩ | ⟨rfl, h⟩ | ⟨rfl, h⟩ | ⟨rfl, h⟩
    · exact h.le
    all_goals exact h
  have hcovered : v ≠ .mbc6 ∧ v ≠ .tama5 ∧ RefDev.lastServed v ≤ 0xFF := by
    rcases hbanks with ⟨rfl, -⟩ | ⟨rfl, -⟩ | ⟨rfl, -⟩ | ⟨rfl, -⟩ | ⟨rfl, -⟩ <;> decide
  obtain ⟨h6, h5, hmax⟩ := hcovered
  obtain ⟨e, he⟩ := RefDev.serves_dumpRom hmode progress ram hdr hlen hlast
  have hanswers : s.Answers (dumpRomScript s.cfg v [] progress (stableReads bank0) (banks.map stableReads)) :=
    ⟨hcancel, hlink ▸ he.answers more⟩
  have h := dumpRomCompletes s c v progress limit [] (stableReads bank0) (banks.map stableReads) hn hc hv h6
    (by rwa [List.length_map]) (by rw [List.length_map]; split <;> omega) (fun ht => absurd ht h5)
    (fun b hb => ?_) hanswers
  · rwa [List.length_map, ← List.map_cons, banksBytes_stableReads] at h
  · rw [← List.map_cons, List.mem_map] at hb
    obtain ⟨data, hdata, rfl⟩ := hb
    rw [← hlen data hdata]
    exact stableReads_fits data

end Sys2Proof.Machine

/-!
PROOFS of the statements of 44_mbc3_rtc.md. What the two procedures send is said by `latchRtc_runs` and `readRtc_runs`.
-/

namespace Sys2Proof.Machine

/-- Settles O52: each of the two bodies runs its script, behind the checks that a driven session passes (`runOp_drives`). -/
theorem rtcOperationsComplete : Obligations.RtcOperationsComplete := by
  intro s hd
  refine ⟨fun hs => ?_, fun reg limit reads hreg hfit hs => ?_⟩
  · exact runOp_drives hd hs fun _ _ => latchRtc_runs.unit
  · exact runOp_drives hd hs fun _ _ => (readRtc_runs hreg hfit).map Value.byte

end Sys2Proof.Machine

/-!
PROOFS of the statements of 45_mbc7_eeprom.md. What each operation sends to its result is said by its procedure's `_runs` lemma, what
it sends to a poll's bound by its `_raises` lemma. An EEPROM command is one procedure in two rows, the host operation and the frame by
itself, and both end as that procedure does (`exec_hostOrFrame_fails`).
-/

namespace Sys2Proof.Machine

/-! ### The EEPROM operations (R330 to R343) -/

/-- Settles O53: each of the ten bodies runs its script, behind the checks that a driven session passes (`runOp_drives`). -/
theorem eepromOperationsComplete : Obligations.EepromOperationsComplete := by
  intro s hd
  refine ⟨fun bit hbit hs => ?_, fun bit b hbit hs => ?_, fun a w ha hs => ?_, fun a w zeros ha hz hs => ?_,
    fun a zeros ha hz hs => ?_, fun hs => ?_, fun hs => ?_, fun zeros hz hs => ?_, fun w zeros hz hs => ?_, fun zeros hz hs => ?_⟩
  · exact runOp_drives hd hs fun _ _ => (checkRange_runs hbit).then (eeShiftIn_runs _).unit
  · exact runOp_drives hd hs fun _ _ => (checkRange_runs hbit).then
      ((eeShiftInout_runs _ b).map fun b => Value.byte (if b then 1 else 0))
  · exact runOp_drives hd hs fun _ _ => (eepromRead_runs w ha).map Value.word
  · exact runOp_drives hd hs fun _ _ => (eepromWrite_runs w ha hz).unit
  · exact runOp_drives hd hs fun _ _ => (eepromErase_runs ha hz).unit
  · exact runOp_drives hd hs fun _ _ => eepromEwen_runs.unit
  · exact runOp_drives hd hs fun _ _ => eepromEwds_runs.unit
  · exact runOp_drives hd hs fun _ _ => (eepromEral_runs hz).unit
  · exact runOp_drives hd hs fun _ _ => (eepromWral_runs w hz).unit
  · exact runOp_drives hd hs fun _ _ => (eepromWait_runs hz).unit

/-! ### The accelerometer (R350) -/

/-- Settles O54: the body latches and reads its four bytes (`sampleAccel_runs`), each word joined high byte first. -/
theorem sampleAccelCompletes : Obligations.SampleAccelCompletes := by
  intro s limit xl xh yl yh hd hfit hs
  simp only [List.forall_mem_cons] at hfit
  obtain ⟨hxl, hxh, hyl, hyh, -⟩ := hfit
  exact runOp_drives hd hs fun _ _ => (sampleAccel_runs hxl hxh hyl hyh).map fun p => Value.words p.1 p.2

/-! ### Bounded polls (R343, R372, R392, R437) -/

/-- A procedure that raises is the end of both rows that it stands in, as a host operation of MBC7 and as a frame by itself (log 12). -/
theorem exec_hostOrFrame_fails {host frame i : Instr} {op : OpName} {p : Proc Unit} {cs : Script} {k : ErrKind} {info : Info}
    {s : State} (hi : i = host ∨ i = frame) (hv : controllerOf host = some .mbc7)
    (hhost : bodyOf host = withController .mbc7 op fun _ => do p; return .unit) (hframe : bodyOf frame = do p; return .unit)
    (hd : controllerOf i = some .mbc7 → s.Drives .mbc7) (hs : s.Answers cs)
    (h : ∀ conn, Raises s.cfg conn p cs none none k info) : exec i s = .next (s.fails i cs none none k info) := by
  rw [exec_body]
  rcases hi with rfl | rfl
  · rw [hhost]
    exact runOp_drives_fails (hd hv) hs fun _ _ => (h true).first
  · rw [hframe]
    exact runOp_fails (h s.connected).first hs

/-- `dump_rom` of TAMA5 whose unlock for bank `banks.length + 1` fails: the shadow is that of the bank before it (R392, R395). -/
theorem dumpRom_raises_locked {cfg : Params} {count : Nat} {progress : Bool} {limit : Option Nat} {polls locked : List (List Byte)}
    {bank0 : EcReads} {banks : List EcReads} (hcount : banks.length + 1 < count) (hmax : banks.length + 1 ≤ 0xFF)
    (hu : banks ≠ [] → unlockFits cfg none polls = true) (hfit : ∀ b ∈ bank0 :: banks, ecFits cfg limit 0x4000 b = true)
    (hlocked : staysLocked cfg none locked = true) :
    Raises cfg true (dumpRom .tama5 (dumpWindow .tama5) count progress limit)
      (dumpRomScript cfg .tama5 polls progress bank0 banks ++ unlockScript cfg locked)
      (if banks.length = 0 then none else some banks.length) none .deviceTimeout (.polls .tama5Unlock 200) := by
  have h := dumpRom_raises (v := .tama5) (progress := progress) (polls := polls) hcount (Nat.le_of_succ_le hmax)
    (dumpWindow_eq .tama5) (fun _ => hu) hfit fun _ => (selectRomTama5_raises hmax hlocked).first
  rwa [lastRam_one, if_pos (Or.inr (by decide)), lastBank_one, Option.none_or, Option.none_or] at h

/-- Settles O57: each loop of polls raises at its bound, and with it the operation that runs it (`takePhoto_raises`,
`eepromWait_raises` and `tama5Unlock_raises`, each with the lemmas about the operations that call it). -/
theorem pollsTimeOut : Obligations.PollsTimeOut := by
  intro s
  refine ⟨fun limit polls hd hl hp hs => ?_, fun i cs hd hi hs => ?_, fun done w rounds rest image hd hlen himg hfit hl hr hs => ?_,
    fun limit locked hd hlocked => ⟨fun hs => ?_, fun hs => ?_⟩,
    fun locked hd hlocked => ⟨fun n hn hs => ?_, fun image hl hs => ?_,
      fun c progress limit polls bank0 banks hc hcount hmax hu hfit hs => ?_⟩⟩
  · have hbusy : ∀ p ∈ polls, byteOf p &&& 0x01 ≠ 0 := fun p h => by rw [(hp p h).2]; decide
    exact runOp_drives_fails hd hs fun _ _ => (takePhoto_raises hl (List.all_eq_true.2 fun p h => (hp p h).1) hbusy).first
  · rcases hi with ⟨rfl, rfl⟩ | ⟨a, w, ha, hi, rfl⟩ | ⟨a, ha, hi, rfl⟩ | ⟨hi, rfl⟩ | ⟨w, hi, rfl⟩
    · exact runOp_drives_fails (hd rfl) hs fun _ _ => eepromWait_raises.first
    · exact exec_hostOrFrame_fails hi rfl rfl rfl hd hs fun _ => eepromWrite_raises w ha
    · have h : ∀ conn, Raises s.cfg conn (eepromErase a.toNat) _ none none _ _ := fun _ => eepromErase_raises ha
      rw [BitVec.ofNat_toNat, BitVec.setWidth_eq] at h
      exact exec_hostOrFrame_fails hi rfl rfl rfl hd hs h
    · exact exec_hostOrFrame_fails hi rfl rfl rfl hd hs fun _ => eepromEral_raises
    · exact exec_hostOrFrame_fails hi rfl rfl rfl hd hs fun _ => eepromWral_raises w
  · subst himg
    have h := restoreRamMbc7_raises hlen hfit hr (.inr ⟨hl, eepromWrite_raises w (by omega)⟩)
    exact runOp_drives_fails hd hs fun _ _ => h.first
  · exact runOp_drives_fails hd hs fun _ _ => (tama5Unlock_raises hlocked).first
  · exact runOp_drives_fails hd hs fun _ _ => (dumpRamTama5_raises hlocked).first
  · exact runOp_drives_fails hd hs fun _ _ => (selectRomTama5_raises hn hlocked).first
  · exact runOp_drives_fails hd hs fun _ _ => (restoreRamTama5_locked hl hlocked).first
  · obtain ⟨d, hcd, hv, hn⟩ := hd.controller
    cases hc.symm.trans hcd
    exact exec_dumpRom_fails (v := .tama5) hn hc hv (by decide) hs (dumpRom_raises_locked hcount hmax hu hfit hlocked)

end Sys2Proof.Machine

/-!
PROOF of the statement of 46_camera.md. What `take_photo` sends up to a poll that reads bit 0 clear is said by `takePhoto_runs`.
-/

namespace Sys2Proof.Machine

/-- Settles O55: the polls end at their first clear one (`endsAt_append`), which CAMERA_POLL_LIMIT still admits, so the body runs its
script (`takePhoto_runs`), behind the checks that a driven session passes (`runOp_drives`). -/
theorem takePhotoCompletes : Obligations.TakePhotoCompletes := by
  intro s limit busy clear hd hlt hbusy hfit hclear hs
  have hlen : (busy ++ [clear]).length ≤ s.cfg.cameraPollLimit := by
    rw [List.length_append]
    exact hlt
  have hfits : (busy ++ [clear]).all (byteFits s.cfg limit) = true := by
    rw [List.all_append, List.all_eq_true.2 fun p hp => (hbusy p hp).1]
    simp [hfit]
  have hends : endsAt (fun p => decide (byteOf p &&& 0x01 = 0)) (busy ++ [clear]) = true := by
    refine endsAt_append ?_ busy fun p hp => ?_
    · exact decide_eq_true hclear
    · rw [(hbusy p hp).2]
      decide
  exact runOp_drives hd hs fun _ _ => (takePhoto_runs hlen hfits hends).unit

end Sys2Proof.Machine

/-!
PROOF of the statement of 60_exceptions.md. The errors of an operation are those of its body's result (`finish_stop_error`), and the
bodies of all instructions but `connect` and `detect` raise only what `mayRaise` names (`body_ends`).
-/

namespace Sys2Proof.Machine

variable {α : Type}

/-- The kind of the error that an operation raises on this result of its body (R434, R435). -/
def errorOf : EStateM.Result Halt State α → Option ErrKind
  | .error (.raised kind _) _ => some kind
  | .error .cancelled _ => some .cancelled
  | _ => none

@[simp] theorem errorOf_connectEnd (r : EStateM.Result Halt State Header) : errorOf (connectEnd r) = errorOf r := by
  match r with
  | .ok _ _ | .error (.raised _ _) _ | .error .cancelled _ | .error (.refused _) _ | .error .waiting _ => rfl

/-- An operation started in a program that had not stopped can stop it with its body's error only (R435). -/
theorem finish_stop_error {i : Instr} {s : State} {r : EStateM.Result Halt State Value} {op : OpId} {k : ErrKind} {info : Info}
    (hr : (endState r).stop = none) (h : (finish i s r).stop = some (.error op k info)) : op = i.opId ∧ errorOf r = some k := by
  match r with
  | .error (.raised _ _) _ | .error .cancelled _ => cases h; exact ⟨rfl, rfl⟩
  | .error (.refused _) _ => cases h
  | .ok _ _ | .error .waiting _ => cases hr.symm.trans h

/-- A body raises one of its kinds, or is cancelled where the host asked for it (R426). -/
theorem Ends.errorOf_cases {K : ErrKind → Prop} {rom ram : Bool} {s : State} {r : EStateM.Result Halt State α} {k : ErrKind}
    (h : Ends K rom ram s r) (hk : errorOf r = some k) (i : Instr) : K k ∨ mayRaise s i k := by
  match r with
  | .error (.raised _ _) _ => cases hk; exact .inl (h.kinds _ _ _ rfl)
  | .error .cancelled _ => cases hk; exact .inr (h.cancelled _ rfl)
  | .ok _ _ | .error (.refused _) _ | .error .waiting _ => cases hk

theorem connect_mayRaise {s : State} {k : ErrKind} (h : errorOf (connect s) = some k) : mayRaise s .connect k := by
  cases hc : s.connected with
  | true =>
    rw [connect_of_connected hc] at h
    cases h
  | false =>
    rw [connect_eq hc, errorOf_connectEnd] at h
    obtain (rfl | rfl) | hm := (connectRead_ends s).errorOf_cases h .connect
    · exact ⟨nofun, hc⟩
    · exact rfl
    · exact hm

/-- On a session whose header is held iff it is connected (R32), a header that `detect` misses is a session that is not
connected. -/
theorem detectFinds_error {cfg : Params} {connected : Bool} {header : Option Header} {k : ErrKind} {info : Info}
    (hc : connected = header.isSome) (h : detectFinds cfg connected header = .error (k, info)) :
    k = .unsupportedCartridge ∨ (k = .notConnected ∧ connected = false) := by
  subst hc
  cases header with
  | none =>
    cases h
    exact .inr ⟨rfl, rfl⟩
  | some hd =>
    cases hv : cartVariant cfg.cartTypeMap hd.cartType with
    | none =>
      cases (detectFinds_of_unknownType hv).symm.trans h
      exact .inl rfl
    | some v =>
      cases hb : romBanks hd.romSizeCode with
      | none =>
        cases (detectFinds_of_unknownSize hv hb).symm.trans h
        exact .inl rfl
      | some banks => cases (detectFinds_of_known hv hb).symm.trans h

theorem detect_mayRaise {s : State} {k : ErrKind} (hc : s.connected = s.header.isSome) (h : errorOf (detect s) = some k) :
    mayRaise s .detect k := by
  rw [detect_eq] at h
  cases hf : detectFinds s.cfg s.connected s.header with
  | ok c =>
    rw [hf] at h
    cases h
  | error e =>
    obtain ⟨kind, info⟩ := e
    rw [hf] at h
    cases h
    obtain rfl | ⟨rfl, hn⟩ := detectFinds_error hc hf
    · exact rfl
    · exact ⟨nofun, hn⟩

theorem bodyOf_mayRaise (i : Instr) {s : State} {k : ErrKind} (hc : s.connected = s.header.isSome)
    (h : errorOf (bodyOf i s) = some k) : mayRaise s i k := by
  by_cases h1 : i = .connect
  · subst h1
    exact connect_mayRaise h
  · by_cases h2 : i = .detect
    · subst h2
      exact detect_mayRaise hc h
    · exact or_self_iff.1 ((body_ends i h1 h2 s).errorOf_cases h i)

/-- Settles O20: the error is that of the body's result (`finish_stop_error`), which the instruction may raise (`bodyOf_mayRaise`). -/
theorem errorsOnlyWhereNamed : Obligations.ErrorsOnlyWhereNamed := by
  intro i s t op k info hstop hc he ht
  rw [exec_eq] at he
  cases he
  obtain ⟨hop, hk⟩ := finish_stop_error ((bodyOf_bodyEnds i s.idle).stop.trans hstop) ht
  have hm : mayRaise s.idle i k := bodyOf_mayRaise i hc hk
  exact ⟨hop, hm⟩

end Sys2Proof.Machine
